-- ==== Sys2Proof/Word.lean ====
section
/-! DEFINITION. The words of QRCE: 32-bit registers and commands (00_scope.md R6 REGW), 8-bit
codewords, and the bit strings of 00_scope.md R9, bit 0 first. -/

namespace Sys2Proof

/-- A register or a command word (R6: REGW is 32 bits). -/
abbrev Word := BitVec 32

/-- A byte of a buffer, a codeword, an element of GF(256) (R13, R190). -/
abbrev Byte := BitVec 8

/-- A bit string, its bit 0 first (R9). -/
abbrev Bits := List Bool

end Sys2Proof
end

