-- ==== Sys2Proof/Syntax.lean ====
section
/-! DEFINITION. The command set QRCE-v7: one constructor per row of spec/opcode_table.json
(30_encoding.md R103). -/

namespace Sys2Proof

/-- The thirteen commands (30_encoding.md R103). TRIAL carries its mask index, 0 to 7 (R102);
every other operand is a register, read when the command executes (R110). -/
inductive Instr
  | nop
  | encode
  | select
  | pad
  | ecgen
  | interleave
  | build
  | trial (m : Fin 8)
  | commit
  | score
  | runRaw
  | run
  | rsRaw
  deriving DecidableEq, Repr

end Sys2Proof
end

