-- ==== Sys2Proof/Decode.lean ====
section
/-! DEFINITION. Decoding and encoding of command words (30_encoding.md R100 to R107). A command is one
32-bit word written to CMD and is decoded from that word alone (20_memory.md R87), so the decoder is
total on words and rejects by name. The encoder follows. -/

namespace Sys2Proof

/-- Why a word is illegal (30_encoding.md R106). All three complete with `E_ILLEGAL_CMD`. -/
inductive DecodeError
  /-- The RSV bits 31:11 are not all zero. -/
  | reservedBits
  /-- The OPC value is not in rule R103's map. -/
  | unknownOpcode
  /-- MARG is not zero in a format-`C` command. -/
  | maskArgument
  deriving DecidableEq, Repr

/-- OPC, bits 7:0 (R101). -/
def opcField (w : Word) : BitVec 8 := w.extractLsb' 0 8

/-- MARG, bits 10:8 (R101, R102). -/
def margField (w : Word) : BitVec 3 := w.extractLsb' 8 3

/-- RSV, bits 31:11 (R101). -/
def rsvField (w : Word) : BitVec 21 := w.extractLsb' 11 21

/-- A format-`C` command: MARG must be 0 (R101). -/
def formatC (i : Instr) (marg : BitVec 3) : Except DecodeError Instr :=
  if marg = 0#3 then .ok i else .error .maskArgument

/-- Decoding of a command word (R105's test of w, R103's map). -/
def decode (w : Word) : Except DecodeError Instr :=
  if rsvField w ≠ 0#21 then .error .reservedBits
  else
    let marg := margField w
    match (opcField w).toNat with
    | 0x00 => formatC .nop marg
    | 0x01 => formatC .encode marg
    | 0x02 => formatC .select marg
    | 0x03 => formatC .pad marg
    | 0x04 => formatC .ecgen marg
    | 0x05 => formatC .interleave marg
    | 0x06 => formatC .build marg
    | 0x07 => .ok (.trial marg.toFin)
    | 0x08 => formatC .commit marg
    | 0x09 => formatC .score marg
    | 0x0E => formatC .runRaw marg
    | 0x0F => formatC .run marg
    | 0x10 => formatC .rsRaw marg
    | _ => .error .unknownOpcode

/-- The opcode of a command (R103). -/
def opcodeOf : Instr → BitVec 8
  | .nop => 0x00#8
  | .encode => 0x01#8
  | .select => 0x02#8
  | .pad => 0x03#8
  | .ecgen => 0x04#8
  | .interleave => 0x05#8
  | .build => 0x06#8
  | .trial _ => 0x07#8
  | .commit => 0x08#8
  | .score => 0x09#8
  | .runRaw => 0x0E#8
  | .run => 0x0F#8
  | .rsRaw => 0x10#8

/-- The mask argument of a command: the index of TRIAL, 0 in format `C` (R101, R102). -/
def margOf : Instr → BitVec 3
  | .trial m => BitVec.ofFin m
  | _ => 0#3

/-- The word of a command: 21 zeros, MARG, OPC, most significant bit first (R101, R107). -/
def encode (i : Instr) : Word := 0#21 ++ margOf i ++ opcodeOf i

/-- The instruction the decoder reads from the opcode table's bits. A command is one 32-bit word
(R100): bits from `nbits` on, and bits from 32 on, are 0. -/
def decodeTableWord (nbits w : Nat) : Option Instr :=
  match decode (BitVec.ofNat 32 (w % 2 ^ nbits)) with
  | .ok i => some i
  | .error _ => none

end Sys2Proof
end

