-- ==== Sys2Proof/Machine/Bits.lean ====
section
/-! DEFINITION. Bit strings (00_scope.md R9) and the cutting of lists into pieces of one length. -/

namespace Sys2Proof.Machine

/-- `bin(v, w)`: the `w`-bit big-endian binary representation of `v`, most significant bit first (R9). -/
def bin (v : Nat) : Nat → Bits
  | 0 => []
  | w + 1 => v.testBit w :: bin v w

/-- `zeros(n)` (R9). -/
def zeros (n : Nat) : Bits := List.replicate n false

/-- The number a bit string stands for, its first bit the most significant. -/
def bitsToNat (s : Bits) : Nat := s.foldl (fun v b => 2 * v + b.toNat) 0

/-- The first `k` pieces of length `n` of a list, in order; the last may be shorter. -/
def chunks {α : Type} (n : Nat) : Nat → List α → List (List α)
  | 0, _ => []
  | k + 1, l => l.take n :: chunks n k (l.drop n)

/-- One byte of `bytes(s)`: Σ s[t]·2^(7−t) (R9); bits the string does not have are 0 (20_memory.md R80). -/
def byteOfBits (s : Bits) : Byte := BitVec.ofNat 8 (bitsToNat (s ++ zeros (8 - s.length)))

/-- The bytes that hold a bit string, most significant bit first, the last byte filled up with zeros
(R9 `bytes`, 20_memory.md R80). -/
def packBytes (s : Bits) : List Byte := (chunks 8 ((s.length + 7) / 8) s).map byteOfBits

/-- The bits of a byte sequence, most significant bit first within each byte (20_memory.md R80). -/
def unpackBytes (bs : List Byte) : Bits := bs.flatMap fun b => bin b.toNat 8

end Sys2Proof.Machine
end

