-- ==== Sys2Proof/Config.lean ====
section
/-! DEFINITION. What is fixed for the machine: the parameters of 00_scope.md R6, the type of the
constant tables (R7), and the free values, which are constants without a body. -/

namespace Sys2Proof

namespace Config

/-- `VMAX`, the largest version (R6). -/
def vMax : Nat := 40

/-- `SMAX`, the largest matrix side, 17 + 4·40 (R6). -/
def sMax : Nat := 177

/-- `IBUF_SIZE` (R6, 10_state.md R55). -/
def ibufSize : Nat := 8192

/-- `BBUF_SIZE` (R6, 10_state.md R55). -/
def bbufSize : Nat := 8192

/-- `EBUF_SIZE` (R6, 10_state.md R55). -/
def ebufSize : Nat := 4096

/-- `FBUF_SIZE` (R6, 10_state.md R55). -/
def fbufSize : Nat := 4096

/-- `KMIN`, the least generator degree (R6). -/
def kMin : Nat := 7

/-- `KMAX`, the greatest generator degree (R6). -/
def kMax : Nat := 68

/-- The constant of the ID register (10_state.md R21). -/
def idValue : Word := 0x51520007#32

/-- FREE VALUE (log 7, log 11). The byte of the given draw: what the host reads at a byte never written or
while BUSY, and what a memory holds after an abandoned command (10_state.md R57,
70_reset_and_hazards.md R382, R391). -/
opaque freeByte : Nat → Byte

/-- FREE VALUE (log 7). The word of the given draw: what the host reads in a register other than
ID, CTRL and STATUS while BUSY = 1 (70_reset_and_hazards.md R391). -/
opaque freeWord : Nat → Word

/-- FREE VALUE (log 4). `BUSY_TIME`, OPEN (R6, 70_reset_and_hazards.md R395): how many steps of the
environment pass between the acceptance of the given draw's command and its completion. -/
opaque busyTime : Nat → Nat

/-- FREE VALUE (log 12). The table id that ERRINFO names when a lookup of EXP misses; 60_exceptions.md R351
gives EXP none. -/
opaque expTableId : Byte

/-- FREE VALUE (log 12). The table id that ERRINFO names when a lookup of LOG misses; 60_exceptions.md R351
gives LOG none. -/
opaque logTableId : Byte

end Config

/-- `TABLES` (R7): the read-only constant tables, each a partial function whose `none` is a missing
entry. A level is its code, 0 = L, 1 = M, 2 = Q, 3 = H (10_state.md R30). -/
structure Tables where
  /-- `CAP(v, l)`, data capacity in bits (41_capacity_padding.md R166); table id 1. -/
  cap : Nat → Nat → Option Nat
  /-- `NB(v, l)`, number of blocks (42_gf_rs.md R197); table id 2. -/
  nb : Nat → Nat → Option Nat
  /-- `ECB(v, l)`, correction codewords per block (42_gf_rs.md R197); table id 3. -/
  ecb : Nat → Nat → Option Nat
  /-- `GEN(k)`, generator exponents, highest degree first (42_gf_rs.md R194); table id 4. -/
  gen : Nat → Option (List Nat)
  /-- `APOS(v)`, alignment centres (44_matrix_patterns.md R246); table id 5. -/
  apos : Nat → Option (List Nat)
  /-- `VCODE(v)`, version codes (44_matrix_patterns.md R248); table id 6. -/
  vcode : Nat → Option Nat
  /-- `FCODE(l, m)`, format codes (45_placement_mask.md R275); table id 7. -/
  fcode : Nat → Nat → Option Nat
  /-- `EXP(i)`, the antilog table (42_gf_rs.md R190); no table id (log 12). -/
  exp : Nat → Option Byte
  /-- `LOG(b)`, the log table (42_gf_rs.md R190); no table id (log 12). -/
  log : Byte → Option Nat

end Sys2Proof
end

