-- ==== Sys2Proof/Machine/State.lean ====
section
/-! DEFINITION. The state of QRCE as plain data (10_state.md R20), the reasons a step can stop, and the
state after reset (10_state.md R60, 70_reset_and_hazards.md R380). -/

namespace Sys2Proof.Machine

/-- PSTAGE, the pipeline stage (10_state.md R24). Values 9 to 14 never occur. -/
inductive PStage
  | idle
  | encoded
  | selected
  | padded
  | ecDone
  | interleaved
  | patternsPlaced
  | trialing
  | committed
  | failed
  deriving DecidableEq, Repr

/-- ERRCODE's values (60_exceptions.md R350). -/
inductive ErrCode
  | none
  | invalidCharacterSet
  | invalidCorrectionLevel
  | invalidMode
  | dataTooLarge
  | internalTableLookup
  | illegalCmd
  | sequence
  | param
  | lengthField
  deriving DecidableEq, Repr

/-- The width of a host access: 1, 2 or 4 bytes (20_memory.md R71). -/
inductive AccSize
  | byte
  | half
  | word
  deriving DecidableEq, Repr

/-- A bus address (20_memory.md R70): 17 bits, so an access outside QRCE cannot be written (R71). -/
abbrev BusAddr := BitVec 17

/-- One action of the world outside the engine (log 3). `read` and `write` are `MemRead` and `MemWrite`
(20_memory.md R72, R73), `wait` is the polling loop of 30_encoding.md R109, `hardReset` is the reset
input of 70_reset_and_hazards.md R380. -/
inductive HostAction
  | read (a : BusAddr) (n : AccSize)
  | write (a : BusAddr) (n : AccSize) (v : Word)
  | wait
  | hardReset
  deriving DecidableEq, Repr

/-- The response of the bus to an access: OK or ERROR, and the data of a read (20_memory.md R71); a
write's data is 0. -/
structure BusResponse where
  ok : Bool
  data : Word
  deriving DecidableEq, Repr

/-- The penalty breakdown registers P_R1ROW .. P_TOTAL (10_state.md R52). -/
structure Penalty where
  r1row : Word
  r1col : Word
  r2 : Word
  r3row : Word
  r3col : Word
  r4 : Word
  total : Word
  deriving DecidableEq, Repr

/-- The reasons a step stops with a fault. -/
inductive Fault
  /-- `UNWRITTEN_READ` (10_state.md R57, 60_exceptions.md R358): the engine, performing the command,
  reads a byte or cell never written since reset. Raised by every command that reads a buffer or MAT.
  Safe: the chip reads some value and goes on (log 8, log 9). -/
  | unwrittenRead (cmd : Instr) (addr : Nat)
  /-- The engine, performing the command, would go past the end of a memory; the address is the first
  one past it. Raised by the engine's buffer and matrix accesses, in no state that a run reaches (log
  10). Safe. -/
  | outsideMemory (cmd : Instr) (addr : Nat)
  deriving DecidableEq, Repr

/-- The reasons an instruction has no meaning. -/
inductive Refusal
  /-- An instruction without a meaning in this model, by its mnemonic; raised by `exec` alone. Safe. No
  arm of `exec` raises it: every command has its meaning. -/
  | notModelled (mnemonic : String)
  deriving DecidableEq, Repr

/-- The state of QRCE (10_state.md R20). The fields from `host` on are the model's own (log 3, 4, 6). -/
structure State where
  /-- CTRL.IRQ_EN (R22). -/
  irqEn : Bool
  /-- STATUS.DONE (R23). -/
  done : Bool
  /-- STATUS.ERR (R23). -/
  err : Bool
  /-- STATUS.CMD_DROPPED (R23). -/
  cmdDropped : Bool
  /-- STATUS.PSTAGE (R24). -/
  pstage : PStage
  /-- STATUS.TRIAL_DONE (R25). -/
  trialDone : BitVec 8
  /-- ERRCODE (R27). -/
  errCode : ErrCode
  /-- ERRINFO (R28). -/
  errInfo : Word
  /-- MODE (R29). -/
  mode : BitVec 3
  /-- ECL (R30). -/
  ecl : BitVec 3
  /-- IN_LEN (R31). -/
  inLen : BitVec 14
  /-- CHAR_COUNT (R32). -/
  charCount : BitVec 16
  /-- RAW_LEN (R33). -/
  rawLen : BitVec 17
  /-- VERSION (R34). -/
  version : BitVec 6
  /-- SEL_LEVEL (R35). -/
  selLevel : BitVec 2
  /-- SIZE (R36). -/
  size : BitVec 8
  /-- CAP_BITS (R37). -/
  capBits : BitVec 16
  /-- STREAM_LEN (R38). -/
  streamLen : BitVec 17
  /-- NUM_BLOCKS (R39). -/
  numBlocks : BitVec 8
  /-- EC_LEN (R40). -/
  ecLen : BitVec 7
  /-- BLK_SHORT (R41). -/
  blkShort : BitVec 8
  /-- BLK_NLONG (R42). -/
  blkNlong : BitVec 8
  /-- TOTAL_CW (R43). -/
  totalCw : BitVec 12
  /-- FREE_CELLS (R44). -/
  freeCells : BitVec 16
  /-- PLACED_BITS (R45). -/
  placedBits : BitVec 16
  /-- BEST_MASK (R46). -/
  bestMask : BitVec 3
  /-- BEST_SCORE (R47). -/
  bestScore : Word
  /-- SCORE_N (R48). -/
  scoreN : BitVec 8
  /-- RS_K (R49). -/
  rsK : BitVec 7
  /-- RS_LEN (R50). -/
  rsLen : BitVec 14
  /-- SCORE0 .. SCORE7 (R51). -/
  scores : Vector Word 8
  /-- P_R1ROW .. P_TOTAL (R52). -/
  penalty : Penalty
  /-- PENDING, the command word accepted and not yet completed (R58). -/
  pending : Option Word
  /-- IBUF, BBUF, EBUF, FBUF and MAT (R55, R56): (bus address, byte) pairs, addresses strictly rising;
  an address that is not listed has its written flag clear (R57, log 8). -/
  mem : List Host.Cell
  /-- The coming actions of the host and the platform, the next one first (log 3). -/
  host : List HostAction
  /-- The response to the last host access (log 3). -/
  resp : Option BusResponse
  /-- The steps the environment still takes before the running command completes (log 4). -/
  hold : Nat
  /-- The index of the next free value (log 6). -/
  draws : Nat
  deriving DecidableEq, Repr

/-- The machine right after a hardware reset (10_state.md R60, 70_reset_and_hazards.md R380): every
register 0, PENDING empty, every written flag clear. ID is a constant and has no field (R21). The
model's own fields are empty or 0 (log 3, 4, 6). -/
def State.reset : State where
  irqEn := false
  done := false
  err := false
  cmdDropped := false
  pstage := .idle
  trialDone := 0#8
  errCode := .none
  errInfo := 0#32
  mode := 0#3
  ecl := 0#3
  inLen := 0#14
  charCount := 0#16
  rawLen := 0#17
  version := 0#6
  selLevel := 0#2
  size := 0#8
  capBits := 0#16
  streamLen := 0#17
  numBlocks := 0#8
  ecLen := 0#7
  blkShort := 0#8
  blkNlong := 0#8
  totalCw := 0#12
  freeCells := 0#16
  placedBits := 0#16
  bestMask := 0#3
  bestScore := 0#32
  scoreN := 0#8
  rsK := 0#7
  rsLen := 0#14
  scores := Vector.replicate 8 0#32
  penalty := ⟨0#32, 0#32, 0#32, 0#32, 0#32, 0#32, 0#32⟩
  pending := none
  mem := []
  host := []
  resp := none
  hold := 0
  draws := 0

end Sys2Proof.Machine
end

