-- ==== Sys2Proof/Machine/Flags.lean ====
section
/-! DEFINITION. The status register and what is computed from it: the codes of its fields
(10_state.md R23 to R25), the write-one-to-clear rule (R23), ERRCODE's codes (60_exceptions.md R350)
and the interrupt output (60_exceptions.md R360). -/

namespace Sys2Proof.Machine

/-- The 4-bit code of a stage (R24). -/
def PStage.code : PStage → BitVec 4
  | .idle => 0#4
  | .encoded => 1#4
  | .selected => 2#4
  | .padded => 3#4
  | .ecDone => 4#4
  | .interleaved => 5#4
  | .patternsPlaced => 6#4
  | .trialing => 7#4
  | .committed => 8#4
  | .failed => 15#4

/-- The 8-bit error code (60_exceptions.md R350). -/
def ErrCode.code : ErrCode → BitVec 8
  | .none => 0x00#8
  | .invalidCharacterSet => 0x01#8
  | .invalidCorrectionLevel => 0x02#8
  | .invalidMode => 0x03#8
  | .dataTooLarge => 0x04#8
  | .internalTableLookup => 0x05#8
  | .illegalCmd => 0x10#8
  | .sequence => 0x11#8
  | .param => 0x12#8
  | .lengthField => 0x13#8

/-- STATUS.BUSY: 1 while a command is accepted and not completed (R23, R58), that is while PENDING holds
a word (log 2). -/
def State.busy (s : State) : Bool := s.pending.isSome

/-- CTRL as it reads (R22): SRST and the reserved bits read 0. -/
def State.ctrlWord (s : State) : Word := 0#31 ++ BitVec.ofBool s.irqEn

/-- STATUS as it reads (R23), most significant field first: reserved, TRIAL_DONE, reserved, PSTAGE,
reserved, CMD_DROPPED, ERR, DONE, BUSY. -/
def State.statusWord (s : State) : Word :=
  0#8 ++ s.trialDone ++ 0#4 ++ s.pstage.code ++ 0#4 ++ BitVec.ofBool s.cmdDropped
    ++ BitVec.ofBool s.err ++ BitVec.ofBool s.done ++ BitVec.ofBool s.busy

/-- A write-one-to-clear bit after a write: cleared by a 1, kept by a 0 (R23). -/
def w1c (old written : Bool) : Bool := old && !written

/-- The write of a word to STATUS (R23): only the W1C bits DONE, ERR and CMD_DROPPED change. -/
def State.writeStatus (s : State) (v : Word) : State :=
  { s with
    done := w1c s.done (v.getLsbD 1)
    err := w1c s.err (v.getLsbD 2)
    cmdDropped := w1c s.cmdDropped (v.getLsbD 3) }

/-- TRIAL_DONE with the bit of mask `m` set (R25). -/
def markTrial (t : BitVec 8) (m : Fin 8) : BitVec 8 := t ||| (1#8 <<< m.val)

/-- The interrupt output `irq = CTRL.IRQ_EN & STATUS.DONE` (60_exceptions.md R360). -/
def State.irq (s : State) : Bool := s.irqEn && s.done

end Sys2Proof.Machine
end

