-- ==== Sys2Proof/Machine/Layout.lean ====
section
/-! DEFINITION. The address map (20_memory.md R70) and the bus addresses of the memories' bytes and
cells. -/

namespace Sys2Proof.Machine

/-- The four byte buffers (10_state.md R55). -/
inductive Buf
  | ibuf
  | bbuf
  | ebuf
  | fbuf
  deriving DecidableEq, Repr

/-- The bus address of a buffer's byte 0 (R70). -/
def Buf.base : Buf → Nat
  | .ibuf => 0x01000
  | .bbuf => 0x04000
  | .ebuf => 0x06000
  | .fbuf => 0x07000

/-- The number of bytes of a buffer (R6, R55). -/
def Buf.size : Buf → Nat
  | .ibuf => Config.ibufSize
  | .bbuf => Config.bbufSize
  | .ebuf => Config.ebufSize
  | .fbuf => Config.fbufSize

/-- The address is a byte of the buffer. -/
def Buf.holds (b : Buf) (a : Nat) : Bool := decide (b.base ≤ a) && decide (a < b.base + b.size)

/-- The first address of the MAT window (R70). -/
def matBase : Nat := 0x10000

/-- The window address of cell (r, c): 0x10000 + 256·r + c (R70). -/
def cellAddr (r c : Nat) : Nat := matBase + 256 * r + c

/-- The address is in the MAT window (R70). -/
def inMatWindow (a : Nat) : Bool := decide (matBase ≤ a) && decide (a < 0x20000)

/-- The address is a cell of MAT, no hole of the window (R70). -/
def isCell (a : Nat) : Bool :=
  inMatWindow a && decide ((a - matBase) / 256 < Config.sMax)
    && decide ((a - matBase) % 256 < Config.sMax)

/-- The address is a byte of one of the four buffers. -/
def isBufByte (a : Nat) : Bool :=
  Buf.ibuf.holds a || Buf.bbuf.holds a || Buf.ebuf.holds a || Buf.fbuf.holds a

/-- The address is in the register page (R70, 10_state.md R53). -/
def inRegPage (a : Nat) : Bool := decide (a < 0x1000)

/-- The address is in a reserved range (R70): in no region of the map. -/
def isReserved (a : Nat) : Bool := !(inRegPage a || isBufByte a || inMatWindow a)

/-- The number of bytes of an access (R71). -/
def AccSize.bytes : AccSize → Nat
  | .byte => 1
  | .half => 2
  | .word => 4

end Sys2Proof.Machine
end

