-- ==== Sys2Proof/Machine/Ops.lean ====
section
/-! DEFINITION. The shared operations over memory and registers: memory as a sorted list, the engine's
access to the buffers, the bit-stream view of BBUF (20_memory.md R80), the acceptance, failure and
completion of a command (30_encoding.md R104, R105, 60_exceptions.md R356). -/

namespace Sys2Proof.Machine

/-! ### Memory -/

/-- A memory: (bus address, byte) pairs. A listed address is a byte or cell whose written flag is set; an
unlisted one has it clear and reads as no value (10_state.md R57, log 8). -/
abbrev Memory := List Host.Cell

/-- What an address reads as: `none` where nothing has been written since reset. -/
def Memory.lookup : Memory → Nat → Option Byte
  | [], _ => none
  | (k, b) :: m, a => if a < k then none else if a = k then some b else Memory.lookup m a

/-- The memory with the given cells written, in one pass; the cells stand in rising order. A write sets
the written flag (10_state.md R57). -/
def Memory.write : List Host.Cell → Memory → Memory
  | [], m => m
  | (a, b) :: us, m =>
    m.takeWhile (fun e => decide (e.1 < a))
      ++ (a, b) :: Memory.write us (m.dropWhile fun e => decide (e.1 ≤ a))

/-- The bytes at the given addresses, which stand in rising order, in one pass; or the first address
that nothing has written. -/
def Memory.readSeq : List Nat → Memory → Except Nat (List Byte)
  | [], _ => .ok []
  | a :: as, m =>
    match m.dropWhile (fun e => decide (e.1 < a)) with
    | [] => .error a
    | (k, b) :: m' =>
      if k = a then
        match Memory.readSeq as m' with
        | .ok bs => .ok (b :: bs)
        | .error x => .error x
      else .error a

/-- A listed address is a byte of a buffer, or a cell of MAT, whose byte has only the bits `bit` and `st`
(20_memory.md R70, R75). -/
def cellOk (e : Host.Cell) : Bool := isBufByte e.1 || (isCell e.1 && decide (e.2.toNat < 4))

/-- The canonical form: addresses strictly rising, each one existing. An unlisted address reads as no
value, so no entry can equal what an unlisted address reads as. -/
abbrev Memory.wf (m : Memory) : Prop :=
  m.Pairwise (fun x y => x.1 < y.1) ∧ ∀ e ∈ m, cellOk e = true

/-- Bytes laid out from an address on. -/
def cellsFrom : Nat → List Byte → List Host.Cell
  | _, [] => []
  | a, b :: bs => (a, b) :: cellsFrom (a + 1) bs

/-! ### The engine's view of the buffers -/

/-- The engine's read of the first `n` bytes of a buffer (00_scope.md R10). A byte never written is the
model fault `UNWRITTEN_READ` (10_state.md R57). -/
def readBuf (cmd : Instr) (buf : Buf) (n : Nat) (s : State) : Except Fault (List Byte) :=
  match Memory.readSeq (List.range' buf.base (min n buf.size)) s.mem with
  | .error a => .error (.unwrittenRead cmd a)
  | .ok bs => if n ≤ buf.size then .ok bs else .error (.outsideMemory cmd (buf.base + buf.size))

/-- The engine's write of bytes to a buffer, from its byte 0 on (00_scope.md R10). -/
def State.writeBuf (s : State) (buf : Buf) (bs : List Byte) : State :=
  { s with mem := Memory.write (cellsFrom buf.base bs) s.mem }

/-- `LoadBits(n)`: the first `n` bits of the stream in BBUF (20_memory.md R80). -/
def loadBits (cmd : Instr) (n : Nat) (s : State) : Except Fault Bits :=
  match readBuf cmd .bbuf ((n + 7) / 8) s with
  | .error f => .error f
  | .ok bs => .ok ((unpackBytes bs).take n)

/-- `StoreBits(s)`: a bit string written to the start of BBUF, the low bits of its last byte 0
(20_memory.md R80). -/
def State.storeBits (s : State) (x : Bits) : State := s.writeBuf .bbuf (packBytes x)

/-! ### Acceptance, failure and completion of a command -/

/-- How a command, or a sub-command of RUN, ends before its completion: performed, failed with an error
recorded in the state, or stopped by a model fault. -/
inductive Perf
  | ok (s : State)
  | failed (s : State)
  | stopped (f : Fault)
  deriving DecidableEq, Repr

/-- Acceptance of a command word (30_encoding.md R104), with the steps the environment takes before it
completes (log 4). -/
def State.accept (s : State) (w : Word) (hold : Nat) : State :=
  { s with
    pending := some w
    done := false
    err := false
    errCode := .none
    errInfo := 0#32
    hold := hold }

/-- `raise E(info)` and `fail(E, info)` (60_exceptions.md R356): what an error records. It leaves PSTAGE
alone for an illegal or out-of-sequence word and for SCORE. -/
def State.fail (s : State) (cmd : Instr) (e : ErrCode) (info : Word) : State :=
  { s with
    errCode := e
    errInfo := info
    err := true
    pstage :=
      if e ≠ .illegalCmd ∧ e ≠ .sequence ∧ cmd ≠ .score then .failed else s.pstage }

/-- A command's own error: it ends the command (60_exceptions.md R356). -/
def raise (s : State) (cmd : Instr) (e : ErrCode) (info : Nat) : Perf :=
  .failed (s.fail cmd e (BitVec.ofNat 32 info))

/-- `raise InternalTableLookup` for the index looked up, the level and the table id
(60_exceptions.md R351, R352). -/
def raiseTable (s : State) (cmd : Instr) (index level table : Nat) : Perf :=
  raise s cmd .internalTableLookup (index ||| (level <<< 8) ||| (table <<< 16))

/-- `raise E_PARAM` for a register's offset and its value (60_exceptions.md R351). -/
def raiseParam (s : State) (cmd : Instr) (offset value : Nat) : Perf :=
  raise s cmd .param (offset ||| (value <<< 12))

/-- Completion (30_encoding.md R105): BUSY <- 0, PENDING <- empty, DONE <- 1. -/
def State.complete (s : State) : State := { s with pending := none, done := true }

/-- `stageOK` (30_encoding.md R105): PSTAGE is in the "stage before" column of R103, and COMMIT needs all
eight masks tried. -/
def stageOk (s : State) : Instr → Bool
  | .nop | .encode | .select | .score | .runRaw | .run | .rsRaw => true
  | .pad => s.pstage = .selected
  | .ecgen => s.pstage = .padded
  | .interleave => s.pstage = .ecDone
  | .build => s.pstage = .interleaved
  | .trial _ => s.pstage = .patternsPlaced || s.pstage = .trialing
  | .commit => s.pstage = .trialing && s.trialDone = 0xFF#8

/-- ERRINFO of `E_SEQUENCE`: OPC, PSTAGE and TRIAL_DONE at decode (30_encoding.md R105,
60_exceptions.md R351). -/
def sequenceInfo (s : State) (cmd : Instr) : Word :=
  0#8 ++ s.trialDone ++ 0#4 ++ s.pstage.code ++ opcodeOf cmd

/-- A command behind its stage check (30_encoding.md R105): `E_SEQUENCE` where the stage is wrong. -/
def staged (cmd : Instr) (body : State → Perf) (s : State) : Perf :=
  if stageOk s cmd then body s else .failed (s.fail cmd .sequence (sequenceInfo s cmd))

/-- The end of a command (30_encoding.md R105): completion, with or without error, or a model fault. -/
def Perf.finish : Perf → Host.Outcome State Fault Refusal
  | .ok s => .next s.complete
  | .failed s => .next s.complete
  | .stopped f => .fault f

/-- A whole command: stage check, its family rule, completion (30_encoding.md R105). -/
def runCommand (cmd : Instr) (body : State → Perf) (s : State) : Host.Outcome State Fault Refusal :=
  (staged cmd body s).finish

/-- An illegal word: `E_ILLEGAL_CMD` with the word in ERRINFO, then completion; nothing else changes
(30_encoding.md R105, R106). The command argument of `fail` plays no part for this error. -/
def State.rejectWord (s : State) (w : Word) : State := (s.fail .nop .illegalCmd w).complete

end Sys2Proof.Machine
end

