-- ==== Sys2Proof/Machine/Grid.lean ====
section
/-! DEFINITION. Squares of MAT cells: the engine's working view of the top-left part of MAT (10_state.md
R56), how it is read from memory and written back. -/

namespace Sys2Proof.Machine

/-- A cell of MAT (R56): the module value, 1 = dark, and the structural flag. -/
structure MatCell where
  bit : Bool
  st : Bool
  deriving DecidableEq, Repr

/-- The window byte of a cell, `bit | (st << 1)` (20_memory.md R75). -/
def MatCell.toByte (c : MatCell) : Byte := 0#6 ++ BitVec.ofBool c.st ++ BitVec.ofBool c.bit

/-- The cell of a window byte; bits 7:2 play no part (20_memory.md R75). -/
def MatCell.ofByte (b : Byte) : MatCell := ⟨b.getLsbD 0, b.getLsbD 1⟩

/-- The cell BUILD starts from: bit 0, st 0 (44_matrix_patterns.md R240). -/
def MatCell.clear : MatCell := ⟨false, false⟩

/-- A square of cells, row by row, row 0 at the top and column 0 at the left. -/
abbrev Grid := List (List MatCell)

/-- The cell at row r and column c; a clear cell outside the square. -/
def Grid.cell (g : Grid) (r c : Nat) : MatCell := (g.getD r []).getD c MatCell.clear

/-- The square with the cell at row r and column c changed; unchanged if there is none. -/
def Grid.modifyCell (g : Grid) (r c : Nat) (f : MatCell → MatCell) : Grid :=
  g.modify r fun row => row.modify c f

/-- The square of side n, all clear. -/
def Grid.blank (n : Nat) : Grid := List.replicate n (List.replicate n MatCell.clear)

/-- The addresses of the n × n cells, in rising order. -/
def cellAddrs (n : Nat) : List Nat :=
  (List.range n).flatMap fun r => (List.range n).map fun c => cellAddr r c

/-- The engine's read of the top-left n × n cells. A cell never written is the model fault
`UNWRITTEN_READ` (10_state.md R57, log 9). -/
def loadGrid (cmd : Instr) (n : Nat) (s : State) : Except Fault Grid :=
  if Config.sMax < n then .error (.outsideMemory cmd (cellAddr 0 Config.sMax))
  else
    match Memory.readSeq (cellAddrs n) s.mem with
    | .error a => .error (.unwrittenRead cmd a)
    | .ok bs => .ok (chunks n n (bs.map MatCell.ofByte))

/-- The memory entries of a row of cells, from column c on. -/
def rowCells (r : Nat) : Nat → List MatCell → List Host.Cell
  | _, [] => []
  | c, x :: xs => (cellAddr r c, x.toByte) :: rowCells r (c + 1) xs

/-- The memory entries of a square of cells, from row r on, in rising order. -/
def gridCells : Nat → Grid → List Host.Cell
  | _, [] => []
  | r, row :: rows => rowCells r 0 row ++ gridCells (r + 1) rows

/-- The engine's write of a square of cells to the top left of MAT. -/
def State.storeGrid (s : State) (g : Grid) : State :=
  { s with mem := Memory.write (gridCells 0 g) s.mem }

end Sys2Proof.Machine
end

