-- ==== Sys2Proof/Machine/Operands.lean ====
section
/-! DEFINITION. The register file as the host sees it: the register map (10_state.md R53), what a register
reads as and what a host write leaves in it (R54). -/

namespace Sys2Proof.Machine

/-- The registers of the map (R53). -/
inductive Reg
  | id | ctrl | status | cmd | errCode | errInfo
  | mode | ecl | inLen | charCount | rawLen
  | version | selLevel | size | capBits | streamLen
  | numBlocks | ecLen | blkShort | blkNlong | totalCw
  | freeCells | placedBits | bestMask | bestScore
  | scoreN | rsK | rsLen
  | score (m : Fin 8)
  | pR1Row | pR1Col | pR2 | pR3Row | pR3Col | pR4 | pTotal
  deriving DecidableEq, Repr

/-- The offset of a register in the register page (R53). -/
def Reg.offset : Reg → Nat
  | .id => 0x000
  | .ctrl => 0x004
  | .status => 0x008
  | .cmd => 0x00C
  | .errCode => 0x010
  | .errInfo => 0x014
  | .mode => 0x018
  | .ecl => 0x01C
  | .inLen => 0x020
  | .charCount => 0x024
  | .rawLen => 0x028
  | .version => 0x02C
  | .selLevel => 0x030
  | .size => 0x034
  | .capBits => 0x038
  | .streamLen => 0x03C
  | .numBlocks => 0x040
  | .ecLen => 0x044
  | .blkShort => 0x048
  | .blkNlong => 0x04C
  | .totalCw => 0x050
  | .freeCells => 0x054
  | .placedBits => 0x058
  | .bestMask => 0x05C
  | .bestScore => 0x060
  | .scoreN => 0x064
  | .rsK => 0x068
  | .rsLen => 0x06C
  | .score m => 0x080 + 4 * m.val
  | .pR1Row => 0x0A0
  | .pR1Col => 0x0A4
  | .pR2 => 0x0A8
  | .pR3Row => 0x0AC
  | .pR3Col => 0x0B0
  | .pR4 => 0x0B4
  | .pTotal => 0x0B8

/-- Every register of the map (R53). -/
def Reg.all : List Reg :=
  [.id, .ctrl, .status, .cmd, .errCode, .errInfo, .mode, .ecl, .inLen, .charCount, .rawLen,
    .version, .selLevel, .size, .capBits, .streamLen, .numBlocks, .ecLen, .blkShort, .blkNlong,
    .totalCw, .freeCells, .placedBits, .bestMask, .bestScore, .scoreN, .rsK, .rsLen,
    .score 0, .score 1, .score 2, .score 3, .score 4, .score 5, .score 6, .score 7,
    .pR1Row, .pR1Col, .pR2, .pR3Row, .pR3Col, .pR4, .pTotal]

/-- The register at an offset; none at a reserved offset (R53, R54). -/
def Reg.at (off : Nat) : Option Reg := Reg.all.find? fun r => r.offset == off

/-- What a register reads as: the value of its field, zeros above it (R54). CMD reads as 0 (R26). -/
def Reg.read (s : State) : Reg → Word
  | .id => Config.idValue
  | .ctrl => s.ctrlWord
  | .status => s.statusWord
  | .cmd => 0#32
  | .errCode => s.errCode.code.setWidth 32
  | .errInfo => s.errInfo
  | .mode => s.mode.setWidth 32
  | .ecl => s.ecl.setWidth 32
  | .inLen => s.inLen.setWidth 32
  | .charCount => s.charCount.setWidth 32
  | .rawLen => s.rawLen.setWidth 32
  | .version => s.version.setWidth 32
  | .selLevel => s.selLevel.setWidth 32
  | .size => s.size.setWidth 32
  | .capBits => s.capBits.setWidth 32
  | .streamLen => s.streamLen.setWidth 32
  | .numBlocks => s.numBlocks.setWidth 32
  | .ecLen => s.ecLen.setWidth 32
  | .blkShort => s.blkShort.setWidth 32
  | .blkNlong => s.blkNlong.setWidth 32
  | .totalCw => s.totalCw.setWidth 32
  | .freeCells => s.freeCells.setWidth 32
  | .placedBits => s.placedBits.setWidth 32
  | .bestMask => s.bestMask.setWidth 32
  | .bestScore => s.bestScore
  | .scoreN => s.scoreN.setWidth 32
  | .rsK => s.rsK.setWidth 32
  | .rsLen => s.rsLen.setWidth 32
  | .score m => s.scores[m]
  | .pR1Row => s.penalty.r1row
  | .pR1Col => s.penalty.r1col
  | .pR2 => s.penalty.r2
  | .pR3Row => s.penalty.r3row
  | .pR3Col => s.penalty.r3col
  | .pR4 => s.penalty.r4
  | .pTotal => s.penalty.total

/-- A host write of a word to an operand register keeps the bits of the field's width; a write to any
other register of the map changes nothing here (R54). CTRL, STATUS and CMD have writes of their own
(Machine/Bus.lean). -/
def Reg.store (s : State) (v : Word) : Reg → State
  | .mode => { s with mode := v.setWidth 3 }
  | .ecl => { s with ecl := v.setWidth 3 }
  | .inLen => { s with inLen := v.setWidth 14 }
  | .charCount => { s with charCount := v.setWidth 16 }
  | .rawLen => { s with rawLen := v.setWidth 17 }
  | .scoreN => { s with scoreN := v.setWidth 8 }
  | .rsK => { s with rsK := v.setWidth 7 }
  | .rsLen => { s with rsLen := v.setWidth 14 }
  | .id | .ctrl | .status | .cmd | .errCode | .errInfo | .version | .selLevel | .size => s
  | .capBits | .streamLen | .numBlocks | .ecLen | .blkShort | .blkNlong | .totalCw => s
  | .freeCells | .placedBits | .bestMask | .bestScore | .score _ => s
  | .pR1Row | .pR1Col | .pR2 | .pR3Row | .pR3Col | .pR4 | .pTotal => s

end Sys2Proof.Machine
end

