-- ==== Sys2Proof/Machine/Bus.lean ====
section
/-! DEFINITION. The host's side: bus reads and writes (20_memory.md R71 to R75), command issue
(30_encoding.md R104), soft and hardware reset (70_reset_and_hazards.md R380, R382), and the turn of the
host in a step (log 3). -/

namespace Sys2Proof.Machine

/-- The state after an access whose response is given (R71). -/
def State.respond (s : State) (ok : Bool) (data : Word) : State := { s with resp := some ⟨ok, data⟩ }

/-! ### Reads -/

/-- The byte a host read gets at a buffer or window address, with the index of the free value it takes
where the spec says any value: while BUSY = 1 (70_reset_and_hazards.md R391), and at a byte or cell never
written (10_state.md R57), where a cell's byte has bits 7:2 zero (R75, log 7). A hole reads 0 (R70). -/
def State.hostByte (s : State) (a draw : Nat) : Byte :=
  if isBufByte a || isCell a then
    if s.busy then Config.freeByte draw
    else
      match Memory.lookup s.mem a with
      | some b => b
      | none => if isCell a then Config.freeByte draw &&& 3#8 else Config.freeByte draw
  else 0#8

/-- Little-endian value of a byte sequence, byte a in bits 7:0 (R72, R76). -/
def littleEndian : List Byte → Nat
  | [] => 0
  | b :: bs => b.toNat + 256 * littleEndian bs

/-- A register read (R72, 10_state.md R54): 0 at a reserved offset; any value while BUSY = 1 but for ID,
CTRL and STATUS (70_reset_and_hazards.md R391). -/
def State.readRegister (s : State) (off : Nat) : Word :=
  match Reg.at off with
  | none => 0#32
  | some r =>
    if s.busy && !(r == .id || r == .ctrl || r == .status) then Config.freeWord s.draws
    else Reg.read s r

/-- `MemRead(a, n)`: the response (R72). -/
def State.memRead (s : State) (a : Nat) (n : AccSize) : BusResponse :=
  if inRegPage a then
    if n ≠ .word ∨ a % 4 ≠ 0 then ⟨false, 0#32⟩ else ⟨true, s.readRegister a⟩
  else if isReserved a then ⟨true, 0#32⟩
  else if a % n.bytes ≠ 0 then ⟨false, 0#32⟩
  else
    ⟨true, BitVec.ofNat 32 (littleEndian
      ((List.range n.bytes).map fun i => s.hostByte (a + i) (s.draws + i)))⟩

/-- A host read: the response, and fresh free values for the next one (R72, log 6). No read has a side
effect (R79). -/
def State.hostRead (s : State) (a : BusAddr) (n : AccSize) : State :=
  { s with resp := some (s.memRead a.toNat n), draws := s.draws + n.bytes }

/-! ### Reset -/

/-- Every register and field at its reset value, the memories and the model's own fields kept
(10_state.md R60). -/
def State.resetRegisters (s : State) : State :=
  { State.reset with mem := s.mem, host := s.host, resp := s.resp, draws := s.draws }

/-- Hardware reset (70_reset_and_hazards.md R380): every written flag is cleared too. -/
def State.hardReset (s : State) : State := { s.resetRegisters with mem := [] }

/-- What a command may write of MAT (30_encoding.md R110). -/
inductive MatEffect
  | nothing
  | bits
  | cells
  deriving DecidableEq, Repr

/-- The buffers a command may write (30_encoding.md R110, 70_reset_and_hazards.md R382). -/
def bufsWritten : Instr → List Buf
  | .encode | .select | .pad => [.bbuf]
  | .ecgen | .rsRaw => [.ebuf]
  | .interleave => [.fbuf]
  | .runRaw | .run => [.bbuf, .ebuf, .fbuf]
  | .nop | .build | .trial _ | .commit | .score => []

/-- What a command may write of MAT (30_encoding.md R110, 70_reset_and_hazards.md R382). -/
def matWritten : Instr → MatEffect
  | .build | .runRaw | .run => .cells
  | .trial _ | .commit => .bits
  | .nop | .encode | .select | .pad | .ecgen | .interleave | .score | .rsRaw => .nothing

/-- Every byte of a buffer at any value, its flag set (70_reset_and_hazards.md R382, log 11). -/
def State.scrambleBuf (s : State) (b : Buf) : State :=
  { s.writeBuf b ((List.range b.size).map fun i => Config.freeByte (s.draws + i)) with
    draws := s.draws + b.size }

/-- The cell at row r and column c after a command that may have written it was abandoned: its bit at any
value; its st kept where it held one and only bits may be written, else at any value (log 11). -/
def State.scrambledCell (s : State) (keepSt : Bool) (r c : Nat) : MatCell :=
  let free := MatCell.ofByte (Config.freeByte (s.draws + 256 * r + c))
  match keepSt, Memory.lookup s.mem (cellAddr r c) with
  | true, some b => ⟨free.bit, (MatCell.ofByte b).st⟩
  | _, _ => free

/-- Every cell of MAT at any value, its flag set (70_reset_and_hazards.md R382, log 11). -/
def State.scrambleMat (s : State) (keepSt : Bool) : State :=
  let n := Config.sMax
  let g := (List.range n).map fun r => (List.range n).map fun c => s.scrambledCell keepSt r c
  { s.storeGrid g with draws := s.draws + 256 * n }

/-- The memories after a command was abandoned (70_reset_and_hazards.md R382): those it may write hold any
value, the others are unchanged. -/
def State.abandon (s : State) (i : Instr) : State :=
  let t := (bufsWritten i).foldl State.scrambleBuf s
  match matWritten i with
  | .nothing => t
  | .bits => t.scrambleMat true
  | .cells => t.scrambleMat false

/-- Soft reset (70_reset_and_hazards.md R382). An illegal word writes no memory (30_encoding.md R106). -/
def State.softReset (s : State) : State :=
  match s.pending with
  | none => s.resetRegisters
  | some w =>
    match decode w with
    | .ok i => (s.abandon i).resetRegisters
    | .error _ => s.resetRegisters

/-! ### Writes -/

/-- Issue of a command by a write to CMD (30_encoding.md R104): dropped while BUSY = 1, else accepted, to
complete after a time that is free (log 4). -/
def State.issue (s : State) (w : Word) : State :=
  if s.busy then { s with cmdDropped := true }
  else { s.accept w (Config.busyTime s.draws) with draws := s.draws + 1 }

/-- A write to CTRL (10_state.md R22): SRST = 1 is a soft reset, which leaves IRQ_EN 0
(70_reset_and_hazards.md R382, log 14); else IRQ_EN is stored. -/
def State.writeCtrl (s : State) (v : Word) : State :=
  if v.getLsbD 1 then s.softReset else { s with irqEn := v.getLsbD 0 }

/-- A register write (R73, 10_state.md R54): ignored at a reserved offset, and while BUSY = 1 but for CTRL,
STATUS and the drop of a command word (70_reset_and_hazards.md R390). -/
def State.writeRegister (s : State) (off : Nat) (v : Word) : State :=
  match Reg.at off with
  | none => s
  | some .ctrl => s.writeCtrl v
  | some .status => s.writeStatus v
  | some .cmd => s.issue v
  | some r => if s.busy then s else Reg.store s v r

/-- What a host byte write leaves at an address: a buffer byte as written; a cell's bits 1:0, unless
PSTAGE = COMMITTED (R75); nothing in a hole (R73). -/
def State.hostEntry (s : State) (a : Nat) (b : Byte) : Option Host.Cell :=
  if isBufByte a then some (a, b)
  else if isCell a && s.pstage ≠ .committed then some (a, b &&& 3#8)
  else none

/-- The bytes of a host write to a buffer or the MAT window, little-endian (R73, R76). -/
def State.writeWindow (s : State) (a : Nat) (n : AccSize) (v : Word) : State :=
  let entries :=
    (List.range n.bytes).filterMap fun i => s.hostEntry (a + i) (v.extractLsb' (8 * i) 8)
  { s with mem := Memory.write entries s.mem }

/-- `MemWrite(a, n, v)` (R73). -/
def State.hostWrite (s : State) (a : BusAddr) (n : AccSize) (v : Word) : State :=
  let x := a.toNat
  if inRegPage x then
    if n ≠ .word ∨ x % 4 ≠ 0 then s.respond false 0#32 else (s.writeRegister x v).respond true 0#32
  else if isReserved x then s.respond true 0#32
  else if x % n.bytes ≠ 0 then s.respond false 0#32
  else if s.busy then s.respond true 0#32
  else (s.writeWindow x n v).respond true 0#32

/-! ### The host's turn -/

/-- The host's or the platform's next action (log 3). `wait` polls STATUS and stays in the queue while it
reads BUSY = 1 (30_encoding.md R109). With no action left nothing changes (60_exceptions.md R366). -/
def State.hostTurn (s : State) : State :=
  match s.host with
  | [] => s
  | .read a n :: q => ({ s with host := q }).hostRead a n
  | .write a n v :: q => ({ s with host := q }).hostWrite a n v
  | .wait :: q =>
    let t := s.hostRead 0x00008#17 .word
    if s.busy then t else { t with host := q }
  | .hardReset :: q => ({ s with host := q }).hardReset

/-- The host action that issues a command (30_encoding.md R108, R109). -/
def issueAction (i : Instr) : HostAction := .write 0x0000C#17 .word (encode i)

/-- `LOADB base, b0 b1 ...` (30_encoding.md R109). -/
def loadBytes : Nat → List Byte → List HostAction
  | _, [] => []
  | a, b :: bs => .write (BitVec.ofNat 17 a) .byte (b.setWidth 32) :: loadBytes (a + 1) bs

end Sys2Proof.Machine
end

