-- ==== Sys2Proof/Machine/Gf.lean ====
section
/-! DEFINITION. GF(256) arithmetic and the polynomial-division engine (42_gf_rs.md R190 to R196). -/

namespace Sys2Proof.Machine

/-- The antilog table (R191), one row of 16 for each row of the rule's table; EXP[255] does not exist. -/
def gfExpRows : List (List Nat) :=
  [[0x01, 0x02, 0x04, 0x08, 0x10, 0x20, 0x40, 0x80, 0x1D, 0x3A, 0x74, 0xE8, 0xCD, 0x87, 0x13, 0x26],
      [0x4C, 0x98, 0x2D, 0x5A, 0xB4, 0x75, 0xEA, 0xC9, 0x8F, 0x03, 0x06, 0x0C, 0x18, 0x30, 0x60, 0xC0],
      [0x9D, 0x27, 0x4E, 0x9C, 0x25, 0x4A, 0x94, 0x35, 0x6A, 0xD4, 0xB5, 0x77, 0xEE, 0xC1, 0x9F, 0x23],
      [0x46, 0x8C, 0x05, 0x0A, 0x14, 0x28, 0x50, 0xA0, 0x5D, 0xBA, 0x69, 0xD2, 0xB9, 0x6F, 0xDE, 0xA1],
      [0x5F, 0xBE, 0x61, 0xC2, 0x99, 0x2F, 0x5E, 0xBC, 0x65, 0xCA, 0x89, 0x0F, 0x1E, 0x3C, 0x78, 0xF0],
      [0xFD, 0xE7, 0xD3, 0xBB, 0x6B, 0xD6, 0xB1, 0x7F, 0xFE, 0xE1, 0xDF, 0xA3, 0x5B, 0xB6, 0x71, 0xE2],
      [0xD9, 0xAF, 0x43, 0x86, 0x11, 0x22, 0x44, 0x88, 0x0D, 0x1A, 0x34, 0x68, 0xD0, 0xBD, 0x67, 0xCE],
      [0x81, 0x1F, 0x3E, 0x7C, 0xF8, 0xED, 0xC7, 0x93, 0x3B, 0x76, 0xEC, 0xC5, 0x97, 0x33, 0x66, 0xCC]]
    ++ [[0x85, 0x17, 0x2E, 0x5C, 0xB8, 0x6D, 0xDA, 0xA9, 0x4F, 0x9E, 0x21, 0x42, 0x84, 0x15, 0x2A, 0x54],
      [0xA8, 0x4D, 0x9A, 0x29, 0x52, 0xA4, 0x55, 0xAA, 0x49, 0x92, 0x39, 0x72, 0xE4, 0xD5, 0xB7, 0x73],
      [0xE6, 0xD1, 0xBF, 0x63, 0xC6, 0x91, 0x3F, 0x7E, 0xFC, 0xE5, 0xD7, 0xB3, 0x7B, 0xF6, 0xF1, 0xFF],
      [0xE3, 0xDB, 0xAB, 0x4B, 0x96, 0x31, 0x62, 0xC4, 0x95, 0x37, 0x6E, 0xDC, 0xA5, 0x57, 0xAE, 0x41],
      [0x82, 0x19, 0x32, 0x64, 0xC8, 0x8D, 0x07, 0x0E, 0x1C, 0x38, 0x70, 0xE0, 0xDD, 0xA7, 0x53, 0xA6],
      [0x51, 0xA2, 0x59, 0xB2, 0x79, 0xF2, 0xF9, 0xEF, 0xC3, 0x9B, 0x2B, 0x56, 0xAC, 0x45, 0x8A, 0x09],
      [0x12, 0x24, 0x48, 0x90, 0x3D, 0x7A, 0xF4, 0xF5, 0xF7, 0xF3, 0xFB, 0xEB, 0xCB, 0x8B, 0x0B, 0x16],
      [0x2C, 0x58, 0xB0, 0x7D, 0xFA, 0xE9, 0xCF, 0x83, 0x1B, 0x36, 0x6C, 0xD8, 0xAD, 0x47, 0x8E]]

/-- The log table (R192), one row of 16 for each row of the rule's table. The first place of the first row
is LOG[0], which is undefined: the 0 there is a place holder that `gfLog` never reads. -/
def gfLogRows : List (List Nat) :=
  [[0, 0, 1, 25, 2, 50, 26, 198, 3, 223, 51, 238, 27, 104, 199, 75],
      [4, 100, 224, 14, 52, 141, 239, 129, 28, 193, 105, 248, 200, 8, 76, 113],
      [5, 138, 101, 47, 225, 36, 15, 33, 53, 147, 142, 218, 240, 18, 130, 69],
      [29, 181, 194, 125, 106, 39, 249, 185, 201, 154, 9, 120, 77, 228, 114, 166],
      [6, 191, 139, 98, 102, 221, 48, 253, 226, 152, 37, 179, 16, 145, 34, 136],
      [54, 208, 148, 206, 143, 150, 219, 189, 241, 210, 19, 92, 131, 56, 70, 64],
      [30, 66, 182, 163, 195, 72, 126, 110, 107, 58, 40, 84, 250, 133, 186, 61],
      [202, 94, 155, 159, 10, 21, 121, 43, 78, 212, 229, 172, 115, 243, 167, 87]]
    ++ [[7, 112, 192, 247, 140, 128, 99, 13, 103, 74, 222, 237, 49, 197, 254, 24],
      [227, 165, 153, 119, 38, 184, 180, 124, 17, 68, 146, 217, 35, 32, 137, 46],
      [55, 63, 209, 91, 149, 188, 207, 205, 144, 135, 151, 178, 220, 252, 190, 97],
      [242, 86, 211, 171, 20, 42, 93, 158, 132, 60, 57, 83, 71, 109, 65, 162],
      [31, 45, 67, 216, 183, 123, 164, 118, 196, 23, 73, 236, 127, 12, 111, 246],
      [108, 161, 59, 82, 41, 157, 85, 170, 251, 96, 134, 177, 187, 204, 62, 90],
      [203, 89, 95, 176, 156, 169, 160, 81, 11, 245, 22, 235, 122, 117, 44, 215],
      [79, 174, 213, 233, 230, 231, 173, 232, 116, 214, 244, 234, 168, 80, 88, 175]]

/-- `EXP[i]`, i = 16·row + column of rule R191's table; defined on 0 .. 254 (R190). -/
def gfExp (i : Nat) : Option Byte := ((gfExpRows[i / 16]?).bind (·[i % 16]?)).map (BitVec.ofNat 8)

/-- `LOG[b]`; `none` for 0, whose logarithm is undefined and never evaluated (R190, R193, log 12). -/
def gfLog (b : Byte) : Option Nat :=
  if b = 0#8 then none else (gfLogRows[b.toNat / 16]?).bind (·[b.toNat % 16]?)

/-- α^n for any exponent: `EXP[n mod 255]`, an index inside EXP's domain (R190). -/
def alphaPow (n : Nat) : Byte := (gfExp (n % 255)).getD 0#8

/-- Multiplication (R193): 0 where an operand is 0, else `EXP[(LOG[a] + LOG[b]) mod 255]`. -/
def gmul (a b : Byte) : Byte :=
  match gfLog a, gfLog b with
  | some i, some j => alphaPow (i + j)
  | _, _ => 0#8

/-- The product of a polynomial and (x ⊕ a), coefficients highest degree first. -/
def mulRoot (p : List Byte) (a : Byte) : List Byte :=
  List.zipWith (· ^^^ ·) (p ++ [0#8]) (0#8 :: p.map (gmul a))

/-- `g_k(x) = (x ⊕ α^0)·…·(x ⊕ α^(k−1))` (R194), coefficients highest degree first, the leading 1
among them. -/
def genPoly (k : Nat) : List Byte := (List.range k).foldl (fun p i => mulRoot p (alphaPow i)) [1#8]

/-- The exponent form of a generator (R194): the logarithms of its coefficients, highest degree first,
without the leading 1; `none` if a coefficient is 0. -/
def genExponents (k : Nat) : Option (List Nat) := (genPoly k).tail.mapM gfLog

/-! ### The division engine, on any record of tables -/

/-- A lookup that missed: the index looked up and the table id (60_exceptions.md R351). -/
abbrev TableMiss := Nat × Nat

/-- `EXP[i]` of a record (00_scope.md R7). -/
def expAt (T : Tables) (i : Nat) : Except TableMiss Byte :=
  match T.exp i with
  | some b => .ok b
  | none => .error (i, Config.expTableId.toNat)

/-- `LOG[b]` of a record (00_scope.md R7). -/
def logAt (T : Tables) (b : Byte) : Except TableMiss Nat :=
  match T.log b with
  | some i => .ok i
  | none => .error (b.toNat, Config.logTableId.toNat)

/-- `GEN(k)` of a record: its k exponents. An entry of another length is no GEN(k) and counts as missing
(00_scope.md R7, R194). -/
def genOf (T : Tables) (k : Nat) : Option (List Nat) := (T.gen k).filter fun g => g.length == k

/-- The buffer plus the generator scaled by the value whose logarithm is `lf` (R195):
`buf[i] ⊕ EXP[(GEN(k)[i] + LOG[f]) mod 255]`. -/
def addScaled (T : Tables) (lf : Nat) : List Byte → List Nat → Except TableMiss (List Byte)
  | x :: xs, g :: gs =>
    match expAt T ((g + lf) % 255) with
    | .error e => .error e
    | .ok y =>
      match addScaled T lf xs gs with
      | .error e => .error e
      | .ok ys => .ok ((x ^^^ y) :: ys)
  | _, _ => .ok []

/-- One step of the division engine (R195): the data byte joins the ejected leading value, the buffer
shifts left by one, and the generator scaled by that value is added where it is not 0. -/
def rsStep (T : Tables) (gen : List Nat) (buf : List Byte) (d : Byte) : Except TableMiss (List Byte) :=
  let f := d ^^^ buf.headD 0#8
  let shifted := buf.tail ++ [0#8]
  if f = 0#8 then .ok shifted
  else
    match logAt T f with
    | .error e => .error e
    | .ok lf => addScaled T lf shifted gen

/-- The steps over the data bytes, one for each (R195). -/
def rsSteps (T : Tables) (gen : List Nat) : List Byte → List Byte → Except TableMiss (List Byte)
  | buf, [] => .ok buf
  | buf, d :: ds =>
    match rsStep T gen buf d with
    | .error e => .error e
    | .ok buf' => rsSteps T gen buf' ds

/-- `RSDIV(d, k)` with the exponents of `GEN(k)` (R195): the k correction bytes of a data block, or the
lookup of EXP or LOG that missed. -/
def rsDiv (T : Tables) (gen : List Nat) (k : Nat) (data : List Byte) : Except TableMiss (List Byte) :=
  rsSteps T gen (List.replicate k 0#8) data

end Sys2Proof.Machine
end

