-- ==== Sys2Proof/Machine/Tables.lean ====
section
/-! DEFINITION. The standard `TABLES` record, which is QRCE's (00_scope.md R6, R7): capacities, block counts,
generators, alignment centres, version codes, format codes, and the antilog and log tables of
Machine/Gf.lean. -/

namespace Sys2Proof.Machine

/-- The number of data codewords for L, M, Q, H, one row for each version from 1 on (R166's table, whose
first figure of each cell this is). -/
def dataCodewordRows : List (List Nat) :=
  [[19, 16, 13, 9],
      [34, 28, 22, 16],
      [55, 44, 34, 26],
      [80, 64, 48, 36],
      [108, 86, 62, 46],
      [136, 108, 76, 60],
      [156, 124, 88, 66],
      [194, 154, 110, 86],
      [232, 182, 132, 100],
      [274, 216, 154, 122]]
    ++ [[324, 254, 180, 140],
      [370, 290, 206, 158],
      [428, 334, 244, 180],
      [461, 365, 261, 197],
      [523, 415, 295, 223],
      [589, 453, 325, 253],
      [647, 507, 367, 283],
      [721, 563, 397, 313],
      [795, 627, 445, 341],
      [861, 669, 485, 385]]
    ++ [[932, 714, 512, 406],
      [1006, 782, 568, 442],
      [1094, 860, 614, 464],
      [1174, 914, 664, 514],
      [1276, 1000, 718, 538],
      [1370, 1062, 754, 596],
      [1468, 1128, 808, 628],
      [1531, 1193, 871, 661],
      [1631, 1267, 911, 701],
      [1735, 1373, 985, 745]]
    ++ [[1843, 1455, 1033, 793],
      [1955, 1541, 1115, 845],
      [2071, 1631, 1171, 901],
      [2191, 1725, 1231, 961],
      [2306, 1812, 1286, 986],
      [2434, 1914, 1354, 1054],
      [2566, 1992, 1426, 1096],
      [2702, 2102, 1502, 1142],
      [2812, 2216, 1582, 1222],
      [2956, 2334, 1666, 1276]]

/-- The pairs (N, k) for L, M, Q, H, one row for each version from 1 on (R197's table). -/
def blockRows : List (List (Nat × Nat)) :=
  [[(1, 7), (1, 10), (1, 13), (1, 17)],
      [(1, 10), (1, 16), (1, 22), (1, 28)],
      [(1, 15), (1, 26), (2, 18), (2, 22)],
      [(1, 20), (2, 18), (2, 26), (4, 16)],
      [(1, 26), (2, 24), (4, 18), (4, 22)],
      [(2, 18), (4, 16), (4, 24), (4, 28)],
      [(2, 20), (4, 18), (6, 18), (5, 26)],
      [(2, 24), (4, 22), (6, 22), (6, 26)],
      [(2, 30), (5, 22), (8, 20), (8, 24)],
      [(4, 18), (5, 26), (8, 24), (8, 28)]]
    ++ [[(4, 20), (5, 30), (8, 28), (11, 24)],
      [(4, 24), (8, 22), (10, 26), (11, 28)],
      [(4, 26), (9, 22), (12, 24), (16, 22)],
      [(4, 30), (9, 24), (16, 20), (16, 24)],
      [(6, 22), (10, 24), (12, 30), (18, 24)],
      [(6, 24), (10, 28), (17, 24), (16, 30)],
      [(6, 28), (11, 28), (16, 28), (19, 28)],
      [(6, 30), (13, 26), (18, 28), (21, 28)],
      [(7, 28), (14, 26), (21, 26), (25, 26)],
      [(8, 28), (16, 26), (20, 30), (25, 28)]]
    ++ [[(8, 28), (17, 26), (23, 28), (25, 30)],
      [(9, 28), (17, 28), (23, 30), (34, 24)],
      [(9, 30), (18, 28), (25, 30), (30, 30)],
      [(10, 30), (20, 28), (27, 30), (32, 30)],
      [(12, 26), (21, 28), (29, 30), (35, 30)],
      [(12, 28), (23, 28), (34, 28), (37, 30)],
      [(12, 30), (25, 28), (34, 30), (40, 30)],
      [(13, 30), (26, 28), (35, 30), (42, 30)],
      [(14, 30), (28, 28), (38, 30), (45, 30)],
      [(15, 30), (29, 28), (40, 30), (48, 30)]]
    ++ [[(16, 30), (31, 28), (43, 30), (51, 30)],
      [(17, 30), (33, 28), (45, 30), (54, 30)],
      [(18, 30), (35, 28), (48, 30), (57, 30)],
      [(19, 30), (37, 28), (51, 30), (60, 30)],
      [(19, 30), (38, 28), (53, 30), (63, 30)],
      [(20, 30), (40, 28), (56, 30), (66, 30)],
      [(21, 30), (43, 28), (59, 30), (70, 30)],
      [(22, 30), (45, 28), (62, 30), (74, 30)],
      [(24, 30), (47, 28), (65, 30), (77, 30)],
      [(25, 30), (49, 28), (68, 30), (81, 30)]]

/-- The alignment centre coordinates, one row for each version from 1 on (R246's table). -/
def alignRows : List (List Nat) :=
  [[],
      [6, 18],
      [6, 22],
      [6, 26],
      [6, 30],
      [6, 34],
      [6, 22, 38],
      [6, 24, 42],
      [6, 26, 46],
      [6, 28, 50]]
    ++ [[6, 30, 54],
      [6, 32, 58],
      [6, 34, 62],
      [6, 26, 46, 66],
      [6, 26, 48, 70],
      [6, 26, 50, 74],
      [6, 30, 54, 78],
      [6, 30, 56, 82],
      [6, 30, 58, 86],
      [6, 34, 62, 90]]
    ++ [[6, 28, 50, 72, 94],
      [6, 26, 50, 74, 98],
      [6, 30, 54, 78, 102],
      [6, 28, 54, 80, 106],
      [6, 32, 58, 84, 110],
      [6, 30, 58, 86, 114],
      [6, 34, 62, 90, 118],
      [6, 26, 50, 74, 98, 122],
      [6, 30, 54, 78, 102, 126],
      [6, 26, 52, 78, 104, 130]]
    ++ [[6, 30, 56, 82, 108, 134],
      [6, 34, 60, 86, 112, 138],
      [6, 30, 58, 86, 114, 142],
      [6, 34, 62, 90, 118, 146],
      [6, 30, 54, 78, 102, 126, 150],
      [6, 24, 50, 76, 102, 128, 154],
      [6, 28, 54, 80, 106, 132, 158],
      [6, 32, 58, 84, 110, 136, 162],
      [6, 26, 54, 82, 110, 138, 166],
      [6, 30, 58, 86, 114, 142, 170]]

/-- The version codes of versions 7 to 40 (R248's table). -/
def versionCodes : List Nat :=
  [0x07C94, 0x085BC, 0x09A99, 0x0A4D3, 0x0BBF6, 0x0C762, 0x0D847, 0x0E60D, 0x0F928]
    ++ [0x10B78, 0x1145D, 0x12A17, 0x13532, 0x149A6, 0x15683, 0x168C9, 0x177EC, 0x18EC4]
    ++ [0x191E1, 0x1AFAB, 0x1B08E, 0x1CC1A, 0x1D33F, 0x1ED75, 0x1F250, 0x209D5, 0x216F0]
    ++ [0x228BA, 0x2379F, 0x24B0B, 0x2542E, 0x26A64, 0x27541, 0x28C69]

/-- The format codes for masks 0 to 7, one row for each level L, M, Q, H (R275's table). -/
def formatCodeRows : List (List Nat) :=
  [[0x77C4, 0x72F3, 0x7DAA, 0x789D, 0x662F, 0x6318, 0x6C41, 0x6976],
      [0x5412, 0x5125, 0x5E7C, 0x5B4B, 0x45F9, 0x40CE, 0x4F97, 0x4AA0],
      [0x355F, 0x3068, 0x3F31, 0x3A06, 0x24B4, 0x2183, 0x2EDA, 0x2BED],
      [0x1689, 0x13BE, 0x1CE7, 0x19D0, 0x0762, 0x0255, 0x0D0C, 0x083B]]

/-- The row of version `v`, from 1 on; no row outside 1..40. -/
def versionRow {α : Type} (rows : List (List α)) (v : Nat) : Option (List α) :=
  if v = 0 then none else rows[v - 1]?

/-- `CAP(v, l)` in bits: 8 × the number of data codewords (41_capacity_padding.md R166). -/
def stdCap (v l : Nat) : Option Nat :=
  ((versionRow dataCodewordRows v).bind (·[l]?)).map (8 * ·)

/-- `NB(v, l)` (42_gf_rs.md R197). -/
def stdNb (v l : Nat) : Option Nat := ((versionRow blockRows v).bind (·[l]?)).map (·.1)

/-- `ECB(v, l)` (42_gf_rs.md R197). -/
def stdEcb (v l : Nat) : Option Nat := ((versionRow blockRows v).bind (·[l]?)).map (·.2)

/-- `GEN(k)`: missing outside 7..68 (42_gf_rs.md R194). -/
def stdGen (k : Nat) : Option (List Nat) :=
  if Config.kMin ≤ k ∧ k ≤ Config.kMax then genExponents k else none

/-- `APOS(v)` (44_matrix_patterns.md R246). -/
def stdApos (v : Nat) : Option (List Nat) := versionRow alignRows v

/-- `VCODE(v)`: missing for v < 7 (44_matrix_patterns.md R248). -/
def stdVcode (v : Nat) : Option Nat := if v < 7 then none else versionCodes[v - 7]?

/-- `FCODE(l, m)` (45_placement_mask.md R275). -/
def stdFcode (l m : Nat) : Option Nat := (formatCodeRows[l]?).bind (·[m]?)

/-- QRCE's tables (00_scope.md R6 `TABLES`, log 13). -/
def standardTables : Tables where
  cap := stdCap
  nb := stdNb
  ecb := stdEcb
  gen := stdGen
  apos := stdApos
  vcode := stdVcode
  fcode := stdFcode
  exp := gfExp
  log := gfLog

end Sys2Proof.Machine
end

