-- ==== Sys2Proof/Machine/Capacity.lean ====
section
/-! DEFINITION. The Capacity Selector and the padding engine: SELECT and PAD (41_capacity_padding.md). -/

namespace Sys2Proof.Machine

/-- Mode indicator: digit `0001`, alphanumeric `0010`, byte `0100` (R160). -/
def modeIndicator (mode : Nat) : Bits :=
  match mode with
  | 0 => bin 0b0001 4
  | 1 => bin 0b0010 4
  | _ => bin 0b0100 4

/-- Width of the character-count field, `W(mode, v)` (R161). -/
def countWidth (mode v : Nat) : Nat :=
  if v ≤ 9 then
    match mode with
    | 0 => 10
    | 1 => 9
    | _ => 8
  else if v ≤ 26 then
    match mode with
    | 0 => 12
    | 1 => 11
    | _ => 16
  else
    match mode with
    | 0 => 14
    | 1 => 13
    | _ => 16

/-- The header `MI(mode) ++ bin(CHAR_COUNT, W(mode, v))` (R162). -/
def header (mode v cnt : Nat) : Bits := modeIndicator mode ++ bin cnt (countWidth mode v)

/-- What the version search can answer other than a version (R163, R164, R168): the error and its
ERRINFO. -/
abbrev SearchError := ErrCode × Nat

/-- A missing CAP entry (60_exceptions.md R351, table id 1). -/
def capMissing (v l : Nat) : SearchError :=
  (.internalTableLookup, v ||| (l <<< 8) ||| (1 <<< 16))

/-- No version fits: `DataTooLarge` with CAP(40, l), or `InternalTableLookup` if that entry is missing
(R168). -/
def tooLarge (T : Tables) (l : Nat) : SearchError :=
  match T.cap Config.vMax l with
  | some c => (.dataTooLarge, c)
  | none => capMissing Config.vMax l

/-- First step of the search (R164, R170): from `v` on, the first of the next `k` versions whose capacity
exceeds the raw length. -/
def firstVersion (T : Tables) (l n : Nat) : Nat → Nat → Except SearchError Nat
  | 0, _ => .error (tooLarge T l)
  | k + 1, v =>
    match T.cap v l with
    | none => .error (capMissing v l)
    | some c => if n < c then .ok v else firstVersion T l n k (v + 1)

/-- Fit loop (R165, R170): from `v` on, the first of the next `k` versions that holds header and data;
at each version the count must fit its field first (R163). The answer is the version and its capacity. -/
def fitVersion (T : Tables) (mode l n cnt : Nat) : Nat → Nat → Except SearchError (Nat × Nat)
  | 0, _ => .error (tooLarge T l)
  | k + 1, v =>
    match T.cap v l with
    | none => .error (capMissing v l)
    | some c =>
      if 2 ^ countWidth mode v ≤ cnt then
        .error (.lengthField, v ||| (countWidth mode v <<< 8))
      else if 4 + countWidth mode v + n ≤ c then .ok (v, c)
      else fitVersion T mode l n cnt k (v + 1)

/-- The version search of SELECT (R164, R165): versions 1 to 40. -/
def searchVersion (T : Tables) (mode l n cnt : Nat) : Except SearchError (Nat × Nat) :=
  match firstVersion T l n Config.vMax 1 with
  | .error e => .error e
  | .ok v0 => fitVersion T mode l n cnt (Config.vMax + 1 - v0) v0

/-- What a successful SELECT leaves: the stream `header ++ raw` in BBUF, the result registers, the stage
(R170). -/
def State.selected (s : State) (mode l v c : Nat) (raw : Bits) : State :=
  let stream := header mode v s.charCount.toNat ++ raw
  { s.storeBits stream with
    version := BitVec.ofNat 6 v
    selLevel := BitVec.ofNat 2 l
    size := BitVec.ofNat 8 (17 + 4 * v)
    capBits := BitVec.ofNat 16 c
    streamLen := BitVec.ofNat 17 stream.length
    pstage := .selected }

/-- The family rule of SELECT (R170). -/
def performSelect (T : Tables) (s : State) : Perf :=
  let mode := s.mode.toNat
  let l := s.ecl.toNat
  let n := s.rawLen.toNat
  if 2 < mode then raise s .select .invalidMode mode
  else if 3 < l then raise s .select .invalidCorrectionLevel l
  else if 65536 < n then raiseParam s .select 0x028 n
  else
    match searchVersion T mode l n s.charCount.toNat with
    | .error e => raise s .select e.1 e.2
    | .ok (v, c) =>
      match loadBits .select n s with
      | .error f => .stopped f
      | .ok raw => .ok (s.selected mode l v c raw)

/-- SELECT (R170). -/
def execSelect (s : State) : Host.Outcome State Fault Refusal :=
  runCommand .select (performSelect standardTables) s

/-- Terminator and byte boundary (R169): up to four zeros, then zeros to a multiple of 8. -/
def terminate (c : Nat) (x : Bits) : Bits :=
  let t := x ++ zeros (min 4 (c - x.length))
  t ++ zeros ((8 - t.length % 8) % 8)

/-- The `i`-th pad byte: 0xEC and 0x11 in turn, 0xEC first (R171). -/
def padByte (i : Nat) : Bits := if i % 2 = 0 then bin 0b11101100 8 else bin 0b00010001 8

/-- Padding to the capacity (R169, R171): the stream `x`, terminated, then pad bytes while it is shorter
than `c`. -/
def padStream (c : Nat) (x : Bits) : Bits :=
  let t := terminate c x
  t ++ (List.range ((c - t.length + 7) / 8)).flatMap padByte

/-- The family rule of PAD behind its stage check (R172). -/
def performPad (s : State) : Perf :=
  let c := s.capBits.toNat
  match loadBits .pad s.streamLen.toNat s with
  | .error f => .stopped f
  | .ok x =>
    .ok { s.storeBits (padStream c x) with streamLen := BitVec.ofNat 17 c, pstage := .padded }

/-- PAD (R172). -/
def execPad (s : State) : Host.Outcome State Fault Refusal := runCommand .pad performPad s

end Sys2Proof.Machine
end

