-- ==== Sys2Proof/Machine/Encoder.lean ====
section
/-! DEFINITION. The Mode Encoder: ENCODE (40_mode_encoder.md). -/

namespace Sys2Proof.Machine

/-- Digit value of a byte, byte − 0x30; `none` outside the digit alphabet (R141). -/
def digitValue (b : Byte) : Option Nat :=
  if 0x30 ≤ b.toNat ∧ b.toNat ≤ 0x39 then some (b.toNat - 0x30) else none

/-- Value of a character of the 45-symbol alphabet; `none` outside it (R143). -/
def alnumValue (b : Byte) : Option Nat :=
  if 0x30 ≤ b.toNat ∧ b.toNat ≤ 0x39 then some (b.toNat - 0x30)
  else if 0x41 ≤ b.toNat ∧ b.toNat ≤ 0x5A then some (b.toNat - 0x41 + 10)
  else
    match b.toNat with
    | 0x20 => some 36
    | 0x24 => some 37
    | 0x25 => some 38
    | 0x2A => some 39
    | 0x2B => some 40
    | 0x2D => some 41
    | 0x2E => some 42
    | 0x2F => some 43
    | 0x3A => some 44
    | _ => none

/-- Digit grouping (R142): groups of three digits in 10 bits, then two in 7 or one in 4. -/
def digitBits : List Nat → Bits
  | d0 :: d1 :: d2 :: ds => bin (100 * d0 + 10 * d1 + d2) 10 ++ digitBits ds
  | [d0, d1] => bin (10 * d0 + d1) 7
  | [d0] => bin d0 4
  | [] => []

/-- Alphanumeric grouping (R144): pairs in 11 bits, a trailing single character in 6. -/
def alnumBits : List Nat → Bits
  | a :: b :: cs => bin (45 * a + b) 11 ++ alnumBits cs
  | [a] => bin a 6
  | [] => []

/-- Byte mode (R145): eight bits for each byte. -/
def byteBits (t : List Byte) : Bits := unpackBytes t

/-- The values of the characters of a text, or the index of the first one outside the alphabet
(R141, R143). -/
def textValues (value : Byte → Option Nat) : List Byte → Nat → Except Nat (List Nat)
  | [], _ => .ok []
  | b :: bs, i =>
    match value b with
    | none => .error i
    | some v =>
      match textValues value bs (i + 1) with
      | .ok vs => .ok (v :: vs)
      | .error j => .error j

/-- A text in an alphabet that needs at least one character (R141, R143): its values, or the index that
ERRINFO names, 0 for an empty text (R148). -/
def alphabetText (value : Byte → Option Nat) (t : List Byte) : Except Nat (List Nat) :=
  if t = [] then .error 0 else textValues value t 0

/-- The bit string of a text in mode 0, 1 or 2, or the index of the first offending byte (R141 to R145). -/
def encodeText (mode : Nat) (t : List Byte) : Except Nat Bits :=
  match mode with
  | 0 => (alphabetText digitValue t).map digitBits
  | 1 => (alphabetText alnumValue t).map alnumBits
  | _ => .ok (byteBits t)

/-- The family rule of ENCODE (R148). -/
def performEncode (s : State) : Perf :=
  let mode := s.mode.toNat
  let n := s.inLen.toNat
  if 2 < mode then raise s .encode .invalidMode mode
  else if Config.ibufSize < n then raiseParam s .encode 0x020 n
  else
    match readBuf .encode .ibuf n s with
    | .error f => .stopped f
    | .ok t =>
      match encodeText mode t with
      | .error i => raise s .encode .invalidCharacterSet (mode ||| (i <<< 16))
      | .ok bits =>
        .ok { s.storeBits bits with rawLen := BitVec.ofNat 17 bits.length, pstage := .encoded }

/-- ENCODE (R148). -/
def execEncode (s : State) : Host.Outcome State Fault Refusal := runCommand .encode performEncode s

end Sys2Proof.Machine
end

