-- ==== Sys2Proof/Machine/RsEngine.lean ====
section
/-! DEFINITION. The Block Divider and the commands of the division engine: ECGEN and RS_RAW
(42_gf_rs.md). -/

namespace Sys2Proof.Machine

/-- `len(j)` (R198): b, and one more from block N − r on. -/
def blockLen (N b r j : Nat) : Nat := b + if N ≤ j + r then 1 else 0

/-- `off(j) = j·b + max(0, j − (N − r))` (R198). -/
def blockOff (N b r j : Nat) : Nat := j * b + (j + r - N)

/-- The data blocks (R198, 43_interleave.md R230): block j is the `len(j)` codewords from `off(j)` on. -/
def dataBlocks (N b r : Nat) (data : List Byte) : List (List Byte) :=
  (List.range N).map fun j => (data.drop (blockOff N b r j)).take (blockLen N b r j)

/-- The correction blocks of the data blocks, one after the other (R200); or the lookup that missed. -/
def divideBlocks (T : Tables) (gen : List Nat) (k : Nat) :
    List (List Byte) → Except TableMiss (List Byte)
  | [] => .ok []
  | d :: ds =>
    match rsDiv T gen k d with
    | .error e => .error e
    | .ok e =>
      match divideBlocks T gen k ds with
      | .error m => .error m
      | .ok es => .ok (e ++ es)

/-- What a successful ECGEN leaves (R200): the correction blocks in EBUF, the result registers, the
stage. -/
def State.ecGenerated (s : State) (N k : Nat) (ec : List Byte) : State :=
  let D := s.capBits.toNat / 8
  { s.writeBuf .ebuf ec with
    numBlocks := BitVec.ofNat 8 N
    ecLen := BitVec.ofNat 7 k
    blkShort := BitVec.ofNat 8 (D / N)
    blkNlong := BitVec.ofNat 8 (D % N)
    pstage := .ecDone }

/-- The family rule of ECGEN behind its stage check (R200). A missing GEN entry is reported with level 0, for
GEN has no level (60_exceptions.md R351, log 16). Every lookup comes before the first write
(60_exceptions.md R354). -/
def performEcgen (T : Tables) (s : State) : Perf :=
  let v := s.version.toNat
  let l := s.selLevel.toNat
  match T.nb v l with
  | none | some 0 => raiseTable s .ecgen v l 2
  | some N =>
    match T.ecb v l with
    | none => raiseTable s .ecgen v l 3
    | some k =>
      match genOf T k with
      | none => raiseTable s .ecgen k 0 4
      | some gen =>
        let D := s.capBits.toNat / 8
        match readBuf .ecgen .bbuf D s with
        | .error f => .stopped f
        | .ok data =>
          match divideBlocks T gen k (dataBlocks N (D / N) (D % N) data) with
          | .error (x, table) => raiseTable s .ecgen x 0 table
          | .ok ec => .ok (s.ecGenerated N k ec)

/-- ECGEN (R200). -/
def execEcgen (s : State) : Host.Outcome State Fault Refusal :=
  runCommand .ecgen (performEcgen standardTables) s

/-- The family rule of RS_RAW (R201). -/
def performRsRaw (T : Tables) (s : State) : Perf :=
  let k := s.rsK.toNat
  let n := s.rsLen.toNat
  if k < Config.kMin ∨ Config.kMax < k then raiseParam s .rsRaw 0x068 k
  else if 8192 < n then raiseParam s .rsRaw 0x06C n
  else
    match genOf T k with
    | none => raiseTable s .rsRaw k 0 4
    | some gen =>
      match readBuf .rsRaw .bbuf n s with
      | .error f => .stopped f
      | .ok data =>
        match rsDiv T gen k data with
        | .error (x, table) => raiseTable s .rsRaw x 0 table
        | .ok ec => .ok { s.writeBuf .ebuf ec with ecLen := BitVec.ofNat 7 k, pstage := .idle }

/-- RS_RAW (R201). -/
def execRsRaw (s : State) : Host.Outcome State Fault Refusal :=
  runCommand .rsRaw (performRsRaw standardTables) s

end Sys2Proof.Machine
end

