-- ==== Sys2Proof/Machine/Interleaver.lean ====
section
/-! DEFINITION. The Interleaver: INTERLEAVE (43_interleave.md). -/

namespace Sys2Proof.Machine

/-- A column-major walk over the first `cols` columns (R231): at each column, in block order, the byte of
every block that has one there; a shorter block contributes nothing. -/
def columnWalk (cols : Nat) (blocks : List (List Byte)) : List Byte :=
  (List.range cols).flatMap fun c => blocks.filterMap fun b => b[c]?

/-- The final codeword sequence (R231): the walk over the data blocks, then over the N correction blocks of
k bytes. -/
def interleaved (N k b r : Nat) (data ec : List Byte) : List Byte :=
  columnWalk (b + if 0 < r then 1 else 0) (dataBlocks N b r data) ++ columnWalk k (chunks k N ec)

/-- The family rule of INTERLEAVE behind its stage check (R230, R231). The data blocks end at byte
N·b + r, or there is none (R199). A sequence longer than FBUF does not arise (R233, log 10). -/
def performInterleave (s : State) : Perf :=
  let N := s.numBlocks.toNat
  let k := s.ecLen.toNat
  let b := s.blkShort.toNat
  let r := s.blkNlong.toNat
  match readBuf .interleave .bbuf (if N = 0 then 0 else N * b + r) s with
  | .error f => .stopped f
  | .ok data =>
    match readBuf .interleave .ebuf (N * k) s with
    | .error f => .stopped f
    | .ok ec =>
      let out := interleaved N k b r data ec
      if Config.fbufSize < out.length then
        .stopped (.outsideMemory .interleave (Buf.fbuf.base + Buf.fbuf.size))
      else
        .ok { s.writeBuf .fbuf out with
              totalCw := BitVec.ofNat 12 out.length, pstage := .interleaved }

/-- INTERLEAVE (R231). -/
def execInterleave (s : State) : Host.Outcome State Fault Refusal :=
  runCommand .interleave performInterleave s

end Sys2Proof.Machine
end

