-- ==== Sys2Proof/Machine/MatrixBuilder.lean ====
section
/-! DEFINITION. The Matrix Builder's structural patterns: BUILD (44_matrix_patterns.md). -/

namespace Sys2Proof.Machine

/-- One stamp: row, column, module value (R240). -/
abbrev Stamp := Nat × Nat × Bool

/-- `stamp(r, c, x)`: bit x, st 1 (R240). -/
def Grid.stamp (g : Grid) (p : Stamp) : Grid := g.modifyCell p.1 p.2.1 fun _ => ⟨p.2.2, true⟩

/-- Stamps made in order; a later one overwrites (R240, R241). -/
def Grid.stampAll (g : Grid) (ps : List Stamp) : Grid := ps.foldl Grid.stamp g

/-- The distance of i and j. -/
def distance (i j : Nat) : Nat := (i - j) + (j - i)

/-- The finder pattern with its separator around (cr, cc), clipped to the symbol of side S (R242): the
offsets −4 .. 4 stand here as 0 .. 8. -/
def finderStamps (S cr cc : Nat) : List Stamp :=
  (List.range 9).flatMap fun i =>
    (List.range 9).filterMap fun j =>
      let d := max (distance i 4) (distance j 4)
      if 4 ≤ cr + i ∧ cr + i < S + 4 ∧ 4 ≤ cc + j ∧ cc + j < S + 4 then
        some (cr + i - 4, cc + j - 4, d == 0 || d == 1 || d == 3)
      else none

/-- The three finder patterns: top left, top right, bottom left (R242). -/
def allFinderStamps (S : Nat) : List Stamp :=
  finderStamps S 3 3 ++ finderStamps S 3 (S - 4) ++ finderStamps S (S - 4) 3

/-- The dark module (R243). -/
def darkModule (V : Nat) : Stamp := (4 * V + 9, 8, true)

/-- The alignment pattern around (ar, ac) (R244): the offsets −2 .. 2 stand here as 0 .. 4. -/
def alignmentStamps (ar ac : Nat) : List Stamp :=
  (List.range 5).flatMap fun i =>
    (List.range 5).map fun j =>
      (ar + i - 2, ac + j - 2, max (distance i 2) (distance j 2) != 1)

/-- The alignment centres (R245): the cross product of the positions, in order, less the three corners
that the finder patterns cover. -/
def alignmentCentres (P : List Nat) : List (Nat × Nat) :=
  match P.head?, P.getLast? with
  | some p0, some pl =>
    P.flatMap fun ar =>
      P.filterMap fun ac =>
        if (ar = p0 ∧ ac = p0) ∨ (ar = p0 ∧ ac = pl) ∨ (ar = pl ∧ ac = p0) then none
        else some (ar, ac)
  | _, _ => []

/-- All alignment patterns (R245). -/
def allAlignmentStamps (P : List Nat) : List Stamp :=
  (alignmentCentres P).flatMap fun c => alignmentStamps c.1 c.2

/-- The two version-information blocks of a version code (R249). -/
def versionStamps (S code : Nat) : List Stamp :=
  (List.range 18).flatMap fun i =>
    [(i / 3, S - 11 + i % 3, code.testBit i), (S - 11 + i % 3, i / 3, code.testBit i)]

/-- A timing stamp: only where the cell is not structural yet (R250). -/
def Grid.stampFree (g : Grid) (p : Stamp) : Grid :=
  if (g.cell p.1 p.2.1).st then g else g.stamp p

/-- The timing strips of row 6 and column 6, dark at even index (R250). -/
def timingStamps (S : Nat) : List Stamp :=
  (List.range S).flatMap fun i => [(6, i, i % 2 == 0), (i, 6, i % 2 == 0)]

/-- `FCELL1(i)`, the format cells around the top-left finder (R251). -/
def formatCell1 (i : Nat) : Nat × Nat :=
  if i ≤ 5 then (i, 8)
  else if i = 6 then (7, 8)
  else if i = 7 then (8, 8)
  else if i = 8 then (8, 7)
  else (8, 14 - i)

/-- `FCELL2(i)`, the format cells beside the other two finders (R251). -/
def formatCell2 (S i : Nat) : Nat × Nat :=
  if i ≤ 7 then (8, S - 1 - i) else (S - 15 + i, 8)

/-- The format-information placeholders: bit 0 (R251). -/
def formatStamps (S : Nat) : List Stamp :=
  (List.range 15).flatMap fun i =>
    [((formatCell1 i).1, (formatCell1 i).2, false), ((formatCell2 S i).1, (formatCell2 S i).2, false)]

/-- The grid BUILD makes from a square of clear cells, in the stamp order of R241: finders, dark module,
alignment patterns, version blocks, timing strips, format placeholders. `code` is the version code
where there is one. -/
def stampSymbol (V : Nat) (P : List Nat) (code : Option Nat) (g : Grid) : Grid :=
  let S := 17 + 4 * V
  let g := g.stampAll (allFinderStamps S)
  let g := g.stamp (darkModule V)
  let g := g.stampAll (allAlignmentStamps P)
  let g := g.stampAll (match code with
    | some x => versionStamps S x
    | none => [])
  let g := (timingStamps S).foldl Grid.stampFree g
  g.stampAll (formatStamps S)

/-- The number of cells of the top-left S × S square that are not structural (R252). -/
def freeCount (S : Nat) (g : Grid) : Nat :=
  ((g.take S).map fun row => (row.take S).countP fun c => !c.st).sum

/-- What a successful BUILD leaves (R252): every cell of MAT, FREE_CELLS, the scores and TRIAL_DONE
cleared, the stage. -/
def State.built (s : State) (V : Nat) (P : List Nat) (code : Option Nat) : State :=
  let g := stampSymbol V P code (Grid.blank Config.sMax)
  { s.storeGrid g with
    freeCells := BitVec.ofNat 16 (freeCount (17 + 4 * V) g)
    scores := Vector.replicate 8 0#32
    trialDone := 0x00#8
    pstage := .patternsPlaced }

/-- The family rule of BUILD behind its stage check (R252). -/
def performBuild (T : Tables) (s : State) : Perf :=
  let V := s.version.toNat
  match T.apos V with
  | none => raiseTable s .build V 0 5
  | some P =>
    if V < 7 then .ok (s.built V P none)
    else
      match T.vcode V with
      | none => raiseTable s .build V 0 6
      | some code => .ok (s.built V P (some code))

/-- BUILD (R252). -/
def execBuild (s : State) : Host.Outcome State Fault Refusal :=
  runCommand .build (performBuild standardTables) s

end Sys2Proof.Machine
end

