-- ==== Sys2Proof/Machine/PenaltyUnit.lean ====
section
/-! DEFINITION. The penalty-score accumulator: SCORE, and the score TRIAL uses (46_penalty_select.md). -/

namespace Sys2Proof.Machine

/-- A line of a region: a row or a column, dark = true (R300). -/
abbrev Line := List Bool

/-- The lengths of the maximal runs of equal bits of a line (R301). -/
def runLengths : Line → List Nat
  | [] => []
  | [_] => [1]
  | a :: b :: l =>
    if a = b then
      match runLengths (b :: l) with
      | n :: ns => (n + 1) :: ns
      | [] => [1]
    else 1 :: runLengths (b :: l)

/-- Rule 1 over one line: each maximal run of length L ≥ 5 adds L − 2 (R301). -/
def runScore (l : Line) : Nat := ((runLengths l).map fun n => if 5 ≤ n then n - 2 else 0).sum

/-- The two finder-like literals `10111010000` and `00001011101` (R303). -/
def finderLike : List Line := [bin 0b10111010000 11, bin 0b00001011101 11]

/-- Rule 3 over one line: 40 for each window of 11 bits inside it that equals a literal (R303). -/
def finderScore : Line → Nat
  | [] => 0
  | b :: l => (if (b :: l).take 11 ∈ finderLike then 40 else 0) + finderScore l

/-- The number of 2 × 2 blocks of one colour in two rows, one above the other (R302). -/
def rowPairBlocks : Line → Line → Nat
  | a :: a' :: as, b :: b' :: bs =>
    (if a = a' ∧ a = b ∧ a = b' then 1 else 0) + rowPairBlocks (a' :: as) (b' :: bs)
  | _, _ => 0

/-- The number of 2 × 2 blocks of one colour, overlapping ones each counted (R302). -/
def blockCount : List Line → Nat
  | r :: r' :: rows => rowPairBlocks r r' + blockCount (r' :: rows)
  | _ => 0

/-- The columns of an n × n region, each top to bottom (R300). -/
def columns (n : Nat) (rows : List Line) : List Line :=
  (List.range n).map fun c => rows.map fun r => r.getD c false

/-- Rule 4 (R304): `(|100·dark − 50·T| div T)·2`, T = n·n. -/
def balanceScore (n : Nat) (rows : List Line) : Nat :=
  let dark := (rows.map fun r => r.countP id).sum
  let t := n * n
  ((100 * dark - 50 * t) + (50 * t - 100 * dark)) / t * 2

/-- The six components A1 .. A6 of a score (R306). -/
structure Components where
  a1 : Nat
  a2 : Nat
  a3 : Nat
  a4 : Nat
  a5 : Nat
  a6 : Nat
  deriving DecidableEq, Repr

/-- The sum of the components (R305). -/
def Components.total (a : Components) : Nat := a.a1 + a.a2 + a.a3 + a.a4 + a.a5 + a.a6

/-- The accumulator over an n × n region, given by its rows (R306). -/
def penaltyOf (n : Nat) (rows : List Line) : Components where
  a1 := (rows.map runScore).sum
  a2 := ((columns n rows).map runScore).sum
  a3 := 3 * blockCount rows
  a4 := (rows.map finderScore).sum
  a5 := ((columns n rows).map finderScore).sum
  a6 := balanceScore n rows

/-- The rows of bits of a square of cells (R300). -/
def Grid.lines (g : Grid) : List Line := g.map fun row => row.map MatCell.bit

/-- The breakdown registers P_R1ROW .. P_TOTAL of a score (10_state.md R52). -/
def Components.registers (a : Components) : Penalty where
  r1row := BitVec.ofNat 32 a.a1
  r1col := BitVec.ofNat 32 a.a2
  r2 := BitVec.ofNat 32 a.a3
  r3row := BitVec.ofNat 32 a.a4
  r3col := BitVec.ofNat 32 a.a5
  r4 := BitVec.ofNat 32 a.a6
  total := BitVec.ofNat 32 a.total

/-- The family rule of SCORE (R314). -/
def performScore (s : State) : Perf :=
  let n := s.scoreN.toNat
  if n < 1 ∨ Config.sMax < n then raiseParam s .score 0x064 n
  else
    match loadGrid .score n s with
    | .error f => .stopped f
    | .ok g => .ok { s with penalty := (penaltyOf n g.lines).registers }

/-- SCORE (R314). -/
def execScore (s : State) : Host.Outcome State Fault Refusal := runCommand .score performScore s

end Sys2Proof.Machine
end

