-- ==== Sys2Proof/Machine/Placement.lean ====
section
/-! DEFINITION. The bit-placement FSM, masks, format information: TRIAL (45_placement_mask.md); and the
min-selector with COMMIT, which places again with the winning mask (46_penalty_select.md R312, R313). -/

namespace Sys2Proof.Machine

/-- The mask conditions M_m(i, j) of row i and column j (R270). -/
def maskAt (m : Fin 8) (i j : Nat) : Bool :=
  match m with
  | 0 => (i + j) % 2 == 0
  | 1 => i % 2 == 0
  | 2 => j % 3 == 0
  | 3 => (i + j) % 3 == 0
  | 4 => (i / 2 + j / 3) % 2 == 0
  | 5 => (i * j) % 2 + (i * j) % 3 == 0
  | 6 => ((i * j) % 2 + (i * j) % 3) % 2 == 0
  | 7 => ((i + j) % 2 + (i * j) % 3) % 2 == 0

/-- A write of the module bit alone (R276, R282). -/
def Grid.setBit (g : Grid) (r c : Nat) (x : Bool) : Grid :=
  g.modifyCell r c fun cell => { cell with bit := x }

/-- `writeFormat(f)`: the 15 bits of a format code in both copies of the format cells, unmasked; st is not
changed (R276). -/
def Grid.writeFormat (S f : Nat) (g : Grid) : Grid :=
  (List.range 15).foldl
    (fun g i =>
      (g.setBit (formatCell1 i).1 (formatCell1 i).2 (f.testBit i)).setBit
        (formatCell2 S i).1 (formatCell2 S i).2 (f.testBit i))
    g

/-- The position cursor (R280): the row, the right column of the pair, the vertical direction, and whether
it stands in the left column (`sub` = 1). -/
structure Cursor where
  row : Nat
  right : Nat
  up : Bool
  sub : Bool
  deriving DecidableEq, Repr

/-- The start of the walk, at the bottom-right module (R280). -/
def Cursor.start (S : Nat) : Cursor := ⟨S - 1, S - 1, true, false⟩

/-- The right column after a shift of two columns to the left, skipping column 6 (R280). -/
def shiftLeft (right : Nat) : Nat := if right - 2 = 6 then 5 else right - 2

/-- One advance of the cursor (R280). -/
def Cursor.advance (S : Nat) (k : Cursor) : Cursor :=
  if k.sub = false then { k with sub := true }
  else if k.up then
    if k.row = 0 then ⟨0, shiftLeft k.right, false, false⟩
    else ⟨k.row - 1, k.right, true, false⟩
  else
    if S - 1 ≤ k.row then ⟨S - 1, shiftLeft k.right, true, false⟩
    else ⟨k.row + 1, k.right, false, false⟩

/-- The cell of the cursor, (row, right − sub) (R280). -/
def Cursor.cell (k : Cursor) : Nat × Nat := (k.row, if k.sub then k.right - 1 else k.right)

/-- The cells the cursor visits in at most `n` advances, until `right < 1` (R280). -/
def walk (S : Nat) : Nat → Cursor → List (Nat × Nat)
  | 0, _ => []
  | n + 1, k => if k.right < 1 then [] else k.cell :: walk S n (k.advance S)

/-- The cells visited in a symbol of side S, structural ones among them (R280). The walk visits S·(S − 1)
cells. -/
def visited (S : Nat) : List (Nat × Nat) := walk S (S * S) (Cursor.start S)

/-- `ZZ(S)`: the visited cells that are not structural, in order (R280). -/
def zigzag (S : Nat) (g : Grid) : List (Nat × Nat) :=
  (visited S).filter fun p => !(g.cell p.1 p.2).st

/-- A stream bit placed at a cell under a mask (R271, R282). -/
def placeBit (m : Fin 8) (g : Grid) (q : (Nat × Nat) × Bool) : Grid :=
  g.setBit q.1.1 q.1.2 (q.2 ^^ maskAt m q.1.1 q.1.2)

/-- `place(m)` on the cells and the bits of the stream, cell by cell until one of the two is exhausted
(R282, R283). -/
def placeAll (m : Fin 8) (cells : List (Nat × Nat)) (bits : Bits) (g : Grid) : Grid :=
  (cells.zip bits).foldl (placeBit m) g

/-- The number of stream bits placed, min(8T, |ZZ|) (R282). -/
def placedCount (S T : Nat) (g : Grid) : Nat := min (8 * T) (zigzag S g).length

/-- The symbol with the format bits of code `f` and the stream placed under mask `m` (R286, R313). -/
def placeSymbol (S f : Nat) (m : Fin 8) (bits : Bits) (g : Grid) : Grid :=
  placeAll m (zigzag S g) bits (g.writeFormat S f)

/-- What TRIAL and COMMIT share: the symbol after `writeFormat` and `place` under mask `m`, and the number
of bits placed. The engine reads the symbol and as many bytes of FBUF as it places bits of. -/
def drawSymbol (cmd : Instr) (f : Nat) (m : Fin 8) (s : State) : Except Fault (Grid × Nat) :=
  let S := s.size.toNat
  match loadGrid cmd S s with
  | .error x => .error x
  | .ok g =>
    let n := placedCount S s.totalCw.toNat g
    match readBuf cmd .fbuf ((n + 7) / 8) s with
    | .error x => .error x
    | .ok bytes => .ok (placeSymbol S f m ((unpackBytes bytes).take n) g, n)

/-- What a successful TRIAL leaves (R286): the symbol, SCORE[m], the breakdown, PLACED_BITS, the mask's bit
of TRIAL_DONE, the stage. -/
def State.tried (s : State) (m : Fin 8) (g : Grid) (n : Nat) : State :=
  let a := penaltyOf s.size.toNat g.lines
  { s.storeGrid g with
    scores := s.scores.set m (BitVec.ofNat 32 a.total)
    penalty := a.registers
    placedBits := BitVec.ofNat 16 n
    trialDone := markTrial s.trialDone m
    pstage := .trialing }

/-- The family rule of TRIAL behind its stage check (R286). -/
def performTrial (T : Tables) (m : Fin 8) (s : State) : Perf :=
  let l := s.selLevel.toNat
  match T.fcode l m.val with
  | none => raiseTable s (.trial m) m.val l 7
  | some f =>
    match drawSymbol (.trial m) f m s with
    | .error x => .stopped x
    | .ok (g, n) => .ok (s.tried m g n)

/-- TRIAL m (R286). -/
def execTrial (m : Fin 8) (s : State) : Host.Outcome State Fault Refusal :=
  runCommand (.trial m) (performTrial standardTables m) s

/-- The min-selector (46_penalty_select.md R312): the least index whose score is minimal. -/
def selectMask (scores : Vector Word 8) : Fin 8 :=
  ([1, 2, 3, 4, 5, 6, 7] : List (Fin 8)).foldl
    (fun best m => if scores[m].toNat < scores[best].toNat then m else best) 0

/-- What a successful COMMIT leaves (46_penalty_select.md R313): the symbol, BEST_MASK, BEST_SCORE,
PLACED_BITS, the stage; it does not score again. -/
def State.committed (s : State) (best : Fin 8) (g : Grid) (n : Nat) : State :=
  { s.storeGrid g with
    bestMask := BitVec.ofFin best
    bestScore := s.scores[best]
    placedBits := BitVec.ofNat 16 n
    pstage := .committed }

/-- The family rule of COMMIT behind its stage check (46_penalty_select.md R313). -/
def performCommit (T : Tables) (s : State) : Perf :=
  let l := s.selLevel.toNat
  let best := selectMask s.scores
  match T.fcode l best.val with
  | none => raiseTable s .commit best.val l 7
  | some f =>
    match drawSymbol .commit f best s with
    | .error x => .stopped x
    | .ok (g, n) => .ok (s.committed best g n)

/-- COMMIT (46_penalty_select.md R313). -/
def execCommit (s : State) : Host.Outcome State Fault Refusal :=
  runCommand .commit (performCommit standardTables) s

end Sys2Proof.Machine
end

