-- ==== Sys2Proof/Machine/Control.lean ====
section
/-! DEFINITION. The command sequencer: NOP, RUN, RUN_RAW (47_control.md). -/

namespace Sys2Proof.Machine

/-- The family rule of NOP: skip (R330). -/
def performNop (s : State) : Perf := .ok s

/-- NOP (R330). -/
def execNop (s : State) : Host.Outcome State Fault Refusal := runCommand .nop performNop s

/-- Sub-commands one after the other; the first that fails or stops ends the sequence, and the effects of
those before it stay (R332, R335). -/
def performAll : List (State → Perf) → State → Perf
  | [], s => .ok s
  | p :: ps, s =>
    match p s with
    | .ok s' => performAll ps s'
    | .failed s' => .failed s'
    | .stopped f => .stopped f

/-- The trial of one mask as a sub-command. -/
def trialStage (T : Tables) (m : Fin 8) : State → Perf := staged (.trial m) (performTrial T m)

/-- The sub-commands of RUN_RAW, each with its own stage check (R333): SELECT to COMMIT, the trials in
increasing mask order. -/
def rawStages (T : Tables) : List (State → Perf) :=
  [staged .select (performSelect T), staged .pad performPad, staged .ecgen (performEcgen T),
    staged .interleave performInterleave, staged .build (performBuild T),
    trialStage T 0, trialStage T 1, trialStage T 2, trialStage T 3,
    trialStage T 4, trialStage T 5, trialStage T 6, trialStage T 7,
    staged .commit (performCommit T)]

/-- The family rule of RUN_RAW (R333). -/
def performRunRaw (T : Tables) (s : State) : Perf := performAll (rawStages T) s

/-- RUN_RAW (R333). -/
def execRunRaw (s : State) : Host.Outcome State Fault Refusal :=
  runCommand .runRaw (performRunRaw standardTables) s

/-- The family rule of RUN: ENCODE, then the sub-commands of RUN_RAW (R332). -/
def performRun (T : Tables) (s : State) : Perf :=
  performAll (staged .encode performEncode :: rawStages T) s

/-- RUN (R332). -/
def execRun (s : State) : Host.Outcome State Fault Refusal :=
  runCommand .run (performRun standardTables) s

end Sys2Proof.Machine
end

