-- ==== Sys2Proof/Machine/Dispatch.lean ====
section
/-! DEFINITION. The dispatch from a command to its meaning, one arm per constructor of `Instr`
(30_encoding.md R103). -/

namespace Sys2Proof.Machine

def exec (i : Instr) (s : State) : Host.Outcome State Fault Refusal :=
  match i with
  | .nop => Sys2Proof.Machine.execNop s
  | .encode => Sys2Proof.Machine.execEncode s
  | .select => Sys2Proof.Machine.execSelect s
  | .pad => Sys2Proof.Machine.execPad s
  | .ecgen => Sys2Proof.Machine.execEcgen s
  | .interleave => Sys2Proof.Machine.execInterleave s
  | .build => Sys2Proof.Machine.execBuild s
  | .trial m => Sys2Proof.Machine.execTrial m s
  | .commit => Sys2Proof.Machine.execCommit s
  | .score => Sys2Proof.Machine.execScore s
  | .runRaw => Sys2Proof.Machine.execRunRaw s
  | .run => Sys2Proof.Machine.execRun s
  | .rsRaw => Sys2Proof.Machine.execRsRaw s

end Sys2Proof.Machine
end

