-- ==== Sys2Proof/Machine/Engine.lean ====
section
/-! DEFINITION. The engine's turn: decode PENDING and perform it (30_encoding.md R105). -/

namespace Sys2Proof.Machine

/-- The engine step on a pending word (R105): a legal word is performed by its command, an illegal one
completes with `E_ILLEGAL_CMD` (R106). -/
def engineTurn (w : Word) (s : State) : Host.Outcome State Fault Refusal :=
  match decode w with
  | .ok i => exec i s
  | .error _ => .next (s.rejectWord w)

end Sys2Proof.Machine
end

