-- ==== Sys2Proof/Machine/Step.lean ====
section
/-! DEFINITION. One step of QRCE (00_scope.md R11): with BUSY = 0 it is the host's turn; with BUSY = 1 the
environment first takes its `hold` steps, then the engine performs the command (log 4). -/

namespace Sys2Proof.Machine

/-- One step: the engine's or the host's turn. Every interleaving of host accesses and whole commands
(20_memory.md R84) is the one of some value of `hold`. -/
def step (s : State) : Host.Outcome State Fault Refusal :=
  match s.pending with
  | none => .next s.hostTurn
  | some w =>
    match s.hold with
    | 0 => engineTurn w s
    | h + 1 => .next ({ s with hold := h }).hostTurn

/-- `s` with the table's bits accepted as the pending command, about to be performed: the acceptance of
R104 with no step of the environment left before the completion (log 5). -/
def State.withFetchWord (s : State) (nbits w : Nat) : State :=
  s.accept (BitVec.ofNat 32 (w % 2 ^ nbits)) 0

end Sys2Proof.Machine
end

