-- ==== Sys2Proof/WellFormed.lean ====
section
/-! DEFINITION. Well-formedness. Every term of `Instr` is well-formed by its type (a mask index is a
`Fin 8`, 30_encoding.md R102), so the checks are those 00_scope.md R7 asks of a `TABLES` record before
it is used. Each check is a definition of its own, for one version and one level. -/

namespace Sys2Proof

/-- The versions 1 to 40 (R6). -/
def versions : List Nat := (List.range Config.vMax).map (· + 1)

/-- The level codes L, M, Q, H (10_state.md R30). -/
def levels : List Nat := [0, 1, 2, 3]

namespace Tables

/-- R7: "`CAP(v,l)` is a multiple of 8 and at most 8·`BBUF_SIZE`". -/
def capOk (T : Tables) (v l : Nat) : Bool :=
  match T.cap v l with
  | some c => c % 8 == 0 && decide (c ≤ 8 * Config.bbufSize)
  | none => true

/-- R7: "`NB(v,l) ≥ 1`". -/
def nbOk (T : Tables) (v l : Nat) : Bool :=
  match T.nb v l with
  | some n => decide (1 ≤ n)
  | none => true

/-- R7: "`NB(v,l)·ECB(v,l) ≤ EBUF_SIZE`". -/
def ebufOk (T : Tables) (v l : Nat) : Bool :=
  match T.nb v l, T.ecb v l with
  | some n, some k => decide (n * k ≤ Config.ebufSize)
  | _, _ => true

/-- R7: "`CAP(v,l)/8 + NB(v,l)·ECB(v,l) ≤ FBUF_SIZE`". -/
def fbufOk (T : Tables) (v l : Nat) : Bool :=
  match T.cap v l, T.nb v l, T.ecb v l with
  | some c, some n, some k => decide (c / 8 + n * k ≤ Config.fbufSize)
  | _, _, _ => true

/-- A pair of positions that bears no alignment pattern: (P0, P0), (P0, Plast) or (Plast, P0)
(44_matrix_patterns.md R245). -/
def isCorner (ps : List Nat) (ar ac : Nat) : Bool :=
  (ps.head? == some ar && (ps.head? == some ac || ps.getLast? == some ac))
    || (ps.getLast? == some ar && ps.head? == some ac)

/-- The alignment pattern around (ar, ac) lies inside a matrix of side S: it reaches two cells to each side
of its centre (44_matrix_patterns.md R244). -/
def patternInside (S ar ac : Nat) : Bool :=
  decide (2 ≤ ar ∧ ar + 2 < S) && decide (2 ≤ ac ∧ ac + 2 < S)

/-- R7: every alignment pattern lies inside the matrix. The patterns are those of
44_matrix_patterns.md R245: one around each pair of positions but the three corners. -/
def alignOk (T : Tables) (v : Nat) : Bool :=
  match T.apos v with
  | some ps => ps.all fun ar => ps.all fun ac => isCorner ps ar ac || patternInside (17 + 4 * v) ar ac
  | none => true

/-- A version block lies inside a matrix of side S: it reaches from row or column S − 11 to S − 9 and from 0
to 5 (44_matrix_patterns.md R249). -/
def blockInside (S : Nat) : Bool := decide (11 ≤ S)

/-- R7: every version block lies inside the matrix. The side of version `v` is 17 + 4·v, so the check holds of
every version. -/
def versionBlockOk (T : Tables) (v : Nat) : Bool :=
  match T.vcode v with
  | some _ => blockInside (17 + 4 * v)
  | none => true

/-- The well-formedness of a `TABLES` record (R7). -/
def wf (T : Tables) : Bool :=
  versions.all fun v =>
    (levels.all fun l => T.capOk v l && T.nbOk v l && T.ebufOk v l && T.fbufOk v l)
      && T.alignOk v && T.versionBlockOk v

end Tables

end Sys2Proof
end

