-- ==== Sys2Proof/Safety.lean ====
section
/-! DEFINITION. What claims about QRCE are said in: how the memories read, the invariant of the states that
a run reaches, and what a safe step is. -/

namespace Sys2Proof.Machine

/-! ### How the memories read -/

/-- What a bus address of a memory holds; `none` where its written flag is clear (10_state.md R57). -/
def State.at (s : State) (a : Nat) : Option Byte := Memory.lookup s.mem a

/-- Byte `i` of a buffer (10_state.md R55). -/
def State.byte (s : State) (b : Buf) (i : Nat) : Option Byte := s.at (b.base + i)

/-- Stream bit `i`: "bit 7 − (i mod 8) of byte BBUF[i div 8]" (20_memory.md R80). -/
def State.streamBit (s : State) (i : Nat) : Option Bool :=
  (s.byte .bbuf (i / 8)).map fun b => b.getLsbD (7 - i % 8)

/-- Cell (r, c) of MAT (10_state.md R56). -/
def State.matCell (s : State) (r c : Nat) : Option MatCell := (s.at (cellAddr r c)).map MatCell.ofByte

/-- The first bytes of a buffer are the given ones. -/
def State.holdsBytes (s : State) (b : Buf) (l : List Byte) : Prop :=
  l.length ≤ b.size ∧ ∀ i, i < l.length → s.byte b i = l[i]?

/-- The first bits of the stream in BBUF are the given ones, and every byte they touch is written. -/
def State.holdsBits (s : State) (x : Bits) : Prop :=
  x.length ≤ 8 * Config.bbufSize ∧ ∀ i, i < x.length → s.streamBit i = x[i]?

/-- What `StoreBits(x)` leaves (20_memory.md R80): the bits of `x`, then zeros to the end of the last byte
they touch. -/
def State.storedBits (s : State) (x : Bits) : Prop :=
  ∀ i, i < 8 * ((x.length + 7) / 8) → s.streamBit i = some (x.getD i false)

/-- The first `n` bytes of a buffer exist and are written (10_state.md R57). -/
def State.written (s : State) (b : Buf) (n : Nat) : Prop :=
  n ≤ b.size ∧ ∀ i, i < n → (s.byte b i).isSome = true

/-- The top-left n × n cells exist and are written (10_state.md R57). -/
def State.cellsWritten (s : State) (n : Nat) : Prop :=
  n ≤ Config.sMax ∧ ∀ r c, r < n → c < n → (s.matCell r c).isSome = true

/-- The top-left n × n cells are those of the square `g`. -/
def State.holdsGrid (s : State) (n : Nat) (g : Grid) : Prop :=
  n ≤ Config.sMax ∧ g.length = n ∧ (∀ row ∈ g, row.length = n)
    ∧ ∀ r c, r < n → c < n → s.matCell r c = some (g.cell r c)

/-- The address is one of the first `n` bytes of a buffer. -/
def Buf.within (b : Buf) (n a : Nat) : Prop := b.base ≤ a ∧ a < b.base + n

/-- The address is one of the top-left n × n cells. -/
def inSquare (n a : Nat) : Prop := ∃ r c, r < n ∧ c < n ∧ a = cellAddr r c

/-- Every address but those of `P` reads as before. -/
def keepsOutside (P : Nat → Prop) (s t : State) : Prop := ∀ a, ¬ P a → t.at a = s.at a

/-! ### The invariant -/

/-- The pipeline has come as far as `q` and has not failed (10_state.md R24). -/
def PStage.reached (q p : PStage) : Prop := q.code.toNat ≤ p.code.toNat ∧ p ≠ .failed

/-- What a successful SELECT has left (41_capacity_padding.md R170). -/
structure SelectedOk (s : State) : Prop where
  version_ge : 1 ≤ s.version.toNat
  version_le : s.version.toNat ≤ Config.vMax
  size_eq : s.size.toNat = 17 + 4 * s.version.toNat
  cap_eq : stdCap s.version.toNat s.selLevel.toNat = some s.capBits.toNat
  stream_le : s.streamLen.toNat ≤ s.capBits.toNat
  stream_written : s.written .bbuf ((s.streamLen.toNat + 7) / 8)

/-- What PAD adds (41_capacity_padding.md R173). -/
structure PaddedOk (s : State) : Prop where
  stream_eq : s.streamLen.toNat = s.capBits.toNat
  data_written : s.written .bbuf (s.capBits.toNat / 8)

/-- What ECGEN adds (42_gf_rs.md R200). -/
structure EcDoneOk (s : State) : Prop where
  blocks_eq : stdNb s.version.toNat s.selLevel.toNat = some s.numBlocks.toNat
  ec_eq : stdEcb s.version.toNat s.selLevel.toNat = some s.ecLen.toNat
  short_eq : s.blkShort.toNat = s.capBits.toNat / 8 / s.numBlocks.toNat
  nlong_eq : s.blkNlong.toNat = s.capBits.toNat / 8 % s.numBlocks.toNat
  ec_written : s.written .ebuf (s.numBlocks.toNat * s.ecLen.toNat)

/-- What INTERLEAVE adds (43_interleave.md R232, R233). -/
structure InterleavedOk (s : State) : Prop where
  total_eq : s.totalCw.toNat = s.capBits.toNat / 8 + s.numBlocks.toNat * s.ecLen.toNat
  final_written : s.written .fbuf s.totalCw.toNat

/-- The invariant of the states a run reaches: memory in canonical form, and at each stage what the stages
before it have left. -/
structure State.Inv (s : State) : Prop where
  mem_wf : Memory.wf s.mem
  selected_ok : PStage.reached .selected s.pstage → SelectedOk s
  padded_ok : PStage.reached .padded s.pstage → PaddedOk s
  ecDone_ok : PStage.reached .ecDone s.pstage → EcDoneOk s
  interleaved_ok : PStage.reached .interleaved s.pstage → InterleavedOk s
  mat_ok : PStage.reached .patternsPlaced s.pstage → s.cellsWritten Config.sMax

/-! ### Registers and accesses, in the words of the rules -/

/-- The reset value of every register and field (10_state.md R60). -/
def State.atResetValues (s : State) : Prop :=
  (∀ r : Reg, Reg.read s r = if r = .id then 0x51520007#32 else 0#32)
    ∧ s.busy = false ∧ s.pending = none ∧ s.irq = false

/-- The access gets an OK response (20_memory.md R72, R73, R77): a register access is a whole aligned word,
a buffer or MAT access is aligned to its width. -/
def accessOk (a : BusAddr) (n : AccSize) : Bool :=
  if inRegPage a.toNat then n == .word && a.toNat % 4 == 0
  else isReserved a.toNat || a.toNat % n.bytes == 0

/-- The action resets the machine: a hardware reset, or a write of CTRL with SRST = 1
(70_reset_and_hazards.md R380, R382). -/
def HostAction.resets : HostAction → Bool
  | .hardReset => true
  | .write a n v => a == 0x00004#17 && n == .word && v.getLsbD 1
  | .read _ _ | .wait => false

/-- The state after a command that failed with its own error (60_exceptions.md R356) and completed
(30_encoding.md R105). -/
def State.failedWith (s : State) (e : ErrCode) (info : Nat) : State :=
  { s with
    errCode := e, errInfo := BitVec.ofNat 32 info, err := true, pstage := .failed
    pending := none, done := true }

/-! ### The columns of the command tables -/

/-- "Stage before" (30_encoding.md R103): the stages a command may start in; `none` is any. -/
def stagesBefore : Instr → Option (List PStage)
  | .nop | .encode | .select | .score | .runRaw | .run | .rsRaw => none
  | .pad => some [.selected]
  | .ecgen => some [.padded]
  | .interleave => some [.ecDone]
  | .build => some [.interleaved]
  | .trial _ => some [.patternsPlaced, .trialing]
  | .commit => some [.trialing]

/-- A command may start: its stage column holds, and for COMMIT all eight masks were tried
(30_encoding.md R103, R105). -/
def mayStart (i : Instr) (s : State) : Prop :=
  (∀ l, stagesBefore i = some l → s.pstage ∈ l) ∧ (i = .commit → s.trialDone = 0xFF#8)

/-- "Stage after" (30_encoding.md R103): the stage on success; `none` is unchanged. -/
def stageAfter : Instr → Option PStage
  | .nop | .score => none
  | .encode => some .encoded
  | .select => some .selected
  | .pad => some .padded
  | .ecgen => some .ecDone
  | .interleave => some .interleaved
  | .build => some .patternsPlaced
  | .trial _ => some .trialing
  | .commit | .runRaw | .run => some .committed
  | .rsRaw => some .idle

/-- The result registers of the "writes" column (30_encoding.md R110). -/
def writesRegister : Instr → List Reg
  | .nop => []
  | .encode => [.rawLen]
  | .select => [.version, .selLevel, .size, .capBits, .streamLen]
  | .pad => [.streamLen]
  | .ecgen => [.numBlocks, .ecLen, .blkShort, .blkNlong]
  | .interleave => [.totalCw]
  | .build => .freeCells :: (List.finRange 8).map .score
  | .trial m => .score m :: .placedBits :: breakdown
  | .commit => [.bestMask, .bestScore, .placedBits]
  | .score => breakdown
  | .rsRaw => [.ecLen]
  | .runRaw => pipeline
  | .run => .rawLen :: pipeline
where
  /-- The registers P_*. -/
  breakdown : List Reg := [.pR1Row, .pR1Col, .pR2, .pR3Row, .pR3Col, .pR4, .pTotal]
  /-- The union for the commands from SELECT to COMMIT. -/
  pipeline : List Reg :=
    [.version, .selLevel, .size, .capBits, .streamLen, .numBlocks, .ecLen, .blkShort, .blkNlong,
      .totalCw, .freeCells, .placedBits, .bestMask, .bestScore] ++ breakdown
      ++ (List.finRange 8).map .score

/-- The memory of the "writes" column (30_encoding.md R110): the address is a byte or cell the command may
write. -/
def mayWriteAt (i : Instr) (a : Nat) : Prop :=
  match i with
  | .nop | .score => False
  | .encode | .select | .pad => Buf.bbuf.within Config.bbufSize a
  | .ecgen | .rsRaw => Buf.ebuf.within Config.ebufSize a
  | .interleave => Buf.fbuf.within Config.fbufSize a
  | .build | .trial _ | .commit => inSquare Config.sMax a
  | .runRaw | .run =>
    Buf.bbuf.within Config.bbufSize a ∨ Buf.ebuf.within Config.ebufSize a
      ∨ Buf.fbuf.within Config.fbufSize a ∨ inSquare Config.sMax a

/-- Commands one after the other, each performed as a whole; the first that leaves ERR = 1 or stops ends
the sequence (47_control.md R332, R335). -/
def performCommands : List Instr → State → Host.Outcome State Fault Refusal
  | [], s => .next s
  | i :: is, s =>
    match exec i s with
    | .next t => if t.err then .next t else performCommands is t
    | .fault f => .fault f
    | .refused r => .refused r

/-- The sub-commands of RUN_RAW, in order (47_control.md R333). -/
def rawPipeline : List Instr :=
  [.select, .pad, .ecgen, .interleave, .build] ++ (List.finRange 8).map .trial ++ [.commit]

/-! ### The operands of an encode, in the words of the rules -/

/-- The characters of a mode's alphabet by their bytes, in the order of their values; `none` is every byte
(40_mode_encoder.md R141, R143, R145). -/
def alphabet (mode : Nat) : Option (List Nat) :=
  match mode with
  | 0 => some (List.range' 0x30 10)
  | 1 =>
    some (List.range' 0x30 10 ++ List.range' 0x41 26
      ++ [0x20, 0x24, 0x25, 0x2A, 0x2B, 0x2D, 0x2E, 0x2F, 0x3A])
  | _ => none

/-- The raw bit length of `n` input bytes (40_mode_encoder.md R146). -/
def rawLength (mode n : Nat) : Nat :=
  match mode with
  | 0 => 10 * (n / 3) + (if n % 3 = 0 then 0 else if n % 3 = 1 then 4 else 7)
  | 1 => 11 * (n / 2) + 6 * (n % 2)
  | _ => 8 * n

/-- Version `v` holds the header and `n` raw bits: `4 + W(mode, v) + n ≤ CAP(v, l)`
(41_capacity_padding.md R165). -/
def fits (mode l n v : Nat) : Prop := ∃ c, stdCap v l = some c ∧ 4 + countWidth mode v + n ≤ c

/-- `v` is the least version that fits (41_capacity_padding.md R167). -/
def leastFit (mode l n v : Nat) : Prop :=
  1 ≤ v ∧ v ≤ Config.vMax ∧ fits mode l n v ∧ ∀ u, 1 ≤ u → u < v → ¬ fits mode l n u

/-- The count fits its field at every version up to `v` that the search tries, those whose capacity exceeds
the raw length (41_capacity_padding.md R163, R164). -/
def countFits (mode l n cnt v : Nat) : Prop :=
  ∀ u c, 1 ≤ u → u ≤ v → stdCap u l = some c → n < c → cnt < 2 ^ countWidth mode u

/-! ### The error-correction code, in the words of the rules -/

/-- The value at `a` of the polynomial whose coefficients, highest degree first, are the given codewords
(42_gf_rs.md R196). -/
def polyAt (a : Byte) (cw : List Byte) : Byte := cw.foldl (fun x c => gmul x a ^^^ c) 0#8

/-! ### The penalty, in the words of the rules -/

/-- Rule 1 over a line of length n (46_penalty_select.md R301): the maximal run of length L ≥ 5 that starts
at i adds L − 2. -/
def lineRuns (n : Nat) (x : Nat → Bool) : Nat :=
  ∑ i ∈ Finset.range n, ∑ l ∈ Finset.Icc 5 (n - i),
    if (∀ j < l, x (i + j) = x i) ∧ (i = 0 ∨ x (i - 1) ≠ x i) ∧ (i + l = n ∨ x (i + l) ≠ x i)
    then l - 2 else 0

/-- Rule 3 over a line of length n (46_penalty_select.md R303): 40 for each window of 11 bits that equals one
of the two literals. -/
def lineFinders (n : Nat) (x : Nat → Bool) : Nat :=
  40 * ((List.range (n - 10)).filter fun i =>
    (List.range 11).map (fun j => x (i + j)) ∈
      [[true, false, true, true, true, false, true, false, false, false, false],
        [false, false, false, false, true, false, true, true, true, false, true]]).length

/-- `penalty(N)` over the region X (46_penalty_select.md R306). -/
def specPenalty (n : Nat) (x : Nat → Nat → Bool) : Components where
  a1 := ∑ r ∈ Finset.range n, lineRuns n fun c => x r c
  a2 := ∑ c ∈ Finset.range n, lineRuns n fun r => x r c
  a3 := 3 * ∑ r ∈ Finset.range (n - 1), ∑ c ∈ Finset.range (n - 1),
    if x r c = x r (c + 1) ∧ x r c = x (r + 1) c ∧ x r c = x (r + 1) (c + 1) then 1 else 0
  a4 := ∑ r ∈ Finset.range n, lineFinders n fun c => x r c
  a5 := ∑ c ∈ Finset.range n, lineFinders n fun r => x r c
  a6 :=
    let dark := ∑ r ∈ Finset.range n, ∑ c ∈ Finset.range n, (x r c).toNat
    ((100 * (dark : Int) - 50 * (n * n : Nat)).natAbs / (n * n)) * 2

/-- The number of free cells of the symbol of version V (44_matrix_patterns.md R255). -/
def freeCellFormula (V : Nat) : Nat :=
  let n := V / 7 + 2
  (16 * V + 128) * V + 64 - (if V = 1 then 0 else (25 * n - 10) * n - 55)
    - (if 7 ≤ V then 36 else 0)

/-! ### Safe steps -/

/-- The step does not stop. -/
def State.safe (s : State) : Prop := ∃ t, step s = .next t

/-- The step stops, if it does, only by the model fault the spec names, `UNWRITTEN_READ`
(60_exceptions.md R358). -/
def State.onlyUnwritten (s : State) : Prop :=
  ∀ f, step s = .fault f → ∃ cmd a, f = .unwrittenRead cmd a

end Sys2Proof.Machine
end

