-- ==== Sys2Proof/Certificates/Slice0/Obligations.lean ====
section
/-! DEFINITION. The statements for the provers, each a proposition with a name, in the order of the spec's
files. The premise `Memory.wf s.mem` is the canonical form of memory and `s.Inv` the invariant of
Sys2Proof/Safety.lean; that every step keeps them is `Obligations.EveryStepKeepsTheInvariant`. -/

open Sys2Proof Sys2Proof.Machine

/-! ### Reset and the invariant -/

/-- 10_state.md R60. After the state right after reset, and after a hardware or a soft reset of any state,
every register but ID reads 0, BUSY = 0, PENDING is empty and irq is low; a hardware reset clears every
written flag (70_reset_and_hazards.md R380), and leaves the state after reset but for the model's own
fields of the environment. The model's choices: that `host`, `resp` (log 3) and `draws` (log 6) stay, and
that `hold` is 0 (log 4). -/
def Obligations.EveryResetLeavesTheResetValues : Prop :=
  ∀ s : State,
    State.reset.atResetValues ∧ s.hardReset.atResetValues ∧ s.softReset.atResetValues
      ∧ (∀ a, State.reset.at a = none ∧ s.hardReset.at a = none)
      ∧ s.hardReset = { State.reset with host := s.host, resp := s.resp, draws := s.draws }

/-- The state after reset meets the invariant. -/
def Obligations.ResetMeetsTheInvariant : Prop := State.reset.Inv

/-- Every step, of the engine or of the host, keeps the invariant: memory stays in canonical form, and the
registers and memories of the pipeline stay what the stage says they are. -/
def Obligations.EveryStepKeepsTheInvariant : Prop := ∀ s t : State, s.Inv → step s = .next t → t.Inv

/-- 70_reset_and_hazards.md R382. A write of CTRL with SRST = 1 leaves every register at its reset value,
also while BUSY = 1. With BUSY = 0 the memories are unchanged; with BUSY = 1 those the abandoned command
may not write are unchanged, and every byte and cell of those it may write has its written flag set. The
model's choices: that IRQ_EN is 0 also where the word has IRQ_EN = 1 (log 14); that an abandoned illegal
word changes no memory, and an abandoned TRIAL or COMMIT no `st` of a written cell (log 11). -/
def Obligations.SoftResetKeepsTheOtherMemories : Prop :=
  ∀ (s : State) (v : Word), Memory.wf s.mem → v.getLsbD 1 = true →
    let t := s.hostWrite 0x00004#17 .word v
    t.atResetValues ∧ t.resp = some ⟨true, 0#32⟩
      ∧ (s.pending = none → t.mem = s.mem)
      ∧ (∀ w, s.pending = some w → (∀ i, w ≠ encode i) → t.mem = s.mem)
      ∧ ∀ i : Instr, s.pending = some (encode i) →
          keepsOutside (mayWriteAt i) s t ∧ (∀ a, mayWriteAt i a → (t.at a).isSome = true)
            ∧ (i = .commit ∨ (∃ m, i = .trial m) →
                ∀ r c x, r < Config.sMax → c < Config.sMax → s.matCell r c = some x →
                  ∃ y, t.matCell r c = some y ∧ y.st = x.st)

/-! ### Registers and the bus -/

/-- 10_state.md R53, R54, 20_memory.md R70, R72, R73. With BUSY = 0 a write to an operand register, at its
offset, stores the bits of its width, changes nothing else and is read back with zeros above them. A
read-only register reads, at its offset, its field with zeros above it, and a write to it changes nothing.
A reserved offset, and every address of the two reserved ranges, busy or not, reads 0 and ignores writes,
with an OK response. The model's choices: that these read 0 also while BUSY = 1, where
70_reset_and_hazards.md R391 could be read as any value (log 7, DEDUCED); the field `resp` (log 3). -/
def Obligations.RegisterWritesStoreTheFieldWidth : Prop :=
  ∀ (s : State) (v : Word),
    let ok := some (BusResponse.mk true 0#32)
    (s.pending = none →
      (∀ (off n : Nat) (x : Word) (t : State), (off, n, x, t) ∈
          [(0x018, 3, s.mode.setWidth 32, { s with mode := v.setWidth 3 }),
            (0x01C, 3, s.ecl.setWidth 32, { s with ecl := v.setWidth 3 }),
            (0x020, 14, s.inLen.setWidth 32, { s with inLen := v.setWidth 14 }),
            (0x024, 16, s.charCount.setWidth 32, { s with charCount := v.setWidth 16 }),
            (0x028, 17, s.rawLen.setWidth 32, { s with rawLen := v.setWidth 17 }),
            (0x064, 8, s.scoreN.setWidth 32, { s with scoreN := v.setWidth 8 }),
            (0x068, 7, s.rsK.setWidth 32, { s with rsK := v.setWidth 7 }),
            (0x06C, 14, s.rsLen.setWidth 32, { s with rsLen := v.setWidth 14 })] →
          s.memRead off .word = ⟨true, x⟩
            ∧ s.hostWrite (BitVec.ofNat 17 off) .word v = { t with resp := ok }
            ∧ (s.hostWrite (BitVec.ofNat 17 off) .word v).memRead off .word =
              ⟨true, (v.setWidth n).setWidth 32⟩)
        ∧ (∀ (off : Nat) (x : Word), (off, x) ∈
            [(0x000, 0x51520007#32), (0x010, s.errCode.code.setWidth 32), (0x014, s.errInfo),
              (0x02C, s.version.setWidth 32), (0x030, s.selLevel.setWidth 32),
              (0x034, s.size.setWidth 32), (0x038, s.capBits.setWidth 32),
              (0x03C, s.streamLen.setWidth 32), (0x040, s.numBlocks.setWidth 32),
              (0x044, s.ecLen.setWidth 32), (0x048, s.blkShort.setWidth 32),
              (0x04C, s.blkNlong.setWidth 32), (0x050, s.totalCw.setWidth 32),
              (0x054, s.freeCells.setWidth 32), (0x058, s.placedBits.setWidth 32),
              (0x05C, s.bestMask.setWidth 32), (0x060, s.bestScore),
              (0x080, s.scores[0]), (0x084, s.scores[1]), (0x088, s.scores[2]), (0x08C, s.scores[3]),
              (0x090, s.scores[4]), (0x094, s.scores[5]), (0x098, s.scores[6]), (0x09C, s.scores[7]),
              (0x0A0, s.penalty.r1row), (0x0A4, s.penalty.r1col), (0x0A8, s.penalty.r2),
              (0x0AC, s.penalty.r3row), (0x0B0, s.penalty.r3col), (0x0B4, s.penalty.r4),
              (0x0B8, s.penalty.total)] →
            s.memRead off .word = ⟨true, x⟩
              ∧ s.hostWrite (BitVec.ofNat 17 off) .word v = { s with resp := ok }))
      ∧ (∀ a : BusAddr, a.toNat % 4 = 0 →
          (0x070 ≤ a.toNat ∧ a.toNat ≤ 0x07C) ∨ (0x0BC ≤ a.toNat ∧ a.toNat ≤ 0xFFF) →
          s.hostWrite a .word v = { s with resp := ok } ∧ s.memRead a.toNat .word = ⟨true, 0#32⟩)
      ∧ ∀ (a : BusAddr) (n : AccSize),
          (0x03000 ≤ a.toNat ∧ a.toNat ≤ 0x03FFF) ∨ (0x08000 ≤ a.toNat ∧ a.toNat ≤ 0x0FFFF) →
          s.hostWrite a n v = { s with resp := ok } ∧ s.memRead a.toNat n = ⟨true, 0#32⟩

/-- 10_state.md R22, R23. A write to STATUS, whatever BUSY is, clears DONE, ERR and CMD_DROPPED where it
writes a 1, keeps them where it writes a 0, and changes nothing else; a write to CTRL with SRST = 0 stores
IRQ_EN and changes nothing else. -/
def Obligations.ControlAndStatusWrites : Prop :=
  ∀ (s : State) (v : Word),
    (v.getLsbD 1 = false →
        s.hostWrite 0x00004#17 .word v =
          { s with irqEn := v.getLsbD 0, resp := some ⟨true, 0#32⟩ })
      ∧ s.hostWrite 0x00008#17 .word v =
        { s with
          done := s.done && !v.getLsbD 1
          err := s.err && !v.getLsbD 2
          cmdDropped := s.cmdDropped && !v.getLsbD 3
          resp := some ⟨true, 0#32⟩ }

/-- 20_memory.md R77. A register access that is no aligned word, and a buffer or MAT access that is not
aligned to its width, get an ERROR response: a write changes nothing, a read answers 0. -/
def Obligations.MisalignedAccessesHaveNoEffect : Prop :=
  ∀ (s : State) (a : BusAddr) (n : AccSize) (v : Word),
    (a.toNat < 0x1000 ∧ (n ≠ .word ∨ a.toNat % 4 ≠ 0))
      ∨ ((isBufByte a.toNat = true ∨ 0x10000 ≤ a.toNat) ∧ a.toNat % n.bytes ≠ 0) →
    s.hostWrite a n v = { s with resp := some ⟨false, 0#32⟩ }
      ∧ s.memRead a.toNat n = ⟨false, 0#32⟩

/-- 70_reset_and_hazards.md R390, R391, 20_memory.md R79. While BUSY = 1 a write to anything but CTRL and
STATUS changes nothing, but for CMD_DROPPED, which a write to CMD sets; it gets an OK response unless it is
misaligned. A read of ID, CTRL or STATUS returns the current value, and no read, busy or not, changes
anything but the model's own `resp` and `draws`. -/
def Obligations.AccessesWhileBusyHaveNoEffect : Prop :=
  (∀ (s : State) (w : Word) (a : BusAddr) (n : AccSize) (v : Word),
      s.pending = some w → a ≠ 0x00004#17 → a ≠ 0x00008#17 →
      s.hostWrite a n v =
        { s with
          cmdDropped := s.cmdDropped || (a == 0x0000C#17 && n == .word)
          resp := some ⟨accessOk a n, 0#32⟩ })
    ∧ (∀ (s : State) (w : Word), s.pending = some w →
        s.memRead 0x000 .word = ⟨true, 0x51520007#32⟩
          ∧ s.memRead 0x004 .word = ⟨true, s.ctrlWord⟩
          ∧ s.memRead 0x008 .word = ⟨true, s.statusWord⟩)
    ∧ ∀ (s : State) (a : BusAddr) (n : AccSize),
        ∃ r d, s.hostRead a n = { s with resp := some r, draws := d }

/-- 20_memory.md R73, R74, R76. With BUSY = 0, in every stage, an aligned write to a buffer stores the bytes
little-endian and sets their written flags, changes no other byte, no cell and no register, and is read
back. -/
def Obligations.BufferAccessesAreLittleEndian : Prop :=
  ∀ (s : State) (a : BusAddr) (n : AccSize) (v : Word), Memory.wf s.mem → s.pending = none →
    isBufByte a.toNat = true → a.toNat % n.bytes = 0 →
    let t := s.hostWrite a n v
    (∀ i, i < n.bytes → t.at (a.toNat + i) = some (v.extractLsb' (8 * i) 8))
      ∧ keepsOutside (fun x => a.toNat ≤ x ∧ x < a.toNat + n.bytes) s t
      ∧ t = { s with mem := t.mem, resp := some ⟨true, 0#32⟩ }
      ∧ t.memRead a.toNat n = ⟨true, (v.setWidth (8 * n.bytes)).setWidth 32⟩

/-- 20_memory.md R75. The window byte of a cell reads as `bit | (st << 1)`; a host byte write sets the two
bits from bits 0 and 1 and changes nothing else, and is ignored when PSTAGE = COMMITTED or BUSY = 1. The
same holds of each byte of a wider aligned access, little-endian; an address with r ≥ 177 or c ≥ 177 is
no cell, reads 0 and ignores writes (R70, R72, R73). The field `resp` is the model's own (log 3). -/
def Obligations.MatWindowHoldsTwoBits : Prop :=
  (∀ (s : State) (r c : Nat) (v : Word), Memory.wf s.mem → r < 177 → c < 177 →
      let a := BitVec.ofNat 17 (0x10000 + 256 * r + c)
      let t := s.hostWrite a .byte v
      (∀ x, s.matCell r c = some x → s.pending = none →
          s.memRead a.toNat .byte =
            ⟨true, BitVec.ofNat 32 (x.bit.toNat ||| (x.st.toNat <<< 1))⟩)
        ∧ (s.pending = none → s.pstage ≠ .committed →
            t.matCell r c = some ⟨v.getLsbD 0, v.getLsbD 1⟩
              ∧ keepsOutside (fun x => x = 0x10000 + 256 * r + c) s t
              ∧ t = { s with mem := t.mem, resp := some ⟨true, 0#32⟩ })
        ∧ (s.pending ≠ none ∨ s.pstage = .committed → t = { s with resp := some ⟨true, 0#32⟩ }))
    ∧ ∀ (s : State) (a : BusAddr) (n : AccSize) (v : Word), Memory.wf s.mem →
      0x10000 ≤ a.toNat → a.toNat % n.bytes = 0 → s.pending = none →
      let isACell := fun x : Nat => (x - 0x10000) / 256 < 177 ∧ (x - 0x10000) % 256 < 177
      let t := s.hostWrite a n v
      (∃ w, s.memRead a.toNat n = ⟨true, w⟩ ∧ ∀ i, i < 4 →
          (∀ b, i < n.bytes → isACell (a.toNat + i) → s.at (a.toNat + i) = some b →
              w.extractLsb' (8 * i) 8 = b)
            ∧ (n.bytes ≤ i ∨ ¬ isACell (a.toNat + i) → w.extractLsb' (8 * i) 8 = 0#8))
        ∧ (s.pstage ≠ .committed →
            (∀ i, i < n.bytes → isACell (a.toNat + i) →
                t.at (a.toNat + i) = some (v.extractLsb' (8 * i) 8 &&& 3#8))
              ∧ keepsOutside
                (fun x => a.toNat ≤ x ∧ x < a.toNat + n.bytes ∧ isACell x) s t
              ∧ t = { s with mem := t.mem, resp := some ⟨true, 0#32⟩ })
        ∧ (s.pstage = .committed → t = { s with resp := some ⟨true, 0#32⟩ })

/-! ### Encoding, issue and dispatch -/

/-- 30_encoding.md R107. The decoder reads a word as a command exactly when it is that command's word, and
the words are those of the table. -/
def Obligations.LegalWordsAreExactlyTheTable : Prop :=
  (∀ (w : Word) (i : Instr), decode w = .ok i ↔ w = encode i)
    ∧ encode .nop = 0x00000000#32 ∧ encode .encode = 0x00000001#32
    ∧ encode .select = 0x00000002#32 ∧ encode .pad = 0x00000003#32
    ∧ encode .ecgen = 0x00000004#32 ∧ encode .interleave = 0x00000005#32
    ∧ encode .build = 0x00000006#32
    ∧ (∀ m : Fin 8, encode (.trial m) = BitVec.ofNat 32 (0x00000007 + 0x100 * m.val))
    ∧ encode .commit = 0x00000008#32 ∧ encode .score = 0x00000009#32
    ∧ encode .runRaw = 0x0000000E#32 ∧ encode .run = 0x0000000F#32
    ∧ encode .rsRaw = 0x00000010#32

/-- Words written out from 30_encoding.md R107, one of each family of the opcode table, decode to their
commands. -/
def Obligations.WrittenOutWordsDecode : Prop :=
  decode 0b00000000000000000000000000000000#32 = .ok .nop
    ∧ decode 0b00000000000000000000000000000001#32 = .ok .encode
    ∧ decode 0b00000000000000000000000000000010#32 = .ok .select
    ∧ decode 0b00000000000000000000000000000100#32 = .ok .ecgen
    ∧ decode 0b00000000000000000000000000000101#32 = .ok .interleave
    ∧ decode 0b00000000000000000000000000000110#32 = .ok .build
    ∧ decode 0b00000000000000000000011100000111#32 = .ok (.trial 7)
    ∧ decode 0b00000000000000000000000000001001#32 = .ok .score
    ∧ decode 0b00000000000000000000000000001111#32 = .ok .run

/-- 30_encoding.md R104. A write of a word to CMD with BUSY = 0 makes it PENDING and clears DONE, ERR,
ERRCODE and ERRINFO; with BUSY = 1 it only sets CMD_DROPPED. The fields `hold`, `draws` and `resp` are the
model's own (log 3, log 4, log 6). -/
def Obligations.CmdWriteIsAcceptedOrDropped : Prop :=
  ∀ (s : State) (w : Word),
    let t := s.hostWrite 0x0000C#17 .word w
    (s.pending = none →
        t = { s with
              pending := some w, done := false, err := false, errCode := .none, errInfo := 0#32
              hold := t.hold, draws := t.draws, resp := t.resp })
      ∧ ∀ u, s.pending = some u → t = { s with cmdDropped := true, resp := t.resp }

/-- A step runs the decoded command: with PENDING holding a word that decodes to `i` and no step of the
environment left, the step is `exec i`. Else it is the host's turn, which performs the first action of the
queue, one step of the environment less (log 3, log 4): a read, a write, the reset input, or WAIT
(30_encoding.md R109), which reads STATUS and stays in the queue while that reads BUSY = 1. -/
def Obligations.StepRunsTheDecodedCommand : Prop :=
  (∀ (s : State) (w : Word) (i : Instr), s.pending = some w → s.hold = 0 → decode w = .ok i →
      step s = exec i s)
    ∧ (∀ (s : State) (w : Word) (h : Nat), s.pending = some w → s.hold = h + 1 →
        step s = .next ({ s with hold := h } : State).hostTurn)
    ∧ (∀ s : State, s.pending = none → step s = .next s.hostTurn)
    ∧ (∀ (s : State) (a : BusAddr) (n : AccSize) (q : List HostAction), s.host = .read a n :: q →
        s.hostTurn = ({ s with host := q } : State).hostRead a n)
    ∧ (∀ (s : State) (a : BusAddr) (n : AccSize) (v : Word) (q : List HostAction),
        s.host = .write a n v :: q → s.hostTurn = ({ s with host := q } : State).hostWrite a n v)
    ∧ (∀ (s : State) (q : List HostAction), s.host = .hardReset :: q →
        s.hostTurn = ({ s with host := q } : State).hardReset)
    ∧ (∀ (s : State) (q : List HostAction), s.host = .wait :: q →
        (s.pending = none → s.hostTurn = { s.hostRead 0x00008#17 .word with host := q })
          ∧ (s.pending ≠ none → s.hostTurn = s.hostRead 0x00008#17 .word))
    ∧ (∀ s : State, s.host = [] → s.hostTurn = s)

/-- 70_reset_and_hazards.md R395, R397. Every accepted command is performed, after the steps `hold` counts;
nothing the host does in between, except a reset, changes more than IRQ_EN, the W1C bits and the model's
own `host`, `resp` and `draws`. The model's choices: the count of the steps (log 4), and that PSTAGE and
TRIAL_DONE stay through them also while RUN or RUN_RAW is BUSY (log 1). -/
def Obligations.EveryAcceptedCommandIsPerformed : Prop :=
  ∀ (s : State) (w : Word), s.pending = some w → (∀ x ∈ s.host, x.resets = false) →
    ∃ t : State, Host.Core.run Sys2Proof.core s.hold s = .next t
      ∧ t = { s with
              hold := 0, irqEn := t.irqEn, done := t.done, err := t.err
              cmdDropped := t.cmdDropped, host := t.host, resp := t.resp, draws := t.draws }
      ∧ Host.Core.run Sys2Proof.core (s.hold + 1) s = engineTurn w t

/-- 30_encoding.md R106. A word with a non-zero RSV bit, an OPC outside the map, or a non-zero MARG in a
format-C command completes with E_ILLEGAL_CMD and ERRINFO = the word, and changes no other state. -/
def Obligations.IllegalWordsCompleteWithAnError : Prop :=
  ∀ (s : State) (w : Word), s.pending = some w → s.hold = 0 →
    (w.extractLsb' 11 21 ≠ 0#21
      ∨ (w.extractLsb' 0 8).toNat ∉ [0, 1, 2, 3, 4, 5, 6, 7, 8, 9, 0x0E, 0x0F, 0x10]
      ∨ (w.extractLsb' 0 8 ≠ 0x07#8 ∧ w.extractLsb' 8 3 ≠ 0#3)) →
    step s = .next
      { s with
        errCode := .illegalCmd, errInfo := w, err := true, pending := none, done := true }

/-- 30_encoding.md R103, R105. A command whose stage column does not hold, or COMMIT before all eight masks
were tried, completes with E_SEQUENCE, ERRINFO = OPC | PSTAGE << 8 | TRIAL_DONE << 16, and changes no other
state. -/
def Obligations.OutOfSequenceCommandsFail : Prop :=
  ∀ (s : State) (i : Instr), ¬ mayStart i s →
    exec i s = .next
      { s with
        errCode := .sequence
        errInfo := BitVec.ofNat 32
          ((opcodeOf i).toNat ||| (s.pstage.code.toNat <<< 8) ||| (s.trialDone.toNat <<< 16))
        err := true, pending := none, done := true }

/-- 30_encoding.md R103. A command that completes without error was in its stage before and is in its stage
after. -/
def Obligations.SuccessMovesTheStage : Prop :=
  ∀ (s u : State) (i : Instr), s.err = false → exec i s = .next u → u.err = false →
    mayStart i s ∧ u.pstage = (stageAfter i).getD s.pstage

/-- 30_encoding.md R110, R105, 60_exceptions.md R360. What a command leaves alone: every register outside its
"writes" column but STATUS, ERRCODE and ERRINFO; every byte and cell outside it; IRQ_EN and CMD_DROPPED; the
environment. It completes, so irq is IRQ_EN. -/
def Obligations.CommandsWriteOnlyTheirColumn : Prop :=
  ∀ (s u : State) (i : Instr), Memory.wf s.mem → exec i s = .next u →
    (∀ r, r ∉ writesRegister i → r ≠ .status → r ≠ .errCode → r ≠ .errInfo →
        Reg.read u r = Reg.read s r)
      ∧ keepsOutside (mayWriteAt i) s u
      ∧ u.pending = none ∧ u.done = true ∧ u.irq = s.irqEn ∧ u.cmdDropped = s.cmdDropped
      ∧ (i ≠ .build → i ≠ .run → i ≠ .runRaw → (∀ m, i ≠ .trial m) → u.trialDone = s.trialDone)
      ∧ u.host = s.host ∧ u.resp = s.resp ∧ u.hold = s.hold ∧ u.draws = s.draws

/-- 60_exceptions.md R354. A failing command has written no buffer, no cell and no result register: only
ERRCODE, ERRINFO, ERR, PSTAGE and what completion writes differ. RUN and RUN_RAW are their sub-commands
(`Obligations.RunIsItsSubCommands`). -/
def Obligations.ErrorsArePrecise : Prop :=
  ∀ (s u : State) (i : Instr), i ≠ .run → i ≠ .runRaw → s.err = false → exec i s = .next u →
    u.err = true →
    u = { s with
          errCode := u.errCode, errInfo := u.errInfo, err := true, pstage := u.pstage
          pending := none, done := true }
      ∧ u.pstage = (if u.errCode = .sequence ∨ i = .score then s.pstage else .failed)

/-- 47_control.md R330. NOP completes and changes nothing else. -/
def Obligations.NopOnlyCompletes : Prop :=
  ∀ s : State, exec .nop s = .next { s with pending := none, done := true }

/-! ### ENCODE -/

/-- 40_mode_encoder.md R148, R141 to R145. ENCODE on a text of its alphabet writes the text's bit string to
BBUF and its length to RAW_LEN; the stage is ENCODED; nothing else changes. -/
def Obligations.EncodeWritesTheBitString : Prop :=
  ∀ (s : State) (text : List Byte), Memory.wf s.mem → s.mode.toNat ≤ 2 →
    s.holdsBytes .ibuf text → text.length = s.inLen.toNat →
    (∀ l, alphabet s.mode.toNat = some l → text ≠ [] ∧ ∀ b ∈ text, b.toNat ∈ l) →
    ∃ (u : State) (bits : Bits), encodeText s.mode.toNat text = .ok bits
      ∧ exec .encode s = .next u ∧ u.storedBits bits
      ∧ keepsOutside (Buf.bbuf.within ((bits.length + 7) / 8)) s u
      ∧ u = { s with
              mem := u.mem, rawLen := BitVec.ofNat 17 (rawLength s.mode.toNat text.length)
              pstage := .encoded, pending := none, done := true }

/-- 40_mode_encoder.md R148, 60_exceptions.md R351. The errors of ENCODE, in the order of its checks:
InvalidMode, E_PARAM for IN_LEN, InvalidCharacterSet with the mode and the index of the first byte outside
the alphabet, 0 for an empty text. -/
def Obligations.EncodeErrorsInOrder : Prop :=
  ∀ s : State,
    (2 < s.mode.toNat → exec .encode s = .next (s.failedWith .invalidMode s.mode.toNat))
      ∧ (s.mode.toNat ≤ 2 → 8192 < s.inLen.toNat →
          exec .encode s = .next (s.failedWith .param (0x020 ||| (s.inLen.toNat <<< 12))))
      ∧ (s.mode.toNat ≤ 1 → s.inLen.toNat = 0 →
          exec .encode s = .next (s.failedWith .invalidCharacterSet s.mode.toNat))
      ∧ (∀ (text : List Byte) (l : List Nat) (i : Nat) (b : Byte), Memory.wf s.mem →
          alphabet s.mode.toNat = some l → s.mode.toNat ≤ 1 → s.holdsBytes .ibuf text →
          text.length = s.inLen.toNat → text[i]? = some b → b.toNat ∉ l →
          (∀ (j : Nat) (x : Byte), j < i → text[j]? = some x → x.toNat ∈ l) →
          exec .encode s =
            .next (s.failedWith .invalidCharacterSet (s.mode.toNat ||| (i <<< 16))))

/-- 40_mode_encoder.md R146. The raw bit length of n bytes: 10·(n div 3) + [0, 4, 7][n mod 3] in digit mode,
11·(n div 2) + 6·(n mod 2) in alphanumeric, 8·n in byte mode; the longest for n ≤ 8192 is 65536 bits, which
is BBUF's capacity. -/
def Obligations.RawLengthFormula : Prop :=
  ∀ (mode : Nat) (text : List Byte) (bits : Bits), mode ≤ 2 → encodeText mode text = .ok bits →
    let n := text.length
    bits.length =
        [10 * (n / 3) + [0, 4, 7].getD (n % 3) 0, 11 * (n / 2) + 6 * (n % 2), 8 * n].getD mode 0
      ∧ bits.length = rawLength mode n
      ∧ (n ≤ 8192 → bits.length ≤ 65536) ∧ (mode = 2 → n = 8192 → bits.length = 65536)
      ∧ 8 * Buf.bbuf.size = 65536

/-- 40_mode_encoder.md R149. Two ENCODEs of the same inputs write the same bytes and RAW_LEN, whatever else
differs; and in byte mode the bytes of BBUF are those of IBUF. -/
def Obligations.EncodeIsPure : Prop :=
  ∀ s : State, Memory.wf s.mem →
    (∀ s' u : State, Memory.wf s'.mem → s'.mode = s.mode → s'.inLen = s.inLen →
        (∀ i, i < s.inLen.toNat → s'.byte .ibuf i = s.byte .ibuf i) →
        s.err = false → exec .encode s = .next u → u.err = false →
        ∃ u' : State, exec .encode s' = .next u' ∧ u'.rawLen = u.rawLen ∧ u'.pstage = .encoded
          ∧ ∀ i, i < (u.rawLen.toNat + 7) / 8 → u'.byte .bbuf i = u.byte .bbuf i)
      ∧ (∀ text : List Byte, s.mode.toNat = 2 → s.holdsBytes .ibuf text →
          text.length = s.inLen.toNat →
          ∃ u : State, exec .encode s = .next u ∧ u.holdsBytes .bbuf text
            ∧ u.holdsBytes .ibuf text)

/-- 40_mode_encoder.md R142 to R145. The groups of a bit string are the numbers of the rules: three digits in
10 bits, two in 7, one in 4; two characters in 11 bits, one in 6; one byte in 8. -/
def Obligations.GroupsAreTheNumbersOfTheRules : Prop :=
  (∀ (text : List Byte) (bits : Bits), encodeText 0 text = .ok bits →
      let n := text.length
      let d := fun i => (text.getD i 0#8).toNat - 0x30
      (∀ j, j < n / 3 → bitsToNat ((bits.drop (10 * j)).take 10)
          = 100 * d (3 * j) + 10 * d (3 * j + 1) + d (3 * j + 2))
        ∧ (n % 3 = 2 → bitsToNat (bits.drop (10 * (n / 3))) = 10 * d (n - 2) + d (n - 1))
        ∧ (n % 3 = 1 → bitsToNat (bits.drop (10 * (n / 3))) = d (n - 1)))
    ∧ (∀ (text : List Byte) (bits : Bits), encodeText 1 text = .ok bits →
        let n := text.length
        let value := fun i => ((alphabet 1).getD []).idxOf (text.getD i 0#8).toNat
        (∀ j, j < n / 2 → bitsToNat ((bits.drop (11 * j)).take 11)
            = 45 * value (2 * j) + value (2 * j + 1))
          ∧ (n % 2 = 1 → bitsToNat (bits.drop (11 * (n / 2))) = value (n - 1)))
    ∧ (∀ (text : List Byte) (bits : Bits), encodeText 2 text = .ok bits →
        ∀ j, j < text.length →
          bitsToNat ((bits.drop (8 * j)).take 8) = (text.getD j 0#8).toNat)

/-! ### SELECT and PAD -/

/-- 41_capacity_padding.md R160, R161, R162, R167, R170. With an operand that fits, SELECT chooses the least
version whose capacity holds header and data, writes to BBUF the 4-bit mode indicator, the count in the
width of its mode and version, most significant bit first, and the raw bits, and writes its result
registers; nothing else changes. -/
def Obligations.SelectChoosesTheLeastVersion : Prop :=
  let indicators := [(0, [false, false, false, true]), (1, [false, false, true, false]),
    (2, [false, true, false, false])]
  let widths := fun v : Nat =>
    if v ≤ 9 then [(0, 10), (1, 9), (2, 8)]
    else if v ≤ 26 then [(0, 12), (1, 11), (2, 16)]
    else [(0, 14), (1, 13), (2, 16)]
  (∀ mode v, mode ≤ 2 → 1 ≤ v → v ≤ 40 → (mode, countWidth mode v) ∈ widths v)
    ∧ ∀ (s : State) (v : Nat) (raw : Bits), Memory.wf s.mem → s.mode.toNat ≤ 2 → s.ecl.toNat ≤ 3 →
      s.holdsBits raw → raw.length = s.rawLen.toNat →
      leastFit s.mode.toNat s.ecl.toNat s.rawLen.toNat v →
      countFits s.mode.toNat s.ecl.toNat s.rawLen.toNat s.charCount.toNat v →
      ∃ (u : State) (c w : Nat) (mi : Bits), exec .select s = .next u
        ∧ stdCap v s.ecl.toNat = some c ∧ u.capBits.toNat = c
        ∧ (s.mode.toNat, mi) ∈ indicators ∧ (s.mode.toNat, w) ∈ widths v
        ∧ u.version.toNat = v ∧ u.selLevel.toNat = s.ecl.toNat ∧ u.size.toNat = 17 + 4 * v
        ∧ u.streamLen.toNat = 4 + w + s.rawLen.toNat
        ∧ u.streamLen.toNat ≤ c
        ∧ u.storedBits
          (mi ++ (List.range w).map (fun i => s.charCount.toNat.testBit (w - 1 - i)) ++ raw)
        ∧ keepsOutside (Buf.bbuf.within ((u.streamLen.toNat + 7) / 8)) s u
        ∧ u = { s with
                mem := u.mem, version := u.version, selLevel := u.selLevel, size := u.size
                capBits := u.capBits, streamLen := u.streamLen, pstage := .selected
                pending := none, done := true }

/-- 41_capacity_padding.md R170, R163, R168. The errors of SELECT, in the order of its checks. -/
def Obligations.SelectErrorsInOrder : Prop :=
  ∀ s : State,
    let mode := s.mode.toNat
    let l := s.ecl.toNat
    let n := s.rawLen.toNat
    let cnt := s.charCount.toNat
    (2 < mode → exec .select s = .next (s.failedWith .invalidMode mode))
      ∧ (mode ≤ 2 → 3 < l → exec .select s = .next (s.failedWith .invalidCorrectionLevel l))
      ∧ (mode ≤ 2 → l ≤ 3 → 65536 < n →
          exec .select s = .next (s.failedWith .param (0x028 ||| (n <<< 12))))
      ∧ (∀ c, mode ≤ 2 → l ≤ 3 → n ≤ 65536 → stdCap 40 l = some c →
          (∀ v, 1 ≤ v → v ≤ 40 → ¬ fits mode l n v) → countFits mode l n cnt 40 →
          exec .select s = .next (s.failedWith .dataTooLarge c))
      ∧ (∀ v c, mode ≤ 2 → l ≤ 3 → 1 ≤ v → v ≤ 40 → stdCap v l = some c → n < c →
          (∀ u, 1 ≤ u → u < v → ¬ fits mode l n u) → countFits mode l n cnt (v - 1) →
          2 ^ countWidth mode v ≤ cnt →
          exec .select s =
            .next (s.failedWith .lengthField (v ||| (countWidth mode v <<< 8))))

/-- 41_capacity_padding.md R169, R171, R173. PAD fills the capacity exactly: the stream, up to four zeros,
zeros to a byte boundary, then 0xEC and 0x11 in turn; STREAM_LEN = CAP_BITS; nothing else changes. -/
def Obligations.PadFillsTheCapacity : Prop :=
  ∀ (s : State) (x : Bits), s.Inv → s.pstage = .selected → s.holdsBits x →
    x.length = s.streamLen.toNat →
    let c := s.capBits.toNat
    let e := (min (x.length + 4) c + 7) / 8 * 8
    ∃ u : State, exec .pad s = .next u ∧ u.streamLen.toNat = c ∧ c % 8 = 0 ∧ e ≤ c
      ∧ (∀ i, i < x.length → u.streamBit i = x[i]?)
      ∧ (∀ i, x.length ≤ i → i < e → u.streamBit i = some false)
      ∧ (∀ j, e / 8 + j < c / 8 →
          u.byte .bbuf (e / 8 + j) = some (if j % 2 = 0 then 0xEC#8 else 0x11#8))
      ∧ keepsOutside (Buf.bbuf.within (c / 8)) s u
      ∧ u = { s with
              mem := u.mem, streamLen := u.streamLen, pstage := .padded
              pending := none, done := true }

/-! ### The division engine, ECGEN, RS_RAW -/

/-- 42_gf_rs.md R196. The division engine never misses a lookup and is linear on blocks of one length; an
empty or all-zero block gives k zero bytes; the block [0x01] gives the coefficients of the generator. -/
def Obligations.DivisionIsLinear : Prop :=
  ∀ (k : Nat) (gen : List Nat), stdGen k = some gen →
    (∀ d d' : List Byte, d.length = d'.length → ∃ e e' : List Byte,
        rsDiv standardTables gen k d = .ok e ∧ rsDiv standardTables gen k d' = .ok e'
          ∧ rsDiv standardTables gen k (List.zipWith (· ^^^ ·) d d')
            = .ok (List.zipWith (· ^^^ ·) e e'))
      ∧ (∀ n, rsDiv standardTables gen k (List.replicate n 0#8) = .ok (List.replicate k 0#8))
      ∧ ∃ e, rsDiv standardTables gen k [0x01#8] = .ok e ∧ gen.mapM gfExp = some e

/-- 42_gf_rs.md R194, R196. The data followed by its correction bytes is a multiple of the generator: for
every k of 7 to 68 and every data block it is 0 at each root α^0 .. α^(k−1). -/
def Obligations.CodewordsVanishAtTheRoots : Prop :=
  ∀ k, 7 ≤ k → k ≤ 68 → ∃ gen, stdGen k = some gen ∧
    ∀ d : List Byte, ∃ e, rsDiv standardTables gen k d = .ok e ∧ e.length = k
      ∧ ∀ i, i < k → ∃ x, gfExp i = some x ∧ polyAt x (d ++ e) = 0#8

/-- 42_gf_rs.md R198, R199. Block division: the blocks are the data in order with no gap and no overlap,
block j has D div N codewords and one more from block N − r on, and every correction block has k bytes;
with the standard tables 1 ≤ D div N ≤ 122 and N ≤ 81. -/
def Obligations.BlockDivisionCoversTheData : Prop :=
  (∀ (N : Nat) (data : List Byte), 1 ≤ N →
      let b := data.length / N
      let r := data.length % N
      let blocks := dataBlocks N b r data
      blocks.flatten = data ∧ blocks.length = N
        ∧ (∀ j x, blocks[j]? = some x → x.length = if j < N - r then b else b + 1)
        ∧ (blocks.filter fun x => x.length == b + 1).length = r
        ∧ blockOff N b r (N - 1) + blockLen N b r (N - 1) = data.length)
    ∧ (∀ v l c N, stdCap v l = some c → stdNb v l = some N →
        1 ≤ N ∧ 1 ≤ c / 8 / N ∧ c / 8 / N ≤ 122 ∧ N ≤ 81)
    ∧ (∀ (k : Nat) (gen : List Nat) (d : List Byte), stdGen k = some gen →
        ∃ e, rsDiv standardTables gen k d = .ok e ∧ e.length = k)

/-- 42_gf_rs.md R198, R200. ECGEN in stage PADDED: correction block j, at EBUF[j·k ..], is the division of
data block j; the block registers; the stage is EC_DONE; nothing else changes. -/
def Obligations.EcgenWritesTheCorrectionBlocks : Prop :=
  ∀ (s : State) (data : List Byte), s.Inv → s.pstage = .padded → s.holdsBytes .bbuf data →
    data.length = s.capBits.toNat / 8 →
    ∃ (u : State) (N k : Nat) (gen : List Nat), exec .ecgen s = .next u
      ∧ stdNb s.version.toNat s.selLevel.toNat = some N
      ∧ stdEcb s.version.toNat s.selLevel.toNat = some k ∧ stdGen k = some gen
      ∧ u.numBlocks.toNat = N ∧ u.ecLen.toNat = k
      ∧ u.blkShort.toNat = data.length / N ∧ u.blkNlong.toNat = data.length % N
      ∧ (∀ j, j < N →
          let b := data.length / N
          let r := data.length % N
          let block := (data.drop (j * b + (j - (N - r)))).take (b + if N - r ≤ j then 1 else 0)
          ∃ e, rsDiv standardTables gen k block = .ok e
            ∧ ∀ i, i < k → u.byte .ebuf (j * k + i) = e[i]?)
      ∧ keepsOutside (Buf.ebuf.within (N * k)) s u
      ∧ u = { s with
              mem := u.mem, numBlocks := u.numBlocks, ecLen := u.ecLen
              blkShort := u.blkShort, blkNlong := u.blkNlong, pstage := .ecDone
              pending := none, done := true }

/-- 42_gf_rs.md R201. RS_RAW divides BBUF[0 .. RS_LEN − 1] and writes k bytes to EBUF and EC_LEN, the stage
is IDLE and nothing else changes; RS_K outside 7 .. 68, then RS_LEN above 8192, is E_PARAM. -/
def Obligations.RsRawDividesOrReportsTheOperand : Prop :=
  ∀ s : State,
    let k := s.rsK.toNat
    let n := s.rsLen.toNat
    (∀ data : List Byte, Memory.wf s.mem → 7 ≤ k → k ≤ 68 → s.holdsBytes .bbuf data →
        data.length = n →
        ∃ (u : State) (gen : List Nat) (e : List Byte), stdGen k = some gen
          ∧ rsDiv standardTables gen k data = .ok e ∧ e.length = k ∧ exec .rsRaw s = .next u
          ∧ u.holdsBytes .ebuf e ∧ u.ecLen.toNat = k
          ∧ keepsOutside (Buf.ebuf.within k) s u
          ∧ u = { s with
                  mem := u.mem, ecLen := u.ecLen, pstage := .idle
                  pending := none, done := true })
      ∧ (k < 7 ∨ 68 < k →
          exec .rsRaw s = .next (s.failedWith .param (0x068 ||| (k <<< 12))))
      ∧ (7 ≤ k → k ≤ 68 → 8192 < n →
          exec .rsRaw s = .next (s.failedWith .param (0x06C ||| (n <<< 12))))

/-! ### INTERLEAVE -/

/-- 43_interleave.md R232. INTERLEAVE in stage EC_DONE: the closed form of the FBUF layout and TOTAL_CW; the
stage is INTERLEAVED; nothing else changes. -/
def Obligations.InterleaveClosedForm : Prop :=
  ∀ s : State, s.Inv → s.pstage = .ecDone →
    let N := s.numBlocks.toNat
    let k := s.ecLen.toNat
    let b := s.blkShort.toNat
    let r := s.blkNlong.toNat
    let D := N * b + r
    let off := fun j => j * b + (j - (N - r))
    ∃ u : State, exec .interleave s = .next u
      ∧ (∀ c j, c < b → j < N → u.byte .fbuf (c * N + j) = s.byte .bbuf (off j + c))
      ∧ (∀ j, N - r ≤ j → j < N →
          u.byte .fbuf (b * N + (j - (N - r))) = s.byte .bbuf (off j + b))
      ∧ (∀ c j, c < k → j < N → u.byte .fbuf (D + c * N + j) = s.byte .ebuf (j * k + c))
      ∧ u.totalCw.toNat = D + N * k
      ∧ (∀ p, p < D + N * k → (u.byte .fbuf p).isSome = true)
      ∧ keepsOutside (Buf.fbuf.within (D + N * k)) s u
      ∧ u = { s with
              mem := u.mem, totalCw := u.totalCw, pstage := .interleaved
              pending := none, done := true }

/-! ### BUILD -/

/-- 44_matrix_patterns.md R252, R240. BUILD in stage INTERLEAVED writes every cell of MAT and clears those
outside the symbol; every free cell holds bit 0; it counts the free cells, clears the scores and TRIAL_DONE;
the stage is PATTERNS_PLACED; nothing else changes. -/
def Obligations.BuildWritesEveryCell : Prop :=
  ∀ s : State, s.Inv → s.pstage = .interleaved →
    let S := s.size.toNat
    ∃ (u : State) (g : Grid), exec .build s = .next u ∧ u.holdsGrid Config.sMax g
      ∧ (∀ r c, r < Config.sMax → c < Config.sMax → S ≤ r ∨ S ≤ c →
          g.cell r c = ⟨false, false⟩)
      ∧ (∀ r c, r < Config.sMax → c < Config.sMax → (g.cell r c).st = false →
          (g.cell r c).bit = false)
      ∧ u.freeCells.toNat =
          ∑ r ∈ Finset.range S, ∑ c ∈ Finset.range S, (if (g.cell r c).st then 0 else 1)
      ∧ (∀ m : Fin 8, u.scores[m] = 0#32) ∧ u.trialDone = 0x00#8
      ∧ keepsOutside (inSquare Config.sMax) s u
      ∧ u = { s with
              mem := u.mem, freeCells := u.freeCells, scores := u.scores, trialDone := 0x00#8
              pstage := .patternsPlaced, pending := none, done := true }

/-- 44_matrix_patterns.md R242, R243, R250, R251. The patterns every symbol has after BUILD: the three finder
patterns with their separators, the dark module, the timing strips between the finders, the format
placeholders, in row 8 and column 8, which hold 0; each cell is structural. -/
def Obligations.BuildStampsTheFixedPatterns : Prop :=
  ∀ s u : State, s.Inv → s.pstage = .interleaved → exec .build s = .next u →
    let S := s.size.toNat
    (∀ cr cc, (cr, cc) ∈ [(3, 3), (3, S - 4), (S - 4, 3)] → ∀ r c, r < S → c < S →
        distance r cr ≤ 4 → distance c cc ≤ 4 →
        u.matCell r c = some ⟨max (distance r cr) (distance c cc) ∈ [0, 1, 3], true⟩)
      ∧ u.matCell (S - 8) 8 = some ⟨true, true⟩
      ∧ (∀ i, 8 ≤ i → i + 8 < S →
          u.matCell 6 i = some ⟨i % 2 == 0, true⟩ ∧ u.matCell i 6 = some ⟨i % 2 == 0, true⟩)
      ∧ (∀ i, i ≤ 8 → i ≠ 6 →
          u.matCell i 8 = some ⟨false, true⟩ ∧ u.matCell 8 i = some ⟨false, true⟩)
      ∧ (∀ i, i ≤ 7 → u.matCell 8 (S - 1 - i) = some ⟨false, true⟩)
      ∧ (∀ i, i ≤ 6 → u.matCell (S - 1 - i) 8 = some ⟨false, true⟩)

/-- 44_matrix_patterns.md R245, R249. The patterns of the larger symbols after BUILD: the alignment patterns
around every pair of positions but the three corners, and from version 7 on the two version blocks with the
bits of the version code. -/
def Obligations.BuildStampsTheVersionPatterns : Prop :=
  ∀ s u : State, s.Inv → s.pstage = .interleaved → exec .build s = .next u →
    let V := s.version.toNat
    let S := 17 + 4 * V
    (∀ P, stdApos V = some P → ∀ ar ac, ar ∈ P → ac ∈ P →
        ¬ (ar = 6 ∧ ac = 6) → ¬ (ar = 6 ∧ ac = S - 7) → ¬ (ar = S - 7 ∧ ac = 6) →
        ∀ r c, distance r ar ≤ 2 → distance c ac ≤ 2 →
        u.matCell r c = some ⟨max (distance r ar) (distance c ac) != 1, true⟩)
      ∧ (7 ≤ V → ∃ code, stdVcode V = some code ∧ ∀ i, i < 18 →
          u.matCell (i / 3) (S - 11 + i % 3) = some ⟨code.testBit i, true⟩
            ∧ u.matCell (S - 11 + i % 3) (i / 3) = some ⟨code.testBit i, true⟩)

/-- 44_matrix_patterns.md R255. FREE_CELLS after BUILD is F(V), and it is 8 bits for each codeword and the
remainder bits: at most 7 more. -/
def Obligations.FreeCellsFormula : Prop :=
  ∀ s u : State, s.Inv → s.pstage = .interleaved → exec .build s = .next u →
    u.freeCells.toNat = freeCellFormula s.version.toNat
      ∧ 8 * s.totalCw.toNat ≤ u.freeCells.toNat ∧ u.freeCells.toNat ≤ 8 * s.totalCw.toNat + 7

/-- 44_matrix_patterns.md R253, 10_state.md R56. No command but BUILD, alone or inside RUN and RUN_RAW,
writes a structural flag. -/
def Obligations.OnlyBuildWritesStructuralFlags : Prop :=
  ∀ (s u : State) (i : Instr), Memory.wf s.mem → i ≠ .build → i ≠ .run → i ≠ .runRaw →
    exec i s = .next u →
    ∀ r c, r < Config.sMax → c < Config.sMax →
      (u.matCell r c).map MatCell.st = (s.matCell r c).map MatCell.st

/-! ### Placement, TRIAL -/

/-- 45_placement_mask.md R280. The cursor visits every cell of every column but column 6 exactly once, and no
other cell, in this order: pairs of columns from the right, column 6 left out; in a pair row by row, upwards
in the first pair and in the other direction in each next one; in a row the right cell, then the left. The
cell (r, c), q columns from the right without column 6, so stands at 2·S·(q div 2) + 2·(rows walked before it) + (q mod 2). -/
def Obligations.ZigzagVisitsEachCellOnce : Prop :=
  ∀ V, 1 ≤ V →
    let S := 17 + 4 * V
    (visited S).Nodup ∧ (visited S).length = S * (S - 1)
      ∧ (∀ r c, (r, c) ∈ visited S ↔ r < S ∧ c < S ∧ c ≠ 6)
      ∧ ∀ r c, r < S → c < S → c ≠ 6 →
          let q := if c < 6 then S - 2 - c else S - 1 - c
          let rows := if q / 2 % 2 = 0 then S - 1 - r else r
          (visited S)[2 * S * (q / 2) + 2 * rows + q % 2]? = some (r, c)

/-- 45_placement_mask.md R280, R281. After BUILD every cell of column 6 is structural, and the zigzag sequence
holds every free cell of the symbol exactly once, in the order of the cursor: its length is FREE_CELLS. -/
def Obligations.ZigzagHoldsEveryFreeCell : Prop :=
  ∀ (s u : State) (g : Grid), s.Inv → s.pstage = .interleaved → exec .build s = .next u →
    u.holdsGrid u.size.toNat g →
    let S := u.size.toNat
    (∀ r, r < S → (g.cell r 6).st = true)
      ∧ (zigzag S g).Sublist (visited S) ∧ (zigzag S g).Nodup ∧ (zigzag S g).length = u.freeCells.toNat
      ∧ ∀ r c, (r, c) ∈ zigzag S g ↔ r < S ∧ c < S ∧ (g.cell r c).st = false

/-- 45_placement_mask.md R270, R271, R276, R282, R286, 44_matrix_patterns.md R251. TRIAL m in its stages: the
two copies of the format cells, listed by bit index, hold the bits of FCODE, the first min(8T, |ZZ|) cells of
the zigzag hold the stream bits under the mask, every other cell and every structural flag is unchanged;
SCORE[m], the breakdown, PLACED_BITS and TRIAL_DONE; nothing else changes. -/
def Obligations.TrialPlacesTheStreamUnderTheMask : Prop :=
  ∀ (s : State) (m : Fin 8) (g : Grid), s.Inv →
    (s.pstage = .patternsPlaced ∨ s.pstage = .trialing) → s.holdsGrid s.size.toNat g →
    let S := s.size.toNat
    let zz := zigzag S g
    let n := min (8 * s.totalCw.toNat) zz.length
    let masks := fun i j : Nat =>
      [(i + j) % 2 == 0, i % 2 == 0, j % 3 == 0, (i + j) % 3 == 0, (i / 2 + j / 3) % 2 == 0,
        (i * j) % 2 + (i * j) % 3 == 0, ((i * j) % 2 + (i * j) % 3) % 2 == 0,
        ((i + j) % 2 + (i * j) % 3) % 2 == 0]
    let fcell1 := [(0, 8), (1, 8), (2, 8), (3, 8), (4, 8), (5, 8), (7, 8), (8, 8), (8, 7), (8, 5), (8, 4),
      (8, 3), (8, 2), (8, 1), (8, 0)]
    let fcell2 := [(8, S - 1), (8, S - 2), (8, S - 3), (8, S - 4), (8, S - 5), (8, S - 6), (8, S - 7),
      (8, S - 8), (S - 7, 8), (S - 6, 8), (S - 5, 8), (S - 4, 8), (S - 3, 8), (S - 2, 8), (S - 1, 8)]
    ∃ (u : State) (f : Nat) (g' : Grid), exec (.trial m) s = .next u
      ∧ stdFcode s.selLevel.toNat m.val = some f ∧ u.holdsGrid S g'
      ∧ (∀ r c, r < S → c < S → (g'.cell r c).st = (g.cell r c).st)
      ∧ (∀ i p, i < n → zz[i]? = some p →
          some (g'.cell p.1 p.2).bit =
            (s.byte .fbuf (i / 8)).map fun b => b.getLsbD (7 - i % 8) ^^ (masks p.1 p.2).getD m.val false)
      ∧ (∀ i p, fcell1[i]? = some p ∨ fcell2[i]? = some p → p ∉ zz.take n →
          (g'.cell p.1 p.2).bit = f.testBit i)
      ∧ (∀ p : Nat × Nat, p.1 < S → p.2 < S → p ∉ zz.take n →
          p ∉ fcell1 → p ∉ fcell2 →
          g'.cell p.1 p.2 = g.cell p.1 p.2)
      ∧ keepsOutside (inSquare S) s u
      ∧ (let a := penaltyOf S g'.lines
         u = { s with
               mem := u.mem, scores := s.scores.set m (BitVec.ofNat 32 a.total)
               penalty := a.registers, placedBits := u.placedBits
               trialDone := s.trialDone ||| (1#8 <<< m.val), pstage := .trialing
               pending := none, done := true }
           ∧ u.placedBits.toNat = n)

/-- 45_placement_mask.md R284. Trials are independent of their order: a TRIAL after another leaves the same
MAT and the same score as that TRIAL alone. -/
def Obligations.TrialsAreIndependentOfTheirOrder : Prop :=
  ∀ (s a b c : State) (m m' : Fin 8), Memory.wf s.mem →
    exec (.trial m) s = .next a → exec (.trial m') a = .next b → exec (.trial m') s = .next c →
    s.err = false → b.err = false →
    (∀ x, b.at x = c.at x) ∧ b.scores[m'] = c.scores[m'] ∧ b.penalty = c.penalty
      ∧ b.placedBits = c.placedBits

/-! ### The penalty, SCORE and COMMIT -/

/-- 46_penalty_select.md R306. The accumulator computes the six components as the rule defines them, over the
region's rows and columns. -/
def Obligations.PenaltyIsTheRule : Prop :=
  ∀ (n : Nat) (g : Grid), g.length = n → (∀ row ∈ g, row.length = n) →
    penaltyOf n g.lines = specPenalty n fun r c => (g.cell r c).bit

/-- 46_penalty_select.md R307. The bounds of the components for N ≤ 177; the total is below 2^22, so the
32-bit registers hold every component and the total exactly. -/
def Obligations.PenaltyFitsTheRegisters : Prop :=
  ∀ (n : Nat) (g : Grid), n ≤ 177 → g.length = n → (∀ row ∈ g, row.length = n) →
    let a := penaltyOf n g.lines
    a.a1 ≤ 30975 ∧ a.a2 ≤ 30975 ∧ a.a3 ≤ 92928 ∧ a.a4 ≤ 1182360 ∧ a.a5 ≤ 1182360 ∧ a.a6 ≤ 100
      ∧ a.total < 2 ^ 22
      ∧ a.registers.r1row.toNat = a.a1 ∧ a.registers.r1col.toNat = a.a2
      ∧ a.registers.r2.toNat = a.a3 ∧ a.registers.r3row.toNat = a.a4
      ∧ a.registers.r3col.toNat = a.a5 ∧ a.registers.r4.toNat = a.a6
      ∧ a.registers.total.toNat = a.total

/-- 46_penalty_select.md R314. SCORE writes the breakdown registers of the top-left N × N region and nothing
else, in any stage; SCORE_N = 0 or above 177 is E_PARAM, and PSTAGE is unchanged. -/
def Obligations.ScoreWritesTheBreakdown : Prop :=
  ∀ s : State,
    let n := s.scoreN.toNat
    (∀ g : Grid, Memory.wf s.mem → 1 ≤ n → s.holdsGrid n g →
        exec .score s = .next
          { s with
            penalty := (specPenalty n fun r c => (g.cell r c).bit).registers
            pending := none, done := true })
      ∧ (n = 0 ∨ 177 < n →
          exec .score s = .next
            { s with
              errCode := .param, errInfo := BitVec.ofNat 32 (0x064 ||| (n <<< 12)), err := true
              pending := none, done := true })
      ∧ (∀ g : Grid, s.holdsGrid n g →
          let a := penaltyOf n g.lines
          (n < 5 → a.a1 = 0 ∧ a.a2 = 0) ∧ (n < 11 → a.a4 = 0 ∧ a.a5 = 0)
            ∧ (n = 1 → a.a3 = 0 ∧ a.a6 = 100))

/-- 46_penalty_select.md R312. The winning mask is the least index whose score is minimal. -/
def Obligations.TheLeastMinimalScoreWins : Prop :=
  ∀ scores : Vector Word 8,
    (∀ m : Fin 8, scores[selectMask scores].toNat ≤ scores[m].toNat)
      ∧ ∀ m : Fin 8, m < selectMask scores → scores[selectMask scores].toNat < scores[m].toNat

/-- 46_penalty_select.md R313. COMMIT with all eight masks tried leaves the same MAT as a TRIAL of the winning
mask, BEST_MASK, BEST_SCORE and PLACED_BITS; the stage is COMMITTED; it does not score again and nothing
else changes. -/
def Obligations.CommitPlacesTheWinningMask : Prop :=
  ∀ s : State, s.Inv → s.pstage = .trialing → s.trialDone = 0xFF#8 →
    let best := selectMask s.scores
    ∃ u w : State, exec .commit s = .next u ∧ exec (.trial best) s = .next w
      ∧ (∀ a, u.at a = w.at a) ∧ u.bestMask.toNat = best.val
      ∧ keepsOutside (inSquare s.size.toNat) s u
      ∧ u = { s with
              mem := u.mem, bestMask := u.bestMask, bestScore := s.scores[best]
              placedBits := w.placedBits, pstage := .committed
              pending := none, done := true }

/-- 46_penalty_select.md R313, R312, 45_placement_mask.md R284. When MAT is not written in between, the eight
trials and COMMIT leave a symbol whose penalty is BEST_SCORE, and no mask's score is lower. -/
def Obligations.TheCommittedSymbolHasTheBestScore : Prop :=
  ∀ (s u : State) (g : Grid), Memory.wf s.mem →
    performCommands ((List.finRange 8).map .trial ++ [.commit]) s = .next u →
    u.err = false → u.holdsGrid u.size.toNat g →
    u.pstage = .committed ∧ u.bestScore.toNat = (penaltyOf u.size.toNat g.lines).total
      ∧ ∀ m : Fin 8, u.bestScore.toNat ≤ u.scores[m].toNat

/-- 46_penalty_select.md R313, 20_memory.md R75. No mutation after commit: from COMMITTED on no command but
RUN and RUN_RAW, which build anew, and no host write, changes a cell of MAT. -/
def Obligations.NoMutationAfterCommit : Prop :=
  ∀ s : State, Memory.wf s.mem → s.pstage = .committed →
    (∀ (i : Instr) (u : State), i ≠ .run → i ≠ .runRaw → exec i s = .next u →
        ∀ r c, r < Config.sMax → c < Config.sMax → u.matCell r c = s.matCell r c)
      ∧ ∀ (a : BusAddr) (n : AccSize) (v : Word), s.pending = none →
          ∀ r c, r < Config.sMax → c < Config.sMax →
            (s.hostWrite a n v).matCell r c = s.matCell r c

/-! ### RUN and RUN_RAW -/

/-- 47_control.md R332, R333, R335. RUN is the fifteen commands, and RUN_RAW the fourteen from SELECT on, each
performed as a whole, up to the first that fails. -/
def Obligations.RunIsItsSubCommands : Prop :=
  ∀ s : State, s.err = false →
    exec .run s = performCommands (.encode :: rawPipeline) s
      ∧ exec .runRaw s = performCommands rawPipeline s

/-- 47_control.md R332, R335. RUN and RUN_RAW end COMMITTED without error or FAILED with one, and never with
E_SEQUENCE or E_ILLEGAL_CMD. -/
def Obligations.RunEndsCommittedOrFailed : Prop :=
  ∀ (s u : State) (i : Instr), i = .run ∨ i = .runRaw → s.err = false → exec i s = .next u →
    (u.pstage = .committed ∧ u.err = false ∧ u.errCode = s.errCode)
      ∨ (u.pstage = .failed ∧ u.err = true ∧ u.errCode ≠ .sequence ∧ u.errCode ≠ .illegalCmd
          ∧ u.errCode ≠ .none)

/-- 47_control.md R333. RUN_RAW on a raw bit string that fits, from any stage, completes with a committed
symbol of the least version that holds it, which meets the invariant. -/
def Obligations.RunRawCommitsASymbol : Prop :=
  ∀ (s : State) (v : Nat) (raw : Bits), Memory.wf s.mem → s.mode.toNat ≤ 2 → s.ecl.toNat ≤ 3 →
    s.holdsBits raw → raw.length = s.rawLen.toNat →
    leastFit s.mode.toNat s.ecl.toNat s.rawLen.toNat v →
    countFits s.mode.toNat s.ecl.toNat s.rawLen.toNat s.charCount.toNat v →
    ∃ u : State, exec .runRaw s = .next u ∧ u.pstage = .committed ∧ u.err = s.err
      ∧ u.version.toNat = v ∧ u.selLevel.toNat = s.ecl.toNat ∧ u.trialDone = 0xFF#8 ∧ u.Inv
      ∧ keepsOutside (mayWriteAt .runRaw) s u

/-- 47_control.md R332. RUN on a text of its alphabet that fits, from any stage, completes with a committed
symbol of the least version that holds it, which meets the invariant. -/
def Obligations.RunCommitsASymbol : Prop :=
  ∀ (s : State) (v : Nat) (text : List Byte), Memory.wf s.mem → s.mode.toNat ≤ 2 →
    s.ecl.toNat ≤ 3 → s.holdsBytes .ibuf text → text.length = s.inLen.toNat →
    (∀ l, alphabet s.mode.toNat = some l → text ≠ [] ∧ ∀ b ∈ text, b.toNat ∈ l) →
    leastFit s.mode.toNat s.ecl.toNat (rawLength s.mode.toNat text.length) v →
    countFits s.mode.toNat s.ecl.toNat (rawLength s.mode.toNat text.length)
      s.charCount.toNat v →
    ∃ u : State, exec .run s = .next u ∧ u.pstage = .committed ∧ u.err = s.err
      ∧ u.rawLen.toNat = rawLength s.mode.toNat text.length
      ∧ u.version.toNat = v ∧ u.selLevel.toNat = s.ecl.toNat ∧ u.trialDone = 0xFF#8 ∧ u.Inv
      ∧ keepsOutside (mayWriteAt .run) s u

/-! ### Tables and faults -/

/-- 00_scope.md R7, 42_gf_rs.md R190, R197, 44_matrix_patterns.md R247, R248, 45_placement_mask.md R274. The
standard tables are well-formed; every level of a version has the same total number of codewords; EXP, on
0 .. 254, is the recurrence with the polynomial 0x11D and LOG, on 1 .. 255, its inverse; alignment positions, version codes and format
codes are what their constructions give. -/
def Obligations.TablesFollowTheirConstructions : Prop :=
  standardTables.wf = true
    ∧ (∀ v, 1 ≤ v → v ≤ 40 → ∃ total, total ≤ 3706 ∧ ∀ l, l < 4 →
        ∃ c n k, stdCap v l = some c ∧ stdNb v l = some n ∧ stdEcb v l = some k
          ∧ c / 8 + n * k = total)
    ∧ standardTables.exp 0 = some 0x01#8
    ∧ (∀ i, i < 254 → ∃ x y : Byte,
        standardTables.exp i = some x ∧ standardTables.exp (i + 1) = some y
          ∧ y.toNat = (x.toNat <<< 1) ^^^ (if 0x80 ≤ x.toNat then 0x11D else 0))
    ∧ (∀ i, 255 ≤ i → standardTables.exp i = none)
    ∧ (∀ i, i < 255 → (standardTables.exp i).bind standardTables.log = some i)
    ∧ standardTables.log 0#8 = none
    ∧ (∀ b : Byte, b ≠ 0#8 →
        ∃ i, i < 255 ∧ standardTables.log b = some i ∧ standardTables.exp i = some b)
    ∧ (∀ V, 2 ≤ V → V ≤ 40 →
      let n := V / 7 + 2
      let gap := if V = 32 then 26 else (4 * V + 2 * n + 1) / (2 * n - 2) * 2
      stdApos V = some (6 :: (List.range (n - 1)).reverse.map fun i => 17 + 4 * V - 7 - i * gap))
    ∧ (∀ V, 7 ≤ V → V ≤ 40 → ∃ c, stdVcode V = some c ∧ c < 2 ^ 18 ∧ c / 2 ^ 12 = V
        ∧ ((List.range 6).reverse.foldl
            (fun x i => if x.testBit (i + 12) then x ^^^ (0x1F25 <<< i) else x) c) = 0)
    ∧ (∀ l m, l < 4 → m < 8 → ∃ c, stdFcode l m = some c ∧ c < 2 ^ 15
        ∧ (c ^^^ 0x5412) / 2 ^ 10 = ([1, 0, 3, 2].getD l 0) * 8 + m
        ∧ ((List.range 5).reverse.foldl
            (fun x i => if x.testBit (i + 10) then x ^^^ (0x537 <<< i) else x) (c ^^^ 0x5412)) = 0)

/-- 60_exceptions.md R351, R352. A missing entry is reported as InternalTableLookup where the command rules
look it up, for any record of tables: NB, ECB, GEN and LOG in ECGEN, APOS and VCODE in BUILD, FCODE in TRIAL
and COMMIT, GEN, LOG and EXP in RS_RAW, CAP in SELECT; ERRINFO names index, level and table. The model's
choices: the level 0 beside GEN in ECGEN, by R351 and not by the line of 42_gf_rs.md R200 (log 16); the table
ids of EXP and LOG, which are free values (log 12). -/
def Obligations.MissingTableEntriesAreReported : Prop :=
  ∀ (T : Tables) (s : State),
    let v := s.version.toNat
    let l := s.selLevel.toNat
    let lost := fun (i : Instr) (x y t : Nat) =>
      Perf.failed (s.fail i .internalTableLookup (BitVec.ofNat 32 (x ||| (y <<< 8) ||| (t <<< 16))))
    (T.nb v l = none ∨ T.nb v l = some 0 → performEcgen T s = lost .ecgen v l 2)
      ∧ (∀ n, T.nb v l = some n → n ≠ 0 → T.ecb v l = none → performEcgen T s = lost .ecgen v l 3)
      ∧ (∀ n k, T.nb v l = some n → n ≠ 0 → T.ecb v l = some k → T.gen k = none →
          performEcgen T s = lost .ecgen k 0 4)
      ∧ (T.apos v = none → performBuild T s = lost .build v 0 5)
      ∧ (∀ P, T.apos v = some P → 7 ≤ v → T.vcode v = none → performBuild T s = lost .build v 0 6)
      ∧ (∀ m : Fin 8, T.fcode l m.val = none →
          performTrial T m s = lost (.trial m) m.val l 7)
      ∧ (T.fcode l (selectMask s.scores).val = none →
          performCommit T s = lost .commit (selectMask s.scores).val l 7)
      ∧ (7 ≤ s.rsK.toNat → s.rsK.toNat ≤ 68 → s.rsLen.toNat ≤ 8192 → T.gen s.rsK.toNat = none →
          performRsRaw T s = lost .rsRaw s.rsK.toNat 0 4)
      ∧ (∀ (gen : List Nat) (b : Byte) (rest : List Byte), Memory.wf s.mem →
          7 ≤ s.rsK.toNat → s.rsK.toNat ≤ 68 → T.gen s.rsK.toNat = some gen →
          gen.length = s.rsK.toNat → s.holdsBytes .bbuf (b :: rest) →
          (b :: rest).length = s.rsLen.toNat → b ≠ 0#8 →
          (T.log b = none →
              performRsRaw T s = lost .rsRaw b.toNat 0 Config.logTableId.toNat)
            ∧ ∀ (lf g : Nat) (gs : List Nat), T.log b = some lf → gen = g :: gs →
              T.exp ((g + lf) % 255) = none →
              performRsRaw T s = lost .rsRaw ((g + lf) % 255) 0 Config.expTableId.toNat)
      ∧ (∀ (N k : Nat) (gen : List Nat) (b : Byte) (rest : List Byte), Memory.wf s.mem →
          T.nb v l = some N → T.ecb v l = some k → T.gen k = some gen → gen.length = k → 1 ≤ k →
          s.holdsBytes .bbuf (b :: rest) → (b :: rest).length = s.capBits.toNat / 8 →
          1 ≤ N → N ≤ (b :: rest).length → b ≠ 0#8 → T.log b = none →
          performEcgen T s = lost .ecgen b.toNat 0 Config.logTableId.toNat)
      ∧ (∀ x, s.mode.toNat ≤ 2 → s.ecl.toNat ≤ 3 → s.rawLen.toNat ≤ 65536 → 1 ≤ x → x ≤ 40 →
          T.cap x s.ecl.toNat = none →
          (∀ y, 1 ≤ y → y < x → ∃ c, T.cap y s.ecl.toNat = some c ∧
            c < 4 + countWidth s.mode.toNat y + s.rawLen.toNat
              ∧ s.charCount.toNat < 2 ^ countWidth s.mode.toNat y) →
          performSelect T s = lost .select x s.ecl.toNat 1)

/-- 60_exceptions.md R352. With the standard tables InternalTableLookup is never raised, in any state that
meets the invariant. -/
def Obligations.StandardTablesNeverMiss : Prop :=
  ∀ (s u : State) (i : Instr), s.Inv → s.err = false → exec i s = .next u → u.err = true →
    u.errCode ≠ .internalTableLookup

/-- 10_state.md R57, 60_exceptions.md R358. The one way a step stops is UNWRITTEN_READ, and the address it
names is a byte or cell whose written flag is clear; the commands behind a stage check never stop, for what
the stages before have left is all they read (out of their stage they end in E_SEQUENCE). -/
def Obligations.OnlyUnwrittenReadsStop : Prop :=
  ∀ s : State, s.Inv →
    (∀ r, step s ≠ .refused r)
      ∧ (∀ f, step s = .fault f → ∃ i a, f = .unwrittenRead i a
          ∧ (isBufByte a = true ∨ isCell a = true) ∧ s.at a = none)
      ∧ ∀ i, stagesBefore i ≠ none → ∃ u, exec i s = .next u

/-- 10_state.md R21 to R28, 60_exceptions.md R350. What the host reads of ID, CTRL and STATUS, busy or not, and
of CMD, ERRCODE and ERRINFO with BUSY = 0, bit by bit: STATUS is BUSY in bit 0, DONE 1, ERR 2, CMD_DROPPED 3,
the number of PSTAGE in 11:8, TRIAL_DONE in 23:16 and 0 elsewhere; CTRL is IRQ_EN in bit 0; ERRCODE is the
number of the error code. -/
def Obligations.StatusAndErrorRegistersRead : Prop :=
  ∀ s : State,
    s.memRead 0x000 .word = ⟨true, 0x51520007#32⟩
      ∧ (∃ w, s.memRead 0x004 .word = ⟨true, w⟩ ∧ w.toNat = s.irqEn.toNat)
      ∧ (∃ w n, s.memRead 0x008 .word = ⟨true, w⟩
          ∧ (s.pstage, n) ∈ [(.idle, 0), (.encoded, 1), (.selected, 2), (.padded, 3), (.ecDone, 4),
              (.interleaved, 5), (.patternsPlaced, 6), (.trialing, 7), (.committed, 8), (.failed, 15)]
          ∧ w.toNat = s.pending.isSome.toNat + 2 * s.done.toNat + 4 * s.err.toNat
              + 8 * s.cmdDropped.toNat + 2 ^ 8 * n + 2 ^ 16 * s.trialDone.toNat)
      ∧ (s.pending = none →
          s.memRead 0x00C .word = ⟨true, 0#32⟩ ∧ s.memRead 0x014 .word = ⟨true, s.errInfo⟩
            ∧ ∃ w n, s.memRead 0x010 .word = ⟨true, w⟩ ∧ w.toNat = n
              ∧ (s.errCode, n) ∈ [(.none, 0x00), (.invalidCharacterSet, 0x01),
                  (.invalidCorrectionLevel, 0x02), (.invalidMode, 0x03), (.dataTooLarge, 0x04),
                  (.internalTableLookup, 0x05), (.illegalCmd, 0x10), (.sequence, 0x11),
                  (.param, 0x12), (.lengthField, 0x13)])
end

