-- ==== Sys2Proof/Laws/Memory.lean ====
section
/-! SUPPORT. Memory: what a write leaves, what a read answers, and that every memory operation keeps the
canonical form. Later proofs cite these lemmas and unfold no memory operation. -/

namespace Sys2Proof.Machine

/-- Addresses strictly rising. -/
abbrev Memory.rising (m : Memory) : Prop := m.Pairwise fun x y => x.1 < y.1

namespace Memory

theorem lookup_eq_some_iff {m : Memory} (h : m.rising) (a : Nat) (b : Byte) :
    lookup m a = some b ↔ (a, b) ∈ m := by
  induction m with
  | nil => simp [lookup]
  | cons e m ih =>
    obtain ⟨k, v⟩ := e
    obtain ⟨hk, hm⟩ := List.pairwise_cons.1 h
    have hnot : a ≤ k → (a, b) ∉ m := fun hak hmem => absurd (hk _ hmem) (by simp; omega)
    unfold lookup
    split
    · rename_i hlt
      have := hnot (by omega)
      simp [this]; omega
    · split
      · rename_i heq
        have := hnot (by omega)
        subst heq
        simp [this, eq_comm]
      · rename_i hne
        simp [ih hm, hne]

theorem lookup_eq_none_iff {m : Memory} (h : m.rising) (a : Nat) :
    lookup m a = none ↔ ∀ b, (a, b) ∉ m := by
  constructor
  · intro hn b hb
    rw [← lookup_eq_some_iff h] at hb
    simp [hn] at hb
  · intro hn
    cases hl : lookup m a with
    | none => rfl
    | some b => exact absurd ((lookup_eq_some_iff h a b).1 hl) (hn b)

/-- Two memories in canonical form that read alike are equal. -/
theorem eq_of_lookup {m m' : Memory} (h : m.rising) (h' : m'.rising)
    (heq : ∀ a, lookup m a = lookup m' a) : m = m' := by
  have hmem : ∀ e, e ∈ m ↔ e ∈ m' := fun ⟨a, b⟩ => by
    rw [← lookup_eq_some_iff h, ← lookup_eq_some_iff h', heq]
  have nd : ∀ {m : Memory}, m.rising → m.Nodup := fun h =>
    List.Pairwise.imp (fun {x y} (hxy : x.1 < y.1) (e : x = y) => by rw [e] at hxy; omega) h
  have hp := (List.perm_ext_iff_of_nodup (nd h) (nd h')).2 hmem
  exact hp.eq_of_pairwise (le := fun x y : Host.Cell => x.1 < y.1)
    (fun a b _ _ hab hba => absurd hab (by omega)) h h'

theorem mem_takeWhile_lt {m : Memory} (h : m.rising) (a : Nat) (e : Host.Cell) :
    e ∈ m.takeWhile (fun e => decide (e.1 < a)) ↔ e ∈ m ∧ e.1 < a := by
  induction m with
  | nil => simp
  | cons x m ih =>
    obtain ⟨hx, hm⟩ := List.pairwise_cons.1 h
    by_cases hxa : x.1 < a
    · simp only [List.takeWhile_cons, hxa, decide_true, if_true, List.mem_cons, ih hm]
      constructor
      · rintro (rfl | ⟨h1, h2⟩)
        · exact ⟨.inl rfl, hxa⟩
        · exact ⟨.inr h1, h2⟩
      · rintro ⟨rfl | h1, h2⟩
        · exact .inl rfl
        · exact .inr ⟨h1, h2⟩
    · simp only [List.takeWhile_cons, hxa, decide_false, List.mem_cons]
      constructor
      · intro h0; simp at h0
      · rintro ⟨rfl | h1, h2⟩
        · exact absurd h2 hxa
        · have := hx _ h1; omega

theorem mem_dropWhile {m : Memory} (h : m.rising) (p : Nat → Prop) [DecidablePred p]
    (hp : ∀ x y, x < y → p y → p x) (e : Host.Cell) :
    e ∈ m.dropWhile (fun e => decide (p e.1)) ↔ e ∈ m ∧ ¬ p e.1 := by
  induction m with
  | nil => simp
  | cons x m ih =>
    obtain ⟨hx, hm⟩ := List.pairwise_cons.1 h
    by_cases hxa : p x.1
    · simp only [List.dropWhile_cons, hxa, decide_true, if_true, List.mem_cons, ih hm]
      constructor
      · rintro ⟨h1, h2⟩; exact ⟨.inr h1, h2⟩
      · rintro ⟨rfl | h1, h2⟩
        · exact absurd hxa h2
        · exact ⟨h1, h2⟩
    · simp only [List.dropWhile_cons, hxa, decide_false, List.mem_cons]
      constructor
      · intro h0
        rcases List.mem_cons.1 h0 with rfl | h1
        · exact ⟨.inl rfl, hxa⟩
        · exact ⟨.inr h1, fun hpe => hxa (hp _ _ (hx _ h1) hpe)⟩
      · rintro ⟨rfl | h1, _⟩
        · simp
        · simp [h1]

theorem rising_dropWhile {m : Memory} (h : m.rising) (p : Host.Cell → Bool) :
    Memory.rising (m.dropWhile p) := List.Pairwise.sublist (List.dropWhile_sublist p) h

theorem mem_write {us m : Memory} (hu : us.rising) (hm : m.rising) (e : Host.Cell) :
    e ∈ write us m ↔ e ∈ us ∨ (e ∈ m ∧ ∀ u ∈ us, u.1 ≠ e.1) := by
  induction us generalizing m with
  | nil => simp [write]
  | cons u us ih =>
    obtain ⟨a, b⟩ := u
    obtain ⟨ha, hus⟩ := List.pairwise_cons.1 hu
    have hd := mem_dropWhile hm (fun k => k ≤ a) (fun x y h1 h2 => by omega) e
    rw [write, List.mem_append, mem_takeWhile_lt hm, List.mem_cons, ih hus (rising_dropWhile hm _), hd]
    have hlt : ∀ u ∈ us, e.1 ≤ a → u.1 ≠ e.1 := fun u hu' he => by
      have := ha u hu'; simp at this; omega
    constructor
    · rintro (⟨h1, h2⟩ | h1 | h1 | ⟨⟨h1, h2⟩, h3⟩)
      · refine .inr ⟨h1, fun u hu' => ?_⟩
        rcases List.mem_cons.1 hu' with rfl | h3
        · simp; omega
        · exact hlt u h3 (by omega)
      · exact .inl (by simp [h1])
      · exact .inl (by simp [h1])
      · refine .inr ⟨h1, fun u hu' => ?_⟩
        rcases List.mem_cons.1 hu' with rfl | h4
        · simp; omega
        · exact h3 u h4
    · rintro (h1 | ⟨h1, h2⟩)
      · rcases List.mem_cons.1 h1 with rfl | h3
        · exact .inr (.inl rfl)
        · exact .inr (.inr (.inl h3))
      · have hne : a ≠ e.1 := h2 (a, b) (by simp)
        by_cases hea : e.1 < a
        · exact .inl ⟨h1, hea⟩
        · exact .inr (.inr (.inr ⟨⟨h1, by omega⟩, fun u hu' => h2 u (by simp [hu'])⟩))

theorem rising_write {us m : Memory} (hu : us.rising) (hm : m.rising) : (write us m).rising := by
  induction us generalizing m with
  | nil => simpa [write] using hm
  | cons u us ih =>
    obtain ⟨a, b⟩ := u
    obtain ⟨ha, hus⟩ := List.pairwise_cons.1 hu
    have hd := rising_dropWhile hm (fun e => decide (e.1 ≤ a))
    have htail : ∀ e ∈ write us (m.dropWhile fun e => decide (e.1 ≤ a)), a < e.1 := fun e he => by
      rcases (mem_write hus hd e).1 he with h1 | ⟨h1, _⟩
      · exact ha e h1
      · have := ((mem_dropWhile hm (fun k => k ≤ a) (fun x y h1 h2 => by omega) e).1 h1).2
        omega
    rw [write, Memory.rising, List.pairwise_append]
    refine ⟨hm.sublist (List.takeWhile_sublist _), List.pairwise_cons.2 ⟨htail, ih hus hd⟩, ?_⟩
    intro x hx y hy
    have hxa := ((mem_takeWhile_lt hm a x).1 hx).2
    rcases List.mem_cons.1 hy with rfl | hy
    · exact hxa
    · have := htail y hy; omega

/-- Read after write: the written bytes where the write went, the old ones elsewhere. -/
theorem lookup_write {us m : Memory} (hu : us.rising) (hm : m.rising) (a : Nat) :
    lookup (write us m) a = (lookup us a).or (lookup m a) := by
  have hw := rising_write hu hm
  cases h1 : lookup us a with
  | some b =>
    have := (lookup_eq_some_iff hu a b).1 h1
    simp [lookup_eq_some_iff hw, mem_write hu hm, this]
  | none =>
    have hn := (lookup_eq_none_iff hu a).1 h1
    cases h2 : lookup m a with
    | some b =>
      have := (lookup_eq_some_iff hm a b).1 h2
      simp only [Option.none_or]
      rw [lookup_eq_some_iff hw, mem_write hu hm]
      exact .inr ⟨this, fun u hu' he => hn u.2 (by
        have hea : u.1 = a := he
        rw [← hea]; exact hu')⟩
    | none =>
      have hn2 := (lookup_eq_none_iff hm a).1 h2
      simp only [Option.none_or]
      rw [lookup_eq_none_iff hw]
      intro b hb
      rcases (mem_write hu hm _).1 hb with h3 | ⟨h3, _⟩
      · exact hn b h3
      · exact hn2 b h3

/-- A write keeps the canonical form. -/
theorem wf_write {us m : Memory} (hu : us.wf) (hm : m.wf) : (write us m).wf :=
  ⟨rising_write hu.1 hm.1, fun e he => by
    rcases (mem_write hu.1 hm.1 e).1 he with h | ⟨h, _⟩
    · exact hu.2 e h
    · exact hm.2 e h⟩

theorem wf_nil : Memory.wf [] := ⟨List.Pairwise.nil, fun e he => absurd he (by simp)⟩

/-- A read along rising addresses: either every address is written and the bytes are those it reads as, or
it answers the first that is not. -/
theorem readSeq_eq {m : Memory} (hm : m.rising) {as : List Nat} (ha : as.Pairwise (· < ·)) :
    readSeq as m =
      match as.find? (fun a => (lookup m a).isNone) with
      | some a => .error a
      | none => .ok (as.filterMap (lookup m)) := by
  induction as generalizing m with
  | nil => simp [readSeq]
  | cons a as ih =>
    obtain ⟨hlt, has⟩ := List.pairwise_cons.1 ha
    have hmem := mem_dropWhile hm (fun k => k < a) (fun x y h1 h2 => by omega)
    have hd := rising_dropWhile hm (fun e => decide (e.1 < a))
    rw [readSeq]
    cases hdr : m.dropWhile (fun e => decide (e.1 < a)) with
    | nil =>
      have : lookup m a = none := (lookup_eq_none_iff hm a).2 fun b hb => by
        have := (hmem (a, b)).2 ⟨hb, by simp⟩
        simp [hdr] at this
      simp [this]
    | cons e m' =>
      obtain ⟨k, b⟩ := e
      rw [hdr] at hd hmem
      obtain ⟨hk, hm'⟩ := List.pairwise_cons.1 hd
      by_cases hka : k = a
      · subst hka
        have hl : lookup m k = some b := (lookup_eq_some_iff hm k b).2 ((hmem (k, b)).1 (by simp)).1
        have hcong : ∀ x ∈ as, lookup m' x = lookup m x := fun x hx => by
          have hkx := hlt x hx
          have hiff : ∀ v, (x, v) ∈ m' ↔ (x, v) ∈ m := fun v => by
            have := hmem (x, v)
            simp only [List.mem_cons, Prod.mk.injEq] at this
            constructor
            · intro h; exact (this.1 (.inr h)).1
            · intro h
              rcases this.2 ⟨h, by omega⟩ with ⟨h1, _⟩ | h1
              · omega
              · exact h1
          cases h : lookup m x with
          | some v => rw [lookup_eq_some_iff hm', hiff, ← lookup_eq_some_iff hm, h]
          | none =>
            rw [lookup_eq_none_iff hm']
            intro v hv
            exact (lookup_eq_none_iff hm x).1 h v ((hiff v).1 hv)
        have hfind : as.find? (fun a => (lookup m' a).isNone)
            = as.find? (fun a => (lookup m a).isNone) := by
          clear ih ha has hlt
          induction as with
          | nil => rfl
          | cons x xs ihx =>
            simp only [List.find?_cons, hcong x (by simp)]
            split
            · rfl
            · exact ihx fun y hy => hcong y (by simp [hy])
        have hfm : as.filterMap (lookup m') = as.filterMap (lookup m) :=
          List.filterMap_congr hcong
        simp only [if_true, ih hm' has, hfind, hfm, List.find?_cons, hl, Option.isNone_some,
          List.filterMap_cons]
        cases as.find? (fun a => (lookup m a).isNone) <;> rfl
      · have : lookup m a = none := (lookup_eq_none_iff hm a).2 fun v hv => by
          have h1 := (hmem (a, v)).2 ⟨hv, by simp⟩
          rcases List.mem_cons.1 h1 with h2 | h2
          · simp at h2; exact hka h2.1.symm
          · have h3 := hk _ h2
            have h4 := ((hmem (k, b)).1 (by simp)).2
            simp at h3 h4; omega
        simp [hka, this]

theorem readSeq_ok {m : Memory} (hm : m.rising) {as : List Nat} (ha : as.Pairwise (· < ·))
    {bs : List Byte} : readSeq as m = .ok bs ↔ as.map (lookup m) = bs.map some := by
  rw [readSeq_eq hm ha]
  clear ha
  induction as generalizing bs with
  | nil => cases bs <;> simp
  | cons a as ih =>
    cases hl : lookup m a with
    | none => cases bs <;> simp [hl]
    | some b =>
      cases bs with
      | nil =>
        simp only [List.find?_cons, hl, Option.isNone_some, List.map_cons, List.map_nil]
        split <;> simp [hl]
      | cons c cs =>
        have := ih (bs := cs)
        simp only [List.find?_cons, hl, Option.isNone_some, List.map_cons, List.filterMap_cons,
          List.cons.injEq, Option.some.injEq]
        cases hf : as.find? (fun a => (lookup m a).isNone) with
        | some x => simp [hf] at this ⊢; intro _; exact this
        | none =>
          simp only [hf, Except.ok.injEq] at this
          simp [this]

end Memory

/-! ### Runs of bytes -/

theorem cellsFrom_getElem? (a : Nat) (bs : List Byte) (i : Nat) :
    (cellsFrom a bs)[i]? = bs[i]?.map fun b => (a + i, b) := by
  induction bs generalizing a i with
  | nil => simp [cellsFrom]
  | cons b bs ih =>
    cases i with
    | zero => simp [cellsFrom]
    | succ i => simp [cellsFrom, ih, Nat.add_assoc, Nat.add_comm 1 i]

theorem mem_cellsFrom (a : Nat) (bs : List Byte) (e : Host.Cell) :
    e ∈ cellsFrom a bs ↔ a ≤ e.1 ∧ bs[e.1 - a]? = some e.2 := by
  rw [List.mem_iff_getElem?]
  constructor
  · rintro ⟨i, hi⟩
    rw [cellsFrom_getElem?] at hi
    cases hb : bs[i]? with
    | none => simp [hb] at hi
    | some b => simp [hb] at hi; subst hi; simp [hb]
  · rintro ⟨h1, h2⟩
    refine ⟨e.1 - a, ?_⟩
    rw [cellsFrom_getElem?, h2]
    simp; ext <;> simp; omega

theorem rising_cellsFrom (a : Nat) (bs : List Byte) : Memory.rising (cellsFrom a bs) := by
  induction bs generalizing a with
  | nil => simp [cellsFrom]
  | cons b bs ih =>
    rw [cellsFrom, Memory.rising, List.pairwise_cons]
    refine ⟨fun e he => ?_, ih (a + 1)⟩
    have := ((mem_cellsFrom _ _ _).1 he).1
    simp; omega

theorem lookup_cellsFrom (a : Nat) (bs : List Byte) (x : Nat) :
    Memory.lookup (cellsFrom a bs) x = if a ≤ x then bs[x - a]? else none := by
  have hr := rising_cellsFrom a bs
  split
  · rename_i h
    cases hb : bs[x - a]? with
    | some b => rw [Memory.lookup_eq_some_iff hr, mem_cellsFrom]; exact ⟨h, hb⟩
    | none =>
      rw [Memory.lookup_eq_none_iff hr]
      intro b hm
      have := ((mem_cellsFrom _ _ _).1 hm).2
      simp only [hb] at this; exact absurd this (by simp)
  · rename_i h
    rw [Memory.lookup_eq_none_iff hr]
    intro b hm
    exact h ((mem_cellsFrom _ _ _).1 hm).1

theorem isBufByte_of_within {b : Buf} {a : Nat} (h : b.within b.size a) : isBufByte a = true := by
  obtain ⟨h1, h2⟩ := h
  have hh : b.holds a = true := by simp [Buf.holds, h1, h2]
  cases b <;> simp [isBufByte, hh]

/-- The entries of bytes that fit a buffer are in canonical form. -/
theorem wf_bufCells (b : Buf) {bs : List Byte} (h : bs.length ≤ b.size) :
    Memory.wf (cellsFrom b.base bs) := by
  refine ⟨rising_cellsFrom _ _, fun e he => ?_⟩
  obtain ⟨h1, h2⟩ := (mem_cellsFrom _ _ _).1 he
  have h3 : e.1 - b.base < bs.length := by
    by_contra hc
    rw [List.getElem?_eq_none (by omega)] at h2
    simp at h2
  rw [cellOk, isBufByte_of_within (b := b) ⟨h1, by omega⟩]
  simp

/-- What a buffer write leaves at every address. -/
theorem at_writeBuf {s : State} (hm : Memory.rising s.mem) (b : Buf) (bs : List Byte) (a : Nat) :
    (s.writeBuf b bs).at a = (if b.base ≤ a then bs[a - b.base]? else none).or (s.at a) := by
  rw [State.at, State.writeBuf, Memory.lookup_write (rising_cellsFrom _ _) hm, lookup_cellsFrom, State.at]

/-- A buffer write leaves its bytes in the buffer. -/
theorem byte_writeBuf {s : State} (hm : Memory.rising s.mem) (b : Buf) (bs : List Byte) {i : Nat}
    (hi : i < bs.length) : (s.writeBuf b bs).byte b i = bs[i]? := by
  rw [State.byte, at_writeBuf hm]
  simp [List.getElem?_eq_getElem hi]

/-- A buffer write leaves every other address alone. -/
theorem keepsOutside_writeBuf {s : State} (hm : Memory.rising s.mem) (b : Buf) (bs : List Byte) :
    keepsOutside (b.within bs.length) s (s.writeBuf b bs) := by
  intro a ha
  rw [at_writeBuf hm]
  split
  · rename_i h
    rw [List.getElem?_eq_none (by
      by_contra hc
      exact ha ⟨h, by omega⟩)]
    simp
  · simp

/-- A buffer write keeps the canonical form. -/
theorem wf_writeBuf {s : State} (hm : Memory.wf s.mem) (b : Buf) {bs : List Byte}
    (h : bs.length ≤ b.size) : Memory.wf (s.writeBuf b bs).mem := Memory.wf_write (wf_bufCells b h) hm

/-! ### The engine's reads -/

theorem pairwise_range' (a n : Nat) : (List.range' a n).Pairwise (· < ·) :=
  List.pairwise_lt_range'

/-- A buffer read answers bytes exactly when the buffer has them and they are written, and then it answers
those bytes. -/
theorem readBuf_ok_iff {s : State} (hm : Memory.rising s.mem) (cmd : Instr) (b : Buf) (n : Nat)
    (bs : List Byte) : readBuf cmd b n s = .ok bs ↔ bs.length = n ∧ s.holdsBytes b bs := by
  have key : ∀ k, Memory.readSeq (List.range' b.base k) s.mem = .ok bs
      ↔ bs.length = k ∧ ∀ i, i < bs.length → s.byte b i = bs[i]? := by
    intro k
    rw [Memory.readSeq_ok hm (pairwise_range' _ _)]
    constructor
    · intro h
      have hl := congrArg List.length h
      simp at hl
      refine ⟨hl.symm, fun i hi => ?_⟩
      have hi' := congrArg (fun l => l[i]?) h
      simp only [List.getElem?_map] at hi'
      rw [List.getElem?_eq_getElem (by simpa using (by omega : i < k)), List.getElem?_eq_getElem hi] at hi'
      simp only [List.getElem_range', Option.map_some, Option.some.injEq] at hi'
      rw [List.getElem?_eq_getElem hi, ← hi', State.byte, State.at]; simp
    · rintro ⟨hl, hb⟩
      apply List.ext_getElem (by simp [hl])
      intro i h1 h2
      have hi : i < bs.length := by simpa using h2
      have := hb i hi
      rw [List.getElem?_eq_getElem hi, State.byte, State.at] at this
      simp [this]
  rw [readBuf, State.holdsBytes]
  by_cases hn : n ≤ b.size
  · rw [Nat.min_eq_left hn]
    have := key n
    cases hr : Memory.readSeq (List.range' b.base n) s.mem with
    | error a => simp only [hr] at this ⊢; simp at this ⊢; intro h1 h2; exact this h1
    | ok l =>
      simp only [hr, hn, if_true, Except.ok.injEq] at this ⊢
      rw [this]
      constructor
      · rintro ⟨h1, h2⟩; exact ⟨h1, by omega, h2⟩
      · rintro ⟨h1, _, h2⟩; exact ⟨h1, h2⟩
  · cases hr : Memory.readSeq (List.range' b.base (min n b.size)) s.mem with
    | error a => simp; intro h1 h2; omega
    | ok l => simp [hn]; intro h1 h2; omega

end Sys2Proof.Machine
end

