-- ==== Sys2Proof/Laws/Bits.lean ====
section
/-! SUPPORT. Bit strings: what `bin`, `packBytes` and `unpackBytes` give, bit by bit, and the bit-stream view of
BBUF that LoadBits reads and StoreBits writes (20_memory.md R80). -/

namespace Sys2Proof.Machine

@[simp] theorem bin_length (v w : Nat) : (bin v w).length = w := by
  induction w with
  | zero => rfl
  | succ w ih => simp [bin, ih]

/-- Bit `i` of `bin(v, w)` is bit `w − 1 − i` of `v`. -/
theorem bin_getElem? (v w i : Nat) : (bin v w)[i]? = if i < w then some (v.testBit (w - 1 - i)) else none := by
  induction w generalizing i with
  | zero => simp [bin]
  | succ w ih =>
    cases i with
    | zero => simp [bin]
    | succ i =>
      rw [bin, List.getElem?_cons_succ, ih]
      simp only [Nat.add_lt_add_iff_right, Nat.add_sub_cancel]
      split
      · congr 2; omega
      · rfl

@[simp] theorem unpackBytes_length (bs : List Byte) : (unpackBytes bs).length = 8 * bs.length := by
  induction bs with
  | nil => rfl
  | cons b bs ih => simp [unpackBytes] at *; omega

/-- Bit `i` of a byte sequence is bit `7 − i mod 8` of byte `i div 8`. -/
theorem unpackBytes_getElem? (bs : List Byte) (i : Nat) :
    (unpackBytes bs)[i]? = bs[i / 8]?.map fun b => b.getLsbD (7 - i % 8) := by
  induction bs generalizing i with
  | nil => simp [unpackBytes]
  | cons b bs ih =>
    have hcons : unpackBytes (b :: bs) = bin b.toNat 8 ++ unpackBytes bs := rfl
    rw [hcons]
    by_cases h : i < 8
    · rw [List.getElem?_append_left (by simpa using h), bin_getElem?, if_pos h,
        show i / 8 = 0 by omega, show i % 8 = i by omega]
      simp [BitVec.getLsbD]
    · rw [List.getElem?_append_right (by simp; omega), bin_length, ih,
        show i / 8 = (i - 8) / 8 + 1 by omega, show i % 8 = (i - 8) % 8 by omega]
      simp

theorem bitsToNat_foldl (x : Bits) (a : Nat) :
    x.foldl (fun v b => 2 * v + b.toNat) a = a * 2 ^ x.length + bitsToNat x := by
  induction x generalizing a with
  | nil => simp [bitsToNat]
  | cons b x ih =>
    rw [bitsToNat, List.foldl_cons, List.foldl_cons, ih, ih (2 * 0 + b.toNat), List.length_cons,
      Nat.pow_succ]
    ring

theorem bitsToNat_cons (b : Bool) (x : Bits) : bitsToNat (b :: x) = b.toNat * 2 ^ x.length + bitsToNat x := by
  rw [bitsToNat, List.foldl_cons, bitsToNat_foldl]; simp

theorem bitsToNat_lt (x : Bits) : bitsToNat x < 2 ^ x.length := by
  induction x with
  | nil => simp [bitsToNat]
  | cons b x ih =>
    rw [bitsToNat_cons, List.length_cons, Nat.pow_succ]
    cases b <;> simp <;> omega

/-- Bit `i` of a bit string is bit `len − 1 − i` of its number. -/
theorem bitsToNat_testBit (x : Bits) (i : Nat) (h : i < x.length) :
    (bitsToNat x).testBit (x.length - 1 - i) = x.getD i false := by
  induction x generalizing i with
  | nil => simp at h
  | cons b x ih =>
    rw [bitsToNat_cons, List.length_cons, Nat.mul_comm]
    cases i with
    | zero =>
      simp only [Nat.add_sub_cancel, Nat.sub_zero, List.getD_cons_zero]
      rw [Nat.testBit_two_pow_mul_add _ (bitsToNat_lt x)]
      cases b <;> simp
    | succ i =>
      have hi : i < x.length := by simpa using h
      rw [Nat.testBit_two_pow_mul_add _ (bitsToNat_lt x), if_pos (by omega), List.getD_cons_succ,
        ← ih i hi]
      congr 1; omega

/-- `bin` and `bitsToNat` are inverse. -/
theorem bin_bitsToNat (x : Bits) : bin (bitsToNat x) x.length = x := by
  apply List.ext_getElem?
  intro i
  rw [bin_getElem?]
  split
  · rename_i h
    rw [bitsToNat_testBit x i h, List.getD_eq_getElem?_getD, List.getElem?_eq_getElem h]; rfl
  · rename_i h
    rw [List.getElem?_eq_none (by omega)]

theorem bitsToNat_bin (v w : Nat) (h : v < 2 ^ w) : bitsToNat (bin v w) = v := by
  apply Nat.eq_of_testBit_eq
  intro i
  by_cases hi : i < w
  · have := bitsToNat_testBit (bin v w) (w - 1 - i) (by simp; omega)
    rw [bin_length, show w - 1 - (w - 1 - i) = i by omega] at this
    rw [this, List.getD_eq_getElem?_getD, bin_getElem?, if_pos (by omega)]
    simp only [Option.getD_some]
    congr 1; omega
  · rw [Nat.testBit_lt_two_pow (lt_of_lt_of_le (bitsToNat_lt _)
      (by rw [bin_length]; exact Nat.pow_le_pow_right (by omega) (by omega))),
      Nat.testBit_lt_two_pow (lt_of_lt_of_le h (Nat.pow_le_pow_right (by omega) (by omega)))]

/-- Bit `7 − i` of a packed byte is bit `i` of the string, 0 where it has none. -/
theorem byteOfBits_getLsbD (x : Bits) (h : x.length ≤ 8) (i : Nat) (hi : i < 8) :
    (byteOfBits x).getLsbD (7 - i) = x.getD i false := by
  have hl : (x ++ zeros (8 - x.length)).length = 8 := by simp [zeros]; omega
  have := bitsToNat_testBit (x ++ zeros (8 - x.length)) i (by omega)
  rw [hl] at this
  rw [byteOfBits, BitVec.getLsbD_ofNat, show decide (7 - i < 8) = true by simp; omega, Bool.true_and,
    show 7 - i = 8 - 1 - i by omega, this]
  simp only [List.getD_eq_getElem?_getD]
  by_cases hx : i < x.length
  · rw [List.getElem?_append_left hx]
  · rw [List.getElem?_append_right (by omega), List.getElem?_eq_none (show x.length ≤ i by omega)]
    simp [zeros, List.getElem?_replicate]
    split <;> simp

theorem chunks_length {α : Type} (n k : Nat) (l : List α) : (chunks n k l).length = k := by
  induction k generalizing l with
  | zero => rfl
  | succ k ih => simp [chunks, ih]

theorem chunks_getElem? {α : Type} (n k : Nat) (l : List α) (i : Nat) (hi : i < k) :
    (chunks n k l)[i]? = some ((l.drop (n * i)).take n) := by
  induction k generalizing l i with
  | zero => omega
  | succ k ih =>
    cases i with
    | zero => simp [chunks]
    | succ i =>
      rw [chunks, List.getElem?_cons_succ, ih _ i (by omega), List.drop_drop]
      congr 3
      rw [Nat.mul_succ]; omega

@[simp] theorem packBytes_length (x : Bits) : (packBytes x).length = (x.length + 7) / 8 := by
  simp [packBytes, chunks_length]

/-- Bit `7 − i mod 8` of packed byte `i div 8` is bit `i` of the string, 0 after its end. -/
theorem packBytes_bit (x : Bits) (i : Nat) (h : i < 8 * ((x.length + 7) / 8)) :
    (packBytes x)[i / 8]?.map (fun b => b.getLsbD (7 - i % 8)) = some (x.getD i false) := by
  rw [packBytes, List.getElem?_map, chunks_getElem? _ _ _ _ (by omega)]
  simp only [Option.map_some, Option.some.injEq]
  rw [byteOfBits_getLsbD _ (by simp) _ (by omega)]
  simp only [List.getD_eq_getElem?_getD, List.getElem?_take, List.getElem?_drop]
  rw [if_pos (by omega), show 8 * (i / 8) + i % 8 = i by omega]

/-- `bytes` undoes `unpackBytes` (40_mode_encoder.md R149 rests on it). -/
theorem packBytes_unpackBytes (bs : List Byte) : packBytes (unpackBytes bs) = bs := by
  apply List.ext_getElem?
  intro j
  by_cases hj : j < bs.length
  · have hl : j < (packBytes (unpackBytes bs)).length := by simp; omega
    rw [List.getElem?_eq_getElem hl, List.getElem?_eq_getElem hj, Option.some.injEq]
    apply BitVec.eq_of_getLsbD_eq
    intro t ht
    have hp := packBytes_bit (unpackBytes bs) (8 * j + (7 - t)) (by simp; omega)
    rw [show (8 * j + (7 - t)) / 8 = j by omega, show (8 * j + (7 - t)) % 8 = 7 - t by omega,
      show 7 - (7 - t) = t by omega, List.getElem?_eq_getElem hl, List.getD_eq_getElem?_getD,
      unpackBytes_getElem?, show (8 * j + (7 - t)) / 8 = j by omega,
      show (8 * j + (7 - t)) % 8 = 7 - t by omega, show 7 - (7 - t) = t by omega,
      List.getElem?_eq_getElem hj] at hp
    simpa using hp
  · rw [List.getElem?_eq_none (by simp; omega), List.getElem?_eq_none (by omega)]

/-! ### LoadBits and StoreBits -/

/-- StoreBits keeps the canonical form where the string fits BBUF. -/
theorem wf_storeBits {s : State} (hm : Memory.wf s.mem) {x : Bits} (h : x.length ≤ 65536) :
    Memory.wf (s.storeBits x).mem := wf_writeBuf hm _ (by simp [Buf.size, Config.bbufSize]; omega)

/-- What StoreBits leaves in the stream. -/
theorem storedBits_storeBits {s : State} (hm : Memory.rising s.mem) (x : Bits) :
    (s.storeBits x).storedBits x := by
  intro i hi
  rw [State.streamBit, State.storeBits, byte_writeBuf hm _ _ (by simp; omega), packBytes_bit x i hi]

/-- What StoreBits leaves alone. -/
theorem keepsOutside_storeBits {s : State} (hm : Memory.rising s.mem) (x : Bits) :
    keepsOutside (Buf.bbuf.within ((x.length + 7) / 8)) s (s.storeBits x) := by
  have := keepsOutside_writeBuf hm .bbuf (packBytes x)
  rwa [packBytes_length] at this

/-- LoadBits answers the first bits of the stream, exactly when every byte they touch is written. -/
theorem loadBits_ok_iff {s : State} (hm : Memory.rising s.mem) (cmd : Instr) (n : Nat) (x : Bits) :
    loadBits cmd n s = .ok x ↔ x.length = n ∧ s.holdsBits x := by
  rw [loadBits]
  constructor
  · intro h
    cases hb : readBuf cmd .bbuf ((n + 7) / 8) s with
    | error f => simp [hb] at h
    | ok bs =>
      simp only [hb, Except.ok.injEq] at h
      obtain ⟨h1, h2, h3⟩ := (readBuf_ok_iff hm cmd .bbuf _ bs).1 hb
      have hs : Buf.bbuf.size = 8192 := rfl
      have hxl : x.length = n := by rw [← h]; simp; omega
      refine ⟨hxl, by rw [hxl, Config.bbufSize]; omega, fun i hi => ?_⟩
      rw [State.streamBit, h3 (i / 8) (by omega), ← h, List.getElem?_take, if_pos (by omega),
        unpackBytes_getElem?]
  · rintro ⟨h1, h2, h3⟩
    have hw : ∀ i, i < (n + 7) / 8 → (s.byte .bbuf i).isSome = true := fun i hi => by
      have := h3 (8 * i) (by omega)
      rw [State.streamBit, show 8 * i / 8 = i by omega, List.getElem?_eq_getElem (by omega)] at this
      cases hb : s.byte .bbuf i with
      | none => simp [hb] at this
      | some b => rfl
    obtain ⟨bs, hbs⟩ : ∃ bs, readBuf cmd .bbuf ((n + 7) / 8) s = .ok bs := by
      refine ⟨(List.range ((n + 7) / 8)).map fun i => (s.byte .bbuf i).getD 0#8, ?_⟩
      refine (readBuf_ok_iff hm cmd .bbuf _ _).2 ⟨by simp, ?_, fun i hi => ?_⟩
      · simp [Buf.size]; rw [Config.bbufSize] at *; omega
      · rw [List.length_map, List.length_range] at hi
        have := hw i hi
        cases hb : s.byte .bbuf i with
        | none => simp [hb] at this
        | some b => simp [List.getElem?_range hi, hb]
    obtain ⟨g1, g2, g3⟩ := (readBuf_ok_iff hm cmd .bbuf _ bs).1 hbs
    rw [hbs]
    simp only [Except.ok.injEq]
    apply List.ext_getElem?
    intro i
    by_cases hi : i < n
    · have e := h3 i (by omega)
      rw [List.getElem?_take, if_pos hi, unpackBytes_getElem?, ← g3 (i / 8) (by omega), ← e,
        State.streamBit]
    · rw [List.getElem?_take, if_neg hi, List.getElem?_eq_none (by omega)]

end Sys2Proof.Machine
end

