-- ==== Sys2Proof/Laws/Grid.lean ====
section
/-! SUPPORT. Squares of MAT cells: what changing a cell does, what the engine's read of a square answers
and what its write leaves. -/

namespace Sys2Proof.Machine

@[simp] theorem MatCell.ofByte_toByte (c : MatCell) : MatCell.ofByte c.toByte = c := by
  obtain ⟨a, b⟩ := c; cases a <;> cases b <;> decide

theorem MatCell.toByte_lt (c : MatCell) : c.toByte.toNat < 4 := by
  obtain ⟨a, b⟩ := c; cases a <;> cases b <;> decide

/-- The square has `n` rows of `n` cells. -/
def Grid.square (n : Nat) (g : Grid) : Prop := g.length = n ∧ ∀ row ∈ g, row.length = n

/-! ### Changing a cell -/

theorem Grid.getD_modifyCell (g : Grid) (r c : Nat) (f : MatCell → MatCell) (i : Nat) :
    (g.modifyCell r c f).getD i [] = if r = i then (g.getD i []).modify c f else g.getD i [] := by
  simp only [Grid.modifyCell, List.getD_eq_getElem?_getD, List.getElem?_modify]
  by_cases h : r = i
  · subst h
    cases hg : (g : List (List MatCell))[r]? <;> simp
  · cases hg : (g : List (List MatCell))[i]? <;> simp [h]

/-- The cells of a square with one cell changed. -/
theorem Grid.cell_modifyCell {n : Nat} {g : Grid} (hg : g.square n) {r c : Nat} (hr : r < n) (hc : c < n)
    (f : MatCell → MatCell) (i j : Nat) :
    (g.modifyCell r c f).cell i j = if i = r ∧ j = c then f (g.cell r c) else g.cell i j := by
  have hrow : ((g : List (List MatCell)).getD r []).length = n := by
    rw [List.getD_eq_getElem?_getD, List.getElem?_eq_getElem (by rw [hg.1]; exact hr)]
    exact hg.2 _ (List.getElem_mem _)
  simp only [Grid.cell, Grid.getD_modifyCell]
  by_cases h : r = i
  · subst h
    simp only [if_true, true_and]
    rw [List.getD_eq_getElem?_getD, List.getElem?_modify]
    by_cases h2 : c = j
    · subst h2
      have hlt : c < ((g : List (List MatCell)).getD r []).length := by rw [hrow]; exact hc
      have hcell : ((g : List (List MatCell)).getD r []).getD c MatCell.clear
          = ((g : List (List MatCell)).getD r [])[c] := by
        rw [List.getD_eq_getElem?_getD, List.getElem?_eq_getElem hlt]; rfl
      rw [hcell, List.getElem?_eq_getElem hlt]
      simp
    · simp [h2, Ne.symm h2, List.getD_eq_getElem?_getD]
  · simp [h, Ne.symm h]

theorem Grid.square_modifyCell {n : Nat} {g : Grid} (hg : g.square n) (r c : Nat)
    (f : MatCell → MatCell) : (g.modifyCell r c f).square n := by
  refine ⟨by simp [Grid.modifyCell, hg.1], fun row hrow => ?_⟩
  obtain ⟨i, hi, rfl⟩ := List.mem_iff_getElem.1 hrow
  have hi' : i < g.length := by simpa [Grid.modifyCell] using hi
  have := hg.2 _ (List.getElem_mem hi')
  simp only [Grid.modifyCell, List.getElem_modify]
  split <;> simp [this]

theorem Grid.square_foldl {n : Nat} {α : Type} {f : Grid → α → Grid}
    (hf : ∀ g a, Grid.square n g → Grid.square n (f g a)) {g : Grid} (hg : g.square n) (l : List α) :
    Grid.square n (l.foldl f g) := by
  induction l generalizing g with
  | nil => exact hg
  | cons a l ih => exact ih (hf g a hg)

theorem Grid.square_blank (n : Nat) : (Grid.blank n).square n := by
  refine ⟨by simp [Grid.blank], fun row h => ?_⟩
  simp [Grid.blank] at h
  simp [h.2]

/-- Two squares of one side with the same cells are equal. -/
theorem Grid.ext_cell {n : Nat} {g g' : Grid} (hg : g.square n) (hg' : g'.square n)
    (h : ∀ r c, r < n → c < n → g.cell r c = g'.cell r c) : g = g' := by
  apply List.ext_getElem (by rw [hg.1, hg'.1])
  intro r h1 h2
  have l1 := hg.2 _ (List.getElem_mem h1)
  have l2 := hg'.2 _ (List.getElem_mem h2)
  apply List.ext_getElem (by rw [l1, l2])
  intro c h3 h4
  have := h r c (by rw [← hg.1]; exact h1) (by rw [← l1]; exact h3)
  simpa [Grid.cell, List.getD_eq_getElem?_getD, List.getElem?_eq_getElem h1,
    List.getElem?_eq_getElem h2, List.getElem?_eq_getElem h3, List.getElem?_eq_getElem h4] using this

/-! ### The memory entries of a square -/

theorem cellAddr_inj {r c r' c' : Nat} (hc : c < 256) (hc' : c' < 256)
    (h : cellAddr r c = cellAddr r' c') : r = r' ∧ c = c' := by
  unfold cellAddr at h; omega

theorem rowCells_getElem? (r k : Nat) (l : List MatCell) (i : Nat) :
    (rowCells r k l)[i]? = l[i]?.map fun x => (cellAddr r (k + i), x.toByte) := by
  induction l generalizing k i with
  | nil => simp [rowCells]
  | cons x l ih =>
    cases i with
    | zero => simp [rowCells]
    | succ i => simp [rowCells, ih, Nat.add_assoc, Nat.add_comm 1 i]

theorem mem_rowCells (r k : Nat) (l : List MatCell) (e : Host.Cell) :
    e ∈ rowCells r k l ↔ ∃ i x, l[i]? = some x ∧ e = (cellAddr r (k + i), x.toByte) := by
  rw [List.mem_iff_getElem?]
  constructor
  · rintro ⟨i, hi⟩
    rw [rowCells_getElem?, Option.map_eq_some_iff] at hi
    obtain ⟨x, hx, he⟩ := hi
    exact ⟨i, x, hx, he.symm⟩
  · rintro ⟨i, x, hx, rfl⟩
    exact ⟨i, by rw [rowCells_getElem?, hx]; rfl⟩

theorem mem_gridCells (k : Nat) (g : Grid) (e : Host.Cell) :
    e ∈ gridCells k g ↔ ∃ r row c x, g[r]? = some row ∧ row[c]? = some x
      ∧ e = (cellAddr (k + r) c, x.toByte) := by
  induction g generalizing k with
  | nil => simp [gridCells]
  | cons row0 g ih =>
    rw [gridCells, List.mem_append, mem_rowCells, ih]
    constructor
    · rintro (⟨i, x, hx, rfl⟩ | ⟨r, row, c, x, h1, h2, rfl⟩)
      · exact ⟨0, row0, i, x, by simp, hx, by simp⟩
      · exact ⟨r + 1, row, c, x, by simpa using h1, h2, by simp [Nat.add_assoc, Nat.add_comm 1 r]⟩
    · rintro ⟨r, row, c, x, h1, h2, rfl⟩
      cases r with
      | zero =>
        simp at h1; subst h1
        exact .inl ⟨c, x, h2, by simp⟩
      | succ r =>
        exact .inr ⟨r, row, c, x, by simpa using h1, h2, by simp [Nat.add_assoc, Nat.add_comm 1 r]⟩

theorem rising_rowCells (r k : Nat) (l : List MatCell) : Memory.rising (rowCells r k l) := by
  induction l generalizing k with
  | nil => simp [rowCells]
  | cons x l ih =>
    rw [rowCells, Memory.rising, List.pairwise_cons]
    refine ⟨fun e he => ?_, ih (k + 1)⟩
    obtain ⟨i, x, _, rfl⟩ := (mem_rowCells _ _ _ _).1 he
    simp only [cellAddr]; omega

theorem rising_gridCells {n : Nat} (hn : n ≤ 256) (k : Nat) {g : Grid}
    (hg : ∀ row ∈ g, row.length = n) : Memory.rising (gridCells k g) := by
  induction g generalizing k with
  | nil => simp [gridCells]
  | cons row0 g ih =>
    rw [gridCells, Memory.rising, List.pairwise_append]
    refine ⟨rising_rowCells _ _ _, ih (k + 1) fun row h => hg row (by simp [h]), ?_⟩
    intro x hx y hy
    obtain ⟨i, v, h1, rfl⟩ := (mem_rowCells _ _ _ _).1 hx
    obtain ⟨r, row, c, w, _, _, rfl⟩ := (mem_gridCells _ _ _).1 hy
    have h2 := hg row0 (by simp)
    have h3 : i < row0.length := by
      by_contra hc
      rw [List.getElem?_eq_none (by omega)] at h1; simp at h1
    simp only [cellAddr]; omega

theorem Grid.getElem?_cell {n : Nat} {g : Grid} (hg : g.square n) {r c : Nat} (hr : r < n) (hc : c < n) :
    ∃ row, (g : List (List MatCell))[r]? = some row ∧ row[c]? = some (g.cell r c) := by
  have h1 : r < g.length := by rw [hg.1]; exact hr
  refine ⟨g[r], List.getElem?_eq_getElem h1, ?_⟩
  have h2 : c < g[r].length := by rw [hg.2 _ (List.getElem_mem h1)]; exact hc
  rw [List.getElem?_eq_getElem h2, Grid.cell]
  simp [List.getD_eq_getElem?_getD, List.getElem?_eq_getElem h1, List.getElem?_eq_getElem h2]

theorem lookup_gridCells {n : Nat} (hn : n ≤ 256) {g : Grid} (hg : g.square n) (a : Nat) (b : Byte) :
    Memory.lookup (gridCells 0 g) a = some b
      ↔ ∃ r c, r < n ∧ c < n ∧ a = cellAddr r c ∧ b = (g.cell r c).toByte := by
  rw [Memory.lookup_eq_some_iff (rising_gridCells hn 0 hg.2), mem_gridCells]
  constructor
  · rintro ⟨r, row, c, x, h1, h2, h3⟩
    obtain ⟨hr, rfl⟩ := List.getElem?_eq_some_iff.1 h1
    obtain ⟨hc, rfl⟩ := List.getElem?_eq_some_iff.1 h2
    have hc' : c < n := by rw [← hg.2 _ (List.getElem_mem hr)]; exact hc
    refine ⟨r, c, by rw [← hg.1]; exact hr, hc', ?_⟩
    simp only [Nat.zero_add, Prod.mk.injEq] at h3
    refine ⟨h3.1, ?_⟩
    rw [h3.2, Grid.cell]
    simp [List.getD_eq_getElem?_getD, List.getElem?_eq_getElem hr, List.getElem?_eq_getElem hc]
  · rintro ⟨r, c, hr, hc, rfl, rfl⟩
    obtain ⟨row, h1, h2⟩ := Grid.getElem?_cell hg hr hc
    exact ⟨r, row, c, _, h1, h2, by simp⟩

/-- The entries of a square that fits MAT are in canonical form. -/
theorem wf_gridCells {n : Nat} (hn : n ≤ Config.sMax) {g : Grid} (hg : g.square n) :
    Memory.wf (gridCells 0 g) := by
  have hn' : n ≤ 256 := le_trans hn (by decide)
  refine ⟨rising_gridCells hn' 0 hg.2, fun e he => ?_⟩
  have := (Memory.lookup_eq_some_iff (rising_gridCells hn' 0 hg.2) e.1 e.2).2 he
  obtain ⟨r, c, hr, hc, h1, h2⟩ := (lookup_gridCells hn' hg _ _).1 this
  have hs : Config.sMax = 177 := rfl
  have h3 : e.2.toNat < 4 := by rw [h2]; exact MatCell.toByte_lt _
  rw [cellAddr] at h1
  simp only [cellOk, isCell, inMatWindow, Bool.or_eq_true, Bool.and_eq_true, decide_eq_true_eq]
  have hb : matBase = 0x10000 := rfl
  right; omega

/-! ### The engine's write of a square -/

/-- What a write of a square leaves at every address. -/
theorem at_storeGrid {n : Nat} (hn : n ≤ Config.sMax) {s : State} (hm : Memory.rising s.mem) {g : Grid}
    (hg : g.square n) (a : Nat) :
    (s.storeGrid g).at a = (Memory.lookup (gridCells 0 g) a).or (s.at a) :=
  Memory.lookup_write (rising_gridCells (le_trans hn (by decide)) 0 hg.2) hm a

/-- A write of a square leaves its cells. -/
theorem at_cell_storeGrid {n : Nat} (hn : n ≤ Config.sMax) {s : State} (hm : Memory.rising s.mem)
    {g : Grid} (hg : g.square n) {r c : Nat} (hr : r < n) (hc : c < n) :
    (s.storeGrid g).at (cellAddr r c) = some (g.cell r c).toByte := by
  rw [at_storeGrid hn hm hg,
    (lookup_gridCells (le_trans hn (by decide)) hg _ _).2 ⟨r, c, hr, hc, rfl, rfl⟩]
  rfl

/-- A write of a square leaves every other address alone. -/
theorem keepsOutside_storeGrid {n : Nat} (hn : n ≤ Config.sMax) {s : State}
    (hm : Memory.rising s.mem) {g : Grid} (hg : g.square n) :
    keepsOutside (inSquare n) s (s.storeGrid g) := by
  intro a ha
  rw [at_storeGrid hn hm hg]
  cases h : Memory.lookup (gridCells 0 g) a with
  | none => rfl
  | some b =>
    obtain ⟨r, c, hr, hc, h1, _⟩ := (lookup_gridCells (le_trans hn (by decide)) hg a b).1 h
    exact absurd ⟨r, c, hr, hc, h1⟩ ha

/-- After a write of a square, MAT holds it. -/
theorem holdsGrid_storeGrid {n : Nat} (hn : n ≤ Config.sMax) {s : State} (hm : Memory.rising s.mem)
    {g : Grid} (hg : g.square n) : (s.storeGrid g).holdsGrid n g :=
  ⟨hn, hg.1, hg.2, fun r c hr hc => by rw [State.matCell, at_cell_storeGrid hn hm hg hr hc]; simp⟩

/-- A write of a square keeps the canonical form. -/
theorem wf_storeGrid {n : Nat} (hn : n ≤ Config.sMax) {s : State} (hm : Memory.wf s.mem) {g : Grid}
    (hg : g.square n) : Memory.wf (s.storeGrid g).mem := Memory.wf_write (wf_gridCells hn hg) hm

/-- A write of a square leaves every buffer alone. -/
theorem byte_storeGrid {n : Nat} (hn : n ≤ Config.sMax) {s : State} (hm : Memory.rising s.mem) {g : Grid}
    (hg : g.square n) (b : Buf) {i : Nat} (hi : i < b.size) : (s.storeGrid g).byte b i = s.byte b i := by
  refine keepsOutside_storeGrid hn hm hg _ ?_
  rintro ⟨r, c, _, _, h⟩
  have hb : b.base + b.size ≤ 0x10000 := by cases b <;> decide
  unfold cellAddr matBase at h
  omega

/-- The top-left part of a square, as a square. -/
theorem Grid.square_take {n k : Nat} {g : Grid} (hg : g.square n) (hk : k ≤ n) :
    Grid.square k ((g.take k).map fun row => row.take k) := by
  refine ⟨by simp [hg.1, hk], fun row h => ?_⟩
  obtain ⟨r, hr, rfl⟩ := List.mem_map.1 h
  rw [List.length_take, hg.2 r (List.mem_of_mem_take hr)]
  omega

theorem Grid.cell_take {n k : Nat} {g : Grid} (hg : g.square n) (hk : k ≤ n) {r c : Nat} (hr : r < k)
    (hc : c < k) : Grid.cell ((g.take k).map fun row => row.take k) r c = g.cell r c := by
  obtain ⟨row, h1, h2⟩ := Grid.getElem?_cell hg (show r < n by omega) (show c < n by omega)
  obtain ⟨row', h3, h4⟩ := Grid.getElem?_cell (Grid.square_take hg hk) hr hc
  rw [List.getElem?_map, List.getElem?_take, if_pos hr, h1, Option.map_some, Option.some.injEq] at h3
  rw [← h3, List.getElem?_take, if_pos hc, h2, Option.some.injEq] at h4
  exact h4.symm

/-- What holds a square holds its top-left part. -/
theorem State.holdsGrid_take {s : State} {n k : Nat} {g : Grid} (h : s.holdsGrid n g) (hk : k ≤ n) :
    s.holdsGrid k ((g.take k).map fun row => row.take k) := by
  obtain ⟨h0, h1, h2, h3⟩ := h
  have hg : Grid.square n g := ⟨h1, h2⟩
  obtain ⟨h4, h5⟩ := Grid.square_take hg hk
  exact ⟨le_trans hk h0, h4, h5, fun r c hr hc => by
    rw [Grid.cell_take hg hk hr hc]; exact h3 r c (by omega) (by omega)⟩

/-- Every stamp keeps the shape. -/
theorem Grid.square_stampAll {n : Nat} {g : Grid} (hg : g.square n) (ps : List Stamp) :
    Grid.square n (g.stampAll ps) :=
  Grid.square_foldl (fun _ _ h => Grid.square_modifyCell h _ _ _) hg ps

/-- The stamped symbol keeps the shape of the square it started from. -/
theorem Grid.square_stampSymbol {n : Nat} {g : Grid} (hg : g.square n) (V : Nat) (P : List Nat)
    (code : Option Nat) : Grid.square n (stampSymbol V P code g) := by
  refine Grid.square_stampAll (Grid.square_foldl (fun g p h => ?_)
    (Grid.square_stampAll (Grid.square_stampAll (Grid.square_modifyCell
      (Grid.square_stampAll hg _) _ _ _) _) _) _) _
  unfold Grid.stampFree
  split
  · exact h
  · exact Grid.square_modifyCell h _ _ _

/-! ### The engine's read of a square -/

theorem cellAddrs_getElem? {n r c : Nat} (hr : r < n) (hc : c < n) :
    (cellAddrs n)[n * r + c]? = some (cellAddr r c) := by
  have key : ∀ (k m : Nat) (r : Nat), r < m →
      (((List.range' k m).flatMap fun r => (List.range n).map fun c => cellAddr r c))[n * r + c]?
        = some (cellAddr (k + r) c) := by
    intro k m
    induction m generalizing k with
    | zero => intro r h; omega
    | succ m ih =>
      intro r h
      rw [List.range'_succ, List.flatMap_cons]
      cases r with
      | zero =>
        rw [List.getElem?_append_left (by simpa using hc)]
        simp [hc]
      | succ r =>
        rw [List.getElem?_append_right (by simp [Nat.mul_succ]; omega)]
        have := ih (k + 1) r (by omega)
        simp only [List.length_map, List.length_range]
        rw [show n * (r + 1) + c - n = n * r + c by rw [Nat.mul_succ]; omega, this]
        congr 2; omega
  have := key 0 n r hr
  simpa [cellAddrs, List.range_eq_range'] using this

theorem cellAddrs_length (n : Nat) : (cellAddrs n).length = n * n := by
  simp [cellAddrs, List.length_flatMap]

theorem cellAddrs_rising {n : Nat} (hn : n ≤ 256) : (cellAddrs n).Pairwise (· < ·) := by
  rw [cellAddrs, List.pairwise_flatMap]
  refine ⟨fun r _ => ?_, ?_⟩
  · rw [List.pairwise_map]
    exact List.Pairwise.imp (fun h => by unfold cellAddr; omega) List.pairwise_lt_range
  · refine List.Pairwise.imp (fun {r r'} h x hx y hy => ?_) List.pairwise_lt_range
    simp only [List.mem_map, List.mem_range] at hx hy
    obtain ⟨c, hc, rfl⟩ := hx
    obtain ⟨c', hc', rfl⟩ := hy
    unfold cellAddr; omega

/-- The engine reads a square exactly when MAT holds it. -/
theorem loadGrid_ok_iff {s : State} (hm : Memory.rising s.mem) (cmd : Instr) (n : Nat) (g : Grid) :
    loadGrid cmd n s = .ok g ↔ s.holdsGrid n g := by
  rw [loadGrid, State.holdsGrid]
  by_cases hn : Config.sMax < n
  · simp [hn]
  rw [if_neg hn]
  have hn256 : n ≤ 256 := le_trans (Nat.le_of_not_lt hn) (by decide)
  have hr := fun bs => Memory.readSeq_ok hm (cellAddrs_rising hn256) (bs := bs)
  have hsome : ∀ bs : List Byte, (cellAddrs n).map (Memory.lookup s.mem) = bs.map some →
      bs.length = n * n ∧ ∀ r c, r < n → c < n → s.at (cellAddr r c) = bs[n * r + c]? := by
    intro bs h
    have hl := congrArg List.length h
    simp only [List.length_map, cellAddrs_length] at hl
    refine ⟨hl.symm, fun r c hr hc => ?_⟩
    have h1 := congrArg (fun l => l[n * r + c]?) h
    simp only [List.getElem?_map, cellAddrs_getElem? hr hc, Option.map_some] at h1
    have h2 : n * r + c < bs.length := by rw [← hl]; nlinarith
    rw [List.getElem?_eq_getElem h2] at h1 ⊢
    simpa [State.at] using h1
  constructor
  · intro h
    cases hrs : Memory.readSeq (cellAddrs n) s.mem with
    | error a => simp [hrs] at h
    | ok bs =>
      simp only [hrs, Except.ok.injEq] at h
      obtain ⟨hl, hb⟩ := hsome bs ((hr bs).1 hrs)
      have hsq : Grid.square n g := by
        refine ⟨by rw [← h, chunks_length], fun row hrow => ?_⟩
        obtain ⟨i, hi, hi2⟩ := List.mem_iff_getElem.1 hrow
        have hin : i < n := by rw [← h, chunks_length] at hi; exact hi
        have := chunks_getElem? n n (bs.map MatCell.ofByte) i hin
        rw [h, List.getElem?_eq_getElem hi, hi2, Option.some.injEq] at this
        rw [this]; simp [hl]
        have : n * i + n ≤ n * n := by rw [← Nat.mul_succ]; exact Nat.mul_le_mul_left _ hin
        omega
      refine ⟨Nat.le_of_not_lt hn, hsq.1, hsq.2, fun r c hr' hc' => ?_⟩
      obtain ⟨row, h1, h2⟩ := Grid.getElem?_cell hsq hr' hc'
      have := chunks_getElem? n n (bs.map MatCell.ofByte) r hr'
      rw [h, h1, Option.some.injEq] at this
      rw [← h2, this, List.getElem?_take, if_pos hc', List.getElem?_drop, State.matCell, hb r c hr' hc',
        List.getElem?_map]
  · rintro ⟨h0, h1, h2, h3⟩
    have hsq : Grid.square n g := ⟨h1, h2⟩
    cases hrs : Memory.readSeq (cellAddrs n) s.mem with
    | error a =>
      rw [Memory.readSeq_eq hm (cellAddrs_rising hn256)] at hrs
      cases hf : (cellAddrs n).find? (fun a => (Memory.lookup s.mem a).isNone) with
      | none => simp [hf] at hrs
      | some x =>
        have hx := List.find?_some hf
        have hx2 := List.mem_of_find?_eq_some hf
        simp only [cellAddrs, List.mem_flatMap, List.mem_map, List.mem_range] at hx2
        obtain ⟨r, hr', c, hc', rfl⟩ := hx2
        have := h3 r c hr' hc'
        rw [State.matCell, State.at] at this
        simp only [Option.isNone_iff_eq_none] at hx
        simp [hx] at this
    | ok bs =>
      obtain ⟨hl, hb⟩ := hsome bs ((hr bs).1 hrs)
      simp only [Except.ok.injEq]
      have hc : Grid.square n (chunks n n (bs.map MatCell.ofByte)) := by
        refine ⟨chunks_length _ _ _, fun row hrow => ?_⟩
        obtain ⟨i, hi, hi2⟩ := List.mem_iff_getElem.1 hrow
        have hin : i < n := by rw [chunks_length] at hi; exact hi
        have := chunks_getElem? n n (bs.map MatCell.ofByte) i hin
        rw [List.getElem?_eq_getElem hi, hi2, Option.some.injEq] at this
        rw [this]; simp [hl]
        have : n * i + n ≤ n * n := by rw [← Nat.mul_succ]; exact Nat.mul_le_mul_left _ hin
        omega
      refine Grid.ext_cell hc hsq fun r c hr' hc' => ?_
      have e1 := h3 r c hr' hc'
      rw [State.matCell, hb r c hr' hc'] at e1
      obtain ⟨row, g1, g2⟩ := Grid.getElem?_cell hc hr' hc'
      have := chunks_getElem? n n (bs.map MatCell.ofByte) r hr'
      rw [g1, Option.some.injEq] at this
      rw [this, List.getElem?_take, if_pos hc', List.getElem?_drop, List.getElem?_map, e1] at g2
      exact (Option.some.inj g2).symm

end Sys2Proof.Machine
end

