-- ==== Sys2Proof/Laws/State.lean ====
section
/-! SUPPORT. One lemma for each field of State and each named update of it: what the update leaves in the
field. Later proofs cite these and unfold no record update. -/

namespace Sys2Proof.Machine


/-! ### `State.complete` -/

@[simp] theorem State.complete_irqEn (s : State) :
    s.complete.irqEn = s.irqEn := rfl
@[simp] theorem State.complete_done (s : State) :
    s.complete.done = true := rfl
@[simp] theorem State.complete_err (s : State) :
    s.complete.err = s.err := rfl
@[simp] theorem State.complete_cmdDropped (s : State) :
    s.complete.cmdDropped = s.cmdDropped := rfl
@[simp] theorem State.complete_pstage (s : State) :
    s.complete.pstage = s.pstage := rfl
@[simp] theorem State.complete_trialDone (s : State) :
    s.complete.trialDone = s.trialDone := rfl
@[simp] theorem State.complete_errCode (s : State) :
    s.complete.errCode = s.errCode := rfl
@[simp] theorem State.complete_errInfo (s : State) :
    s.complete.errInfo = s.errInfo := rfl
@[simp] theorem State.complete_mode (s : State) :
    s.complete.mode = s.mode := rfl
@[simp] theorem State.complete_ecl (s : State) :
    s.complete.ecl = s.ecl := rfl
@[simp] theorem State.complete_inLen (s : State) :
    s.complete.inLen = s.inLen := rfl
@[simp] theorem State.complete_charCount (s : State) :
    s.complete.charCount = s.charCount := rfl
@[simp] theorem State.complete_rawLen (s : State) :
    s.complete.rawLen = s.rawLen := rfl
@[simp] theorem State.complete_version (s : State) :
    s.complete.version = s.version := rfl
@[simp] theorem State.complete_selLevel (s : State) :
    s.complete.selLevel = s.selLevel := rfl
@[simp] theorem State.complete_size (s : State) :
    s.complete.size = s.size := rfl
@[simp] theorem State.complete_capBits (s : State) :
    s.complete.capBits = s.capBits := rfl
@[simp] theorem State.complete_streamLen (s : State) :
    s.complete.streamLen = s.streamLen := rfl
@[simp] theorem State.complete_numBlocks (s : State) :
    s.complete.numBlocks = s.numBlocks := rfl
@[simp] theorem State.complete_ecLen (s : State) :
    s.complete.ecLen = s.ecLen := rfl
@[simp] theorem State.complete_blkShort (s : State) :
    s.complete.blkShort = s.blkShort := rfl
@[simp] theorem State.complete_blkNlong (s : State) :
    s.complete.blkNlong = s.blkNlong := rfl
@[simp] theorem State.complete_totalCw (s : State) :
    s.complete.totalCw = s.totalCw := rfl
@[simp] theorem State.complete_freeCells (s : State) :
    s.complete.freeCells = s.freeCells := rfl
@[simp] theorem State.complete_placedBits (s : State) :
    s.complete.placedBits = s.placedBits := rfl
@[simp] theorem State.complete_bestMask (s : State) :
    s.complete.bestMask = s.bestMask := rfl
@[simp] theorem State.complete_bestScore (s : State) :
    s.complete.bestScore = s.bestScore := rfl
@[simp] theorem State.complete_scoreN (s : State) :
    s.complete.scoreN = s.scoreN := rfl
@[simp] theorem State.complete_rsK (s : State) :
    s.complete.rsK = s.rsK := rfl
@[simp] theorem State.complete_rsLen (s : State) :
    s.complete.rsLen = s.rsLen := rfl
@[simp] theorem State.complete_scores (s : State) :
    s.complete.scores = s.scores := rfl
@[simp] theorem State.complete_penalty (s : State) :
    s.complete.penalty = s.penalty := rfl
@[simp] theorem State.complete_pending (s : State) :
    s.complete.pending = none := rfl
@[simp] theorem State.complete_mem (s : State) :
    s.complete.mem = s.mem := rfl
@[simp] theorem State.complete_host (s : State) :
    s.complete.host = s.host := rfl
@[simp] theorem State.complete_resp (s : State) :
    s.complete.resp = s.resp := rfl
@[simp] theorem State.complete_hold (s : State) :
    s.complete.hold = s.hold := rfl
@[simp] theorem State.complete_draws (s : State) :
    s.complete.draws = s.draws := rfl


/-! ### `State.accept` -/

@[simp] theorem State.accept_irqEn (s : State) (w : Word) (n : Nat) :
    (s.accept w n).irqEn = s.irqEn := rfl
@[simp] theorem State.accept_done (s : State) (w : Word) (n : Nat) :
    (s.accept w n).done = false := rfl
@[simp] theorem State.accept_err (s : State) (w : Word) (n : Nat) :
    (s.accept w n).err = false := rfl
@[simp] theorem State.accept_cmdDropped (s : State) (w : Word) (n : Nat) :
    (s.accept w n).cmdDropped = s.cmdDropped := rfl
@[simp] theorem State.accept_pstage (s : State) (w : Word) (n : Nat) :
    (s.accept w n).pstage = s.pstage := rfl
@[simp] theorem State.accept_trialDone (s : State) (w : Word) (n : Nat) :
    (s.accept w n).trialDone = s.trialDone := rfl
@[simp] theorem State.accept_errCode (s : State) (w : Word) (n : Nat) :
    (s.accept w n).errCode = .none := rfl
@[simp] theorem State.accept_errInfo (s : State) (w : Word) (n : Nat) :
    (s.accept w n).errInfo = 0#32 := rfl
@[simp] theorem State.accept_mode (s : State) (w : Word) (n : Nat) :
    (s.accept w n).mode = s.mode := rfl
@[simp] theorem State.accept_ecl (s : State) (w : Word) (n : Nat) :
    (s.accept w n).ecl = s.ecl := rfl
@[simp] theorem State.accept_inLen (s : State) (w : Word) (n : Nat) :
    (s.accept w n).inLen = s.inLen := rfl
@[simp] theorem State.accept_charCount (s : State) (w : Word) (n : Nat) :
    (s.accept w n).charCount = s.charCount := rfl
@[simp] theorem State.accept_rawLen (s : State) (w : Word) (n : Nat) :
    (s.accept w n).rawLen = s.rawLen := rfl
@[simp] theorem State.accept_version (s : State) (w : Word) (n : Nat) :
    (s.accept w n).version = s.version := rfl
@[simp] theorem State.accept_selLevel (s : State) (w : Word) (n : Nat) :
    (s.accept w n).selLevel = s.selLevel := rfl
@[simp] theorem State.accept_size (s : State) (w : Word) (n : Nat) :
    (s.accept w n).size = s.size := rfl
@[simp] theorem State.accept_capBits (s : State) (w : Word) (n : Nat) :
    (s.accept w n).capBits = s.capBits := rfl
@[simp] theorem State.accept_streamLen (s : State) (w : Word) (n : Nat) :
    (s.accept w n).streamLen = s.streamLen := rfl
@[simp] theorem State.accept_numBlocks (s : State) (w : Word) (n : Nat) :
    (s.accept w n).numBlocks = s.numBlocks := rfl
@[simp] theorem State.accept_ecLen (s : State) (w : Word) (n : Nat) :
    (s.accept w n).ecLen = s.ecLen := rfl
@[simp] theorem State.accept_blkShort (s : State) (w : Word) (n : Nat) :
    (s.accept w n).blkShort = s.blkShort := rfl
@[simp] theorem State.accept_blkNlong (s : State) (w : Word) (n : Nat) :
    (s.accept w n).blkNlong = s.blkNlong := rfl
@[simp] theorem State.accept_totalCw (s : State) (w : Word) (n : Nat) :
    (s.accept w n).totalCw = s.totalCw := rfl
@[simp] theorem State.accept_freeCells (s : State) (w : Word) (n : Nat) :
    (s.accept w n).freeCells = s.freeCells := rfl
@[simp] theorem State.accept_placedBits (s : State) (w : Word) (n : Nat) :
    (s.accept w n).placedBits = s.placedBits := rfl
@[simp] theorem State.accept_bestMask (s : State) (w : Word) (n : Nat) :
    (s.accept w n).bestMask = s.bestMask := rfl
@[simp] theorem State.accept_bestScore (s : State) (w : Word) (n : Nat) :
    (s.accept w n).bestScore = s.bestScore := rfl
@[simp] theorem State.accept_scoreN (s : State) (w : Word) (n : Nat) :
    (s.accept w n).scoreN = s.scoreN := rfl
@[simp] theorem State.accept_rsK (s : State) (w : Word) (n : Nat) :
    (s.accept w n).rsK = s.rsK := rfl
@[simp] theorem State.accept_rsLen (s : State) (w : Word) (n : Nat) :
    (s.accept w n).rsLen = s.rsLen := rfl
@[simp] theorem State.accept_scores (s : State) (w : Word) (n : Nat) :
    (s.accept w n).scores = s.scores := rfl
@[simp] theorem State.accept_penalty (s : State) (w : Word) (n : Nat) :
    (s.accept w n).penalty = s.penalty := rfl
@[simp] theorem State.accept_pending (s : State) (w : Word) (n : Nat) :
    (s.accept w n).pending = some w := rfl
@[simp] theorem State.accept_mem (s : State) (w : Word) (n : Nat) :
    (s.accept w n).mem = s.mem := rfl
@[simp] theorem State.accept_host (s : State) (w : Word) (n : Nat) :
    (s.accept w n).host = s.host := rfl
@[simp] theorem State.accept_resp (s : State) (w : Word) (n : Nat) :
    (s.accept w n).resp = s.resp := rfl
@[simp] theorem State.accept_hold (s : State) (w : Word) (n : Nat) :
    (s.accept w n).hold = n := rfl
@[simp] theorem State.accept_draws (s : State) (w : Word) (n : Nat) :
    (s.accept w n).draws = s.draws := rfl


/-! ### `State.fail` -/

@[simp] theorem State.fail_irqEn (s : State) (i : Instr) (e : ErrCode) (x : Word) :
    (s.fail i e x).irqEn = s.irqEn := rfl
@[simp] theorem State.fail_done (s : State) (i : Instr) (e : ErrCode) (x : Word) :
    (s.fail i e x).done = s.done := rfl
@[simp] theorem State.fail_err (s : State) (i : Instr) (e : ErrCode) (x : Word) :
    (s.fail i e x).err = true := rfl
@[simp] theorem State.fail_cmdDropped (s : State) (i : Instr) (e : ErrCode) (x : Word) :
    (s.fail i e x).cmdDropped = s.cmdDropped := rfl
@[simp] theorem State.fail_pstage (s : State) (i : Instr) (e : ErrCode) (x : Word) :
    (s.fail i e x).pstage = if e ≠ .illegalCmd ∧ e ≠ .sequence ∧ i ≠ .score then .failed else s.pstage := rfl
@[simp] theorem State.fail_trialDone (s : State) (i : Instr) (e : ErrCode) (x : Word) :
    (s.fail i e x).trialDone = s.trialDone := rfl
@[simp] theorem State.fail_errCode (s : State) (i : Instr) (e : ErrCode) (x : Word) :
    (s.fail i e x).errCode = e := rfl
@[simp] theorem State.fail_errInfo (s : State) (i : Instr) (e : ErrCode) (x : Word) :
    (s.fail i e x).errInfo = x := rfl
@[simp] theorem State.fail_mode (s : State) (i : Instr) (e : ErrCode) (x : Word) :
    (s.fail i e x).mode = s.mode := rfl
@[simp] theorem State.fail_ecl (s : State) (i : Instr) (e : ErrCode) (x : Word) :
    (s.fail i e x).ecl = s.ecl := rfl
@[simp] theorem State.fail_inLen (s : State) (i : Instr) (e : ErrCode) (x : Word) :
    (s.fail i e x).inLen = s.inLen := rfl
@[simp] theorem State.fail_charCount (s : State) (i : Instr) (e : ErrCode) (x : Word) :
    (s.fail i e x).charCount = s.charCount := rfl
@[simp] theorem State.fail_rawLen (s : State) (i : Instr) (e : ErrCode) (x : Word) :
    (s.fail i e x).rawLen = s.rawLen := rfl
@[simp] theorem State.fail_version (s : State) (i : Instr) (e : ErrCode) (x : Word) :
    (s.fail i e x).version = s.version := rfl
@[simp] theorem State.fail_selLevel (s : State) (i : Instr) (e : ErrCode) (x : Word) :
    (s.fail i e x).selLevel = s.selLevel := rfl
@[simp] theorem State.fail_size (s : State) (i : Instr) (e : ErrCode) (x : Word) :
    (s.fail i e x).size = s.size := rfl
@[simp] theorem State.fail_capBits (s : State) (i : Instr) (e : ErrCode) (x : Word) :
    (s.fail i e x).capBits = s.capBits := rfl
@[simp] theorem State.fail_streamLen (s : State) (i : Instr) (e : ErrCode) (x : Word) :
    (s.fail i e x).streamLen = s.streamLen := rfl
@[simp] theorem State.fail_numBlocks (s : State) (i : Instr) (e : ErrCode) (x : Word) :
    (s.fail i e x).numBlocks = s.numBlocks := rfl
@[simp] theorem State.fail_ecLen (s : State) (i : Instr) (e : ErrCode) (x : Word) :
    (s.fail i e x).ecLen = s.ecLen := rfl
@[simp] theorem State.fail_blkShort (s : State) (i : Instr) (e : ErrCode) (x : Word) :
    (s.fail i e x).blkShort = s.blkShort := rfl
@[simp] theorem State.fail_blkNlong (s : State) (i : Instr) (e : ErrCode) (x : Word) :
    (s.fail i e x).blkNlong = s.blkNlong := rfl
@[simp] theorem State.fail_totalCw (s : State) (i : Instr) (e : ErrCode) (x : Word) :
    (s.fail i e x).totalCw = s.totalCw := rfl
@[simp] theorem State.fail_freeCells (s : State) (i : Instr) (e : ErrCode) (x : Word) :
    (s.fail i e x).freeCells = s.freeCells := rfl
@[simp] theorem State.fail_placedBits (s : State) (i : Instr) (e : ErrCode) (x : Word) :
    (s.fail i e x).placedBits = s.placedBits := rfl
@[simp] theorem State.fail_bestMask (s : State) (i : Instr) (e : ErrCode) (x : Word) :
    (s.fail i e x).bestMask = s.bestMask := rfl
@[simp] theorem State.fail_bestScore (s : State) (i : Instr) (e : ErrCode) (x : Word) :
    (s.fail i e x).bestScore = s.bestScore := rfl
@[simp] theorem State.fail_scoreN (s : State) (i : Instr) (e : ErrCode) (x : Word) :
    (s.fail i e x).scoreN = s.scoreN := rfl
@[simp] theorem State.fail_rsK (s : State) (i : Instr) (e : ErrCode) (x : Word) :
    (s.fail i e x).rsK = s.rsK := rfl
@[simp] theorem State.fail_rsLen (s : State) (i : Instr) (e : ErrCode) (x : Word) :
    (s.fail i e x).rsLen = s.rsLen := rfl
@[simp] theorem State.fail_scores (s : State) (i : Instr) (e : ErrCode) (x : Word) :
    (s.fail i e x).scores = s.scores := rfl
@[simp] theorem State.fail_penalty (s : State) (i : Instr) (e : ErrCode) (x : Word) :
    (s.fail i e x).penalty = s.penalty := rfl
@[simp] theorem State.fail_pending (s : State) (i : Instr) (e : ErrCode) (x : Word) :
    (s.fail i e x).pending = s.pending := rfl
@[simp] theorem State.fail_mem (s : State) (i : Instr) (e : ErrCode) (x : Word) :
    (s.fail i e x).mem = s.mem := rfl
@[simp] theorem State.fail_host (s : State) (i : Instr) (e : ErrCode) (x : Word) :
    (s.fail i e x).host = s.host := rfl
@[simp] theorem State.fail_resp (s : State) (i : Instr) (e : ErrCode) (x : Word) :
    (s.fail i e x).resp = s.resp := rfl
@[simp] theorem State.fail_hold (s : State) (i : Instr) (e : ErrCode) (x : Word) :
    (s.fail i e x).hold = s.hold := rfl
@[simp] theorem State.fail_draws (s : State) (i : Instr) (e : ErrCode) (x : Word) :
    (s.fail i e x).draws = s.draws := rfl


/-! ### `State.rejectWord` -/

@[simp] theorem State.rejectWord_irqEn (s : State) (w : Word) :
    (s.rejectWord w).irqEn = s.irqEn := rfl
@[simp] theorem State.rejectWord_done (s : State) (w : Word) :
    (s.rejectWord w).done = true := rfl
@[simp] theorem State.rejectWord_err (s : State) (w : Word) :
    (s.rejectWord w).err = true := rfl
@[simp] theorem State.rejectWord_cmdDropped (s : State) (w : Word) :
    (s.rejectWord w).cmdDropped = s.cmdDropped := rfl
@[simp] theorem State.rejectWord_pstage (s : State) (w : Word) :
    (s.rejectWord w).pstage = s.pstage := rfl
@[simp] theorem State.rejectWord_trialDone (s : State) (w : Word) :
    (s.rejectWord w).trialDone = s.trialDone := rfl
@[simp] theorem State.rejectWord_errCode (s : State) (w : Word) :
    (s.rejectWord w).errCode = .illegalCmd := rfl
@[simp] theorem State.rejectWord_errInfo (s : State) (w : Word) :
    (s.rejectWord w).errInfo = w := rfl
@[simp] theorem State.rejectWord_mode (s : State) (w : Word) :
    (s.rejectWord w).mode = s.mode := rfl
@[simp] theorem State.rejectWord_ecl (s : State) (w : Word) :
    (s.rejectWord w).ecl = s.ecl := rfl
@[simp] theorem State.rejectWord_inLen (s : State) (w : Word) :
    (s.rejectWord w).inLen = s.inLen := rfl
@[simp] theorem State.rejectWord_charCount (s : State) (w : Word) :
    (s.rejectWord w).charCount = s.charCount := rfl
@[simp] theorem State.rejectWord_rawLen (s : State) (w : Word) :
    (s.rejectWord w).rawLen = s.rawLen := rfl
@[simp] theorem State.rejectWord_version (s : State) (w : Word) :
    (s.rejectWord w).version = s.version := rfl
@[simp] theorem State.rejectWord_selLevel (s : State) (w : Word) :
    (s.rejectWord w).selLevel = s.selLevel := rfl
@[simp] theorem State.rejectWord_size (s : State) (w : Word) :
    (s.rejectWord w).size = s.size := rfl
@[simp] theorem State.rejectWord_capBits (s : State) (w : Word) :
    (s.rejectWord w).capBits = s.capBits := rfl
@[simp] theorem State.rejectWord_streamLen (s : State) (w : Word) :
    (s.rejectWord w).streamLen = s.streamLen := rfl
@[simp] theorem State.rejectWord_numBlocks (s : State) (w : Word) :
    (s.rejectWord w).numBlocks = s.numBlocks := rfl
@[simp] theorem State.rejectWord_ecLen (s : State) (w : Word) :
    (s.rejectWord w).ecLen = s.ecLen := rfl
@[simp] theorem State.rejectWord_blkShort (s : State) (w : Word) :
    (s.rejectWord w).blkShort = s.blkShort := rfl
@[simp] theorem State.rejectWord_blkNlong (s : State) (w : Word) :
    (s.rejectWord w).blkNlong = s.blkNlong := rfl
@[simp] theorem State.rejectWord_totalCw (s : State) (w : Word) :
    (s.rejectWord w).totalCw = s.totalCw := rfl
@[simp] theorem State.rejectWord_freeCells (s : State) (w : Word) :
    (s.rejectWord w).freeCells = s.freeCells := rfl
@[simp] theorem State.rejectWord_placedBits (s : State) (w : Word) :
    (s.rejectWord w).placedBits = s.placedBits := rfl
@[simp] theorem State.rejectWord_bestMask (s : State) (w : Word) :
    (s.rejectWord w).bestMask = s.bestMask := rfl
@[simp] theorem State.rejectWord_bestScore (s : State) (w : Word) :
    (s.rejectWord w).bestScore = s.bestScore := rfl
@[simp] theorem State.rejectWord_scoreN (s : State) (w : Word) :
    (s.rejectWord w).scoreN = s.scoreN := rfl
@[simp] theorem State.rejectWord_rsK (s : State) (w : Word) :
    (s.rejectWord w).rsK = s.rsK := rfl
@[simp] theorem State.rejectWord_rsLen (s : State) (w : Word) :
    (s.rejectWord w).rsLen = s.rsLen := rfl
@[simp] theorem State.rejectWord_scores (s : State) (w : Word) :
    (s.rejectWord w).scores = s.scores := rfl
@[simp] theorem State.rejectWord_penalty (s : State) (w : Word) :
    (s.rejectWord w).penalty = s.penalty := rfl
@[simp] theorem State.rejectWord_pending (s : State) (w : Word) :
    (s.rejectWord w).pending = none := rfl
@[simp] theorem State.rejectWord_mem (s : State) (w : Word) :
    (s.rejectWord w).mem = s.mem := rfl
@[simp] theorem State.rejectWord_host (s : State) (w : Word) :
    (s.rejectWord w).host = s.host := rfl
@[simp] theorem State.rejectWord_resp (s : State) (w : Word) :
    (s.rejectWord w).resp = s.resp := rfl
@[simp] theorem State.rejectWord_hold (s : State) (w : Word) :
    (s.rejectWord w).hold = s.hold := rfl
@[simp] theorem State.rejectWord_draws (s : State) (w : Word) :
    (s.rejectWord w).draws = s.draws := rfl


/-! ### `State.respond` -/

@[simp] theorem State.respond_irqEn (s : State) (ok : Bool) (x : Word) :
    (s.respond ok x).irqEn = s.irqEn := rfl
@[simp] theorem State.respond_done (s : State) (ok : Bool) (x : Word) :
    (s.respond ok x).done = s.done := rfl
@[simp] theorem State.respond_err (s : State) (ok : Bool) (x : Word) :
    (s.respond ok x).err = s.err := rfl
@[simp] theorem State.respond_cmdDropped (s : State) (ok : Bool) (x : Word) :
    (s.respond ok x).cmdDropped = s.cmdDropped := rfl
@[simp] theorem State.respond_pstage (s : State) (ok : Bool) (x : Word) :
    (s.respond ok x).pstage = s.pstage := rfl
@[simp] theorem State.respond_trialDone (s : State) (ok : Bool) (x : Word) :
    (s.respond ok x).trialDone = s.trialDone := rfl
@[simp] theorem State.respond_errCode (s : State) (ok : Bool) (x : Word) :
    (s.respond ok x).errCode = s.errCode := rfl
@[simp] theorem State.respond_errInfo (s : State) (ok : Bool) (x : Word) :
    (s.respond ok x).errInfo = s.errInfo := rfl
@[simp] theorem State.respond_mode (s : State) (ok : Bool) (x : Word) :
    (s.respond ok x).mode = s.mode := rfl
@[simp] theorem State.respond_ecl (s : State) (ok : Bool) (x : Word) :
    (s.respond ok x).ecl = s.ecl := rfl
@[simp] theorem State.respond_inLen (s : State) (ok : Bool) (x : Word) :
    (s.respond ok x).inLen = s.inLen := rfl
@[simp] theorem State.respond_charCount (s : State) (ok : Bool) (x : Word) :
    (s.respond ok x).charCount = s.charCount := rfl
@[simp] theorem State.respond_rawLen (s : State) (ok : Bool) (x : Word) :
    (s.respond ok x).rawLen = s.rawLen := rfl
@[simp] theorem State.respond_version (s : State) (ok : Bool) (x : Word) :
    (s.respond ok x).version = s.version := rfl
@[simp] theorem State.respond_selLevel (s : State) (ok : Bool) (x : Word) :
    (s.respond ok x).selLevel = s.selLevel := rfl
@[simp] theorem State.respond_size (s : State) (ok : Bool) (x : Word) :
    (s.respond ok x).size = s.size := rfl
@[simp] theorem State.respond_capBits (s : State) (ok : Bool) (x : Word) :
    (s.respond ok x).capBits = s.capBits := rfl
@[simp] theorem State.respond_streamLen (s : State) (ok : Bool) (x : Word) :
    (s.respond ok x).streamLen = s.streamLen := rfl
@[simp] theorem State.respond_numBlocks (s : State) (ok : Bool) (x : Word) :
    (s.respond ok x).numBlocks = s.numBlocks := rfl
@[simp] theorem State.respond_ecLen (s : State) (ok : Bool) (x : Word) :
    (s.respond ok x).ecLen = s.ecLen := rfl
@[simp] theorem State.respond_blkShort (s : State) (ok : Bool) (x : Word) :
    (s.respond ok x).blkShort = s.blkShort := rfl
@[simp] theorem State.respond_blkNlong (s : State) (ok : Bool) (x : Word) :
    (s.respond ok x).blkNlong = s.blkNlong := rfl
@[simp] theorem State.respond_totalCw (s : State) (ok : Bool) (x : Word) :
    (s.respond ok x).totalCw = s.totalCw := rfl
@[simp] theorem State.respond_freeCells (s : State) (ok : Bool) (x : Word) :
    (s.respond ok x).freeCells = s.freeCells := rfl
@[simp] theorem State.respond_placedBits (s : State) (ok : Bool) (x : Word) :
    (s.respond ok x).placedBits = s.placedBits := rfl
@[simp] theorem State.respond_bestMask (s : State) (ok : Bool) (x : Word) :
    (s.respond ok x).bestMask = s.bestMask := rfl
@[simp] theorem State.respond_bestScore (s : State) (ok : Bool) (x : Word) :
    (s.respond ok x).bestScore = s.bestScore := rfl
@[simp] theorem State.respond_scoreN (s : State) (ok : Bool) (x : Word) :
    (s.respond ok x).scoreN = s.scoreN := rfl
@[simp] theorem State.respond_rsK (s : State) (ok : Bool) (x : Word) :
    (s.respond ok x).rsK = s.rsK := rfl
@[simp] theorem State.respond_rsLen (s : State) (ok : Bool) (x : Word) :
    (s.respond ok x).rsLen = s.rsLen := rfl
@[simp] theorem State.respond_scores (s : State) (ok : Bool) (x : Word) :
    (s.respond ok x).scores = s.scores := rfl
@[simp] theorem State.respond_penalty (s : State) (ok : Bool) (x : Word) :
    (s.respond ok x).penalty = s.penalty := rfl
@[simp] theorem State.respond_pending (s : State) (ok : Bool) (x : Word) :
    (s.respond ok x).pending = s.pending := rfl
@[simp] theorem State.respond_mem (s : State) (ok : Bool) (x : Word) :
    (s.respond ok x).mem = s.mem := rfl
@[simp] theorem State.respond_host (s : State) (ok : Bool) (x : Word) :
    (s.respond ok x).host = s.host := rfl
@[simp] theorem State.respond_resp (s : State) (ok : Bool) (x : Word) :
    (s.respond ok x).resp = some ⟨ok, x⟩ := rfl
@[simp] theorem State.respond_hold (s : State) (ok : Bool) (x : Word) :
    (s.respond ok x).hold = s.hold := rfl
@[simp] theorem State.respond_draws (s : State) (ok : Bool) (x : Word) :
    (s.respond ok x).draws = s.draws := rfl


/-! ### `State.writeBuf` -/

@[simp] theorem State.writeBuf_irqEn (s : State) (b : Buf) (bs : List Byte) :
    (s.writeBuf b bs).irqEn = s.irqEn := rfl
@[simp] theorem State.writeBuf_done (s : State) (b : Buf) (bs : List Byte) :
    (s.writeBuf b bs).done = s.done := rfl
@[simp] theorem State.writeBuf_err (s : State) (b : Buf) (bs : List Byte) :
    (s.writeBuf b bs).err = s.err := rfl
@[simp] theorem State.writeBuf_cmdDropped (s : State) (b : Buf) (bs : List Byte) :
    (s.writeBuf b bs).cmdDropped = s.cmdDropped := rfl
@[simp] theorem State.writeBuf_pstage (s : State) (b : Buf) (bs : List Byte) :
    (s.writeBuf b bs).pstage = s.pstage := rfl
@[simp] theorem State.writeBuf_trialDone (s : State) (b : Buf) (bs : List Byte) :
    (s.writeBuf b bs).trialDone = s.trialDone := rfl
@[simp] theorem State.writeBuf_errCode (s : State) (b : Buf) (bs : List Byte) :
    (s.writeBuf b bs).errCode = s.errCode := rfl
@[simp] theorem State.writeBuf_errInfo (s : State) (b : Buf) (bs : List Byte) :
    (s.writeBuf b bs).errInfo = s.errInfo := rfl
@[simp] theorem State.writeBuf_mode (s : State) (b : Buf) (bs : List Byte) :
    (s.writeBuf b bs).mode = s.mode := rfl
@[simp] theorem State.writeBuf_ecl (s : State) (b : Buf) (bs : List Byte) :
    (s.writeBuf b bs).ecl = s.ecl := rfl
@[simp] theorem State.writeBuf_inLen (s : State) (b : Buf) (bs : List Byte) :
    (s.writeBuf b bs).inLen = s.inLen := rfl
@[simp] theorem State.writeBuf_charCount (s : State) (b : Buf) (bs : List Byte) :
    (s.writeBuf b bs).charCount = s.charCount := rfl
@[simp] theorem State.writeBuf_rawLen (s : State) (b : Buf) (bs : List Byte) :
    (s.writeBuf b bs).rawLen = s.rawLen := rfl
@[simp] theorem State.writeBuf_version (s : State) (b : Buf) (bs : List Byte) :
    (s.writeBuf b bs).version = s.version := rfl
@[simp] theorem State.writeBuf_selLevel (s : State) (b : Buf) (bs : List Byte) :
    (s.writeBuf b bs).selLevel = s.selLevel := rfl
@[simp] theorem State.writeBuf_size (s : State) (b : Buf) (bs : List Byte) :
    (s.writeBuf b bs).size = s.size := rfl
@[simp] theorem State.writeBuf_capBits (s : State) (b : Buf) (bs : List Byte) :
    (s.writeBuf b bs).capBits = s.capBits := rfl
@[simp] theorem State.writeBuf_streamLen (s : State) (b : Buf) (bs : List Byte) :
    (s.writeBuf b bs).streamLen = s.streamLen := rfl
@[simp] theorem State.writeBuf_numBlocks (s : State) (b : Buf) (bs : List Byte) :
    (s.writeBuf b bs).numBlocks = s.numBlocks := rfl
@[simp] theorem State.writeBuf_ecLen (s : State) (b : Buf) (bs : List Byte) :
    (s.writeBuf b bs).ecLen = s.ecLen := rfl
@[simp] theorem State.writeBuf_blkShort (s : State) (b : Buf) (bs : List Byte) :
    (s.writeBuf b bs).blkShort = s.blkShort := rfl
@[simp] theorem State.writeBuf_blkNlong (s : State) (b : Buf) (bs : List Byte) :
    (s.writeBuf b bs).blkNlong = s.blkNlong := rfl
@[simp] theorem State.writeBuf_totalCw (s : State) (b : Buf) (bs : List Byte) :
    (s.writeBuf b bs).totalCw = s.totalCw := rfl
@[simp] theorem State.writeBuf_freeCells (s : State) (b : Buf) (bs : List Byte) :
    (s.writeBuf b bs).freeCells = s.freeCells := rfl
@[simp] theorem State.writeBuf_placedBits (s : State) (b : Buf) (bs : List Byte) :
    (s.writeBuf b bs).placedBits = s.placedBits := rfl
@[simp] theorem State.writeBuf_bestMask (s : State) (b : Buf) (bs : List Byte) :
    (s.writeBuf b bs).bestMask = s.bestMask := rfl
@[simp] theorem State.writeBuf_bestScore (s : State) (b : Buf) (bs : List Byte) :
    (s.writeBuf b bs).bestScore = s.bestScore := rfl
@[simp] theorem State.writeBuf_scoreN (s : State) (b : Buf) (bs : List Byte) :
    (s.writeBuf b bs).scoreN = s.scoreN := rfl
@[simp] theorem State.writeBuf_rsK (s : State) (b : Buf) (bs : List Byte) :
    (s.writeBuf b bs).rsK = s.rsK := rfl
@[simp] theorem State.writeBuf_rsLen (s : State) (b : Buf) (bs : List Byte) :
    (s.writeBuf b bs).rsLen = s.rsLen := rfl
@[simp] theorem State.writeBuf_scores (s : State) (b : Buf) (bs : List Byte) :
    (s.writeBuf b bs).scores = s.scores := rfl
@[simp] theorem State.writeBuf_penalty (s : State) (b : Buf) (bs : List Byte) :
    (s.writeBuf b bs).penalty = s.penalty := rfl
@[simp] theorem State.writeBuf_pending (s : State) (b : Buf) (bs : List Byte) :
    (s.writeBuf b bs).pending = s.pending := rfl
@[simp] theorem State.writeBuf_mem (s : State) (b : Buf) (bs : List Byte) :
    (s.writeBuf b bs).mem = Memory.write (cellsFrom b.base bs) s.mem := rfl
@[simp] theorem State.writeBuf_host (s : State) (b : Buf) (bs : List Byte) :
    (s.writeBuf b bs).host = s.host := rfl
@[simp] theorem State.writeBuf_resp (s : State) (b : Buf) (bs : List Byte) :
    (s.writeBuf b bs).resp = s.resp := rfl
@[simp] theorem State.writeBuf_hold (s : State) (b : Buf) (bs : List Byte) :
    (s.writeBuf b bs).hold = s.hold := rfl
@[simp] theorem State.writeBuf_draws (s : State) (b : Buf) (bs : List Byte) :
    (s.writeBuf b bs).draws = s.draws := rfl


/-! ### `State.storeBits` -/

@[simp] theorem State.storeBits_irqEn (s : State) (x : Bits) :
    (s.storeBits x).irqEn = s.irqEn := rfl
@[simp] theorem State.storeBits_done (s : State) (x : Bits) :
    (s.storeBits x).done = s.done := rfl
@[simp] theorem State.storeBits_err (s : State) (x : Bits) :
    (s.storeBits x).err = s.err := rfl
@[simp] theorem State.storeBits_cmdDropped (s : State) (x : Bits) :
    (s.storeBits x).cmdDropped = s.cmdDropped := rfl
@[simp] theorem State.storeBits_pstage (s : State) (x : Bits) :
    (s.storeBits x).pstage = s.pstage := rfl
@[simp] theorem State.storeBits_trialDone (s : State) (x : Bits) :
    (s.storeBits x).trialDone = s.trialDone := rfl
@[simp] theorem State.storeBits_errCode (s : State) (x : Bits) :
    (s.storeBits x).errCode = s.errCode := rfl
@[simp] theorem State.storeBits_errInfo (s : State) (x : Bits) :
    (s.storeBits x).errInfo = s.errInfo := rfl
@[simp] theorem State.storeBits_mode (s : State) (x : Bits) :
    (s.storeBits x).mode = s.mode := rfl
@[simp] theorem State.storeBits_ecl (s : State) (x : Bits) :
    (s.storeBits x).ecl = s.ecl := rfl
@[simp] theorem State.storeBits_inLen (s : State) (x : Bits) :
    (s.storeBits x).inLen = s.inLen := rfl
@[simp] theorem State.storeBits_charCount (s : State) (x : Bits) :
    (s.storeBits x).charCount = s.charCount := rfl
@[simp] theorem State.storeBits_rawLen (s : State) (x : Bits) :
    (s.storeBits x).rawLen = s.rawLen := rfl
@[simp] theorem State.storeBits_version (s : State) (x : Bits) :
    (s.storeBits x).version = s.version := rfl
@[simp] theorem State.storeBits_selLevel (s : State) (x : Bits) :
    (s.storeBits x).selLevel = s.selLevel := rfl
@[simp] theorem State.storeBits_size (s : State) (x : Bits) :
    (s.storeBits x).size = s.size := rfl
@[simp] theorem State.storeBits_capBits (s : State) (x : Bits) :
    (s.storeBits x).capBits = s.capBits := rfl
@[simp] theorem State.storeBits_streamLen (s : State) (x : Bits) :
    (s.storeBits x).streamLen = s.streamLen := rfl
@[simp] theorem State.storeBits_numBlocks (s : State) (x : Bits) :
    (s.storeBits x).numBlocks = s.numBlocks := rfl
@[simp] theorem State.storeBits_ecLen (s : State) (x : Bits) :
    (s.storeBits x).ecLen = s.ecLen := rfl
@[simp] theorem State.storeBits_blkShort (s : State) (x : Bits) :
    (s.storeBits x).blkShort = s.blkShort := rfl
@[simp] theorem State.storeBits_blkNlong (s : State) (x : Bits) :
    (s.storeBits x).blkNlong = s.blkNlong := rfl
@[simp] theorem State.storeBits_totalCw (s : State) (x : Bits) :
    (s.storeBits x).totalCw = s.totalCw := rfl
@[simp] theorem State.storeBits_freeCells (s : State) (x : Bits) :
    (s.storeBits x).freeCells = s.freeCells := rfl
@[simp] theorem State.storeBits_placedBits (s : State) (x : Bits) :
    (s.storeBits x).placedBits = s.placedBits := rfl
@[simp] theorem State.storeBits_bestMask (s : State) (x : Bits) :
    (s.storeBits x).bestMask = s.bestMask := rfl
@[simp] theorem State.storeBits_bestScore (s : State) (x : Bits) :
    (s.storeBits x).bestScore = s.bestScore := rfl
@[simp] theorem State.storeBits_scoreN (s : State) (x : Bits) :
    (s.storeBits x).scoreN = s.scoreN := rfl
@[simp] theorem State.storeBits_rsK (s : State) (x : Bits) :
    (s.storeBits x).rsK = s.rsK := rfl
@[simp] theorem State.storeBits_rsLen (s : State) (x : Bits) :
    (s.storeBits x).rsLen = s.rsLen := rfl
@[simp] theorem State.storeBits_scores (s : State) (x : Bits) :
    (s.storeBits x).scores = s.scores := rfl
@[simp] theorem State.storeBits_penalty (s : State) (x : Bits) :
    (s.storeBits x).penalty = s.penalty := rfl
@[simp] theorem State.storeBits_pending (s : State) (x : Bits) :
    (s.storeBits x).pending = s.pending := rfl
@[simp] theorem State.storeBits_mem (s : State) (x : Bits) :
    (s.storeBits x).mem = Memory.write (cellsFrom Buf.bbuf.base (packBytes x)) s.mem := rfl
@[simp] theorem State.storeBits_host (s : State) (x : Bits) :
    (s.storeBits x).host = s.host := rfl
@[simp] theorem State.storeBits_resp (s : State) (x : Bits) :
    (s.storeBits x).resp = s.resp := rfl
@[simp] theorem State.storeBits_hold (s : State) (x : Bits) :
    (s.storeBits x).hold = s.hold := rfl
@[simp] theorem State.storeBits_draws (s : State) (x : Bits) :
    (s.storeBits x).draws = s.draws := rfl


/-! ### `State.storeGrid` -/

@[simp] theorem State.storeGrid_irqEn (s : State) (g : Grid) :
    (s.storeGrid g).irqEn = s.irqEn := rfl
@[simp] theorem State.storeGrid_done (s : State) (g : Grid) :
    (s.storeGrid g).done = s.done := rfl
@[simp] theorem State.storeGrid_err (s : State) (g : Grid) :
    (s.storeGrid g).err = s.err := rfl
@[simp] theorem State.storeGrid_cmdDropped (s : State) (g : Grid) :
    (s.storeGrid g).cmdDropped = s.cmdDropped := rfl
@[simp] theorem State.storeGrid_pstage (s : State) (g : Grid) :
    (s.storeGrid g).pstage = s.pstage := rfl
@[simp] theorem State.storeGrid_trialDone (s : State) (g : Grid) :
    (s.storeGrid g).trialDone = s.trialDone := rfl
@[simp] theorem State.storeGrid_errCode (s : State) (g : Grid) :
    (s.storeGrid g).errCode = s.errCode := rfl
@[simp] theorem State.storeGrid_errInfo (s : State) (g : Grid) :
    (s.storeGrid g).errInfo = s.errInfo := rfl
@[simp] theorem State.storeGrid_mode (s : State) (g : Grid) :
    (s.storeGrid g).mode = s.mode := rfl
@[simp] theorem State.storeGrid_ecl (s : State) (g : Grid) :
    (s.storeGrid g).ecl = s.ecl := rfl
@[simp] theorem State.storeGrid_inLen (s : State) (g : Grid) :
    (s.storeGrid g).inLen = s.inLen := rfl
@[simp] theorem State.storeGrid_charCount (s : State) (g : Grid) :
    (s.storeGrid g).charCount = s.charCount := rfl
@[simp] theorem State.storeGrid_rawLen (s : State) (g : Grid) :
    (s.storeGrid g).rawLen = s.rawLen := rfl
@[simp] theorem State.storeGrid_version (s : State) (g : Grid) :
    (s.storeGrid g).version = s.version := rfl
@[simp] theorem State.storeGrid_selLevel (s : State) (g : Grid) :
    (s.storeGrid g).selLevel = s.selLevel := rfl
@[simp] theorem State.storeGrid_size (s : State) (g : Grid) :
    (s.storeGrid g).size = s.size := rfl
@[simp] theorem State.storeGrid_capBits (s : State) (g : Grid) :
    (s.storeGrid g).capBits = s.capBits := rfl
@[simp] theorem State.storeGrid_streamLen (s : State) (g : Grid) :
    (s.storeGrid g).streamLen = s.streamLen := rfl
@[simp] theorem State.storeGrid_numBlocks (s : State) (g : Grid) :
    (s.storeGrid g).numBlocks = s.numBlocks := rfl
@[simp] theorem State.storeGrid_ecLen (s : State) (g : Grid) :
    (s.storeGrid g).ecLen = s.ecLen := rfl
@[simp] theorem State.storeGrid_blkShort (s : State) (g : Grid) :
    (s.storeGrid g).blkShort = s.blkShort := rfl
@[simp] theorem State.storeGrid_blkNlong (s : State) (g : Grid) :
    (s.storeGrid g).blkNlong = s.blkNlong := rfl
@[simp] theorem State.storeGrid_totalCw (s : State) (g : Grid) :
    (s.storeGrid g).totalCw = s.totalCw := rfl
@[simp] theorem State.storeGrid_freeCells (s : State) (g : Grid) :
    (s.storeGrid g).freeCells = s.freeCells := rfl
@[simp] theorem State.storeGrid_placedBits (s : State) (g : Grid) :
    (s.storeGrid g).placedBits = s.placedBits := rfl
@[simp] theorem State.storeGrid_bestMask (s : State) (g : Grid) :
    (s.storeGrid g).bestMask = s.bestMask := rfl
@[simp] theorem State.storeGrid_bestScore (s : State) (g : Grid) :
    (s.storeGrid g).bestScore = s.bestScore := rfl
@[simp] theorem State.storeGrid_scoreN (s : State) (g : Grid) :
    (s.storeGrid g).scoreN = s.scoreN := rfl
@[simp] theorem State.storeGrid_rsK (s : State) (g : Grid) :
    (s.storeGrid g).rsK = s.rsK := rfl
@[simp] theorem State.storeGrid_rsLen (s : State) (g : Grid) :
    (s.storeGrid g).rsLen = s.rsLen := rfl
@[simp] theorem State.storeGrid_scores (s : State) (g : Grid) :
    (s.storeGrid g).scores = s.scores := rfl
@[simp] theorem State.storeGrid_penalty (s : State) (g : Grid) :
    (s.storeGrid g).penalty = s.penalty := rfl
@[simp] theorem State.storeGrid_pending (s : State) (g : Grid) :
    (s.storeGrid g).pending = s.pending := rfl
@[simp] theorem State.storeGrid_mem (s : State) (g : Grid) :
    (s.storeGrid g).mem = Memory.write (gridCells 0 g) s.mem := rfl
@[simp] theorem State.storeGrid_host (s : State) (g : Grid) :
    (s.storeGrid g).host = s.host := rfl
@[simp] theorem State.storeGrid_resp (s : State) (g : Grid) :
    (s.storeGrid g).resp = s.resp := rfl
@[simp] theorem State.storeGrid_hold (s : State) (g : Grid) :
    (s.storeGrid g).hold = s.hold := rfl
@[simp] theorem State.storeGrid_draws (s : State) (g : Grid) :
    (s.storeGrid g).draws = s.draws := rfl


/-! ### `State.writeWindow` -/

@[simp] theorem State.writeWindow_irqEn (s : State) (a : Nat) (n : AccSize) (v : Word) :
    (s.writeWindow a n v).irqEn = s.irqEn := rfl
@[simp] theorem State.writeWindow_done (s : State) (a : Nat) (n : AccSize) (v : Word) :
    (s.writeWindow a n v).done = s.done := rfl
@[simp] theorem State.writeWindow_err (s : State) (a : Nat) (n : AccSize) (v : Word) :
    (s.writeWindow a n v).err = s.err := rfl
@[simp] theorem State.writeWindow_cmdDropped (s : State) (a : Nat) (n : AccSize) (v : Word) :
    (s.writeWindow a n v).cmdDropped = s.cmdDropped := rfl
@[simp] theorem State.writeWindow_pstage (s : State) (a : Nat) (n : AccSize) (v : Word) :
    (s.writeWindow a n v).pstage = s.pstage := rfl
@[simp] theorem State.writeWindow_trialDone (s : State) (a : Nat) (n : AccSize) (v : Word) :
    (s.writeWindow a n v).trialDone = s.trialDone := rfl
@[simp] theorem State.writeWindow_errCode (s : State) (a : Nat) (n : AccSize) (v : Word) :
    (s.writeWindow a n v).errCode = s.errCode := rfl
@[simp] theorem State.writeWindow_errInfo (s : State) (a : Nat) (n : AccSize) (v : Word) :
    (s.writeWindow a n v).errInfo = s.errInfo := rfl
@[simp] theorem State.writeWindow_mode (s : State) (a : Nat) (n : AccSize) (v : Word) :
    (s.writeWindow a n v).mode = s.mode := rfl
@[simp] theorem State.writeWindow_ecl (s : State) (a : Nat) (n : AccSize) (v : Word) :
    (s.writeWindow a n v).ecl = s.ecl := rfl
@[simp] theorem State.writeWindow_inLen (s : State) (a : Nat) (n : AccSize) (v : Word) :
    (s.writeWindow a n v).inLen = s.inLen := rfl
@[simp] theorem State.writeWindow_charCount (s : State) (a : Nat) (n : AccSize) (v : Word) :
    (s.writeWindow a n v).charCount = s.charCount := rfl
@[simp] theorem State.writeWindow_rawLen (s : State) (a : Nat) (n : AccSize) (v : Word) :
    (s.writeWindow a n v).rawLen = s.rawLen := rfl
@[simp] theorem State.writeWindow_version (s : State) (a : Nat) (n : AccSize) (v : Word) :
    (s.writeWindow a n v).version = s.version := rfl
@[simp] theorem State.writeWindow_selLevel (s : State) (a : Nat) (n : AccSize) (v : Word) :
    (s.writeWindow a n v).selLevel = s.selLevel := rfl
@[simp] theorem State.writeWindow_size (s : State) (a : Nat) (n : AccSize) (v : Word) :
    (s.writeWindow a n v).size = s.size := rfl
@[simp] theorem State.writeWindow_capBits (s : State) (a : Nat) (n : AccSize) (v : Word) :
    (s.writeWindow a n v).capBits = s.capBits := rfl
@[simp] theorem State.writeWindow_streamLen (s : State) (a : Nat) (n : AccSize) (v : Word) :
    (s.writeWindow a n v).streamLen = s.streamLen := rfl
@[simp] theorem State.writeWindow_numBlocks (s : State) (a : Nat) (n : AccSize) (v : Word) :
    (s.writeWindow a n v).numBlocks = s.numBlocks := rfl
@[simp] theorem State.writeWindow_ecLen (s : State) (a : Nat) (n : AccSize) (v : Word) :
    (s.writeWindow a n v).ecLen = s.ecLen := rfl
@[simp] theorem State.writeWindow_blkShort (s : State) (a : Nat) (n : AccSize) (v : Word) :
    (s.writeWindow a n v).blkShort = s.blkShort := rfl
@[simp] theorem State.writeWindow_blkNlong (s : State) (a : Nat) (n : AccSize) (v : Word) :
    (s.writeWindow a n v).blkNlong = s.blkNlong := rfl
@[simp] theorem State.writeWindow_totalCw (s : State) (a : Nat) (n : AccSize) (v : Word) :
    (s.writeWindow a n v).totalCw = s.totalCw := rfl
@[simp] theorem State.writeWindow_freeCells (s : State) (a : Nat) (n : AccSize) (v : Word) :
    (s.writeWindow a n v).freeCells = s.freeCells := rfl
@[simp] theorem State.writeWindow_placedBits (s : State) (a : Nat) (n : AccSize) (v : Word) :
    (s.writeWindow a n v).placedBits = s.placedBits := rfl
@[simp] theorem State.writeWindow_bestMask (s : State) (a : Nat) (n : AccSize) (v : Word) :
    (s.writeWindow a n v).bestMask = s.bestMask := rfl
@[simp] theorem State.writeWindow_bestScore (s : State) (a : Nat) (n : AccSize) (v : Word) :
    (s.writeWindow a n v).bestScore = s.bestScore := rfl
@[simp] theorem State.writeWindow_scoreN (s : State) (a : Nat) (n : AccSize) (v : Word) :
    (s.writeWindow a n v).scoreN = s.scoreN := rfl
@[simp] theorem State.writeWindow_rsK (s : State) (a : Nat) (n : AccSize) (v : Word) :
    (s.writeWindow a n v).rsK = s.rsK := rfl
@[simp] theorem State.writeWindow_rsLen (s : State) (a : Nat) (n : AccSize) (v : Word) :
    (s.writeWindow a n v).rsLen = s.rsLen := rfl
@[simp] theorem State.writeWindow_scores (s : State) (a : Nat) (n : AccSize) (v : Word) :
    (s.writeWindow a n v).scores = s.scores := rfl
@[simp] theorem State.writeWindow_penalty (s : State) (a : Nat) (n : AccSize) (v : Word) :
    (s.writeWindow a n v).penalty = s.penalty := rfl
@[simp] theorem State.writeWindow_pending (s : State) (a : Nat) (n : AccSize) (v : Word) :
    (s.writeWindow a n v).pending = s.pending := rfl
@[simp] theorem State.writeWindow_host (s : State) (a : Nat) (n : AccSize) (v : Word) :
    (s.writeWindow a n v).host = s.host := rfl
@[simp] theorem State.writeWindow_resp (s : State) (a : Nat) (n : AccSize) (v : Word) :
    (s.writeWindow a n v).resp = s.resp := rfl
@[simp] theorem State.writeWindow_hold (s : State) (a : Nat) (n : AccSize) (v : Word) :
    (s.writeWindow a n v).hold = s.hold := rfl
@[simp] theorem State.writeWindow_draws (s : State) (a : Nat) (n : AccSize) (v : Word) :
    (s.writeWindow a n v).draws = s.draws := rfl

/-! ### The host's queue -/

/-- Taking an action off the queue changes nothing else that the engine or the host reads. -/
@[simp] theorem State.host_update_at (s : State) (q : List HostAction) (a : Nat) :
    State.at { s with host := q } a = s.at a := rfl

@[simp] theorem State.complete_at (s : State) (a : Nat) : s.complete.at a = s.at a := rfl

@[simp] theorem State.fail_at (s : State) (i : Instr) (e : ErrCode) (x : Word) (a : Nat) :
    (s.fail i e x).at a = s.at a := rfl

@[simp] theorem State.rejectWord_at (s : State) (w : Word) (a : Nat) :
    (s.rejectWord w).at a = s.at a := rfl

@[simp] theorem State.accept_at (s : State) (w : Word) (n a : Nat) : (s.accept w n).at a = s.at a := rfl

@[simp] theorem State.respond_at (s : State) (ok : Bool) (x : Word) (a : Nat) :
    (s.respond ok x).at a = s.at a := rfl

end Sys2Proof.Machine
end

