-- ==== Sys2Proof/Laws/Ops.lean ====
section
/-! SUPPORT. The shared operations: what a command does around its family rule, what a sequence of
sub-commands does, and that every operation over memory, the engine's and the host's, keeps the canonical
form. -/

namespace Sys2Proof.Machine

/-! ### Commands -/

/-- The stage check is the stage column of the table, and the eight masks for COMMIT. -/
theorem stageOk_iff (s : State) (i : Instr) : stageOk s i = true ↔ mayStart i s := by
  cases i <;> simp [stageOk, mayStart, stagesBefore]

/-- A command in its stage is its family rule and the completion. -/
theorem runCommand_of_mayStart {i : Instr} {s : State} (h : mayStart i s) (body : State → Perf) :
    runCommand i body s = (body s).finish := by
  rw [runCommand, staged, if_pos ((stageOk_iff s i).2 h)]

/-- A command out of its stage fails with E_SEQUENCE. -/
theorem runCommand_of_not_mayStart {i : Instr} {s : State} (h : ¬ mayStart i s) (body : State → Perf) :
    runCommand i body s = .next (s.fail i .sequence (sequenceInfo s i)).complete := by
  rw [runCommand, staged, if_neg (by rw [stageOk_iff]; exact h)]; rfl

/-- How a command that answers a next state ended. -/
theorem finish_eq_next_iff (p : Perf) (u : State) :
    p.finish = .next u ↔ ∃ s, (p = .ok s ∨ p = .failed s) ∧ u = s.complete := by
  cases p <;> simp [Perf.finish, eq_comm]

/-- How a command that stops ended. -/
theorem finish_eq_fault_iff (p : Perf) (f : Fault) : p.finish = .fault f ↔ p = .stopped f := by
  cases p <;> simp [Perf.finish]

theorem finish_ne_refused (p : Perf) (r : Refusal) : p.finish ≠ .refused r := by
  cases p <;> simp [Perf.finish]

/-- Every command is a family rule behind its stage check. -/
theorem exec_eq_runCommand (i : Instr) (s : State) :
    exec i s = runCommand i
      (match i with
        | .nop => performNop
        | .encode => performEncode
        | .select => performSelect standardTables
        | .pad => performPad
        | .ecgen => performEcgen standardTables
        | .interleave => performInterleave
        | .build => performBuild standardTables
        | .trial m => performTrial standardTables m
        | .commit => performCommit standardTables
        | .score => performScore
        | .runRaw => performRunRaw standardTables
        | .run => performRun standardTables
        | .rsRaw => performRsRaw standardTables) s := by
  cases i <;> rfl

theorem exec_ne_refused (i : Instr) (s : State) (r : Refusal) : exec i s ≠ .refused r := by
  rw [exec_eq_runCommand]; exact finish_ne_refused _ r

/-- A sequence of sub-commands succeeds step by step. -/
theorem performAll_cons_ok {p : State → Perf} {ps : List (State → Perf)} {s t : State} (h : p s = .ok t) :
    performAll (p :: ps) s = performAll ps t := by simp [performAll, h]

/-- A sequence of sub-commands ends with the first that fails. -/
theorem performAll_cons_failed {p : State → Perf} {ps : List (State → Perf)} {s t : State}
    (h : p s = .failed t) : performAll (p :: ps) s = .failed t := by simp [performAll, h]

/-- A sequence of sub-commands stops with the first that stops. -/
theorem performAll_cons_stopped {p : State → Perf} {ps : List (State → Perf)} {s : State} {f : Fault}
    (h : p s = .stopped f) : performAll (p :: ps) s = .stopped f := by simp [performAll, h]

/-- What holds at the start and is kept by every successful sub-command holds after a successful
sequence. -/
theorem performAll_ok {P : State → Prop} {ps : List (State → Perf)}
    (hp : ∀ p ∈ ps, ∀ s t, P s → p s = .ok t → P t) {s t : State} (hs : P s)
    (h : performAll ps s = .ok t) : P t := by
  induction ps generalizing s with
  | nil => simp only [performAll, Perf.ok.injEq] at h; exact h ▸ hs
  | cons p ps ih =>
    rw [performAll] at h
    cases hps : p s with
    | ok s' =>
      rw [hps] at h
      exact ih (fun q hq => hp q (by simp [hq])) (hp p (by simp) s s' hs hps) h
    | failed s' => simp [hps] at h
    | stopped f => simp [hps] at h

/-! ### Memory keeps its canonical form -/

theorem wf_reset : Memory.wf State.reset.mem := Memory.wf_nil

theorem wf_scrambleBuf {s : State} (hm : Memory.wf s.mem) (b : Buf) : Memory.wf (s.scrambleBuf b).mem :=
  wf_writeBuf hm b (by simp)

theorem square_scrambled (s : State) (keep : Bool) (n : Nat) :
    Grid.square n ((List.range n).map fun r => (List.range n).map fun c => s.scrambledCell keep r c) :=
  ⟨by simp, fun row h => by
    obtain ⟨r, _, rfl⟩ := List.mem_map.1 h
    simp⟩

theorem wf_scrambleMat {s : State} (hm : Memory.wf s.mem) (keep : Bool) :
    Memory.wf (s.scrambleMat keep).mem :=
  wf_storeGrid (le_refl Config.sMax) hm (square_scrambled s keep Config.sMax)

theorem wf_abandon {s : State} (hm : Memory.wf s.mem) (i : Instr) : Memory.wf (s.abandon i).mem := by
  have hf : ∀ (l : List Buf) (s : State), Memory.wf s.mem →
      Memory.wf (l.foldl State.scrambleBuf s).mem := by
    intro l
    induction l with
    | nil => exact fun _ h => h
    | cons b l ih => exact fun s h => ih _ (wf_scrambleBuf h b)
  have := hf (bufsWritten i) s hm
  rw [State.abandon]
  split
  · exact this
  · exact wf_scrambleMat this true
  · exact wf_scrambleMat this false

theorem wf_softReset {s : State} (hm : Memory.wf s.mem) : Memory.wf s.softReset.mem := by
  rw [State.softReset]
  split
  · exact hm
  · split
    · exact wf_abandon hm _
    · exact hm

theorem wf_hardReset (s : State) : Memory.wf s.hardReset.mem := Memory.wf_nil

theorem cellOk_hostEntry {s : State} {a : Nat} {b : Byte} {e : Host.Cell}
    (h : s.hostEntry a b = some e) : e.1 = a ∧ cellOk e = true := by
  unfold State.hostEntry at h
  split at h
  · rename_i hb
    cases h
    exact ⟨rfl, by simp [cellOk, hb]⟩
  · split at h
    · rename_i hc
      cases h
      have hlt : (b &&& 3#8).toNat < 4 := by
        have h1 : (b &&& 3#8).toNat = b.toNat &&& 3 := by simp
        have h2 : b.toNat &&& 3 ≤ 3 := Nat.and_le_right
        omega
      have hcell : isCell a = true := by simp at hc; exact hc.1
      exact ⟨rfl, by simp only [cellOk, hcell, hlt]; simp⟩
    · simp at h

theorem wf_hostEntries (s : State) (a : Nat) (f : Nat → Byte) (n k : Nat) :
    Memory.wf ((List.range' k n).filterMap fun i => s.hostEntry (a + i) (f i)) := by
  induction n generalizing k with
  | zero => exact Memory.wf_nil
  | succ n ih =>
    obtain ⟨h1, h2⟩ := ih (k + 1)
    rw [List.range'_succ, List.filterMap_cons]
    cases he : s.hostEntry (a + k) (f k) with
    | none => exact ⟨h1, h2⟩
    | some e =>
      obtain ⟨e1, e2⟩ := cellOk_hostEntry he
      refine ⟨List.pairwise_cons.2 ⟨fun y hy => ?_, h1⟩, fun y hy => ?_⟩
      · obtain ⟨i, hi, hy⟩ := List.mem_filterMap.1 hy
        have := (cellOk_hostEntry hy).1
        simp only [List.mem_range'_1] at hi
        omega
      · rcases List.mem_cons.1 hy with rfl | hy
        · exact e2
        · exact h2 y hy

/-- A host write to a buffer or the MAT window keeps the canonical form. -/
theorem wf_writeWindow {s : State} (hm : Memory.wf s.mem) (a : Nat) (n : AccSize) (v : Word) :
    Memory.wf (s.writeWindow a n v).mem := by
  have := wf_hostEntries s a (fun i => v.extractLsb' (8 * i) 8) n.bytes 0
  rw [← List.range_eq_range'] at this
  exact Memory.wf_write this hm

theorem wf_writeRegister {s : State} (hm : Memory.wf s.mem) (off : Nat) (v : Word) :
    Memory.wf (s.writeRegister off v).mem := by
  rw [State.writeRegister]
  split
  · exact hm
  · rw [State.writeCtrl]
    split
    · exact wf_softReset hm
    · exact hm
  · exact hm
  · rw [State.issue]
    split <;> exact hm
  · split
    · exact hm
    · rename_i r _ _ _ _ _
      cases r <;> exact hm

/-- A host write keeps the canonical form. -/
theorem wf_hostWrite {s : State} (hm : Memory.wf s.mem) (a : BusAddr) (n : AccSize) (v : Word) :
    Memory.wf (s.hostWrite a n v).mem := by
  simp only [State.hostWrite]
  split
  · split
    · exact hm
    · exact wf_writeRegister hm _ v
  · split
    · exact hm
    · split
      · exact hm
      · split
        · exact hm
        · exact wf_writeWindow hm _ n v

/-- The host's turn keeps the canonical form. -/
theorem wf_hostTurn {s : State} (hm : Memory.wf s.mem) : Memory.wf s.hostTurn.mem := by
  rw [State.hostTurn]
  split
  · exact hm
  · exact hm
  · rename_i q _
    exact wf_hostWrite (s := { s with host := q }) hm _ _ _
  · dsimp only
    split <;> exact hm
  · exact wf_hardReset _

end Sys2Proof.Machine
end

