-- ==== Sys2Proof/Laws/PerInstr.lean ====
section
/-! SUPPORT. Statements about every command as syntax, one lemma for each constructor of `Instr`. -/

namespace Sys2Proof.Laws.Fields

/-- The fields of the command's word (30_encoding.md R101): OPC and MARG are the command's, RSV is 0, and MARG
is 0 but in TRIAL. -/
def Statement (i : Instr) : Prop :=
  opcField (encode i) = opcodeOf i ∧ margField (encode i) = margOf i ∧ rsvField (encode i) = 0#21
    ∧ ((∀ m, i ≠ .trial m) → margOf i = 0#3)

theorem nop : Statement .nop := by refine ⟨?_, ?_, ?_, fun _ => rfl⟩ <;> decide

theorem encode : Statement .encode := by refine ⟨?_, ?_, ?_, fun _ => rfl⟩ <;> decide

theorem select : Statement .select := by refine ⟨?_, ?_, ?_, fun _ => rfl⟩ <;> decide

theorem pad : Statement .pad := by refine ⟨?_, ?_, ?_, fun _ => rfl⟩ <;> decide

theorem ecgen : Statement .ecgen := by refine ⟨?_, ?_, ?_, fun _ => rfl⟩ <;> decide

theorem interleave : Statement .interleave := by refine ⟨?_, ?_, ?_, fun _ => rfl⟩ <;> decide

theorem build : Statement .build := by refine ⟨?_, ?_, ?_, fun _ => rfl⟩ <;> decide

theorem trial (m : Fin 8) : Statement (.trial m) := by
  refine ⟨?_, ?_, ?_, fun h => absurd rfl (h m)⟩ <;> revert m <;> decide

theorem commit : Statement .commit := by refine ⟨?_, ?_, ?_, fun _ => rfl⟩ <;> decide

theorem score : Statement .score := by refine ⟨?_, ?_, ?_, fun _ => rfl⟩ <;> decide

theorem runRaw : Statement .runRaw := by refine ⟨?_, ?_, ?_, fun _ => rfl⟩ <;> decide

theorem run : Statement .run := by refine ⟨?_, ?_, ?_, fun _ => rfl⟩ <;> decide

theorem rsRaw : Statement .rsRaw := by refine ⟨?_, ?_, ?_, fun _ => rfl⟩ <;> decide

end Sys2Proof.Laws.Fields
end

