-- ==== Sys2Proof/Laws/Tables.lean ====
section
/-! SUPPORT. The standard tables: their domains, the bounds of their entries, and that the division engine, on
them, never misses a lookup and answers k bytes. -/

namespace Sys2Proof.Machine

theorem versionRow_none {α : Type} (rows : List (List α)) (v : Nat) (h : v = 0 ∨ rows.length < v) :
    versionRow rows v = none := by
  unfold versionRow
  split
  · rfl
  · rw [List.getElem?_eq_none (by omega)]

/-- The capacity table over its domain: each entry is a multiple of 8, from 72 to 23648. -/
theorem stdCap_table : ∀ v < 41, ∀ l < 4, 1 ≤ v →
    ∃ c, stdCap v l = some c ∧ c % 8 = 0 ∧ 72 ≤ c ∧ c ≤ 23648 := by decide +kernel

/-- No row of the capacity table has more than four columns. -/
theorem stdCap_level : ∀ v < 41, ∀ l, 4 ≤ l → stdCap v l = none := by
  intro v hv l hl
  have hrow : ∀ v < 41, ∀ row, versionRow dataCodewordRows v = some row → row.length ≤ 4 := by
    intro v hv row h
    have : ∀ v < 41, ((versionRow dataCodewordRows v).getD []).length ≤ 4 := by decide +kernel
    have := this v hv
    rwa [h] at this
  rw [stdCap]
  cases h : versionRow dataCodewordRows v with
  | none => rfl
  | some row =>
    have := hrow v hv row h
    simp [List.getElem?_eq_none (show row.length ≤ l by omega)]

/-- The domain of CAP, and the bounds of its entries. -/
theorem stdCap_some {v l c : Nat} (h : stdCap v l = some c) :
    1 ≤ v ∧ v ≤ 40 ∧ l < 4 ∧ c % 8 = 0 ∧ 72 ≤ c ∧ c ≤ 23648 := by
  have hlen : dataCodewordRows.length = 40 := by decide +kernel
  have hv : ¬ (v = 0 ∨ dataCodewordRows.length < v) := fun hn => by
    rw [stdCap, versionRow_none _ _ hn] at h; simp at h
  rw [hlen] at hv
  have hl : l < 4 := by
    by_contra hc
    rw [stdCap_level v (by omega) l (by omega)] at h; simp at h
  obtain ⟨d, h1, h2⟩ := stdCap_table v (by omega) l hl (by omega)
  rw [h] at h1
  cases h1
  exact ⟨by omega, by omega, hl, h2⟩

/-- CAP rises with the version. -/
theorem stdCap_rises : ∀ v < 40, ∀ l < 4, 1 ≤ v →
    (stdCap v l).getD 0 < (stdCap (v + 1) l).getD 0 := by decide +kernel

/-- The block table over CAP's domain: the numbers of blocks and of correction codewords per block. -/
theorem stdNb_table (v : Nat) (hv : v < 41) (l : Nat) (hl : l < 4) (h1 : 1 ≤ v) :
    ∃ n k, stdNb v l = some n ∧ stdEcb v l = some k ∧ 1 ≤ n ∧ n ≤ 81 ∧ 7 ≤ k ∧ k ≤ 30 := by
  have : ∀ v < 41, ∀ l < 4, 1 ≤ v →
      (stdNb v l).any (fun n => decide (1 ≤ n ∧ n ≤ 81)) = true
        ∧ (stdEcb v l).any (fun k => decide (7 ≤ k ∧ k ≤ 30)) = true := by decide +kernel
  obtain ⟨hn, hk⟩ := this v hv l hl h1
  cases h2 : stdNb v l with
  | none => simp [h2] at hn
  | some n =>
    cases h3 : stdEcb v l with
    | none => simp [h3] at hk
    | some k =>
      simp [h2] at hn; simp [h3] at hk
      exact ⟨n, k, rfl, rfl, hn.1, hn.2, hk.1, hk.2⟩

/-- The total number of codewords of a version fits FBUF. -/
theorem stdTotal_table : ∀ v < 41, ∀ l < 4, 1 ≤ v →
    (stdCap v l).getD 0 / 8 + (stdNb v l).getD 0 * (stdEcb v l).getD 0 ≤ 3706 := by decide +kernel

/-- GEN has an entry of k exponents for every k of 7 to 68. -/
theorem stdGen_table : ∀ k < 69, 7 ≤ k → ∃ gen, stdGen k = some gen ∧ gen.length = k := by
  decide +kernel

theorem stdGen_some {k : Nat} {gen : List Nat} (h : stdGen k = some gen) :
    7 ≤ k ∧ k ≤ 68 ∧ gen.length = k := by
  have hk : 7 ≤ k ∧ k ≤ 68 := by
    unfold stdGen at h
    split at h
    · assumption
    · simp at h
  obtain ⟨g, h1, h2⟩ := stdGen_table k (by omega) hk.1
  rw [h] at h1
  cases h1
  exact ⟨hk.1, hk.2, h2⟩

/-- The format codes of every level and mask exist. -/
theorem stdFcode_table : ∀ l < 4, ∀ m < 8, ∃ f, stdFcode l m = some f ∧ f < 2 ^ 15 := by decide +kernel

/-! ### EXP and LOG -/

/-- EXP is defined on 0 .. 254. -/
theorem gfExp_isSome : ∀ i < 255, (gfExp i).isSome = true := by decide +kernel

/-- EXP is missing from 255 on. -/
theorem gfExp_none {i : Nat} (h : 255 ≤ i) : gfExp i = none := by
  have hlast : gfExpRows[15]? = some ((gfExpRows[15]?).getD []) := by decide +kernel
  have hlen : ((gfExpRows[15]?).getD []).length = 15 := by decide +kernel
  have hrows : gfExpRows.length = 16 := by decide +kernel
  unfold gfExp
  by_cases h2 : i < 256
  · obtain rfl : i = 255 := by omega
    rw [show 255 / 16 = 15 from rfl, hlast]
    simp [List.getElem?_eq_none (show ((gfExpRows[15]?).getD []).length ≤ 255 % 16 by omega)]
  · simp [List.getElem?_eq_none (show gfExpRows.length ≤ i / 16 by omega)]

/-- LOG is defined on 1 .. 255. -/
theorem gfLog_isSome {b : Byte} (h : b ≠ 0#8) : ∃ i, gfLog b = some i ∧ i < 255 := by
  have key : ∀ n < 256, n ≠ 0 → (gfLog (BitVec.ofNat 8 n)).any (fun i => decide (i < 255)) = true := by
    decide +kernel
  have hb := key b.toNat b.isLt fun hn => h (BitVec.eq_of_toNat_eq (by simpa using hn))
  rw [BitVec.ofNat_toNat, BitVec.setWidth_eq] at hb
  cases hl : gfLog b with
  | none => simp [hl] at hb
  | some i => exact ⟨i, rfl, by simpa [hl] using hb⟩

/-- `EXP[n mod 255]` is α^n, on the standard record. -/
theorem expAt_standard (n : Nat) : expAt standardTables (n % 255) = .ok (alphaPow n) := by
  have h := gfExp_isSome (n % 255) (Nat.mod_lt _ (by decide))
  rw [Option.isSome_iff_exists] at h
  obtain ⟨b, hb⟩ := h
  rw [expAt, alphaPow, show standardTables.exp = gfExp from rfl, hb]
  rfl

/-- A logarithm of a value that is not 0 never misses, on the standard record. -/
theorem logAt_standard {b : Byte} (h : b ≠ 0#8) :
    ∃ i, gfLog b = some i ∧ logAt standardTables b = .ok i := by
  obtain ⟨i, hi, _⟩ := gfLog_isSome h
  exact ⟨i, hi, by rw [logAt, show standardTables.log = gfLog from rfl, hi]⟩

/-- GEN of the standard record: every entry has its k exponents. -/
theorem genOf_standard (k : Nat) : genOf standardTables k = stdGen k := by
  rw [genOf, show standardTables.gen = stdGen from rfl]
  cases h : stdGen k with
  | none => rfl
  | some gen => simp [(stdGen_some h).2.2]

/-! ### The division engine -/

/-- Adding the scaled generator, on the standard record: no lookup misses. -/
theorem addScaled_standard (lf : Nat) (xs : List Byte) (gs : List Nat) :
    addScaled standardTables lf xs gs = .ok (List.zipWith (fun x g => x ^^^ alphaPow (g + lf)) xs gs) := by
  induction xs generalizing gs with
  | nil => rfl
  | cons x xs ih =>
    cases gs with
    | nil => rfl
    | cons g gs => rw [addScaled, expAt_standard, ih]; rfl

/-- One step of the division engine, on the standard record: it answers a buffer of the same length. -/
theorem rsStep_standard {gen : List Nat} {k : Nat} (hk : 1 ≤ k) (hg : gen.length = k) {buf : List Byte}
    (hb : buf.length = k) (d : Byte) :
    ∃ buf', rsStep standardTables gen buf d = .ok buf' ∧ buf'.length = k := by
  have hs : (buf.tail ++ [0#8]).length = k := by
    rw [List.length_append, List.length_tail, hb]
    simp only [List.length_cons, List.length_nil]; omega
  unfold rsStep
  by_cases hf : d ^^^ buf.headD 0#8 = 0#8
  · exact ⟨_, if_pos hf, hs⟩
  · obtain ⟨i, _, hl⟩ := logAt_standard hf
    refine ⟨List.zipWith (fun x g => x ^^^ alphaPow (g + i)) (buf.tail ++ [0#8]) gen, ?_, ?_⟩
    · dsimp only
      rw [if_neg hf, hl]
      exact addScaled_standard i _ gen
    · rw [List.length_zipWith, hs, hg, Nat.min_self]

theorem rsSteps_standard {gen : List Nat} {k : Nat} (hk : 1 ≤ k) (hg : gen.length = k)
    (data : List Byte) {buf : List Byte} (hb : buf.length = k) :
    ∃ e, rsSteps standardTables gen buf data = .ok e ∧ e.length = k := by
  induction data generalizing buf with
  | nil => exact ⟨buf, rfl, hb⟩
  | cons d data ih =>
    obtain ⟨buf', h1, h2⟩ := rsStep_standard hk hg hb d
    rw [rsSteps, h1]
    exact ih h2

/-- The division engine answers k bytes, on the standard record. -/
theorem rsDiv_standard {gen : List Nat} {k : Nat} (hg : gen.length = k) (hk : 1 ≤ k) (data : List Byte) :
    ∃ e, rsDiv standardTables gen k data = .ok e ∧ e.length = k :=
  rsSteps_standard hk hg data (List.length_replicate ..)

/-- The correction blocks, on the standard record: one of k bytes for each data block, in order. -/
theorem divideBlocks_standard {gen : List Nat} {k : Nat} (hg : gen.length = k) (hk : 1 ≤ k)
    (blocks : List (List Byte)) :
    ∃ es : List (List Byte), divideBlocks standardTables gen k blocks = .ok es.flatten
      ∧ List.Forall₂ (fun d e => rsDiv standardTables gen k d = .ok e ∧ e.length = k) blocks es := by
  induction blocks with
  | nil => exact ⟨[], rfl, .nil⟩
  | cons d ds ih =>
    obtain ⟨e, h1, h2⟩ := rsDiv_standard hg hk d
    obtain ⟨es, h3, h4⟩ := ih
    exact ⟨e :: es, by rw [divideBlocks, h1, h3]; rfl, .cons ⟨h1, h2⟩ h4⟩

end Sys2Proof.Machine
end

