-- ==== Sys2Proof/Tests/Slice0.lean ====
section
/-! SUPPORT. Tests. Expected results are those of the spec (95_test_vectors.md and the rules' own examples).
Then one witness for each clause of each statement that has hypotheses: concrete data that meet them all. -/

namespace Sys2Proof.Tests

set_option Elab.async false

open Sys2Proof Sys2Proof.Machine

/-! ### Small states -/

/-- A state with bytes from an address on. -/
def put (s : State) (a : Nat) (bs : List Nat) : State :=
  { s with mem := Memory.write (cellsFrom a (bs.map fun n => BitVec.ofNat 8 n)) s.mem }

/-- The bytes at an address. -/
def peek (s : State) (a n : Nat) : List (Option Nat) :=
  (List.range n).map fun i => (s.at (a + i)).map BitVec.toNat

/-- The outcome is a next state with the property. -/
def next (o : Host.Outcome State Fault Refusal) (p : State → Bool) : Bool :=
  match o with
  | .next u => p u
  | .fault _ => false
  | .refused _ => false

theorem exists_of_next {o : Host.Outcome State Fault Refusal} {p : State → Bool} (h : next o p = true) :
    ∃ u, o = .next u ∧ p u = true := by
  cases o with
  | next u => exact ⟨u, rfl, h⟩
  | fault f => simp [next] at h
  | refused r => simp [next] at h

/-- The command ends with the error and its ERRINFO. -/
def failsWith (o : Host.Outcome State Fault Refusal) (e : ErrCode) (info : Word) : Bool :=
  next o fun u => u.errCode == e && u.errInfo == info && u.err && u.done && !u.busy

/-! ### Well-formedness: each check of R7 refuses an ill-formed table -/

theorem test_standard_tables_wf : standardTables.wf = true := by decide +kernel

theorem test_wf_refuses_odd_capacity :
    ({ standardTables with cap := fun _ _ => some 151 } : Tables).wf = false := by decide +kernel

theorem test_wf_refuses_large_capacity :
    ({ standardTables with cap := fun _ _ => some 65544 } : Tables).capOk 1 0 = false := by decide

theorem test_wf_refuses_no_blocks :
    ({ standardTables with nb := fun _ _ => some 0 } : Tables).wf = false := by decide +kernel

theorem test_wf_refuses_many_corrections :
    ({ standardTables with ecb := fun _ _ => some 5000 } : Tables).ebufOk 1 0 = false := by decide +kernel

theorem test_wf_refuses_long_stream :
    ({ standardTables with cap := fun _ _ => some 32768 } : Tables).fbufOk 1 0 = false := by
  decide +kernel

theorem test_wf_refuses_pattern_outside :
    ({ standardTables with apos := fun _ => some [6, 19] } : Tables).alignOk 1 = false := by decide

theorem test_wf_refuses_pattern_at_edge :
    ({ standardTables with apos := fun _ => some [6, 1, 18] } : Tables).wf = false := by decide +kernel

/-- R245: the corner pairs bear no pattern, and (18, 18) lies inside. -/
theorem test_wf_accepts_corner_position :
    ({ standardTables with apos := fun _ => some [1, 18] } : Tables).alignOk 2 = true := by decide

/-- No version has a side below 11, so the check's term is a side. -/
theorem test_wf_refuses_version_block_outside : Tables.blockInside 9 = false := by decide

/-! ### Decoding: the words of 30_encoding.md R107, bit by bit as R101 lays them out -/

theorem test_decode_nop : decode 0b000000000000000000000_000_00000000#32 = .ok .nop := by decide
theorem test_decode_encode : decode 0b000000000000000000000_000_00000001#32 = .ok .encode := by decide
theorem test_decode_select : decode 0b000000000000000000000_000_00000010#32 = .ok .select := by decide
theorem test_decode_pad : decode 0b000000000000000000000_000_00000011#32 = .ok .pad := by decide
theorem test_decode_ecgen : decode 0b000000000000000000000_000_00000100#32 = .ok .ecgen := by decide
theorem test_decode_interleave : decode 0b000000000000000000000_000_00000101#32 = .ok .interleave := by
  decide
theorem test_decode_build : decode 0b000000000000000000000_000_00000110#32 = .ok .build := by decide
theorem test_decode_trial_3 : decode 0b000000000000000000000_011_00000111#32 = .ok (.trial 3) := by decide
theorem test_decode_trial_7 : decode 0b000000000000000000000_111_00000111#32 = .ok (.trial 7) := by decide
theorem test_decode_commit : decode 0b000000000000000000000_000_00001000#32 = .ok .commit := by decide
theorem test_decode_score : decode 0b000000000000000000000_000_00001001#32 = .ok .score := by decide
theorem test_decode_run_raw : decode 0b000000000000000000000_000_00001110#32 = .ok .runRaw := by decide
theorem test_decode_run : decode 0b000000000000000000000_000_00001111#32 = .ok .run := by decide
theorem test_decode_rs_raw : decode 0b000000000000000000000_000_00010000#32 = .ok .rsRaw := by decide
theorem test_decode_marg_in_nop : decode 0x00000100#32 = .error .maskArgument := by decide
theorem test_decode_unknown_opcode : decode 0x0000000A#32 = .error .unknownOpcode := by decide
theorem test_decode_opcode_between : decode 0x0000000D#32 = .error .unknownOpcode := by decide
theorem test_decode_opcode_above : decode 0x00000011#32 = .error .unknownOpcode := by decide
theorem test_decode_reserved_bit : decode 0x00000807#32 = .error .reservedBits := by decide
theorem test_decode_table_word : decodeTableWord 32 0x307 = some (.trial 3) := by decide

/-! ### Commands, on the vectors of 95_test_vectors.md -/

/-- §2.8. -/
theorem test_nop_keeps_the_stage :
    next (step ({ State.reset with pstage := .failed }.accept 0#32 0))
      (fun u => u.done && !u.err && u.pstage == .failed) = true := by decide +kernel

/-- §2.8: an illegal word. -/
theorem test_illegal_word :
    failsWith (step (State.reset.accept 0x00000807#32 0)) .illegalCmd 0x00000807#32 = true := by
  decide +kernel

/-- §2.1: "01234567". -/
theorem test_encode_digits :
    next (exec .encode (put { State.reset with inLen := 8#14 } 0x1000
        [0x30, 0x31, 0x32, 0x33, 0x34, 0x35, 0x36, 0x37]))
      (fun u => u.rawLen == 27#17 && u.pstage == .encoded
        && peek u 0x4000 5 == [some 0x03, some 0x15, some 0x98, some 0x60, none]) = true := by
  decide +kernel

/-- §2.1: "Hello" in alphanumeric mode. -/
theorem test_encode_lower_case :
    failsWith (exec .encode (put { State.reset with mode := 1#3, inLen := 5#14 } 0x1000
        [0x48, 0x65, 0x6C, 0x6C, 0x6F])) .invalidCharacterSet 0x00010001#32 = true := by decide +kernel

/-- §2.1: " $" in alphanumeric mode, and S4: "A". -/
theorem test_alnum_values :
    encodeText 1 [0x20#8, 0x24#8] = .ok (bin 0b11001111001 11)
      ∧ encodeText 1 [0x41#8] = .ok (bin 0b001010 6) := by decide

/-- §2.2: RAW_LEN = 144 is fitted at version 2. -/
theorem test_select_fits_at_the_next_version :
    next (exec .select (put { State.reset with mode := 2#3, rawLen := 144#17, charCount := 18#16 } 0x4000
        (List.replicate 18 0xFF)))
      (fun u => u.version == 2#6 && u.size == 25#8 && u.streamLen == 156#17 && u.capBits == 272#16
        && peek u 0x4000 3 == [some 0x41, some 0x2F, some 0xFF]) = true := by decide +kernel

/-- §2.2: DataTooLarge at level L. -/
theorem test_select_data_too_large :
    failsWith (exec .select { State.reset with mode := 2#3, rawLen := 23648#17, charCount := 2953#16 })
      .dataTooLarge 0x00005C60#32 = true := by decide +kernel

/-- §2.2: the 52-bit stream of "HELLO". -/
theorem test_pad_hello :
    next (exec .pad (put { State.reset with
          pstage := .selected, capBits := 152#16, streamLen := 52#17 } 0x4000
        [0x40, 0x54, 0x84, 0x54, 0xC4, 0xC4, 0xFF]))
      (fun u => u.streamLen == 152#17 && u.pstage == .padded
        && peek u 0x4006 14 == [some 0xF0, some 0xEC, some 0x11, some 0xEC, some 0x11, some 0xEC,
            some 0x11, some 0xEC, some 0x11, some 0xEC, some 0x11, some 0xEC, some 0x11, none])
      = true := by decide +kernel

/-- §2.2: 149 bits get three zeros and no pad byte. -/
theorem test_pad_three_zeros : padStream 152 (List.replicate 149 true) =
    List.replicate 149 true ++ [false, false, false] := by decide +kernel

/-- §2.3. -/
theorem test_gmul :
    gmul 0x02#8 0x80#8 = 0x1D#8 ∧ gmul 0x53#8 0xCA#8 = 0x8F#8 ∧ gmul 0xFF#8 0xFF#8 = 0xE2#8
      ∧ gmul 0x8E#8 0x02#8 = 0x01#8 ∧ gmul 0x00#8 0xFF#8 = 0x00#8 := by decide +kernel

/-- 42_gf_rs.md R200: "01234567" at 1-M. -/
theorem test_ecgen_one_block :
    next (exec .ecgen (put { State.reset with
          pstage := .padded, version := 1#6, selLevel := 1#2, capBits := 128#16 } 0x4000
        [0x10, 0x20, 0x0C, 0x56, 0x61, 0x80, 0xEC, 0x11, 0xEC, 0x11, 0xEC, 0x11, 0xEC, 0x11, 0xEC, 0x11]))
      (fun u => u.numBlocks == 1#8 && u.ecLen == 10#7 && u.blkShort == 16#8 && u.blkNlong == 0#8
        && peek u 0x6000 11 == [some 0xA5, some 0x24, some 0xD4, some 0xC1, some 0xED, some 0x36,
            some 0xC7, some 0x87, some 0x2C, some 0x55, none]) = true := by decide +kernel

/-- 42_gf_rs.md R194: the generators of degree 7 and 68. -/
theorem test_generators :
    stdGen 7 = some [87, 229, 146, 149, 238, 102, 21] ∧ stdGen 6 = none ∧ stdGen 69 = none
      ∧ (stdGen 68).map (fun g => (g.take 5, g.drop 63))
          = some ([247, 159, 223, 33, 224], [3, 5, 8, 163, 238]) := by decide +kernel

/-- 42_gf_rs.md R201. -/
theorem test_rs_raw_one_byte :
    next (exec .rsRaw (put { State.reset with rsK := 7#7, rsLen := 1#14 } 0x4000 [0x01]))
      (fun u => u.ecLen == 7#7 && u.pstage == .idle
        && peek u 0x6000 8 == [some 0x7F, some 0x7A, some 0x9A, some 0xA4, some 0x0B, some 0x44,
            some 0x75, none]) = true := by decide +kernel

/-- §2.3: RS_K = 69. -/
theorem test_rs_raw_degree :
    failsWith (exec .rsRaw { State.reset with rsK := 69#7 }) .param 0x00045068#32 = true := by
  decide +kernel

/-- 43_interleave.md R231. -/
theorem test_interleave_example :
    next (exec .interleave (put (put { State.reset with
            pstage := .ecDone, numBlocks := 3#8, ecLen := 2#7, blkShort := 2#8, blkNlong := 1#8 }
          0x4000 [0x01, 0x02, 0x03, 0x04, 0x05, 0x06, 0x07])
        0x6000 [0xA1, 0xA2, 0xB1, 0xB2, 0xC1, 0xC2]))
      (fun u => u.totalCw == 13#12 && u.pstage == .interleaved
        && peek u 0x7000 14 == [some 0x01, some 0x03, some 0x05, some 0x02, some 0x04, some 0x06,
            some 0x07, some 0xA1, some 0xB1, some 0xC1, some 0xA2, some 0xB2, some 0xC2, none])
      = true := by decide +kernel

/-- The letter of a cell in the map of 44_matrix_patterns.md R254: dark, light structural, or free. -/
def letter (c : MatCell) : Char := if c.st then (if c.bit then 'X' else 'o') else '.'

/-- 44_matrix_patterns.md R254: rows of version 1, and FREE_CELLS. -/
theorem test_build_version_1 :
    let g := stampSymbol 1 [] none (Grid.blank 21)
    freeCount 21 g = 208
      ∧ (g.getD 0 []).map letter = "XXXXXXXoo....oXXXXXXX".toList
      ∧ (g.getD 6 []).map letter = "XXXXXXXoXoXoXoXXXXXXX".toList
      ∧ (g.getD 8 []).map letter = "ooooooXoo....oooooooo".toList
      ∧ (g.getD 13 []).map letter = "ooooooooX............".toList := by decide +kernel

/-- §2.5: BUILD out of sequence. -/
theorem test_build_out_of_sequence :
    failsWith (exec .build { State.reset with pstage := .ecDone }) .sequence 0x00000406#32 = true := by
  decide +kernel

/-- §2.6: the masks at (2,3) and (5,7). -/
theorem test_masks :
    (List.finRange 8).map (fun m => maskAt m 2 3) = [false, true, true, false, true, true, true, false]
      ∧ (List.finRange 8).map (fun m => maskAt m 5 7)
          = [true, false, false, true, true, false, false, true] := by decide

/-- §2.6: the zigzag of version 1. -/
theorem test_zigzag_version_1 :
    let zz := zigzag 21 (stampSymbol 1 [] none (Grid.blank 21))
    zz.take 6 = [(20, 20), (20, 19), (19, 20), (19, 19), (18, 20), (18, 19)]
      ∧ zz.drop 204 = [(11, 1), (11, 0), (12, 1), (12, 0)]
      ∧ zz[147]? = some (5, 9) ∧ zz[148]? = some (7, 10) := by decide +kernel

/-- 44_matrix_patterns.md R251: the format cells of version 1 hold no stream bit. -/
theorem test_format_cells_hold_no_data :
    let zz := zigzag 21 (stampSymbol 1 [] none (Grid.blank 21))
    ∀ p ∈ [(0, 8), (5, 8), (7, 8), (8, 8), (8, 7), (8, 5), (8, 0), (8, 20), (8, 13), (14, 8), (20, 8)],
      p ∉ zz.take 208 := by decide +kernel

/-- 45_placement_mask.md R286: "HELLO" at 1-L under mask 3. -/
theorem test_trial_hello :
    let fbuf := [0x40, 0x54, 0x84, 0x54, 0xC4, 0xC4, 0xF0, 0xEC, 0x11, 0xEC, 0x11, 0xEC, 0x11, 0xEC,
      0x11, 0xEC, 0x11, 0xEC, 0x11, 0x4D, 0x2A, 0xD3, 0xBB, 0x9F, 0x20, 0x84]
    let s := put { State.reset with
        pstage := .patternsPlaced, version := 1#6, size := 21#8, totalCw := 26#12 } 0x7000 fbuf
    next (exec (.trial 3) (s.storeGrid (stampSymbol 1 [] none (Grid.blank 21))))
      (fun u => u.scores[3] == 301#32 && u.penalty == ⟨91#32, 84#32, 126#32, 0#32, 0#32, 0#32, 301#32⟩
        && u.placedBits == 208#16 && u.trialDone == 0x08#8) = true := by decide +kernel

/-- §2.7: the min-selector. -/
theorem test_select_mask :
    selectMask #v[306#32, 530#32, 409#32, 301#32, 449#32, 365#32, 395#32, 319#32] = 3
      ∧ selectMask #v[5#32, 4#32, 4#32, 9#32, 9#32, 9#32, 9#32, 9#32] = 1 := by decide +kernel

/-- §2.7: COMMIT with seven masks tried. -/
theorem test_commit_needs_all_masks :
    failsWith (exec .commit { State.reset with pstage := .trialing, trialDone := 0x7F#8 })
      .sequence 0x007F0708#32 = true := by decide +kernel

/-- §2.7: four dark cells; the stage does not change. -/
theorem test_score_dark_block :
    next (exec .score ({ State.reset with scoreN := 2#8, pstage := .committed }.storeGrid
        (List.replicate 2 (List.replicate 2 ⟨true, false⟩))))
      (fun u => u.penalty == ⟨0#32, 0#32, 3#32, 0#32, 0#32, 100#32, 103#32⟩ && u.pstage == .committed)
      = true := by decide +kernel

/-- §2.7: the row `10111010000` over ten rows of 11 zeros. -/
theorem test_penalty_finder_row :
    penaltyOf 11 (bin 0b10111010000 11 :: List.replicate 10 (zeros 11)) = ⟨90, 94, 279, 40, 0, 90⟩ := by
  decide +kernel

/-- 47_control.md R332: an error ends RUN, and the effects of ENCODE stay. -/
theorem test_run_stops_at_select :
    next (exec .run (put { State.reset with mode := 2#3, ecl := 4#3, inLen := 1#14 } 0x1000 [0x41]))
      (fun u => u.errCode == .invalidCorrectionLevel && u.pstage == .failed && u.rawLen == 8#17
        && peek u 0x4000 1 == [some 0x41]) = true := by decide +kernel

/-- 47_control.md R333: MODE 3 to 7 is InvalidMode. -/
theorem test_run_raw_mode :
    failsWith (exec .runRaw { State.reset with mode := 7#3 }) .invalidMode 7#32 = true := by
  decide +kernel

/-! ### The host, and the model fault -/

/-- 10_state.md R57: a byte never written. -/
theorem test_unwritten_read :
    exec .encode { State.reset with mode := 2#3, inLen := 1#14 } = .fault (.unwrittenRead .encode 0x1000) :=
  rfl

/-- 20_memory.md R76: little-endian. -/
theorem test_write_little_endian :
    peek (State.reset.hostWrite 0x04000#17 .word 0x44332211#32) 0x4000 5
      = [some 0x11, some 0x22, some 0x33, some 0x44, none] := by decide +kernel

/-- 20_memory.md R75: two bits of a cell; a hole is ignored. -/
theorem test_write_cell :
    let s := State.reset.hostWrite 0x100B0#17 .half 0xFFFF#32
    peek s 0x100B0 2 = [some 3, none] ∧ s.memRead 0x100B0 .half = ⟨true, 3#32⟩ := by decide +kernel

/-- §2.9: a soft reset while idle. -/
theorem test_soft_reset_idle :
    let s := put { State.reset with mode := 5#3, irqEn := true } 0x4000 [0x99]
    let t := s.hostWrite 0x00004#17 .word 3#32
    t.mode = 0#3 ∧ t.irqEn = false ∧ t.mem = s.mem := by decide +kernel

/-! ### A state of the pipeline: version 1, level L, zeros everywhere -/

/-- Zeros in the first d, e and f bytes of BBUF, EBUF and FBUF, and in MAT. -/
def zeroedN (d e f : Nat) : State :=
  (((State.reset.writeBuf .bbuf (List.replicate d 0#8)).writeBuf .ebuf (List.replicate e 0#8)).writeBuf
    .fbuf (List.replicate f 0#8)).storeGrid (Grid.blank Config.sMax)

/-- Zeros in the bytes of version 1-L. -/
def zeroed : State := zeroedN 19 7 26

/-- A state in which every stage of a symbol of version 1-L has left what it leaves. -/
def pipe (p : PStage) (bits : Nat) : State :=
  { zeroed with
    pstage := p, version := 1#6, size := 21#8, capBits := 152#16, streamLen := BitVec.ofNat 17 bits
    numBlocks := 1#8, ecLen := 7#7, blkShort := 19#8, blkNlong := 0#8, totalCw := 26#12 }

theorem rising_step {s : State} (hm : Memory.wf s.mem) (b : Buf) (n : Nat) (h : n ≤ b.size) :
    Memory.wf (s.writeBuf b (List.replicate n 0#8)).mem := wf_writeBuf hm b (by simpa using h)

theorem zeroedN_wf {d e f : Nat} (hd : d ≤ 4096) (he : e ≤ 4096) (hf : f ≤ 4096) :
    Memory.wf (zeroedN d e f).mem :=
  wf_storeGrid (le_refl _) (rising_step (rising_step (rising_step wf_reset .bbuf d (by
    simp [Buf.size, Config.bbufSize]; omega)) .ebuf e he) .fbuf f hf) (Grid.square_blank _)

theorem zeroedN_bytes {d e f : Nat} (hd : d ≤ 4096) (he : e ≤ 4096) (hf : f ≤ 4096) (b : Buf) (n : Nat)
    (h : (b, n) ∈ [(Buf.bbuf, d), (.ebuf, e), (.fbuf, f)]) (i : Nat) (hi : i < n) :
    (zeroedN d e f).byte b i = some 0#8 := by
  have hd' : d ≤ Buf.bbuf.size := by simp [Buf.size, Config.bbufSize]; omega
  have w1 := rising_step wf_reset .bbuf d hd'
  have w2 := rising_step w1 .ebuf e he
  have w3 := rising_step w2 .fbuf f hf
  have hn : n ≤ b.size := by
    simp only [List.mem_cons, Prod.mk.injEq, List.not_mem_nil, or_false] at h
    rcases h with ⟨rfl, rfl⟩ | ⟨rfl, rfl⟩ | ⟨rfl, rfl⟩ <;> assumption
  rw [zeroedN, byte_storeGrid (le_refl _) w3.1 (Grid.square_blank _) b (by omega)]
  simp only [List.mem_cons, Prod.mk.injEq, List.not_mem_nil, or_false] at h
  rcases h with ⟨rfl, rfl⟩ | ⟨rfl, rfl⟩ | ⟨rfl, rfl⟩
  · rw [State.byte, at_writeBuf w2.1, if_neg (by simp [Buf.base]; omega), Option.none_or,
      at_writeBuf w1.1, if_neg (by simp [Buf.base]; omega), Option.none_or, ← State.byte,
      byte_writeBuf wf_reset.1 _ _ (by simpa using hi), List.getElem?_replicate, if_pos hi]
  · rw [State.byte, at_writeBuf w2.1, if_neg (by simp [Buf.base]; omega), Option.none_or, ← State.byte,
      byte_writeBuf w1.1 _ _ (by simpa using hi), List.getElem?_replicate, if_pos hi]
  · rw [byte_writeBuf w2.1 _ _ (by simpa using hi), List.getElem?_replicate, if_pos hi]

theorem zeroedN_holdsGrid {d e f : Nat} (hd : d ≤ 4096) (he : e ≤ 4096) (hf : f ≤ 4096) :
    (zeroedN d e f).holdsGrid Config.sMax (Grid.blank Config.sMax) :=
  holdsGrid_storeGrid (le_refl _) (rising_step (rising_step (rising_step wf_reset .bbuf d (by
    simp [Buf.size, Config.bbufSize]; omega)) .ebuf e he) .fbuf f hf).1 (Grid.square_blank _)

theorem zeroed_wf : Memory.wf zeroed.mem := zeroedN_wf (by decide) (by decide) (by decide)

theorem zeroed_bytes (b : Buf) (n : Nat) (h : (b, n) ∈ [(Buf.bbuf, 19), (.ebuf, 7), (.fbuf, 26)]) (i : Nat)
    (hi : i < n) : zeroed.byte b i = some 0#8 :=
  zeroedN_bytes (by decide) (by decide) (by decide) b n h i hi

theorem zeroed_holdsGrid : zeroed.holdsGrid Config.sMax (Grid.blank Config.sMax) :=
  zeroedN_holdsGrid (by decide) (by decide) (by decide)

theorem pipe_holdsBytes (p : PStage) (bits : Nat) (b : Buf) (n : Nat)
    (h : (b, n) ∈ [(Buf.bbuf, 19), (.ebuf, 7), (.fbuf, 26)]) :
    (pipe p bits).holdsBytes b (List.replicate n 0#8) := by
  have hn : n ≤ b.size := by
    simp only [List.mem_cons, Prod.mk.injEq, List.not_mem_nil, or_false] at h
    rcases h with ⟨rfl, rfl⟩ | ⟨rfl, rfl⟩ | ⟨rfl, rfl⟩ <;> decide
  refine ⟨by simpa using hn, fun i hi => ?_⟩
  have hi' : i < n := by simpa using hi
  exact (zeroed_bytes b n h i hi').trans (by simp [hi'])

theorem pipe_written (p : PStage) (bits : Nat) (b : Buf) (n k : Nat)
    (h : (b, n) ∈ [(Buf.bbuf, 19), (.ebuf, 7), (.fbuf, 26)]) (hk : k ≤ n) :
    (pipe p bits).written b k := by
  obtain ⟨h1, h2⟩ := pipe_holdsBytes p bits b n h
  rw [List.length_replicate] at h1 h2
  exact ⟨by omega, fun i hi => by rw [h2 i (by omega)]; simp; omega⟩

theorem pipe_holdsBits (p : PStage) (bits n : Nat) (hn : n ≤ 152) :
    (pipe p bits).holdsBits (List.replicate n false) := by
  refine ⟨by rw [List.length_replicate, Config.bbufSize]; omega, fun i hi => ?_⟩
  have hi' : i < n := by simpa using hi
  have hb : (pipe p bits).byte .bbuf (i / 8) = some 0#8 := zeroed_bytes .bbuf 19 (by simp) _ (by omega)
  rw [State.streamBit, hb]
  simp [hi']

theorem pipe_holdsGrid (p : PStage) (bits : Nat) :
    (pipe p bits).holdsGrid 21 (((Grid.blank Config.sMax).take 21).map fun row => row.take 21) :=
  State.holdsGrid_take (s := pipe p bits) zeroed_holdsGrid (by decide)

theorem pipe_inv (p : PStage) (bits : Nat) (h : bits = 152 ∨ (p = .selected ∧ bits ≤ 152)) :
    (pipe p bits).Inv where
  mem_wf := zeroed_wf
  selected_ok := fun _ => {
    version_ge := show 1 ≤ (1#6).toNat by decide
    version_le := show (1#6).toNat ≤ 40 by decide
    size_eq := show (21#8).toNat = 17 + 4 * (1#6).toNat by decide
    cap_eq := show stdCap 1 0 = some 152 by decide
    stream_le := by
      show (BitVec.ofNat 17 bits).toNat ≤ 152
      rw [BitVec.toNat_ofNat]; omega
    stream_written := by
      have : (pipe p bits).streamLen.toNat ≤ 152 := by
        show (BitVec.ofNat 17 bits).toNat ≤ 152
        rw [BitVec.toNat_ofNat]; omega
      exact pipe_written p bits .bbuf 19 _ (by simp) (by omega) }
  padded_ok := fun hr => by
    rcases h with rfl | ⟨rfl, _⟩
    · exact ⟨show (152#17).toNat = (152#16).toNat by decide,
        pipe_written _ _ .bbuf 19 (152 / 8) (by simp) (by decide)⟩
    · exact absurd (show PStage.padded.code.toNat ≤ PStage.selected.code.toNat from hr.1) (by decide)
  ecDone_ok := fun _ => {
    blocks_eq := show stdNb 1 0 = some 1 by decide
    ec_eq := show stdEcb 1 0 = some 7 by decide
    short_eq := show (19#8).toNat = 152 / 8 / 1 by decide
    nlong_eq := show (0#8).toNat = 152 / 8 % 1 by decide
    ec_written := pipe_written _ _ .ebuf 7 (1 * 7) (by simp) (by decide) }
  interleaved_ok := fun _ => ⟨show (26#12).toNat = 152 / 8 + 1 * 7 by decide,
    pipe_written _ _ .fbuf 26 26 (by simp) (by decide)⟩
  mat_ok := fun _ => ⟨le_refl _, fun r c hr hc => by
    have := zeroed_holdsGrid.2.2.2 r c hr hc
    show (zeroed.matCell r c).isSome = true
    rw [this]; rfl⟩

/-! ### Witnesses: data that meet the hypotheses of each clause of each statement -/

/-- The state with the text 'A' in IBUF, in the given mode. -/
def textA (mode : BitVec 3) : State := put { State.reset with mode := mode, inLen := 1#14 } 0x1000 [0x41]

/-- The state with the raw string 'A' in BBUF, in byte mode. -/
def rawA : State :=
  put { State.reset with mode := 2#3, rawLen := 8#17, charCount := 1#16 } 0x4000 [0x41]

/-- One cell, ready for the trials. -/
def oneCell (p : PStage) : State :=
  { State.reset.storeGrid [[⟨true, false⟩]] with pstage := p, size := 1#8, scoreN := 1#8 }

theorem least_fit_one (mode : Nat) (h : mode ≤ 2) : leastFit mode 0 8 1 := by
  refine ⟨le_refl _, by decide, ⟨152, by decide, ?_⟩, fun u h1 h2 => by omega⟩
  have : countWidth mode 1 ≤ 10 := by
    rcases mode with _ | _ | _ | m <;> first | decide | omega
  omega

theorem count_fits_one (mode n : Nat) (h : mode ≤ 2) : countFits mode 0 n 1 1 := by
  intro u c h1 h2 _ _
  obtain rfl : u = 1 := by omega
  rcases mode with _ | _ | _ | m <;> first | decide | omega

theorem step_idle {s : State} (h : s.pending = none) (hh : s.host = []) : step s = .next s := by
  unfold step
  rw [h]
  simp [State.hostTurn, hh]

theorem zeroed_host : zeroed.pending = none ∧ zeroed.host = [] := by
  simp [zeroed, zeroedN, State.reset]

theorem pipe_size (p : PStage) (bits : Nat) : (pipe p bits).size = 21#8 := by simp only [pipe]

theorem pipe_pstage (p : PStage) (bits : Nat) : (pipe p bits).pstage = p := by simp only [pipe]

theorem pipe_version (p : PStage) (bits : Nat) : (pipe p bits).version = 1#6 := by simp only [pipe]

theorem pipe_idle (p : PStage) (bits : Nat) : step (pipe p bits) = .next (pipe p bits) :=
  step_idle (by simp only [pipe]; exact zeroed_host.1) (by simp only [pipe]; exact zeroed_host.2)

theorem witness_EveryStepKeepsTheInvariant :
    (pipe .padded 152).Inv ∧ ∃ t, step (pipe .padded 152) = .next t :=
  ⟨pipe_inv _ _ (.inl rfl), _, pipe_idle .padded 152⟩

theorem witness_SoftResetKeepsTheOtherMemories_idle :
    Memory.wf State.reset.mem ∧ (2#32).getLsbD 1 = true ∧ State.reset.pending = none :=
  ⟨wf_reset, by decide, rfl⟩

theorem witness_SoftResetKeepsTheOtherMemories_busy (i : Instr) :
    let s := State.reset.accept (encode i) 3
    Memory.wf s.mem ∧ (2#32).getLsbD 1 = true ∧ s.pending = some (encode i) :=
  ⟨wf_reset, by decide, rfl⟩

theorem witness_SoftResetKeepsTheOtherMemories_illegal :
    let s := State.reset.accept 0x0000000A#32 3
    Memory.wf s.mem ∧ (3#32).getLsbD 1 = true ∧ s.pending = some 0x0000000A#32
      ∧ ∀ i, 0x0000000A#32 ≠ encode i := by
  refine ⟨wf_reset, by decide, rfl, fun i => ?_⟩
  cases i
  case trial m => revert m; decide
  all_goals decide

theorem witness_SoftResetKeepsTheOtherMemories_cell (m : Fin 8) :
    let s := (oneCell .trialing).accept (encode (.trial m)) 3
    Memory.wf s.mem ∧ s.pending = some (encode (.trial m)) ∧ 0 < Config.sMax
      ∧ s.matCell 0 0 = some ⟨true, false⟩ :=
  ⟨(by decide +kernel : Memory.wf (oneCell .trialing).mem), rfl, by decide,
    (by decide +kernel : (oneCell .trialing).matCell 0 0 = some ⟨true, false⟩)⟩

theorem witness_RegisterWritesStoreTheFieldWidth :
    State.reset.pending = none
      ∧ (0x018, 3, (0#32 : Word), { State.reset with mode := 7#3 }) ∈
        [(0x018, 3, State.reset.mode.setWidth 32, { State.reset with mode := (0xFFFFFFFF#32).setWidth 3 })]
      ∧ (0x060, (0#32 : Word)) ∈ [(0x060, State.reset.bestScore)] := by decide

theorem witness_RegisterWritesStoreTheFieldWidth_reserved :
    (0x00070#17).toNat % 4 = 0 ∧ (0x070 ≤ (0x00070#17).toNat ∧ (0x00070#17).toNat ≤ 0x07C)
      ∧ (0x0007C#17).toNat % 4 = 0 ∧ (0x070 ≤ (0x0007C#17).toNat ∧ (0x0007C#17).toNat ≤ 0x07C)
      ∧ (0x000BC#17).toNat % 4 = 0 ∧ (0x0BC ≤ (0x000BC#17).toNat ∧ (0x000BC#17).toNat ≤ 0xFFF)
      ∧ (0x00FFC#17).toNat % 4 = 0 ∧ (0x0BC ≤ (0x00FFC#17).toNat ∧ (0x00FFC#17).toNat ≤ 0xFFF)
      ∧ (0x03000 ≤ (0x03000#17).toNat ∧ (0x03FFF#17).toNat ≤ 0x03FFF)
      ∧ (0x08000 ≤ (0x08000#17).toNat ∧ (0x0FFFF#17).toNat ≤ 0x0FFFF) := by decide

theorem witness_ControlAndStatusWrites : (1#32).getLsbD 1 = false := by decide

theorem witness_MisalignedAccessesHaveNoEffect :
    ((0x00000#17).toNat < 0x1000 ∧ (AccSize.half ≠ .word ∨ (0x00000#17).toNat % 4 ≠ 0))
      ∧ ((0x00FFE#17).toNat < 0x1000 ∧ (0x00FFE#17).toNat % 4 ≠ 0)
      ∧ (isBufByte (0x01001#17).toNat = true ∧ (0x01001#17).toNat % AccSize.half.bytes ≠ 0)
      ∧ (0x10000 ≤ (0x1FFFE#17).toNat ∧ (0x1FFFE#17).toNat % AccSize.word.bytes ≠ 0) := by decide

theorem witness_AccessesWhileBusyHaveNoEffect :
    (State.reset.accept 5#32 1).pending = some 5#32 ∧ (0x0000C#17 : BusAddr) ≠ 0x00004#17
      ∧ (0x0000C#17 : BusAddr) ≠ 0x00008#17 := by decide

theorem witness_BufferAccessesAreLittleEndian :
    Memory.wf State.reset.mem ∧ State.reset.pending = none
      ∧ (isBufByte (0x01000#17).toNat = true ∧ (0x01000#17).toNat % AccSize.word.bytes = 0)
      ∧ (isBufByte (0x07FFC#17).toNat = true ∧ (0x07FFC#17).toNat % AccSize.word.bytes = 0)
      ∧ (isBufByte (0x05FFF#17).toNat = true ∧ (0x05FFF#17).toNat % AccSize.byte.bytes = 0) :=
  ⟨wf_reset, rfl, by decide, by decide, by decide⟩

theorem witness_MatWindowHoldsTwoBits :
    Memory.wf (oneCell .idle).mem ∧ 0 < 177 ∧ (oneCell .idle).matCell 0 0 = some ⟨true, false⟩
      ∧ (oneCell .idle).pending = none ∧ (oneCell .idle).pstage ≠ .committed :=
  ⟨by decide +kernel, by decide, by decide +kernel, rfl, by decide⟩

theorem witness_MatWindowHoldsTwoBits_ignored :
    Memory.wf State.reset.mem ∧ 176 < 177 ∧ (oneCell .committed).pstage = .committed
      ∧ (State.reset.accept 6#32 0).pending ≠ none :=
  ⟨wf_reset, by decide, rfl, by decide⟩

/-- A word whose first cell is (0, 0), one that ends in the holes of row 0, and the last of the window. -/
theorem witness_MatWindowHoldsTwoBits_wide :
    Memory.wf (oneCell .idle).mem ∧ (oneCell .idle).pending = none ∧ (oneCell .committed).pending = none
      ∧ (0x10000 ≤ (0x10000#17).toNat ∧ (0x10000#17).toNat % AccSize.word.bytes = 0
        ∧ 0 < AccSize.word.bytes ∧ (oneCell .idle).at ((0x10000#17).toNat + 0) = some 1#8)
      ∧ (0x10000 ≤ (0x100B0#17).toNat ∧ (0x100B0#17).toNat % AccSize.half.bytes = 0
        ∧ ((0x100B0#17).toNat + 0 - 0x10000) % 256 < 177
        ∧ ¬ ((0x100B0#17).toNat + 1 - 0x10000) % 256 < 177)
      ∧ (0x10000 ≤ (0x1FFFC#17).toNat ∧ (0x1FFFC#17).toNat % AccSize.word.bytes = 0
        ∧ ¬ ((0x1FFFC#17).toNat + 3 - 0x10000) / 256 < 177) :=
  ⟨by decide +kernel, rfl, rfl, ⟨by decide, by decide, by decide, by decide +kernel⟩,
    ⟨by decide, by decide, by decide, by decide⟩, ⟨by decide, by decide, by decide⟩⟩

theorem witness_CmdWriteIsAcceptedOrDropped :
    State.reset.pending = none ∧ (State.reset.accept 1#32 0).pending = some 1#32 := by decide

theorem witness_StepRunsTheDecodedCommand :
    (let s := State.reset.accept 0x00000307#32 0
     s.pending = some 0x00000307#32 ∧ s.hold = 0 ∧ decode 0x00000307#32 = .ok (.trial 3))
      ∧ (let s := State.reset.accept 0x00000307#32 2
         s.pending = some 0x00000307#32 ∧ s.hold = 1 + 1)
      ∧ State.reset.pending = none ∧ State.reset.host = []
      ∧ ({ State.reset with host := [.read 0#17 .word] } : State).host = [.read 0#17 .word]
      ∧ ({ State.reset with host := [issueAction .run] } : State).host
          = [.write 0x0000C#17 .word (encode .run)]
      ∧ ({ State.reset with host := [.hardReset, .wait] } : State).host = .hardReset :: [.wait]
      ∧ (let s := { State.reset.accept 0x00000307#32 2 with host := [.wait] }
         s.host = .wait :: [] ∧ s.pending ≠ none)
      ∧ (let s := { State.reset with host := [.wait, .hardReset] }
         s.host = .wait :: [.hardReset] ∧ s.pending = none) := by
  decide

theorem witness_EveryAcceptedCommandIsPerformed :
    let s := { State.reset.accept 1#32 4 with
      host := [.wait, .write 0x00004#17 .word 1#32, .write 0x0000C#17 .word 2#32, .read 0x1000#17 .byte] }
    s.pending = some 1#32 ∧ ∀ x ∈ s.host, x.resets = false := by decide

theorem witness_IllegalWordsCompleteWithAnError (w : Word)
    (h : w ∈ [0x80000001#32, 0x00000807#32, 0x0000000A#32, 0x000000FF#32, 0x00000100#32, 0x00000710#32]) :
    let s := State.reset.accept w 0
    s.pending = some w ∧ s.hold = 0
      ∧ (w.extractLsb' 11 21 ≠ 0#21
        ∨ (w.extractLsb' 0 8).toNat ∉ [0, 1, 2, 3, 4, 5, 6, 7, 8, 9, 0x0E, 0x0F, 0x10]
        ∨ (w.extractLsb' 0 8 ≠ 0x07#8 ∧ w.extractLsb' 8 3 ≠ 0#3)) := by
  refine ⟨rfl, rfl, ?_⟩
  simp only [List.mem_cons, List.not_mem_nil, or_false] at h
  rcases h with rfl | rfl | rfl | rfl | rfl | rfl <;> decide

theorem witness_OutOfSequenceCommandsFail :
    ¬ mayStart .pad State.reset
      ∧ ¬ mayStart .commit { State.reset with pstage := .trialing, trialDone := 0x7F#8 } := by
  simp [mayStart, stagesBefore, State.reset]

theorem rsRaw_completes :
    ∃ u, exec .rsRaw { State.reset with rsK := 7#7 } = .next u ∧ u.err = false := by
  obtain ⟨u, h1, h2⟩ := exists_of_next (o := exec .rsRaw { State.reset with rsK := 7#7 })
    (p := fun u => !u.err) (by decide +kernel)
  exact ⟨u, h1, by simpa using h2⟩

theorem witness_SuccessMovesTheStage :
    let s := { State.reset with rsK := 7#7 }
    s.err = false ∧ ∃ u, exec .rsRaw s = .next u ∧ u.err = false := ⟨rfl, rsRaw_completes⟩

theorem witness_CommandsWriteOnlyTheirColumn :
    let s := { State.reset with rsK := 7#7 }
    Memory.wf s.mem ∧ Reg.bestMask ∉ writesRegister .rsRaw ∧ ∃ u, exec .rsRaw s = .next u :=
  ⟨wf_reset, by decide, rsRaw_completes.imp fun _ h => h.1⟩

theorem witness_ErrorsArePrecise :
    let s := { State.reset with mode := 3#3 }
    s.err = false ∧ ∃ u, exec .encode s = .next u ∧ u.err = true :=
  ⟨rfl, exists_of_next (by decide +kernel)⟩

theorem witness_EncodeWritesTheBitString (mode : BitVec 3) (h : mode = 1#3 ∨ mode = 2#3) :
    Memory.wf (textA mode).mem ∧ (textA mode).mode.toNat ≤ 2 ∧ (textA mode).holdsBytes .ibuf [0x41#8]
      ∧ [0x41#8].length = (textA mode).inLen.toNat
      ∧ ∀ l, alphabet (textA mode).mode.toNat = some l → [0x41#8] ≠ [] ∧ ∀ b ∈ [0x41#8], b.toNat ∈ l := by
  have hb : (textA 0#3).holdsBytes .ibuf [0x41#8] := ⟨by decide, by decide +kernel⟩
  refine ⟨(by decide +kernel : Memory.wf (textA 0#3).mem), ?_, hb, show 1 = (1#14).toNat by decide, ?_⟩
  · rcases h with rfl | rfl <;> decide
  · intro l hl
    rcases h with rfl | rfl
    · cases hl; decide
    · have hn : alphabet (textA 2#3).mode.toNat = none := by decide
      rw [hn] at hl
      cases hl

theorem witness_EncodeWritesTheBitString_digit :
    let s := put { State.reset with inLen := 1#14 } 0x1000 [0x39]
    Memory.wf s.mem ∧ s.mode.toNat ≤ 2 ∧ s.holdsBytes .ibuf [0x39#8] ∧ [0x39#8].length = s.inLen.toNat
      ∧ ∀ l, alphabet s.mode.toNat = some l → [0x39#8] ≠ [] ∧ ∀ b ∈ [0x39#8], b.toNat ∈ l :=
  ⟨by decide +kernel, by decide, ⟨by decide, by decide +kernel⟩, by decide,
    fun l hl => by cases hl; decide⟩

theorem witness_EncodeErrorsInOrder :
    2 < ({ State.reset with mode := 3#3 } : State).mode.toNat
      ∧ (let s := { State.reset with inLen := 8193#14 }
         s.mode.toNat ≤ 2 ∧ 8192 < s.inLen.toNat)
      ∧ State.reset.mode.toNat ≤ 1 ∧ State.reset.inLen.toNat = 0 := by decide

theorem witness_EncodeErrorsInOrder_character :
    Memory.wf (textA 0#3).mem ∧ alphabet (textA 0#3).mode.toNat = some (List.range' 0x30 10)
      ∧ (textA 0#3).mode.toNat ≤ 1 ∧ (textA 0#3).holdsBytes .ibuf [0x41#8]
      ∧ [0x41#8].length = (textA 0#3).inLen.toNat ∧ [0x41#8][0]? = some 0x41#8
      ∧ (0x41#8).toNat ∉ List.range' 0x30 10
      ∧ ∀ (j : Nat) (x : Byte), j < 0 → [0x41#8][j]? = some x → x.toNat ∈ List.range' 0x30 10 :=
  ⟨by decide +kernel, rfl, by decide, ⟨by decide, by decide +kernel⟩, by decide, rfl, by decide,
    fun j _ h => by omega⟩

theorem witness_RawLengthFormula :
    encodeText 0 [0x31#8, 0x32#8] = .ok (bin 12 7) ∧ encodeText 1 [0x41#8] = .ok (bin 10 6)
      ∧ encodeText 2 [] = .ok [] := by decide

theorem witness_EncodeIsPure :
    let s := textA 2#3
    let s' := { textA 2#3 with ecl := 3#3, pstage := .committed }
    Memory.wf s.mem ∧ Memory.wf s'.mem ∧ s'.mode = s.mode ∧ s'.inLen = s.inLen
      ∧ (∀ i, i < s.inLen.toNat → s'.byte .ibuf i = s.byte .ibuf i) ∧ s.err = false
      ∧ (∃ u, exec .encode s = .next u ∧ u.err = false)
      ∧ s.mode.toNat = 2 ∧ s.holdsBytes .ibuf [0x41#8] ∧ [0x41#8].length = s.inLen.toNat := by
  obtain ⟨u, h1, h2⟩ := exists_of_next (o := exec .encode (textA 2#3)) (p := fun u => !u.err)
    (by decide +kernel)
  exact ⟨by decide +kernel, by decide +kernel, rfl, rfl, fun _ _ => rfl, rfl,
    ⟨u, h1, by simpa using h2⟩, by decide, ⟨by decide, by decide +kernel⟩, by decide⟩

theorem witness_GroupsAreTheNumbersOfTheRules :
    (∃ b, encodeText 0 [0x31#8, 0x32#8, 0x33#8, 0x34#8, 0x35#8] = .ok b)
      ∧ (∃ b, encodeText 0 [0x31#8] = .ok b)
      ∧ (∃ b, encodeText 1 [0x41#8, 0x42#8, 0x3A#8] = .ok b) ∧ ∃ b, encodeText 2 [0xFF#8] = .ok b :=
  ⟨⟨_, rfl⟩, ⟨_, rfl⟩, ⟨_, rfl⟩, ⟨_, rfl⟩⟩

theorem rawA_holdsBits : rawA.holdsBits (bin 0x41 8) := ⟨by decide, by decide +kernel⟩

theorem witness_SelectChoosesTheLeastVersion :
    Memory.wf rawA.mem ∧ rawA.mode.toNat ≤ 2 ∧ rawA.ecl.toNat ≤ 3 ∧ rawA.holdsBits (bin 0x41 8)
      ∧ (bin 0x41 8).length = rawA.rawLen.toNat
      ∧ leastFit rawA.mode.toNat rawA.ecl.toNat rawA.rawLen.toNat 1
      ∧ countFits rawA.mode.toNat rawA.ecl.toNat rawA.rawLen.toNat rawA.charCount.toNat 1 :=
  ⟨by decide +kernel, by decide, by decide, rawA_holdsBits, by decide,
    least_fit_one 2 (le_refl _), count_fits_one 2 8 (le_refl _)⟩

theorem witness_SelectErrorsInOrder :
    2 < ({ State.reset with mode := 3#3 } : State).mode.toNat
      ∧ (let s := { State.reset with ecl := 4#3 }
         s.mode.toNat ≤ 2 ∧ 3 < s.ecl.toNat)
      ∧ (let s := { State.reset with rawLen := 65537#17 }
         s.mode.toNat ≤ 2 ∧ s.ecl.toNat ≤ 3 ∧ 65536 < s.rawLen.toNat) := by decide

theorem witness_SelectErrorsInOrder_tooLarge :
    let n := ({ State.reset with rawLen := 65536#17 } : State).rawLen.toNat
    n ≤ 65536 ∧ stdCap 40 0 = some 23648 ∧ (∀ v, 1 ≤ v → v ≤ 40 → ¬ fits 0 0 n v)
      ∧ countFits 0 0 n 0 40 := by
  refine ⟨by decide, by decide, fun v _ _ ⟨c, h1, h2⟩ => ?_, fun u c _ _ h1 h2 => ?_⟩
  · have := (stdCap_some h1).2.2.2.2.2
    have hn : ({ State.reset with rawLen := 65536#17 } : State).rawLen.toNat = 65536 := by decide
    omega
  · exact Nat.two_pow_pos _

theorem witness_SelectErrorsInOrder_count :
    let s := { State.reset with mode := 2#3, charCount := 256#16 }
    s.mode.toNat ≤ 2 ∧ s.ecl.toNat ≤ 3 ∧ stdCap 1 s.ecl.toNat = some 152 ∧ s.rawLen.toNat < 152
      ∧ (∀ u, 1 ≤ u → u < 1 → ¬ fits s.mode.toNat s.ecl.toNat s.rawLen.toNat u)
      ∧ countFits s.mode.toNat s.ecl.toNat s.rawLen.toNat s.charCount.toNat (1 - 1)
      ∧ 2 ^ countWidth s.mode.toNat 1 ≤ s.charCount.toNat :=
  ⟨by decide, by decide, by decide, by decide, fun _ _ h => by omega,
    fun _ _ _ h => by omega, by decide⟩

theorem witness_PadFillsTheCapacity (n : Nat) (h : n ≤ 152) :
    (pipe .selected n).Inv ∧ (pipe .selected n).pstage = .selected
      ∧ (pipe .selected n).holdsBits (List.replicate n false)
      ∧ (List.replicate n false).length = (pipe .selected n).streamLen.toNat := by
  refine ⟨pipe_inv _ _ (.inr ⟨rfl, h⟩), rfl, pipe_holdsBits _ _ n h, ?_⟩
  show _ = (BitVec.ofNat 17 n).toNat
  rw [List.length_replicate, BitVec.toNat_ofNat]; omega

theorem witness_DivisionIsLinear :
    stdGen 68 = some ((stdGen 68).getD []) ∧ [1#8, 2#8].length = [3#8, 4#8].length := by decide +kernel

theorem witness_CodewordsVanishAtTheRoots : 7 ≤ 68 ∧ 68 ≤ 68 ∧ 67 < 68 := by decide

theorem witness_BlockDivisionCoversTheData :
    1 ≤ 81 ∧ stdCap 40 3 = some 10208 ∧ stdNb 40 3 = some 81
      ∧ stdGen 7 = some [87, 229, 146, 149, 238, 102, 21] := by decide +kernel

theorem witness_EcgenWritesTheCorrectionBlocks :
    (pipe .padded 152).Inv ∧ (pipe .padded 152).pstage = .padded
      ∧ (pipe .padded 152).holdsBytes .bbuf (List.replicate 19 0#8)
      ∧ (List.replicate 19 0#8).length = (pipe .padded 152).capBits.toNat / 8 :=
  ⟨pipe_inv _ _ (.inl rfl), rfl, pipe_holdsBytes _ _ .bbuf 19 (by simp), rfl⟩

theorem witness_RsRawDividesOrReportsTheOperand :
    (let s := put { State.reset with rsK := 68#7, rsLen := 1#14 } 0x4000 [0x41]
     Memory.wf s.mem ∧ 7 ≤ s.rsK.toNat ∧ s.rsK.toNat ≤ 68 ∧ s.holdsBytes .bbuf [0x41#8]
       ∧ [0x41#8].length = s.rsLen.toNat)
      ∧ State.reset.rsK.toNat < 7 ∧ 68 < ({ State.reset with rsK := 69#7 } : State).rsK.toNat
      ∧ (let s := { State.reset with rsK := 7#7, rsLen := 8193#14 }
         7 ≤ s.rsK.toNat ∧ s.rsK.toNat ≤ 68 ∧ 8192 < s.rsLen.toNat) :=
  ⟨⟨by decide +kernel, by decide, by decide, ⟨by decide, by decide +kernel⟩, by decide⟩, by decide,
    by decide, by decide⟩

theorem witness_InterleaveClosedForm :
    (pipe .ecDone 152).Inv ∧ (pipe .ecDone 152).pstage = .ecDone
      ∧ 18 < (pipe .ecDone 152).blkShort.toNat ∧ 0 < (pipe .ecDone 152).numBlocks.toNat
      ∧ 6 < (pipe .ecDone 152).ecLen.toNat :=
  ⟨pipe_inv _ _ (.inl rfl), rfl, show 18 < (19#8).toNat by decide, show 0 < (1#8).toNat by decide,
    show 6 < (7#7).toNat by decide⟩

theorem build_of_version {s : State} {V : Nat} {P : List Nat} {code : Option Nat}
    (hp : s.pstage = .interleaved) (hv : s.version.toNat = V) (ha : stdApos V = some P)
    (hc : if V < 7 then code = none else code.isSome = true ∧ stdVcode V = code) :
    exec .build s = .next (s.built V P code).complete := by
  have hs : mayStart .build s := ⟨fun l h => by cases h; simp [hp], fun h => by cases h⟩
  have hb : performBuild standardTables s = .ok (s.built V P code) := by
    rw [performBuild, hv]
    rw [show standardTables.apos V = some P from ha]
    dsimp only
    split at hc
    · rename_i h; rw [if_pos h, hc]
    · rename_i h
      obtain ⟨h1, h2⟩ := hc
      rw [if_neg h, show standardTables.vcode V = code from h2]
      cases code with
      | none => simp at h1
      | some c => rfl
  rw [exec_eq_runCommand, runCommand_of_mayStart hs]
  exact congrArg Perf.finish hb

theorem take_holdsGrid {s u : State} {g : Grid} (hg : g.square Config.sMax) (hm : Memory.wf s.mem)
    (hu : u.mem = (s.storeGrid g).mem) (hn : u.size.toNat ≤ 177) :
    ∃ g', u.holdsGrid u.size.toNat g' := by
  have h := holdsGrid_storeGrid (le_refl Config.sMax) hm.1 hg
  have hu' : u.holdsGrid Config.sMax g :=
    ⟨h.1, h.2.1, h.2.2.1, fun r c hr hc => by
      rw [State.matCell, State.at, hu]; exact h.2.2.2 r c hr hc⟩
  exact ⟨_, State.holdsGrid_take hu' hn⟩

theorem built_complete_mem (s : State) (V : Nat) (P : List Nat) (code : Option Nat) :
    (s.built V P code).complete.mem = (s.storeGrid (stampSymbol V P code (Grid.blank Config.sMax))).mem
      ∧ (s.built V P code).complete.size = s.size := by
  generalize hg : stampSymbol V P code (Grid.blank Config.sMax) = g
  rw [State.built, hg]
  exact ⟨rfl, rfl⟩

theorem built_holdsGrid {s : State} (hm : Memory.wf s.mem) (hn : s.size.toNat ≤ 177) :
    ∃ g, (s.built 1 [] none).complete.holdsGrid (s.built 1 [] none).complete.size.toNat g :=
  take_holdsGrid (Grid.square_stampSymbol (Grid.square_blank _) 1 [] none) hm
    (built_complete_mem s 1 [] none).1 (by rw [(built_complete_mem s 1 [] none).2]; exact hn)

theorem build_completes :
    exec .build (pipe .interleaved 152) = .next ((pipe .interleaved 152).built 1 [] none).complete :=
  build_of_version (pipe_pstage _ _) (by rw [pipe_version]; decide) (by decide) (by decide)

theorem witness_BuildWritesEveryCell :
    (pipe .interleaved 152).Inv ∧ (pipe .interleaved 152).pstage = .interleaved
      ∧ ∃ u, exec .build (pipe .interleaved 152) = .next u :=
  ⟨pipe_inv _ _ (.inl rfl), pipe_pstage _ _, _, build_completes⟩

theorem witness_BuildStampsTheFixedPatterns :
    (pipe .interleaved 152).Inv ∧ (pipe .interleaved 152).pstage = .interleaved
      ∧ (∃ u, exec .build (pipe .interleaved 152) = .next u)
      ∧ 20 < (pipe .interleaved 152).size.toNat ∧ 12 + 8 < (pipe .interleaved 152).size.toNat :=
  ⟨pipe_inv _ _ (.inl rfl), pipe_pstage _ _, ⟨_, build_completes⟩, by rw [pipe_size]; decide,
    by rw [pipe_size]; decide⟩

/-- A state in which INTERLEAVE has left a symbol of level L: version, side, CAP_BITS, blocks, correction
codewords per block, codewords per short block, total codewords. -/
def symbol (v : BitVec 6) (size : BitVec 8) (cap : BitVec 16) (N : BitVec 8) (k : BitVec 7) (b : BitVec 8)
    (total : BitVec 12) : State :=
  { zeroedN (cap.toNat / 8) (N.toNat * k.toNat) total.toNat with
    pstage := .interleaved, version := v, selLevel := 0#2, size := size, capBits := cap
    streamLen := cap.setWidth 17, numBlocks := N, ecLen := k, blkShort := b, blkNlong := 0#8
    totalCw := total }

theorem symbol_written {v : BitVec 6} {size : BitVec 8} {cap : BitVec 16} {N : BitVec 8} {k : BitVec 7}
    {b : BitVec 8} {total : BitVec 12} (hd : cap.toNat / 8 ≤ 4096) (he : N.toNat * k.toNat ≤ 4096)
    (hf : total.toNat ≤ 4096) (buf : Buf) (n : Nat)
    (h : (buf, n) ∈ [(Buf.bbuf, cap.toNat / 8), (.ebuf, N.toNat * k.toNat), (.fbuf, total.toNat)]) :
    (symbol v size cap N k b total).written buf n := by
  refine ⟨?_, fun i hi => ?_⟩
  · simp only [List.mem_cons, Prod.mk.injEq, List.not_mem_nil, or_false] at h
    rcases h with ⟨rfl, rfl⟩ | ⟨rfl, rfl⟩ | ⟨rfl, rfl⟩
    · simp [Buf.size, Config.bbufSize]; omega
    · exact he
    · exact hf
  · have := zeroedN_bytes hd he hf buf n h i hi
    simp only [symbol, State.byte, State.at] at this ⊢
    rw [this]; rfl

theorem symbol_inv {v : BitVec 6} {size : BitVec 8} {cap : BitVec 16} {N : BitVec 8} {k : BitVec 7}
    {b : BitVec 8} {total : BitVec 12} (hv : 1 ≤ v.toNat ∧ v.toNat ≤ 40)
    (hs : size.toNat = 17 + 4 * v.toNat) (hc : stdCap v.toNat 0 = some cap.toNat)
    (hn : stdNb v.toNat 0 = some N.toNat) (hk : stdEcb v.toNat 0 = some k.toNat)
    (hb : b.toNat = cap.toNat / 8 / N.toNat ∧ 0 = cap.toNat / 8 % N.toNat)
    (ht : total.toNat = cap.toNat / 8 + N.toNat * k.toNat) :
    (symbol v size cap N k b total).Inv := by
  obtain ⟨_, _, _, h8, _, hmax⟩ := stdCap_some hc
  have hf : total.toNat ≤ 4096 := by have := total.isLt; omega
  have hd : cap.toNat / 8 ≤ 4096 := by omega
  have he : N.toNat * k.toNat ≤ 4096 := by omega
  have hw := symbol_written (v := v) (size := size) (b := b) hd he hf
  have hcap : (cap.setWidth 17).toNat = cap.toNat := by
    rw [BitVec.toNat_setWidth]; have := cap.isLt; omega
  have hst : (symbol v size cap N k b total).streamLen.toNat = cap.toNat := by
    simp only [symbol]; exact hcap
  exact {
    mem_wf := by simp only [symbol]; exact zeroedN_wf hd he hf
    selected_ok := fun _ => {
      version_ge := by simp only [symbol]; exact hv.1
      version_le := by simp only [symbol]; exact hv.2
      size_eq := by simp only [symbol]; exact hs
      cap_eq := by simp only [symbol]; exact hc
      stream_le := by rw [hst]; simp only [symbol]; exact le_refl _
      stream_written := by
        rw [hst, show (cap.toNat + 7) / 8 = cap.toNat / 8 by omega]
        exact hw _ _ (by simp) }
    padded_ok := fun _ => ⟨by rw [hst]; simp only [symbol],
      show (symbol v size cap N k b total).written .bbuf (cap.toNat / 8) from hw _ _ (by simp)⟩
    ecDone_ok := fun _ => {
      blocks_eq := by simp only [symbol]; exact hn
      ec_eq := by simp only [symbol]; exact hk
      short_eq := by simp only [symbol]; exact hb.1
      nlong_eq := by simp only [symbol]; exact hb.2
      ec_written := show (symbol v size cap N k b total).written .ebuf (N.toNat * k.toNat) from
        hw _ _ (by simp) }
    interleaved_ok := fun _ => ⟨by simp only [symbol]; exact ht,
      show (symbol v size cap N k b total).written .fbuf total.toNat from hw _ _ (by simp)⟩
    mat_ok := fun hr => by
      have hp : (symbol v size cap N k b total).pstage = .interleaved := by simp only [symbol]
      rw [hp] at hr
      exact absurd hr.1 (by decide) }

/-- Version 2-L: one alignment pattern, around (18, 18), and no version block. -/
theorem witness_BuildStampsTheVersionPatterns :
    let s := symbol 2#6 25#8 272#16 1#8 10#7 34#8 44#12
    s.Inv ∧ s.pstage = .interleaved ∧ (∃ u, exec .build s = .next u)
      ∧ stdApos s.version.toNat = some [6, 18] ∧ 18 ∈ [6, 18]
      ∧ ¬ (18 = 6 ∧ 18 = 6) ∧ ¬ (18 = 6 ∧ 18 = 25 - 7) ∧ ¬ (18 = 25 - 7 ∧ 18 = 6)
      ∧ distance 16 18 ≤ 2 ∧ distance 20 18 ≤ 2 := by
  have hv : (symbol 2#6 25#8 272#16 1#8 10#7 34#8 44#12).version = 2#6 := by simp only [symbol]
  have hp : (symbol 2#6 25#8 272#16 1#8 10#7 34#8 44#12).pstage = .interleaved := by simp only [symbol]
  exact ⟨symbol_inv (by decide) (by decide) (by decide) (by decide) (by decide) (by decide) (by decide),
    hp, ⟨_, build_of_version (P := [6, 18]) (code := none) hp (by rw [hv]) (by decide)
      (by decide)⟩, by rw [hv]; decide, by decide, by decide, by decide, by decide, by decide, by decide⟩

/-- Version 7-L: six alignment patterns and the two version blocks of the code 0x07C94. -/
theorem witness_BuildStampsTheVersionPatterns_blocks :
    let s := symbol 7#6 45#8 1248#16 2#8 20#7 78#8 196#12
    s.Inv ∧ s.pstage = .interleaved ∧ (∃ u, exec .build s = .next u) ∧ 7 ≤ s.version.toNat
      ∧ stdApos s.version.toNat = some [6, 22, 38] ∧ 0 < 18 ∧ 17 < 18 := by
  have hv : (symbol 7#6 45#8 1248#16 2#8 20#7 78#8 196#12).version = 7#6 := by simp only [symbol]
  have hp : (symbol 7#6 45#8 1248#16 2#8 20#7 78#8 196#12).pstage = .interleaved := by
    simp only [symbol]
  exact ⟨symbol_inv (by decide) (by decide) (by decide) (by decide) (by decide) (by decide) (by decide),
    hp, ⟨_, build_of_version (P := [6, 22, 38]) (code := some 0x07C94) hp (by rw [hv])
      (by decide) (by decide)⟩, by rw [hv]; decide, by rw [hv]; decide, by decide, by decide⟩

theorem witness_FreeCellsFormula :
    (pipe .interleaved 152).Inv ∧ (pipe .interleaved 152).pstage = .interleaved
      ∧ ∃ u, exec .build (pipe .interleaved 152) = .next u := witness_BuildWritesEveryCell

theorem witness_OnlyBuildWritesStructuralFlags :
    let s := { State.reset with rsK := 7#7 }
    Memory.wf s.mem ∧ ∃ u, exec .rsRaw s = .next u :=
  ⟨wf_reset, rsRaw_completes.imp fun _ h => h.1⟩

/-- The corners of version 1, and the cells on both sides of column 6. -/
theorem witness_ZigzagVisitsEachCellOnce :
    1 ≤ 1 ∧ ∀ p ∈ [(20, 20), (20, 19), (0, 7), (0, 5), (12, 1), (20, 0)],
      p.1 < 17 + 4 * 1 ∧ p.2 < 17 + 4 * 1 ∧ p.2 ≠ 6 := by decide

theorem witness_ZigzagHoldsEveryFreeCell :
    (pipe .interleaved 152).Inv ∧ (pipe .interleaved 152).pstage = .interleaved
      ∧ ∃ u g, exec .build (pipe .interleaved 152) = .next u ∧ u.holdsGrid u.size.toNat g := by
  have hm : Memory.wf (pipe .interleaved 152).mem := by simp only [pipe]; exact zeroed_wf
  obtain ⟨g, hg⟩ := built_holdsGrid hm (by rw [pipe_size]; decide)
  exact ⟨pipe_inv _ _ (.inl rfl), pipe_pstage _ _, _, g, build_completes, hg⟩

theorem witness_TrialPlacesTheStreamUnderTheMask (p : PStage) (h : p = .patternsPlaced ∨ p = .trialing) :
    (pipe p 152).Inv ∧ ((pipe p 152).pstage = .patternsPlaced ∨ (pipe p 152).pstage = .trialing)
      ∧ ∃ g, (pipe p 152).holdsGrid (pipe p 152).size.toNat g :=
  ⟨pipe_inv _ _ (.inl rfl), h, _, pipe_holdsGrid p 152⟩

theorem witness_TrialsAreIndependentOfTheirOrder :
    let s := oneCell .patternsPlaced
    Memory.wf s.mem ∧ s.err = false ∧ ∃ a b c, exec (.trial 0) s = .next a ∧ exec (.trial 1) a = .next b
      ∧ exec (.trial 1) s = .next c ∧ b.err = false := by
  obtain ⟨a, h1, h2⟩ := exists_of_next (o := exec (.trial 0) (oneCell .patternsPlaced))
    (p := fun a => next (exec (.trial 1) a) fun b => !b.err) (by decide +kernel)
  obtain ⟨b, h3, h4⟩ := exists_of_next h2
  obtain ⟨c, h5, _⟩ := exists_of_next (o := exec (.trial 1) (oneCell .patternsPlaced))
    (p := fun _ => true) (by decide +kernel)
  exact ⟨by decide +kernel, rfl, a, b, c, h1, h3, h5, by simpa using h4⟩

theorem witness_PenaltyIsTheRule :
    let g : Grid := [[⟨true, false⟩, ⟨true, true⟩], [⟨true, false⟩, ⟨false, false⟩]]
    g.length = 2 ∧ ∀ row ∈ g, row.length = 2 := by decide

theorem witness_PenaltyFitsTheRegisters :
    177 ≤ 177 ∧ (Grid.blank 177).length = 177 ∧ ∀ row ∈ Grid.blank 177, row.length = 177 :=
  ⟨le_refl _, (Grid.square_blank 177).1, (Grid.square_blank 177).2⟩

theorem oneCell_holdsGrid (p : PStage) : (oneCell p).holdsGrid 1 [[⟨true, false⟩]] :=
  holdsGrid_storeGrid (s := State.reset) (by decide) wf_reset.1 ⟨rfl, by decide⟩

theorem witness_ScoreWritesTheBreakdown :
    Memory.wf (oneCell .idle).mem ∧ 1 ≤ (oneCell .idle).scoreN.toNat
      ∧ (oneCell .idle).holdsGrid (oneCell .idle).scoreN.toNat [[⟨true, false⟩]]
      ∧ (oneCell .idle).scoreN.toNat = 1 ∧ State.reset.scoreN.toNat = 0
      ∧ 177 < ({ State.reset with scoreN := 178#8 } : State).scoreN.toNat :=
  ⟨by decide +kernel, by decide, oneCell_holdsGrid .idle, by decide, by decide, by decide⟩

theorem witness_CommitPlacesTheWinningMask :
    let s := { pipe .trialing 152 with trialDone := 0xFF#8 }
    s.Inv ∧ s.pstage = .trialing ∧ s.trialDone = 0xFF#8 := by
  obtain ⟨h1, h2, h3, h4, h5, h6⟩ := pipe_inv .trialing 152 (.inl rfl)
  refine ⟨⟨h1, fun h => ?_, fun h => ?_, fun h => ?_, fun h => ?_, h6⟩, rfl, rfl⟩
  · obtain ⟨a, b, c, d, e, f⟩ := h2 h; exact ⟨a, b, c, d, e, f⟩
  · obtain ⟨a, b⟩ := h3 h; exact ⟨a, b⟩
  · obtain ⟨a, b, c, d, e⟩ := h4 h; exact ⟨a, b, c, d, e⟩
  · obtain ⟨a, b⟩ := h5 h; exact ⟨a, b⟩

theorem witness_TheCommittedSymbolHasTheBestScore :
    Memory.wf (oneCell .patternsPlaced).mem ∧ ∃ u g,
      performCommands ((List.finRange 8).map .trial ++ [.commit]) (oneCell .patternsPlaced) = .next u
        ∧ u.err = false ∧ u.holdsGrid u.size.toNat g := by
  obtain ⟨u, h1, h2⟩ := exists_of_next
    (o := performCommands ((List.finRange 8).map .trial ++ [.commit]) (oneCell .patternsPlaced))
    (p := fun u => !u.err && u.size == 1#8 && u.mem == [(0x10000, 1#8)]) (by decide +kernel)
  simp only [Bool.and_eq_true, Bool.not_eq_true', beq_iff_eq] at h2
  obtain ⟨⟨h3, h4⟩, h5⟩ := h2
  refine ⟨by decide +kernel, u, [[⟨true, false⟩]], h1, h3, ?_⟩
  rw [h4]
  refine ⟨by decide, rfl, by decide, fun r c hr hc => ?_⟩
  obtain rfl : r = 0 := by simpa using hr
  obtain rfl : c = 0 := by simpa using hc
  rw [State.matCell, State.at, h5]
  decide

theorem witness_NoMutationAfterCommit :
    Memory.wf (oneCell .committed).mem ∧ (oneCell .committed).pstage = .committed
      ∧ (∃ u, exec .build (oneCell .committed) = .next u) ∧ (oneCell .committed).pending = none :=
  ⟨by decide +kernel, rfl, ⟨_, rfl⟩, rfl⟩

theorem witness_RunIsItsSubCommands : State.reset.err = false := rfl

theorem witness_RunEndsCommittedOrFailed :
    let s := { State.reset with mode := 3#3 }
    s.err = false ∧ (∃ u, exec .run s = .next u) ∧ ∃ u, exec .runRaw s = .next u := by
  obtain ⟨u, h, _⟩ := exists_of_next (o := exec .run { State.reset with mode := 3#3 })
    (p := fun _ => true) (by decide +kernel)
  obtain ⟨w, g, _⟩ := exists_of_next (o := exec .runRaw { State.reset with mode := 3#3 })
    (p := fun _ => true) (by decide +kernel)
  exact ⟨rfl, ⟨u, h⟩, ⟨w, g⟩⟩

theorem witness_RunRawCommitsASymbol :
    Memory.wf rawA.mem ∧ rawA.mode.toNat ≤ 2 ∧ rawA.ecl.toNat ≤ 3 ∧ rawA.holdsBits (bin 0x41 8)
      ∧ (bin 0x41 8).length = rawA.rawLen.toNat
      ∧ leastFit rawA.mode.toNat rawA.ecl.toNat rawA.rawLen.toNat 1
      ∧ countFits rawA.mode.toNat rawA.ecl.toNat rawA.rawLen.toNat rawA.charCount.toNat 1 :=
  witness_SelectChoosesTheLeastVersion

theorem witness_RunCommitsASymbol :
    let s := { textA 2#3 with charCount := 1#16 }
    Memory.wf s.mem ∧ s.mode.toNat ≤ 2 ∧ s.ecl.toNat ≤ 3 ∧ s.holdsBytes .ibuf [0x41#8]
      ∧ [0x41#8].length = s.inLen.toNat
      ∧ (∀ l, alphabet s.mode.toNat = some l → [0x41#8] ≠ [] ∧ ∀ b ∈ [0x41#8], b.toNat ∈ l)
      ∧ leastFit s.mode.toNat s.ecl.toNat (rawLength s.mode.toNat [0x41#8].length) 1
      ∧ countFits s.mode.toNat s.ecl.toNat (rawLength s.mode.toNat [0x41#8].length)
          s.charCount.toNat 1 :=
  have hn : alphabet ({ textA 2#3 with charCount := 1#16 } : State).mode.toNat = none := by decide
  ⟨by decide +kernel, by decide, by decide, ⟨by decide, by decide +kernel⟩, by decide,
    fun l hl => absurd (hn.symm.trans hl) (by simp),
    least_fit_one 2 (le_refl _), count_fits_one 2 8 (le_refl _)⟩

/-- No entry anywhere. -/
def noTables : Tables where
  cap := fun _ _ => none
  nb := fun _ _ => none
  ecb := fun _ _ => none
  gen := fun _ => none
  apos := fun _ => none
  vcode := fun _ => none
  fcode := fun _ _ => none
  exp := fun _ => none
  log := fun _ => none

theorem witness_MissingTableEntriesAreReported :
    noTables.nb 1 0 = none ∧ ({ noTables with nb := fun _ _ => some 0 } : Tables).nb 1 0 = some 0
      ∧ (let T := { noTables with nb := fun _ _ => some 1 }
         T.nb 1 0 = some 1 ∧ 1 ≠ 0 ∧ T.ecb 1 0 = none)
      ∧ (let T := { noTables with nb := fun _ _ => some 1, ecb := fun _ _ => some 7 }
         T.nb 1 0 = some 1 ∧ T.ecb 1 0 = some 7 ∧ T.gen 7 = none)
      ∧ noTables.apos 7 = none
      ∧ (let T := { noTables with apos := fun _ => some [] }
         T.apos 7 = some [] ∧ 7 ≤ 7 ∧ T.vcode 7 = none)
      ∧ noTables.fcode 0 0 = none := by decide

theorem witness_MissingTableEntriesAreReported_operands :
    (let s := { State.reset with rsK := 7#7 }
     7 ≤ s.rsK.toNat ∧ s.rsK.toNat ≤ 68 ∧ s.rsLen.toNat ≤ 8192 ∧ noTables.gen s.rsK.toNat = none)
      ∧ State.reset.mode.toNat ≤ 2 ∧ State.reset.ecl.toNat ≤ 3 ∧ State.reset.rawLen.toNat ≤ 65536
      ∧ noTables.cap 1 State.reset.ecl.toNat = none
      ∧ ∀ y, 1 ≤ y → y < 1 → ∃ c, noTables.cap y 0 = some c :=
  ⟨by decide, by decide, by decide, by decide, rfl, fun _ _ h => by omega⟩

/-- RS_RAW on the byte 'A' with a generator of seven exponents, without a log table and without an antilog
table; and ECGEN without a log table. -/
theorem witness_MissingTableEntriesAreReported_field :
    (let s := put { State.reset with rsK := 7#7, rsLen := 1#14 } 0x4000 [0x41]
     let T := { noTables with gen := fun _ => some [1, 2, 3, 4, 5, 6, 7] }
     Memory.wf s.mem ∧ 7 ≤ s.rsK.toNat ∧ s.rsK.toNat ≤ 68
       ∧ T.gen s.rsK.toNat = some [1, 2, 3, 4, 5, 6, 7] ∧ [1, 2, 3, 4, 5, 6, 7].length = s.rsK.toNat
       ∧ s.holdsBytes .bbuf [0x41#8] ∧ [0x41#8].length = s.rsLen.toNat ∧ 0x41#8 ≠ 0#8
       ∧ T.log 0x41#8 = none
       ∧ (let T' := { T with log := gfLog }
          T'.log 0x41#8 = some 191 ∧ T'.exp ((1 + 191) % 255) = none))
      ∧ (let s := put { State.reset with capBits := 8#16 } 0x4000 [0x41]
         let T := { noTables with
                    nb := fun _ _ => some 1, ecb := fun _ _ => some 1, gen := fun _ => some [9] }
         Memory.wf s.mem ∧ T.nb 0 0 = some 1 ∧ T.ecb 0 0 = some 1 ∧ T.gen 1 = some [9]
           ∧ [9].length = 1 ∧ s.holdsBytes .bbuf [0x41#8] ∧ [0x41#8].length = s.capBits.toNat / 8
           ∧ 1 ≤ [0x41#8].length ∧ T.log 0x41#8 = none) :=
  ⟨⟨by decide +kernel, by decide, by decide, rfl, rfl, ⟨by decide, by decide +kernel⟩, by decide, by decide,
      rfl, by decide +kernel, rfl⟩,
    ⟨by decide +kernel, rfl, rfl, rfl, rfl, ⟨by decide, by decide +kernel⟩, by decide, by decide, rfl⟩⟩

theorem witness_StatusAndErrorRegistersRead : State.reset.pending = none := rfl

theorem witness_StandardTablesNeverMiss :
    (pipe .idle 152).Inv ∧ (pipe .idle 152).err = false
      ∧ ∃ u, exec .pad (pipe .idle 152) = .next u ∧ u.err = true :=
  ⟨pipe_inv _ _ (.inl rfl), rfl, _, rfl, rfl⟩

theorem witness_OnlyUnwrittenReadsStop :
    let s := { State.reset.accept (encode .encode) 0 with mode := 2#3, inLen := 1#14 }
    s.Inv ∧ step s = .fault (.unwrittenRead .encode 0x1000) ∧ stagesBefore .commit ≠ none := by
  have hr : ∀ q : PStage, q = .selected ∨ q = .padded ∨ q = .ecDone ∨ q = .interleaved
      ∨ q = .patternsPlaced → ¬ PStage.reached q .idle := by
    rintro q (rfl | rfl | rfl | rfl | rfl) h <;> exact absurd h.1 (by decide)
  exact ⟨⟨wf_reset, fun h => absurd h (hr _ (by simp)), fun h => absurd h (hr _ (by simp)),
    fun h => absurd h (hr _ (by simp)), fun h => absurd h (hr _ (by simp)),
    fun h => absurd h (hr _ (by simp))⟩, rfl, by decide⟩

end Sys2Proof.Tests
end

section
/-! PROOFS. The step and the host's turn branch by branch, the constructions behind the standard tables, and the
lookups that miss on any record of tables (00_scope.md). -/

namespace Sys2Proof.Machine

/-! ### The step and the host's turn, one equation for each branch -/

/-- With BUSY = 0 it is the host's turn. -/
theorem step_of_idle {s : State} (hp : s.pending = none) : step s = .next s.hostTurn := by
  simp only [step, hp]

/-- With a step of the environment left it is the host's turn, one step less. -/
theorem step_of_hold_succ {s : State} {w : Word} {h : Nat} (hp : s.pending = some w)
    (hh : s.hold = h + 1) : step s = .next ({ s with hold := h } : State).hostTurn := by
  simp only [step, hp, hh]

/-- With no step of the environment left it is the engine's turn. -/
theorem step_of_hold_zero {s : State} {w : Word} (hp : s.pending = some w) (hh : s.hold = 0) :
    step s = engineTurn w s := by
  simp only [step, hp, hh]

theorem engineTurn_of_decode_ok {w : Word} {i : Instr} (hd : decode w = .ok i) (s : State) :
    engineTurn w s = exec i s := by
  simp only [engineTurn, hd]

theorem hostTurn_of_nil {s : State} (hq : s.host = []) : s.hostTurn = s := by
  simp only [State.hostTurn, hq]

theorem hostTurn_of_read {s : State} {a : BusAddr} {n : AccSize} {q : List HostAction}
    (hq : s.host = .read a n :: q) : s.hostTurn = ({ s with host := q } : State).hostRead a n := by
  simp only [State.hostTurn, hq]

theorem hostTurn_of_write {s : State} {a : BusAddr} {n : AccSize} {v : Word} {q : List HostAction}
    (hq : s.host = .write a n v :: q) :
    s.hostTurn = ({ s with host := q } : State).hostWrite a n v := by
  simp only [State.hostTurn, hq]

theorem hostTurn_of_hardReset {s : State} {q : List HostAction} (hq : s.host = .hardReset :: q) :
    s.hostTurn = ({ s with host := q } : State).hardReset := by
  simp only [State.hostTurn, hq]

/-- WAIT leaves the queue when STATUS reads BUSY = 0. -/
theorem hostTurn_of_wait_idle {s : State} {q : List HostAction} (hq : s.host = .wait :: q)
    (hp : s.pending = none) :
    s.hostTurn = { s.hostRead 0x00008#17 .word with host := q } := by
  simp [State.hostTurn, hq, State.busy, hp]

/-- WAIT stays in the queue while STATUS reads BUSY = 1. -/
theorem hostTurn_of_wait_busy {s : State} {q : List HostAction} (hq : s.host = .wait :: q)
    (hp : s.pending ≠ none) : s.hostTurn = s.hostRead 0x00008#17 .word := by
  simp [State.hostTurn, hq, State.busy, Option.isSome_iff_ne_none, hp]

/-- Settles O14: each clause is one branch of the step or of the host's turn. -/
theorem stepRunsTheDecodedCommand : Obligations.StepRunsTheDecodedCommand :=
  ⟨fun s _ _ hp hh hd => (step_of_hold_zero hp hh).trans (engineTurn_of_decode_ok hd s),
    fun _ _ _ hp hh => step_of_hold_succ hp hh,
    fun _ hp => step_of_idle hp,
    fun _ _ _ _ hq => hostTurn_of_read hq,
    fun _ _ _ _ _ hq => hostTurn_of_write hq,
    fun _ _ hq => hostTurn_of_hardReset hq,
    fun _ _ hq => ⟨hostTurn_of_wait_idle hq, hostTurn_of_wait_busy hq⟩,
    fun _ hq => hostTurn_of_nil hq⟩

/-! ### The constructions behind the standard tables -/

theorem standardTables_wf : standardTables.wf = true := by decide +kernel

/-- Every level of a version has as many codewords, data and correction together, as level L
(42_gf_rs.md R197). -/
theorem stdTotal_level_eq : ∀ v < 41, ∀ l < 4, 1 ≤ v →
    (stdCap v l).getD 0 / 8 + (stdNb v l).getD 0 * (stdEcb v l).getD 0
      = (stdCap v 0).getD 0 / 8 + (stdNb v 0).getD 0 * (stdEcb v 0).getD 0 := by decide +kernel

/-- All levels of a version share one total number of codewords, which fits FBUF. -/
theorem stdTotal_exists {v : Nat} (h1 : 1 ≤ v) (h40 : v ≤ 40) :
    ∃ total, total ≤ 3706 ∧ ∀ l, l < 4 →
      ∃ c n k, stdCap v l = some c ∧ stdNb v l = some n ∧ stdEcb v l = some k
        ∧ c / 8 + n * k = total := by
  have hv : v < 41 := by omega
  refine ⟨_, stdTotal_table v hv 0 (by decide) h1, fun l hl => ?_⟩
  obtain ⟨c, hc, -⟩ := stdCap_table v hv l hl h1
  obtain ⟨n, k, hn, hk, -⟩ := stdNb_table v hv l hl h1
  have htotal := stdTotal_level_eq v hv l hl h1
  rw [hc, hn, hk] at htotal
  exact ⟨c, n, k, hc, hn, hk, htotal⟩

/-- Multiplication by α: a shift, reduced by the polynomial 0x11D (42_gf_rs.md R190). -/
def alphaTimes (x : Nat) : Nat := (x <<< 1) ^^^ (if 0x80 ≤ x then 0x11D else 0)

/-- EXP follows the recurrence, entry by entry. -/
theorem gfExp_succ_table : ∀ i < 254,
    (gfExp (i + 1)).map BitVec.toNat = (gfExp i).map fun x => alphaTimes x.toNat := by decide +kernel

theorem gfExp_succ {i : Nat} (hi : i < 254) :
    ∃ x y : Byte, gfExp i = some x ∧ gfExp (i + 1) = some y ∧ y.toNat = alphaTimes x.toNat := by
  obtain ⟨x, hx⟩ := Option.isSome_iff_exists.1 (gfExp_isSome i (by omega))
  obtain ⟨y, hy⟩ := Option.isSome_iff_exists.1 (gfExp_isSome (i + 1) (by omega))
  have hstep := gfExp_succ_table i hi
  rw [hx, hy] at hstep
  exact ⟨x, y, hx, hy, Option.some.inj hstep⟩

/-- LOG undoes EXP. -/
theorem gfLog_gfExp : ∀ i < 255, (gfExp i).bind gfLog = some i := by decide +kernel

/-- EXP undoes LOG. -/
theorem gfExp_gfLog : ∀ b : Byte, b ≠ 0#8 → (gfLog b).bind gfExp = some b := by decide +kernel

theorem gfLog_inverse {b : Byte} (hb : b ≠ 0#8) :
    ∃ i, i < 255 ∧ gfLog b = some i ∧ gfExp i = some b := by
  obtain ⟨i, hlog, hi⟩ := gfLog_isSome hb
  have hexp := gfExp_gfLog b hb
  rw [hlog] at hexp
  exact ⟨i, hi, hlog, hexp⟩

/-- The distance of neighbouring alignment centres of version V, but of the first two
(44_matrix_patterns.md R247). -/
def alignGap (V : Nat) : Nat :=
  let n := V / 7 + 2
  if V = 32 then 26 else (4 * V + 2 * n + 1) / (2 * n - 2) * 2

/-- The alignment centres of version V: 6, then the others, counted down from the last one
(44_matrix_patterns.md R247). -/
def alignConstruction (V : Nat) : List Nat :=
  6 :: (List.range (V / 7 + 2 - 1)).reverse.map fun i => 17 + 4 * V - 7 - i * alignGap V

theorem stdApos_eq_construction : ∀ V < 41, 2 ≤ V → stdApos V = some (alignConstruction V) := by
  decide +kernel

/-- The remainder of x, a polynomial over GF(2) of degree below d + n, on division by g of degree d. -/
def gf2Remainder (g d n x : Nat) : Nat :=
  (List.range n).reverse.foldl (fun x i => if x.testBit (i + d) then x ^^^ (g <<< i) else x) x

/-- A version code is the version, then the 12 bits that make it a multiple of 0x1F25
(44_matrix_patterns.md R248). -/
theorem stdVcode_construction : ∀ V < 41, 7 ≤ V →
    ∃ c, stdVcode V = some c ∧ c < 2 ^ 18 ∧ c / 2 ^ 12 = V ∧ gf2Remainder 0x1F25 12 6 c = 0 := by
  decide +kernel

/-- A format code, its mask 0x5412 taken off, is the level's indicator and the mask index, then the 10 bits that
make it a multiple of 0x537 (45_placement_mask.md R274). -/
theorem stdFcode_construction : ∀ l < 4, ∀ m < 8,
    ∃ c, stdFcode l m = some c ∧ c < 2 ^ 15
      ∧ (c ^^^ 0x5412) / 2 ^ 10 = ([1, 0, 3, 2].getD l 0) * 8 + m
      ∧ gf2Remainder 0x537 10 5 (c ^^^ 0x5412) = 0 := by decide +kernel

/-- Settles O56, table by table. -/
theorem tablesFollowTheirConstructions : Obligations.TablesFollowTheirConstructions :=
  ⟨standardTables_wf, fun _ => stdTotal_exists, rfl, fun _ => gfExp_succ, fun _ => gfExp_none,
    gfLog_gfExp, rfl, fun _ => gfLog_inverse,
    fun V h2 h40 => stdApos_eq_construction V (by omega) h2,
    fun V h7 h40 => stdVcode_construction V (by omega) h7,
    fun l m hl hm => stdFcode_construction l hl m hm⟩

/-! ### Missing entries: the generator and the division engine -/

theorem genOf_of_none {T : Tables} {k : Nat} (h : T.gen k = none) : genOf T k = none := by
  simp [genOf, h]

theorem genOf_of_some {T : Tables} {k : Nat} {gen : List Nat} (h : T.gen k = some gen)
    (hl : gen.length = k) : genOf T k = some gen := by
  simp [genOf, h, hl]

/-- The first step of the division, on the cleared buffer, ejects the first data byte itself
(42_gf_rs.md R195); where that is not 0, LOG is looked up for it. -/
theorem rsDiv_of_log_none {T : Tables} {b : Byte} (hb : b ≠ 0#8) (hlog : T.log b = none)
    (gen : List Nat) {k : Nat} (hk : 1 ≤ k) (rest : List Byte) :
    rsDiv T gen k (b :: rest) = .error (b.toNat, Config.logTableId.toNat) := by
  obtain ⟨k, rfl⟩ := Nat.exists_eq_add_of_le' hk
  have hstep : rsStep T gen (List.replicate (k + 1) 0#8) b
      = .error (b.toNat, Config.logTableId.toNat) := by
    simp [rsStep, List.replicate_succ, hb, logAt, hlog]
  rw [rsDiv, rsSteps, hstep]

/-- With the logarithm at hand, EXP is looked up for the first exponent of the generator. -/
theorem rsDiv_of_exp_none {T : Tables} {b : Byte} (hb : b ≠ 0#8) {lf g : Nat}
    (hlog : T.log b = some lf) (hexp : T.exp ((g + lf) % 255) = none) (gs : List Nat) {k : Nat}
    (hk : 1 ≤ k) (rest : List Byte) :
    rsDiv T (g :: gs) k (b :: rest) = .error ((g + lf) % 255, Config.expTableId.toNat) := by
  obtain ⟨k, rfl⟩ := Nat.exists_eq_add_of_le' hk
  obtain ⟨x, xs, hshifted⟩ : ∃ x xs, List.replicate k 0#8 ++ [0#8] = x :: xs :=
    List.exists_cons_of_ne_nil (by simp)
  have hstep : rsStep T (g :: gs) (List.replicate (k + 1) 0#8) b
      = .error ((g + lf) % 255, Config.expTableId.toNat) := by
    simp [rsStep, List.replicate_succ, hb, logAt, hlog, hshifted, addScaled, expAt, hexp]
  rw [rsDiv, rsSteps, hstep]

/-! ### Missing entries: RS_RAW -/

section RsRaw

variable {T : Tables} {s : State}

/-- RS_RAW's check of the degree passes from 7 to 68 (42_gf_rs.md R201). -/
theorem not_degree_out_of_range {k : Nat} (hmin : 7 ≤ k) (hmax : k ≤ 68) :
    ¬ (k < Config.kMin ∨ Config.kMax < k) := by
  simp only [Config.kMin, Config.kMax]; omega

theorem performRsRaw_of_gen_none (hmin : 7 ≤ s.rsK.toNat) (hmax : s.rsK.toNat ≤ 68)
    (hlen : s.rsLen.toNat ≤ 8192) (hgen : T.gen s.rsK.toNat = none) :
    performRsRaw T s = raiseTable s .rsRaw s.rsK.toNat 0 4 := by
  simp [performRsRaw, not_degree_out_of_range hmin hmax, Nat.not_lt.2 hlen, genOf_of_none hgen]

/-- A lookup that the division misses is what RS_RAW reports. -/
theorem performRsRaw_of_division_miss {gen : List Nat} {data : List Byte} {x table : Nat}
    (hm : Memory.wf s.mem) (hmin : 7 ≤ s.rsK.toNat) (hmax : s.rsK.toNat ≤ 68)
    (hgen : T.gen s.rsK.toNat = some gen) (hgl : gen.length = s.rsK.toNat)
    (hdata : s.holdsBytes .bbuf data) (hdl : data.length = s.rsLen.toNat)
    (hdiv : rsDiv T gen s.rsK.toNat data = .error (x, table)) :
    performRsRaw T s = raiseTable s .rsRaw x 0 table := by
  have hlen : ¬ 8192 < s.rsLen.toNat := Nat.not_lt.2 (hdl ▸ hdata.1)
  have hread := (readBuf_ok_iff hm.1 .rsRaw .bbuf _ _).2 ⟨hdl, hdata⟩
  simp [performRsRaw, not_degree_out_of_range hmin hmax, hlen, genOf_of_some hgen hgl, hread, hdiv]

end RsRaw

/-! ### Missing entries: ECGEN -/

section Ecgen

variable {T : Tables} {s : State}

theorem performEcgen_of_nb_missing
    (hnb : T.nb s.version.toNat s.selLevel.toNat = none
      ∨ T.nb s.version.toNat s.selLevel.toNat = some 0) :
    performEcgen T s = raiseTable s .ecgen s.version.toNat s.selLevel.toNat 2 := by
  rcases hnb with hnb | hnb <;> simp [performEcgen, hnb]

theorem performEcgen_of_ecb_none {N : Nat}
    (hnb : T.nb s.version.toNat s.selLevel.toNat = some N) (hN : N ≠ 0)
    (hecb : T.ecb s.version.toNat s.selLevel.toNat = none) :
    performEcgen T s = raiseTable s .ecgen s.version.toNat s.selLevel.toNat 3 := by
  simp [performEcgen, hnb, hecb]

theorem performEcgen_of_gen_none {N k : Nat}
    (hnb : T.nb s.version.toNat s.selLevel.toNat = some N) (hN : N ≠ 0)
    (hecb : T.ecb s.version.toNat s.selLevel.toNat = some k) (hgen : T.gen k = none) :
    performEcgen T s = raiseTable s .ecgen k 0 4 := by
  simp [performEcgen, hnb, hecb, genOf_of_none hgen]

/-- The first data block starts with the first data byte, for no block is empty (42_gf_rs.md R198). -/
theorem dataBlocks_eq_cons {N D : Nat} (hN : 1 ≤ N) (hND : N ≤ D) (b : Byte) (rest : List Byte) :
    ∃ block blocks, dataBlocks N (D / N) (D % N) (b :: rest) = (b :: block) :: blocks := by
  obtain ⟨n, rfl⟩ := Nat.exists_eq_add_of_le' hN
  have hoff : blockOff (n + 1) (D / (n + 1)) (D % (n + 1)) 0 = 0 := by
    have : D % (n + 1) < n + 1 := Nat.mod_lt D (Nat.succ_pos n)
    simp only [blockOff]; omega
  obtain ⟨l, hlen⟩ : ∃ l, blockLen (n + 1) (D / (n + 1)) (D % (n + 1)) 0 = l + 1 := by
    have := Nat.div_pos hND (Nat.succ_pos n)
    exact Nat.exists_eq_add_of_le' (Nat.le_add_right_of_le this)
  exact ⟨_, _, by rw [dataBlocks, List.range_succ_eq_map, List.map_cons, hoff, hlen]; rfl⟩

/-- A lookup that the first block's division misses is what ECGEN reports. -/
theorem performEcgen_of_division_miss {N k x table : Nat} {gen : List Nat} {b : Byte}
    {rest : List Byte} (hm : Memory.wf s.mem)
    (hnb : T.nb s.version.toNat s.selLevel.toNat = some N) (hN : 1 ≤ N)
    (hecb : T.ecb s.version.toNat s.selLevel.toNat = some k)
    (hgen : T.gen k = some gen) (hgl : gen.length = k)
    (hdata : s.holdsBytes .bbuf (b :: rest)) (hdl : (b :: rest).length = s.capBits.toNat / 8)
    (hND : N ≤ (b :: rest).length)
    (hdiv : ∀ block, rsDiv T gen k (b :: block) = .error (x, table)) :
    performEcgen T s = raiseTable s .ecgen x 0 table := by
  have hread := (readBuf_ok_iff hm.1 .ecgen .bbuf _ _).2 ⟨hdl, hdata⟩
  obtain ⟨block, blocks, hblocks⟩ := dataBlocks_eq_cons hN (hdl ▸ hND) b rest
  simp [performEcgen, hnb, Nat.one_le_iff_ne_zero.1 hN, hecb, genOf_of_some hgen hgl, hread, hblocks,
    divideBlocks, hdiv]

end Ecgen

/-! ### Missing entries: BUILD, TRIAL and COMMIT -/

theorem performBuild_of_apos_none {T : Tables} {s : State} (h : T.apos s.version.toNat = none) :
    performBuild T s = raiseTable s .build s.version.toNat 0 5 := by
  simp [performBuild, h]

theorem performBuild_of_vcode_none {T : Tables} {s : State} {P : List Nat}
    (hapos : T.apos s.version.toNat = some P) (h7 : 7 ≤ s.version.toNat)
    (h : T.vcode s.version.toNat = none) :
    performBuild T s = raiseTable s .build s.version.toNat 0 6 := by
  simp [performBuild, hapos, Nat.not_lt.2 h7, h]

theorem performTrial_of_fcode_none {T : Tables} {s : State} {m : Fin 8}
    (h : T.fcode s.selLevel.toNat m.val = none) :
    performTrial T m s = raiseTable s (.trial m) m.val s.selLevel.toNat 7 := by
  simp [performTrial, h]

theorem performCommit_of_fcode_none {T : Tables} {s : State}
    (h : T.fcode s.selLevel.toNat (selectMask s.scores).val = none) :
    performCommit T s = raiseTable s .commit (selectMask s.scores).val s.selLevel.toNat 7 := by
  simp [performCommit, h]

/-! ### Missing entries: SELECT -/

/-- Every version below x has a capacity, which is too small for the header and n raw bits, and a count field
wide enough: the search passes it by (41_capacity_padding.md R163 to R165). -/
def passedBelow (T : Tables) (mode l n cnt x : Nat) : Prop :=
  ∀ y, 1 ≤ y → y < x → ∃ c, T.cap y l = some c ∧ c < 4 + countWidth mode y + n
    ∧ cnt < 2 ^ countWidth mode y

section Select

variable {T : Tables} {mode l n cnt x : Nat}

/-- The fit loop ends at the first missing CAP entry that it reaches. -/
theorem fitVersion_of_cap_none (hx : T.cap x l = none) (hpass : passedBelow T mode l n cnt x)
    (k : Nat) {v : Nat} (h1 : 1 ≤ v) (hvx : v ≤ x) (hxk : x < v + k) :
    fitVersion T mode l n cnt k v = .error (capMissing x l) := by
  induction k generalizing v with
  | zero => omega
  | succ k ih =>
    obtain rfl | hlt := hvx.eq_or_lt
    · simp [fitVersion, hx]
    · obtain ⟨c, hc, hsmall, hcnt⟩ := hpass v h1 hlt
      simp [fitVersion, hc, Nat.not_le.2 hsmall, Nat.not_le.2 hcnt,
        ih (Nat.le_add_left 1 v) hlt (by omega)]

/-- The first step of the search ends below a missing CAP entry, or at it. -/
theorem firstVersion_of_cap_none (hx : T.cap x l = none) (hpass : passedBelow T mode l n cnt x)
    (k : Nat) {v : Nat} (h1 : 1 ≤ v) (hvx : v ≤ x) (hxk : x < v + k) :
    firstVersion T l n k v = .error (capMissing x l)
      ∨ ∃ v0, firstVersion T l n k v = .ok v0 ∧ 1 ≤ v0 ∧ v0 ≤ x := by
  induction k generalizing v with
  | zero => omega
  | succ k ih =>
    obtain rfl | hlt := hvx.eq_or_lt
    · exact .inl (by simp [firstVersion, hx])
    · obtain ⟨c, hc, -⟩ := hpass v h1 hlt
      by_cases hn : n < c
      · exact .inr ⟨v, by simp [firstVersion, hc, hn], h1, hvx⟩
      · simpa [firstVersion, hc, hn] using ih (Nat.le_add_left 1 v) hlt (by omega)

/-- The version search reports the first CAP entry it reaches and finds missing. -/
theorem searchVersion_of_cap_none (hx : T.cap x l = none) (hpass : passedBelow T mode l n cnt x)
    (h1 : 1 ≤ x) (h40 : x ≤ 40) : searchVersion T mode l n cnt = .error (capMissing x l) := by
  have hmax : Config.vMax = 40 := rfl
  obtain hfirst | ⟨v0, hfirst, hv1, hvx⟩ :=
    firstVersion_of_cap_none hx hpass Config.vMax (le_refl 1) h1 (by omega)
  · simp [searchVersion, hfirst]
  · have hfit := fitVersion_of_cap_none hx hpass (Config.vMax + 1 - v0) hv1 hvx (by omega)
    simp [searchVersion, hfirst, hfit]

end Select

theorem performSelect_of_cap_none {T : Tables} {s : State} {x : Nat} (hmode : s.mode.toNat ≤ 2)
    (hecl : s.ecl.toNat ≤ 3) (hraw : s.rawLen.toNat ≤ 65536) (h1 : 1 ≤ x) (h40 : x ≤ 40)
    (hx : T.cap x s.ecl.toNat = none)
    (hpass : passedBelow T s.mode.toNat s.ecl.toNat s.rawLen.toNat s.charCount.toNat x) :
    performSelect T s = raiseTable s .select x s.ecl.toNat 1 := by
  simp [performSelect, Nat.not_lt.2 hmode, Nat.not_lt.2 hecl, Nat.not_lt.2 hraw,
    searchVersion_of_cap_none hx hpass h1 h40, capMissing, raiseTable]

/-- Settles O57, command by command. -/
theorem missingTableEntriesAreReported : Obligations.MissingTableEntriesAreReported := by
  intro T s v l lost
  refine ⟨performEcgen_of_nb_missing, fun _ => performEcgen_of_ecb_none,
    fun _ _ => performEcgen_of_gen_none, performBuild_of_apos_none,
    fun _ => performBuild_of_vcode_none, fun _ => performTrial_of_fcode_none,
    performCommit_of_fcode_none, performRsRaw_of_gen_none, ?rsRaw, ?ecgen, ?select⟩
  case rsRaw =>
    intro gen b rest hm hmin hmax hgen hgl hdata hdl hb
    have hreport := fun x table =>
      performRsRaw_of_division_miss (x := x) (table := table) hm hmin hmax hgen hgl hdata hdl
    have hk : 1 ≤ s.rsK.toNat := by omega
    refine ⟨fun hlog => hreport _ _ (rsDiv_of_log_none hb hlog gen hk rest), ?_⟩
    rintro lf g gs hlog rfl hexp
    exact hreport _ _ (rsDiv_of_exp_none hb hlog hexp gs hk rest)
  case ecgen =>
    intro N k gen b rest hm hnb hecb hgen hgl hk hdata hdl hN hND hb hlog
    exact performEcgen_of_division_miss hm hnb hN hecb hgen hgl hdata hdl hND
      fun block => rsDiv_of_log_none hb hlog gen hk block
  case select =>
    intro x hmode hecl hraw h1 h40 hx hpass
    exact performSelect_of_cap_none hmode hecl hraw h1 h40 hx hpass

end Sys2Proof.Machine
end

section
/-! PROOFS. What the engine's reads and writes leave of the written flags, and how long the strings and blocks of
the pipeline are (10_state.md R57, 40_mode_encoder.md, 41_capacity_padding.md, 42_gf_rs.md, 43_interleave.md). -/

namespace Sys2Proof.Machine

/-! ### Written flags -/

/-- Every written flag that is set in `s` is set in `t` (10_state.md R57). -/
def State.keepsWritten (s t : State) : Prop := ∀ a, (s.at a).isSome = true → (t.at a).isSome = true

theorem State.keepsWritten.trans {s t u : State} (hst : s.keepsWritten t) (htu : t.keepsWritten u) :
    s.keepsWritten u := fun a h => htu a (hst a h)

theorem keepsWritten_of_mem_eq {s t : State} (h : t.mem = s.mem) : s.keepsWritten t := fun a ha => by
  rwa [State.at, h]

/-- No write clears a written flag. -/
theorem keepsWritten_of_write {s t : State} {us : Memory} (hu : us.rising) (hm : Memory.rising s.mem)
    (ht : t.mem = Memory.write us s.mem) : s.keepsWritten t := fun a ha => by
  rw [State.at, ht, Memory.lookup_write hu hm]
  cases Memory.lookup us a with
  | none => exact ha
  | some b => rfl

theorem State.written.mono {s t : State} (hw : s.keepsWritten t) {b : Buf} {n : Nat}
    (h : s.written b n) : t.written b n := ⟨h.1, fun i hi => hw _ (h.2 i hi)⟩

theorem isSome_matCell (s : State) (r c : Nat) :
    (s.matCell r c).isSome = (s.at (cellAddr r c)).isSome := Option.isSome_map

theorem State.cellsWritten.mono {s t : State} (hw : s.keepsWritten t) {n : Nat}
    (h : s.cellsWritten n) : t.cellsWritten n := ⟨h.1, fun r c hr hc => by
  rw [isSome_matCell]
  exact hw _ (isSome_matCell s r c ▸ h.2 r c hr hc)⟩

/-- The bytes of a buffer write are written. -/
theorem written_writeBuf {s : State} (hm : Memory.rising s.mem) {b : Buf} {bs : List Byte}
    (h : bs.length ≤ b.size) : (s.writeBuf b bs).written b bs.length :=
  ⟨h, fun i hi => by rw [byte_writeBuf hm b bs hi, List.getElem?_eq_getElem hi]; rfl⟩

theorem written_storeBits {s : State} (hm : Memory.rising s.mem) {x : Bits} (h : x.length ≤ 65536) :
    (s.storeBits x).written .bbuf ((x.length + 7) / 8) := by
  have hsize : (packBytes x).length ≤ Buf.bbuf.size := by
    rw [packBytes_length, Buf.size, Config.bbufSize]; omega
  have hw := written_writeBuf hm hsize
  rwa [packBytes_length] at hw

theorem State.holdsGrid.cellsWritten {s : State} {n : Nat} {g : Grid} (h : s.holdsGrid n g) :
    s.cellsWritten n := by
  obtain ⟨hn, -, -, hcell⟩ := h
  exact ⟨hn, fun r c hr hc => by rw [hcell r c hr hc]; rfl⟩

/-! ### Reads that stop -/

/-- A read along rising addresses stops at one of them that is not written. -/
theorem Memory.readSeq_error {m : Memory} (hm : m.rising) {as : List Nat} (ha : as.Pairwise (· < ·))
    {a : Nat} (h : Memory.readSeq as m = .error a) : a ∈ as ∧ Memory.lookup m a = none := by
  rw [Memory.readSeq_eq hm ha] at h
  cases hf : as.find? (fun a => (Memory.lookup m a).isNone) with
  | none => simp [hf] at h
  | some x =>
    simp only [hf, Except.error.injEq] at h
    subst h
    exact ⟨List.mem_of_find?_eq_some hf, by simpa using List.find?_some hf⟩

/-- The fault is UNWRITTEN_READ at a byte or cell whose written flag is clear (10_state.md R57). -/
def State.missingAt (s : State) (f : Fault) : Prop :=
  ∃ i a, f = .unwrittenRead i a ∧ (isBufByte a = true ∨ isCell a = true) ∧ s.at a = none

theorem State.missingAt.mono {s t : State} (hw : s.keepsWritten t) {f : Fault} (h : t.missingAt f) :
    s.missingAt f := by
  obtain ⟨i, a, hf, hmem, ha⟩ := h
  refine ⟨i, a, hf, hmem, ?_⟩
  by_contra hs
  have := hw a (Option.isSome_iff_ne_none.2 hs)
  simp [ha] at this

/-- A read of a part of a buffer stops at a byte of that part that is not written. -/
theorem readBuf_error {s : State} (hm : Memory.rising s.mem) {cmd : Instr} {b : Buf} {n : Nat} {f : Fault}
    (hn : n ≤ b.size) (h : readBuf cmd b n s = .error f) :
    ∃ i, i < n ∧ f = .unwrittenRead cmd (b.base + i) ∧ s.byte b i = none := by
  rw [readBuf, Nat.min_eq_left hn] at h
  cases hr : Memory.readSeq (List.range' b.base n) s.mem with
  | ok bs => simp [hr, hn] at h
  | error a =>
    simp only [hr, Except.error.injEq] at h
    obtain ⟨ha, hnone⟩ := Memory.readSeq_error hm (pairwise_range' _ _) hr
    obtain ⟨i, hi, rfl⟩ := List.mem_range'.1 ha
    exact ⟨i, hi, by simp [← h], by simpa [State.byte, State.at] using hnone⟩

theorem missingAt_of_readBuf_error {s : State} (hm : Memory.rising s.mem) {cmd : Instr} {b : Buf} {n : Nat}
    {f : Fault} (hn : n ≤ b.size) (h : readBuf cmd b n s = .error f) : s.missingAt f := by
  obtain ⟨i, hi, hf, hnone⟩ := readBuf_error hm hn h
  exact ⟨cmd, _, hf, .inl (isBufByte_of_within (b := b) ⟨by omega, by omega⟩), hnone⟩

/-- A read of written bytes does not stop. -/
theorem readBuf_ne_error {s : State} (hm : Memory.rising s.mem) {cmd : Instr} {b : Buf} {n : Nat}
    (hw : s.written b n) (f : Fault) : readBuf cmd b n s ≠ .error f := fun h => by
  obtain ⟨i, hi, -, hnone⟩ := readBuf_error hm hw.1 h
  simpa [hnone] using hw.2 i hi

theorem readBuf_of_loadBits_error {s : State} {cmd : Instr} {n : Nat} {f : Fault}
    (h : loadBits cmd n s = .error f) : readBuf cmd .bbuf ((n + 7) / 8) s = .error f := by
  rw [loadBits] at h
  cases hr : readBuf cmd .bbuf ((n + 7) / 8) s with
  | error x => simpa [hr] using h
  | ok bs => simp [hr] at h

theorem isCell_cellAddr {r c : Nat} (hr : r < Config.sMax) (hc : c < Config.sMax) :
    isCell (cellAddr r c) = true := by
  have hs : Config.sMax = 177 := rfl
  have hb : matBase = 0x10000 := rfl
  simp only [isCell, inMatWindow, Bool.and_eq_true, decide_eq_true_eq]
  unfold cellAddr
  omega

/-- A read of a part of MAT stops at a cell of that part that is not written. -/
theorem loadGrid_error {s : State} (hm : Memory.rising s.mem) {cmd : Instr} {n : Nat} {f : Fault}
    (hn : n ≤ Config.sMax) (h : loadGrid cmd n s = .error f) :
    ∃ r c, r < n ∧ c < n ∧ f = .unwrittenRead cmd (cellAddr r c) ∧ s.at (cellAddr r c) = none := by
  rw [loadGrid, if_neg (Nat.not_lt.2 hn)] at h
  cases hread : Memory.readSeq (cellAddrs n) s.mem with
  | ok bs => simp [hread] at h
  | error a =>
    simp only [hread, Except.error.injEq] at h
    obtain ⟨ha, hnone⟩ := Memory.readSeq_error hm (cellAddrs_rising (le_trans hn (by decide))) hread
    simp only [cellAddrs, List.mem_flatMap, List.mem_map, List.mem_range] at ha
    obtain ⟨r, hr, c, hc, rfl⟩ := ha
    exact ⟨r, c, hr, hc, h.symm, hnone⟩

theorem missingAt_of_loadGrid_error {s : State} (hm : Memory.rising s.mem) {cmd : Instr} {n : Nat}
    {f : Fault} (hn : n ≤ Config.sMax) (h : loadGrid cmd n s = .error f) : s.missingAt f := by
  obtain ⟨r, c, hr, hc, hf, hnone⟩ := loadGrid_error hm hn h
  exact ⟨cmd, _, hf, .inr (isCell_cellAddr (by omega) (by omega)), hnone⟩

/-- A read of written cells does not stop. -/
theorem loadGrid_ne_error {s : State} (hm : Memory.rising s.mem) {cmd : Instr} {n : Nat}
    (hw : s.cellsWritten n) (f : Fault) : loadGrid cmd n s ≠ .error f := fun h => by
  obtain ⟨r, c, hr, hc, -, hnone⟩ := loadGrid_error hm hw.1 h
  simpa [isSome_matCell, hnone] using hw.2 r c hr hc

/-! ### Lengths: bit strings -/

theorem textValues_length {value : Byte → Option Nat} {t : List Byte} {i : Nat} {vs : List Nat}
    (h : textValues value t i = .ok vs) : vs.length = t.length := by
  induction t generalizing i vs with
  | nil => cases h; rfl
  | cons b t ih =>
    rw [textValues] at h
    cases hv : value b with
    | none => simp [hv] at h
    | some v =>
      cases hrest : textValues value t (i + 1) with
      | error j => simp [hv, hrest] at h
      | ok ws =>
        simp only [hv, hrest, Except.ok.injEq] at h
        simp [← h, ih hrest]

theorem alphabetText_length {value : Byte → Option Nat} {t : List Byte} {vs : List Nat}
    (h : alphabetText value t = .ok vs) : vs.length = t.length := by
  rw [alphabetText] at h
  split at h
  · simp at h
  · exact textValues_length h

theorem digitBits_length_le (ds : List Nat) : (digitBits ds).length ≤ 8 * ds.length := by
  induction ds using digitBits.induct with
  | case1 d0 d1 d2 ds ih => simp [digitBits]; omega
  | case2 => simp [digitBits]
  | case3 => simp [digitBits]
  | case4 => simp [digitBits]

theorem alnumBits_length_le (cs : List Nat) : (alnumBits cs).length ≤ 8 * cs.length := by
  induction cs using alnumBits.induct with
  | case1 a b cs ih => simp [alnumBits]; omega
  | case2 => simp [alnumBits]
  | case3 => simp [alnumBits]

/-- No mode needs more than eight bits for each byte of the text (40_mode_encoder.md R146). -/
theorem encodeText_length_le {mode : Nat} {t : List Byte} {x : Bits} (h : encodeText mode t = .ok x) :
    x.length ≤ 8 * t.length := by
  unfold encodeText at h
  split at h
  · cases ht : alphabetText digitValue t with
    | error i => simp [ht, Except.map] at h
    | ok vs =>
      simp only [ht, Except.map, Except.ok.injEq] at h
      rw [← h, ← alphabetText_length ht]
      exact digitBits_length_le vs
  · cases ht : alphabetText alnumValue t with
    | error i => simp [ht, Except.map] at h
    | ok vs =>
      simp only [ht, Except.map, Except.ok.injEq] at h
      rw [← h, ← alphabetText_length ht]
      exact alnumBits_length_le vs
  · simp only [Except.ok.injEq] at h
    simp [← h, byteBits]

theorem modeIndicator_length (mode : Nat) : (modeIndicator mode).length = 4 := by
  unfold modeIndicator; split <;> rfl

@[simp] theorem header_length (mode v cnt : Nat) : (header mode v cnt).length = 4 + countWidth mode v := by
  rw [header, List.length_append, modeIndicator_length, bin_length]

theorem countWidth_le (mode v : Nat) : countWidth mode v ≤ 16 := by
  unfold countWidth; repeat' split
  all_goals decide

/-- A terminated stream ends on a byte boundary (41_capacity_padding.md R169). -/
theorem terminate_length (c : Nat) (x : Bits) :
    (terminate c x).length = (x.length + min 4 (c - x.length) + 7) / 8 * 8 := by
  simp only [terminate, zeros, List.length_append, List.length_replicate]; omega

theorem padByte_length (i : Nat) : (padByte i).length = 8 := by
  unfold padByte; split <;> rfl

theorem padStream_length (c : Nat) (x : Bits) : (padStream c x).length =
    (terminate c x).length + (c - (terminate c x).length + 7) / 8 * 8 := by
  simp [padStream, List.length_flatMap, padByte_length]

/-- A stream that fits the capacity is padded to it (41_capacity_padding.md R171). -/
theorem padStream_length_of_fits {c : Nat} {x : Bits} (hx : x.length ≤ c) (hc : c % 8 = 0) :
    (padStream c x).length = c := by
  rw [padStream_length, terminate_length]; omega

theorem padStream_length_le (c : Nat) (x : Bits) : (padStream c x).length ≤ max x.length c + 18 := by
  rw [padStream_length, terminate_length]; omega

/-! ### Lengths: blocks and codewords -/

/-- A block starts where the one before it ends (42_gf_rs.md R198). -/
theorem blockOff_succ (N b r j : Nat) : blockOff N b r (j + 1) = blockOff N b r j + blockLen N b r j := by
  simp only [blockOff, blockLen, Nat.succ_mul]; split <;> omega

/-- The first n blocks are as long as the offset of the next one. -/
theorem sum_blockLen (N b r n : Nat) (h : r ≤ N) :
    ((List.range n).map (blockLen N b r)).sum = blockOff N b r n := by
  induction n with
  | zero => simp only [blockOff]; simp; omega
  | succ n ih => rw [List.range_succ, List.map_append, List.sum_append, ih, blockOff_succ]; simp

theorem blockOff_mono (N b r : Nat) : Monotone (blockOff N b r) :=
  monotone_nat_of_le_succ fun j => by rw [blockOff_succ]; omega

theorem blockOff_end (N b r : Nat) : blockOff N b r N = N * b + r := by simp [blockOff]

theorem dataBlocks_map_length {N b r : Nat} {data : List Byte} (hd : data.length = N * b + r) :
    (dataBlocks N b r data).map List.length = (List.range N).map (blockLen N b r) := by
  rw [dataBlocks, List.map_map]
  refine List.map_congr_left fun j hj => ?_
  have hend : blockOff N b r (j + 1) ≤ N * b + r :=
    blockOff_end N b r ▸ blockOff_mono N b r (List.mem_range.1 hj)
  rw [blockOff_succ] at hend
  simp only [Function.comp_apply, List.length_take, List.length_drop]
  omega

theorem chunks_map_length {α : Type} (n k : Nat) (l : List α) (h : l.length = k * n) :
    (chunks n k l).map List.length = List.replicate k n := by
  induction k generalizing l with
  | zero => rfl
  | succ k ih =>
    rw [Nat.succ_mul] at h
    rw [chunks, List.map_cons, ih _ (by rw [List.length_drop]; omega), List.replicate_succ,
      List.length_take, Nat.min_eq_left (by omega)]

/-- A block puts its bytes of the first columns into a column-major walk (43_interleave.md R231). -/
theorem columnWalk_cons_length (cols : Nat) (b : List Byte) (blocks : List (List Byte)) :
    (columnWalk cols (b :: blocks)).length = min cols b.length + (columnWalk cols blocks).length := by
  induction cols with
  | zero => simp [columnWalk]
  | succ cols ih =>
    simp only [columnWalk, List.length_flatMap] at ih ⊢
    rw [List.range_succ, List.map_append, List.map_append, List.sum_append, List.sum_append, ih]
    by_cases h : cols < b.length
    · simp [h]; omega
    · simp [h]; omega

/-- A walk over enough columns takes every byte of every block (43_interleave.md R231). -/
theorem columnWalk_length {cols : Nat} {blocks : List (List Byte)}
    (h : ∀ l ∈ blocks.map List.length, l ≤ cols) :
    (columnWalk cols blocks).length = (blocks.map List.length).sum := by
  induction blocks with
  | nil => simp [columnWalk]
  | cons b blocks ih =>
    rw [List.map_cons, List.forall_mem_cons] at h
    rw [columnWalk_cons_length, ih h.2, Nat.min_eq_right h.1]
    rfl

/-- The final sequence holds every data and every correction codeword (43_interleave.md R232). -/
theorem interleaved_length {N k b r : Nat} {data ec : List Byte} (hr : r ≤ N)
    (hd : data.length = N * b + r) (he : ec.length = N * k) :
    (interleaved N k b r data ec).length = data.length + N * k := by
  have hdata : ∀ l ∈ (dataBlocks N b r data).map List.length, l ≤ b + if 0 < r then 1 else 0 := by
    rw [dataBlocks_map_length hd]
    intro l hl
    obtain ⟨j, hj, rfl⟩ := List.mem_map.1 hl
    have := List.mem_range.1 hj
    simp only [blockLen]
    split_ifs <;> omega
  have hec : ∀ l ∈ (chunks k N ec).map List.length, l ≤ k := by
    rw [chunks_map_length k N ec he]
    exact fun l hl => (List.eq_of_mem_replicate hl).le
  rw [interleaved, List.length_append, columnWalk_length hdata, columnWalk_length hec,
    dataBlocks_map_length hd, chunks_map_length k N ec he, sum_blockLen N b r N hr, blockOff_end]
  simp [hd]

theorem divideBlocks_length {gen : List Nat} {k : Nat} (hg : gen.length = k) (hk : 1 ≤ k)
    {blocks : List (List Byte)} {ec : List Byte}
    (h : divideBlocks standardTables gen k blocks = .ok ec) : ec.length = blocks.length * k := by
  obtain ⟨es, hes, hall⟩ := divideBlocks_standard hg hk blocks
  rw [h, Except.ok.injEq] at hes
  have hlen : ∀ e ∈ es, e.length = k := by
    intro e he
    obtain ⟨i, hi, rfl⟩ := List.getElem_of_mem he
    exact (List.forall₂_iff_get.1 hall).2 i (by rw [hall.length_eq]; exact hi) hi |>.2
  rw [hes, List.length_flatten, List.map_congr_left hlen, List.map_const', List.sum_replicate,
    hall.length_eq, smul_eq_mul]

theorem rsDiv_length {gen : List Nat} {k : Nat} (hg : gen.length = k) (hk : 1 ≤ k) {data ec : List Byte}
    (h : rsDiv standardTables gen k data = .ok ec) : ec.length = k := by
  obtain ⟨e, he, hlen⟩ := rsDiv_standard hg hk data
  rw [h, Except.ok.injEq] at he
  rw [he, hlen]

theorem dataBlocks_length (N b r : Nat) (data : List Byte) : (dataBlocks N b r data).length = N := by
  simp [dataBlocks]

end Sys2Proof.Machine
end

section
/-! PROOFS. How each family rule can end, and the invariant of memory and pipeline: every command, every turn of
the host and every step keeps it, and no command behind a stage check stops (10_state.md R24, R57,
30_encoding.md R103, R105, 60_exceptions.md R358). -/

namespace Sys2Proof.Machine

/-! ### How a family rule can end -/

/-- The family rule behind a command's stage check, on QRCE's tables. -/
def familyRule : Instr → State → Perf
  | .nop => performNop
  | .encode => performEncode
  | .select => performSelect standardTables
  | .pad => performPad
  | .ecgen => performEcgen standardTables
  | .interleave => performInterleave
  | .build => performBuild standardTables
  | .trial m => performTrial standardTables m
  | .commit => performCommit standardTables
  | .score => performScore
  | .runRaw => performRunRaw standardTables
  | .run => performRun standardTables
  | .rsRaw => performRsRaw standardTables

theorem exec_eq_finish (i : Instr) (s : State) : exec i s = (staged i (familyRule i) s).finish := by
  cases i <;> rfl

/-- RUN_RAW is the commands of its pipeline, one after the other (47_control.md R333). -/
theorem familyRule_runRaw (s : State) :
    familyRule .runRaw s = performAll (rawPipeline.map fun i => staged i (familyRule i)) s := rfl

/-- RUN is ENCODE, then the commands of RUN_RAW (47_control.md R332). -/
theorem familyRule_run (s : State) : familyRule .run s =
    performAll ((.encode :: rawPipeline).map fun i => staged i (familyRule i)) s := rfl

/-- A command is performed by its family rule in its stage, and else fails with E_SEQUENCE. -/
theorem staged_cases (i : Instr) (body : State → Perf) (s : State) :
    (mayStart i s ∧ staged i body s = body s)
      ∨ staged i body s = .failed (s.fail i .sequence (sequenceInfo s i)) := by
  by_cases h : stageOk s i = true
  · exact .inl ⟨(stageOk_iff s i).1 h, if_pos h⟩
  · exact .inr (if_neg h)

/-- ENCODE raises an error, or stops at its text, or stores the text's bit string. -/
theorem performEncode_cases (s : State) :
    (∃ e x, performEncode s = raise s .encode e x)
      ∨ (∃ f, s.inLen.toNat ≤ Config.ibufSize ∧ readBuf .encode .ibuf s.inLen.toNat s = .error f
          ∧ performEncode s = .stopped f)
      ∨ ∃ t bits, s.inLen.toNat ≤ Config.ibufSize ∧ readBuf .encode .ibuf s.inLen.toNat s = .ok t
          ∧ encodeText s.mode.toNat t = .ok bits
          ∧ performEncode s = .ok
            { s.storeBits bits with rawLen := BitVec.ofNat 17 bits.length, pstage := .encoded } := by
  rw [performEncode]
  dsimp only
  split
  · exact .inl ⟨_, _, rfl⟩
  split
  · exact .inl ⟨_, _, rfl⟩
  next hn =>
  split
  next f hread => exact .inr (.inl ⟨f, Nat.not_lt.1 hn, hread, rfl⟩)
  next t hread =>
  split
  · exact .inl ⟨_, _, rfl⟩
  next bits htext => exact .inr (.inr ⟨t, bits, Nat.not_lt.1 hn, hread, htext, rfl⟩)

/-- The first step of the search answers one of the versions it tries. -/
theorem firstVersion_ok {T : Tables} {l n k v v0 : Nat} (h : firstVersion T l n k v = .ok v0) :
    v ≤ v0 ∧ v0 < v + k := by
  induction k generalizing v with
  | zero => simp [firstVersion] at h
  | succ k ih =>
    rw [firstVersion] at h
    split at h
    · simp at h
    · split at h
      · simp only [Except.ok.injEq] at h; omega
      · have := ih h; omega

/-- The fit loop answers one of the versions it tries, and header and data fit its capacity. -/
theorem fitVersion_ok {T : Tables} {mode l n cnt k v w c : Nat}
    (h : fitVersion T mode l n cnt k v = .ok (w, c)) :
    v ≤ w ∧ w < v + k ∧ T.cap w l = some c ∧ 4 + countWidth mode w + n ≤ c := by
  induction k generalizing v with
  | zero => simp [fitVersion] at h
  | succ k ih =>
    rw [fitVersion] at h
    split at h
    · simp at h
    next c' hc =>
    split at h
    · simp at h
    split at h
    next hfit =>
      simp only [Except.ok.injEq, Prod.mk.injEq] at h
      obtain ⟨rfl, rfl⟩ := h
      exact ⟨le_refl _, by omega, hc, hfit⟩
    · obtain ⟨hv, hw, hfit⟩ := ih h
      exact ⟨by omega, by omega, hfit⟩

/-- The version search answers a version of 1 to 40 whose capacity holds header and data
(41_capacity_padding.md R165). -/
theorem searchVersion_ok {T : Tables} {mode l n cnt v c : Nat}
    (h : searchVersion T mode l n cnt = .ok (v, c)) :
    1 ≤ v ∧ v ≤ Config.vMax ∧ T.cap v l = some c ∧ 4 + countWidth mode v + n ≤ c := by
  rw [searchVersion] at h
  split at h
  · simp at h
  next v0 hfirst =>
  have hv0 := firstVersion_ok hfirst
  obtain ⟨h1, h2, h3⟩ := fitVersion_ok h
  exact ⟨by omega, by omega, h3⟩

/-- SELECT raises an error, or stops at the raw string, or leaves the selected version's stream. -/
theorem performSelect_cases (T : Tables) (s : State) :
    (∃ e x, performSelect T s = raise s .select e x)
      ∨ (∃ f, s.rawLen.toNat ≤ 65536 ∧ loadBits .select s.rawLen.toNat s = .error f
          ∧ performSelect T s = .stopped f)
      ∨ ∃ v c raw, s.ecl.toNat ≤ 3 ∧ s.rawLen.toNat ≤ 65536
          ∧ searchVersion T s.mode.toNat s.ecl.toNat s.rawLen.toNat s.charCount.toNat = .ok (v, c)
          ∧ loadBits .select s.rawLen.toNat s = .ok raw
          ∧ performSelect T s = .ok (s.selected s.mode.toNat s.ecl.toNat v c raw) := by
  rw [performSelect]
  split
  · exact .inl ⟨_, _, rfl⟩
  split
  · exact .inl ⟨_, _, rfl⟩
  next hl =>
  split
  · exact .inl ⟨_, _, rfl⟩
  next hn =>
  split
  · exact .inl ⟨_, _, rfl⟩
  next v c hsearch =>
  split
  next f hload => exact .inr (.inl ⟨f, Nat.not_lt.1 hn, hload, rfl⟩)
  next raw hload =>
  exact .inr (.inr ⟨v, c, raw, Nat.not_lt.1 hl, Nat.not_lt.1 hn, hsearch, hload, rfl⟩)

/-- PAD stops at the stream, or stores the padded stream. -/
theorem performPad_cases (s : State) :
    (∃ f, loadBits .pad s.streamLen.toNat s = .error f ∧ performPad s = .stopped f)
      ∨ ∃ x, loadBits .pad s.streamLen.toNat s = .ok x
          ∧ performPad s = .ok
            { s.storeBits (padStream s.capBits.toNat x) with
              streamLen := BitVec.ofNat 17 s.capBits.toNat, pstage := .padded } := by
  rw [performPad]
  dsimp only
  split
  next f hload => exact .inl ⟨f, hload, rfl⟩
  next x hload => exact .inr ⟨x, hload, rfl⟩

/-- ECGEN raises an error, or stops at the data, or leaves the correction blocks. -/
theorem performEcgen_cases (T : Tables) (s : State) :
    (∃ e x, performEcgen T s = raise s .ecgen e x)
      ∨ (∃ f, readBuf .ecgen .bbuf (s.capBits.toNat / 8) s = .error f ∧ performEcgen T s = .stopped f)
      ∨ ∃ N k gen data ec, T.nb s.version.toNat s.selLevel.toNat = some N
          ∧ T.ecb s.version.toNat s.selLevel.toNat = some k ∧ genOf T k = some gen
          ∧ readBuf .ecgen .bbuf (s.capBits.toNat / 8) s = .ok data
          ∧ divideBlocks T gen k (dataBlocks N (s.capBits.toNat / 8 / N) (s.capBits.toNat / 8 % N) data)
              = .ok ec
          ∧ performEcgen T s = .ok (s.ecGenerated N k ec) := by
  rw [performEcgen]
  dsimp only
  split
  · exact .inl ⟨_, _, rfl⟩
  · exact .inl ⟨_, _, rfl⟩
  next N _ hnb =>
  split
  · exact .inl ⟨_, _, rfl⟩
  next k hecb =>
  split
  · exact .inl ⟨_, _, rfl⟩
  next gen hgen =>
  split
  next f hread => exact .inr (.inl ⟨f, hread, rfl⟩)
  next data hread =>
  split
  · exact .inl ⟨_, _, rfl⟩
  next ec hdiv => exact .inr (.inr ⟨N, k, gen, data, ec, hnb, hecb, hgen, hread, hdiv, rfl⟩)

/-- RS_RAW raises an error, or stops at the data, or leaves the correction bytes. -/
theorem performRsRaw_cases (T : Tables) (s : State) :
    (∃ e x, performRsRaw T s = raise s .rsRaw e x)
      ∨ (∃ f, s.rsLen.toNat ≤ 8192 ∧ readBuf .rsRaw .bbuf s.rsLen.toNat s = .error f
          ∧ performRsRaw T s = .stopped f)
      ∨ ∃ gen data ec, genOf T s.rsK.toNat = some gen ∧ rsDiv T gen s.rsK.toNat data = .ok ec
          ∧ performRsRaw T s = .ok
            { s.writeBuf .ebuf ec with ecLen := BitVec.ofNat 7 s.rsK.toNat, pstage := .idle } := by
  rw [performRsRaw]
  dsimp only
  split
  · exact .inl ⟨_, _, rfl⟩
  split
  · exact .inl ⟨_, _, rfl⟩
  next hn =>
  split
  · exact .inl ⟨_, _, rfl⟩
  next gen hgen =>
  split
  next f hread => exact .inr (.inl ⟨f, Nat.not_lt.1 hn, hread, rfl⟩)
  next data hread =>
  split
  · exact .inl ⟨_, _, rfl⟩
  next ec hdiv => exact .inr (.inr ⟨gen, data, ec, hgen, hdiv, rfl⟩)

/-- The number of data bytes INTERLEAVE reads: the data blocks end at byte N·b + r, or there is none. -/
def interleaveReads (s : State) : Nat :=
  if s.numBlocks.toNat = 0 then 0
  else s.numBlocks.toNat * s.blkShort.toNat + s.blkNlong.toNat

/-- INTERLEAVE stops at the data, at the correction blocks or at the end of FBUF, or leaves the final
sequence. -/
theorem performInterleave_cases (s : State) :
    (∃ f, readBuf .interleave .bbuf (interleaveReads s) s = .error f ∧ performInterleave s = .stopped f)
      ∨ (∃ f, readBuf .interleave .ebuf (s.numBlocks.toNat * s.ecLen.toNat) s = .error f
          ∧ performInterleave s = .stopped f)
      ∨ ∃ data ec out, readBuf .interleave .bbuf (interleaveReads s) s = .ok data
          ∧ readBuf .interleave .ebuf (s.numBlocks.toNat * s.ecLen.toNat) s = .ok ec
          ∧ out = interleaved s.numBlocks.toNat s.ecLen.toNat s.blkShort.toNat s.blkNlong.toNat data ec
          ∧ ((Config.fbufSize < out.length ∧ ∃ f, performInterleave s = .stopped f)
            ∨ (out.length ≤ Config.fbufSize ∧ performInterleave s = .ok
              { s.writeBuf .fbuf out with
                totalCw := BitVec.ofNat 12 out.length, pstage := .interleaved })) := by
  rw [performInterleave]
  dsimp only
  rw [← interleaveReads]
  split
  next f hdata => exact .inl ⟨f, hdata, rfl⟩
  next data hdata =>
  split
  next f hec => exact .inr (.inl ⟨f, hec, rfl⟩)
  next ec hec =>
  refine .inr (.inr ⟨data, ec, _, hdata, hec, rfl, ?_⟩)
  split
  next h => exact .inl ⟨h, _, rfl⟩
  next h => exact .inr ⟨Nat.not_lt.1 h, rfl⟩

/-- BUILD raises an error, or leaves the stamped symbol; it reads no memory. -/
theorem performBuild_cases (T : Tables) (s : State) :
    (∃ e x, performBuild T s = raise s .build e x)
      ∨ ∃ P code, performBuild T s = .ok (s.built s.version.toNat P code) := by
  rw [performBuild]
  split
  · exact .inl ⟨_, _, rfl⟩
  split
  · exact .inr ⟨_, _, rfl⟩
  split
  · exact .inl ⟨_, _, rfl⟩
  · exact .inr ⟨_, _, rfl⟩

/-- SCORE raises an error, or stops at its square, or leaves the penalty breakdown. -/
theorem performScore_cases (s : State) :
    (∃ e x, performScore s = raise s .score e x)
      ∨ (∃ f, s.scoreN.toNat ≤ Config.sMax ∧ loadGrid .score s.scoreN.toNat s = .error f
          ∧ performScore s = .stopped f)
      ∨ ∃ p, performScore s = .ok { s with penalty := p } := by
  rw [performScore]
  split
  · exact .inl ⟨_, _, rfl⟩
  next hn =>
  split
  next f hload => exact .inr (.inl ⟨f, by omega, hload, rfl⟩)
  · exact .inr (.inr ⟨_, rfl⟩)

/-- TRIAL and COMMIT read the symbol and the bytes whose bits they place, and stop there, or draw. -/
theorem drawSymbol_cases (cmd : Instr) (f : Nat) (m : Fin 8) (s : State) :
    (∃ x, loadGrid cmd s.size.toNat s = .error x ∧ drawSymbol cmd f m s = .error x)
      ∨ (∃ g x, loadGrid cmd s.size.toNat s = .ok g
          ∧ readBuf cmd .fbuf ((placedCount s.size.toNat s.totalCw.toNat g + 7) / 8) s = .error x
          ∧ drawSymbol cmd f m s = .error x)
      ∨ ∃ g bits n, loadGrid cmd s.size.toNat s = .ok g
          ∧ drawSymbol cmd f m s = .ok (placeSymbol s.size.toNat f m bits g, n) := by
  rw [drawSymbol]
  dsimp only
  split
  next x hload => exact .inl ⟨x, hload, rfl⟩
  next g hload =>
  split
  next x hread => exact .inr (.inl ⟨g, x, hload, hread, rfl⟩)
  next bytes hread => exact .inr (.inr ⟨g, _, _, hload, rfl⟩)

/-- TRIAL raises an error, or stops or goes on as it draws the symbol. -/
theorem performTrial_cases (T : Tables) (m : Fin 8) (s : State) :
    (∃ e x, performTrial T m s = raise s (.trial m) e x)
      ∨ ∃ f, (∃ x, drawSymbol (.trial m) f m s = .error x ∧ performTrial T m s = .stopped x)
        ∨ ∃ g n, drawSymbol (.trial m) f m s = .ok (g, n) ∧ performTrial T m s = .ok (s.tried m g n) := by
  rw [performTrial]
  split
  · exact .inl ⟨_, _, rfl⟩
  next f hf =>
  refine .inr ⟨f, ?_⟩
  split
  next x hdraw => exact .inl ⟨x, hdraw, rfl⟩
  next g n hdraw => exact .inr ⟨g, n, hdraw, rfl⟩

/-- COMMIT raises an error, or stops or goes on as it draws the symbol with the best mask. -/
theorem performCommit_cases (T : Tables) (s : State) :
    (∃ e x, performCommit T s = raise s .commit e x)
      ∨ ∃ f, (∃ x, drawSymbol .commit f (selectMask s.scores) s = .error x
            ∧ performCommit T s = .stopped x)
        ∨ ∃ g n, drawSymbol .commit f (selectMask s.scores) s = .ok (g, n)
            ∧ performCommit T s = .ok (s.committed (selectMask s.scores) g n) := by
  rw [performCommit]
  split
  · exact .inl ⟨_, _, rfl⟩
  next f hf =>
  refine .inr ⟨f, ?_⟩
  split
  next x hdraw => exact .inl ⟨x, hdraw, rfl⟩
  next g n hdraw => exact .inr ⟨g, n, hdraw, rfl⟩

/-! ### The invariant: which parts a change leaves standing -/

theorem PStage.not_reached_of_eq {q p p' : PStage} (hp : p = p') (h : p'.code.toNat < q.code.toNat) :
    ¬ q.reached p := fun hr => absurd (hp ▸ hr.1) (Nat.not_le.2 h)

theorem PStage.reached_of_eq {q p p' : PStage} (hp : p = p') (h : q.code.toNat ≤ p'.code.toNat)
    (hne : p' ≠ .failed) : q.reached p := hp ▸ ⟨h, hne⟩

theorem PStage.reached.mono {q q' p : PStage} (h : q.reached p) (hq : q'.code.toNat ≤ q.code.toNat) :
    q'.reached p := ⟨le_trans hq h.1, h.2⟩

/-- The registers SELECT and PAD write (30_encoding.md R110). -/
def State.selectedRegs (s : State) : BitVec 6 × BitVec 2 × BitVec 8 × BitVec 16 × BitVec 17 :=
  (s.version, s.selLevel, s.size, s.capBits, s.streamLen)

/-- The registers ECGEN writes (30_encoding.md R110). -/
def State.ecRegs (s : State) : BitVec 8 × BitVec 7 × BitVec 8 × BitVec 8 :=
  (s.numBlocks, s.ecLen, s.blkShort, s.blkNlong)

section Frame

variable {s t : State}

theorem SelectedOk.of_regs_eq (h : SelectedOk s) (hr : t.selectedRegs = s.selectedRegs)
    (hw : s.keepsWritten t) : SelectedOk t := by
  simp only [State.selectedRegs, Prod.mk.injEq] at hr
  obtain ⟨hv, hl, hs, hc, hn⟩ := hr
  constructor <;> simp only [hv, hl, hs, hc, hn]
  exacts [h.version_ge, h.version_le, h.size_eq, h.cap_eq, h.stream_le, h.stream_written.mono hw]

theorem PaddedOk.of_regs_eq (h : PaddedOk s) (hr : t.selectedRegs = s.selectedRegs)
    (hw : s.keepsWritten t) : PaddedOk t := by
  simp only [State.selectedRegs, Prod.mk.injEq] at hr
  obtain ⟨-, -, -, hc, hn⟩ := hr
  constructor <;> simp only [hc, hn]
  exacts [h.stream_eq, h.data_written.mono hw]

theorem EcDoneOk.of_regs_eq (h : EcDoneOk s) (hr : t.selectedRegs = s.selectedRegs)
    (he : t.ecRegs = s.ecRegs) (hw : s.keepsWritten t) : EcDoneOk t := by
  simp only [State.selectedRegs, Prod.mk.injEq] at hr
  simp only [State.ecRegs, Prod.mk.injEq] at he
  obtain ⟨hv, hl, -, hc, -⟩ := hr
  obtain ⟨hN, hk, hb, hlong⟩ := he
  constructor <;> simp only [hv, hl, hc, hN, hk, hb, hlong]
  exacts [h.blocks_eq, h.ec_eq, h.short_eq, h.nlong_eq, h.ec_written.mono hw]

theorem InterleavedOk.of_regs_eq (h : InterleavedOk s) (hr : t.selectedRegs = s.selectedRegs)
    (he : t.ecRegs = s.ecRegs) (ht : t.totalCw = s.totalCw) (hw : s.keepsWritten t) :
    InterleavedOk t := by
  simp only [State.selectedRegs, Prod.mk.injEq] at hr
  simp only [State.ecRegs, Prod.mk.injEq] at he
  obtain ⟨-, -, -, hc, -⟩ := hr
  obtain ⟨hN, hk, -, -⟩ := he
  constructor <;> simp only [hc, hN, hk, ht]
  exacts [h.total_eq, h.final_written.mono hw]

/-- The invariant stands where the registers of the pipeline stay, no written flag is cleared and no stage up to
PATTERNS_PLACED is newly reached. -/
theorem State.Inv.of_regs_eq (h : s.Inv) (hm : Memory.wf t.mem) (hr : t.selectedRegs = s.selectedRegs)
    (he : t.ecRegs = s.ecRegs) (ht : t.totalCw = s.totalCw) (hw : s.keepsWritten t)
    (hp : ∀ q : PStage, q.code.toNat ≤ 6 → q.reached t.pstage → q.reached s.pstage) : t.Inv where
  mem_wf := hm
  selected_ok hq := (h.selected_ok (hp _ (by decide) hq)).of_regs_eq hr hw
  padded_ok hq := (h.padded_ok (hp _ (by decide) hq)).of_regs_eq hr hw
  ecDone_ok hq := (h.ecDone_ok (hp _ (by decide) hq)).of_regs_eq hr he hw
  interleaved_ok hq := (h.interleaved_ok (hp _ (by decide) hq)).of_regs_eq hr he ht hw
  mat_ok hq := (h.mat_ok (hp _ (by decide) hq)).mono hw

/-- The invariant stands where memory, stage and the registers of the pipeline stay. -/
theorem State.Inv.of_eq (h : s.Inv) (hm : t.mem = s.mem) (hr : t.selectedRegs = s.selectedRegs)
    (he : t.ecRegs = s.ecRegs) (ht : t.totalCw = s.totalCw) (hp : t.pstage = s.pstage) : t.Inv :=
  h.of_regs_eq (hm ▸ h.mem_wf) hr he ht (keepsWritten_of_mem_eq hm) fun _ _ hq => hp ▸ hq

/-- Before SELECT, and after a failure, the invariant says that memory is in canonical form. -/
theorem State.Inv.of_not_selected (hm : Memory.wf t.mem) (hp : ¬ PStage.reached .selected t.pstage) :
    t.Inv where
  mem_wf := hm
  selected_ok hq := absurd hq hp
  padded_ok hq := absurd (hq.mono (by decide)) hp
  ecDone_ok hq := absurd (hq.mono (by decide)) hp
  interleaved_ok hq := absurd (hq.mono (by decide)) hp
  mat_ok hq := absurd (hq.mono (by decide)) hp

theorem State.Inv.at_selected (hm : Memory.wf t.mem) (hp : t.pstage = .selected) (hs : SelectedOk t) :
    t.Inv where
  mem_wf := hm
  selected_ok _ := hs
  padded_ok hq := absurd hq (PStage.not_reached_of_eq hp (by decide))
  ecDone_ok hq := absurd hq (PStage.not_reached_of_eq hp (by decide))
  interleaved_ok hq := absurd hq (PStage.not_reached_of_eq hp (by decide))
  mat_ok hq := absurd hq (PStage.not_reached_of_eq hp (by decide))

theorem State.Inv.at_padded (hm : Memory.wf t.mem) (hp : t.pstage = .padded) (hs : SelectedOk t)
    (hd : PaddedOk t) : t.Inv where
  mem_wf := hm
  selected_ok _ := hs
  padded_ok _ := hd
  ecDone_ok hq := absurd hq (PStage.not_reached_of_eq hp (by decide))
  interleaved_ok hq := absurd hq (PStage.not_reached_of_eq hp (by decide))
  mat_ok hq := absurd hq (PStage.not_reached_of_eq hp (by decide))

theorem State.Inv.at_ecDone (hm : Memory.wf t.mem) (hp : t.pstage = .ecDone) (hs : SelectedOk t)
    (hd : PaddedOk t) (he : EcDoneOk t) : t.Inv where
  mem_wf := hm
  selected_ok _ := hs
  padded_ok _ := hd
  ecDone_ok _ := he
  interleaved_ok hq := absurd hq (PStage.not_reached_of_eq hp (by decide))
  mat_ok hq := absurd hq (PStage.not_reached_of_eq hp (by decide))

theorem State.Inv.at_interleaved (hm : Memory.wf t.mem) (hp : t.pstage = .interleaved)
    (hs : SelectedOk t) (hd : PaddedOk t) (he : EcDoneOk t) (hi : InterleavedOk t) : t.Inv where
  mem_wf := hm
  selected_ok _ := hs
  padded_ok _ := hd
  ecDone_ok _ := he
  interleaved_ok _ := hi
  mat_ok hq := absurd hq (PStage.not_reached_of_eq hp (by decide))

/-- An error records itself and may leave the pipeline FAILED. -/
theorem State.Inv.fail (h : s.Inv) (i : Instr) (e : ErrCode) (x : Word) : (s.fail i e x).Inv := by
  refine h.of_regs_eq h.mem_wf rfl rfl rfl (keepsWritten_of_mem_eq rfl) fun q _ hq => ?_
  obtain ⟨hle, hne⟩ := hq
  simp only [State.fail] at hle hne
  split_ifs at hle hne with hfail
  · exact absurd rfl hne
  · exact ⟨hle, hne⟩

theorem State.Inv.complete (h : s.Inv) : s.complete.Inv := h.of_eq rfl rfl rfl rfl rfl

end Frame

/-! ### What a family rule does to a state that meets the invariant -/

/-- A state that a family rule answers meets the invariant, no written flag is cleared before the command ends,
and a fault is one of those allowed. -/
def Perf.sound (allowed : Fault → Prop) (s : State) : Perf → Prop
  | .ok t => t.Inv ∧ s.keepsWritten t
  | .failed t => t.Inv
  | .stopped f => allowed f

/-- No fault: the command does not stop. -/
def noFault : Fault → Prop := fun _ => False

theorem Perf.sound.imp {p q : Fault → Prop} {s : State} {r : Perf} (h : r.sound p s)
    (hpq : ∀ f, p f → q f) : r.sound q s := by
  cases r with
  | ok t => exact h
  | failed t => exact h
  | stopped f => exact hpq f h

theorem raise_sound {s : State} (h : s.Inv) (allowed : Fault → Prop) (i : Instr) (e : ErrCode) (x : Nat) :
    (raise s i e x).sound allowed s := h.fail i e _

theorem keepsWritten_writeBuf {s t : State} (hm : Memory.wf s.mem) {b : Buf} {bs : List Byte}
    (ht : t.mem = (s.writeBuf b bs).mem) : s.keepsWritten t :=
  keepsWritten_of_write (rising_cellsFrom _ _) hm.1 ht

theorem keepsWritten_storeGrid {s t : State} (hm : Memory.wf s.mem) {n : Nat} (hn : n ≤ Config.sMax)
    {g : Grid} (hg : g.square n) (ht : t.mem = (s.storeGrid g).mem) : s.keepsWritten t :=
  keepsWritten_of_write (wf_gridCells hn hg).1 hm.1 ht

theorem performEncode_sound {s : State} (h : s.Inv) : (performEncode s).sound s.missingAt s := by
  obtain ⟨e, x, hperf⟩ | ⟨f, hn, hread, hperf⟩ | ⟨t, bits, hn, hread, htext, hperf⟩ :=
    performEncode_cases s <;> rw [hperf]
  · exact raise_sound h ..
  · exact missingAt_of_readBuf_error h.mem_wf.1 hn hread
  · have hlen : bits.length ≤ 65536 := by
      have htl := ((readBuf_ok_iff h.mem_wf.1 ..).1 hread).1
      have hbits := encodeText_length_le htext
      simp only [Config.ibufSize] at hn
      omega
    exact ⟨.of_not_selected (wf_storeBits h.mem_wf hlen) 
        (PStage.not_reached_of_eq (p' := .encoded) rfl (by decide)),
      keepsWritten_writeBuf h.mem_wf rfl⟩

/-- SELECT leaves what the invariant says of stage SELECTED, for a version whose capacity holds the stream. -/
theorem selectedOk_selected {s : State} (hm : Memory.rising s.mem) {mode l v c : Nat} {raw : Bits}
    (hcap : stdCap v l = some c) (hlen : (header mode v s.charCount.toNat ++ raw).length ≤ c) :
    SelectedOk (s.selected mode l v c raw) := by
  obtain ⟨hv1, hv40, hl, -, -, hc⟩ := stdCap_some hcap
  have ev : (BitVec.ofNat 6 v).toNat = v := Nat.mod_eq_of_lt (by omega)
  have el : (BitVec.ofNat 2 l).toNat = l := Nat.mod_eq_of_lt (by omega)
  have es : (BitVec.ofNat 8 (17 + 4 * v)).toNat = 17 + 4 * v := Nat.mod_eq_of_lt (by omega)
  have ec : (BitVec.ofNat 16 c).toNat = c := Nat.mod_eq_of_lt (by omega)
  have en : (BitVec.ofNat 17 (header mode v s.charCount.toNat ++ raw).length).toNat
      = (header mode v s.charCount.toNat ++ raw).length := Nat.mod_eq_of_lt (by omega)
  constructor <;> simp only [State.selected, ev, el, es, ec, en]
  exacts [hv1, hv40, hcap, hlen, written_storeBits hm (by omega)]

theorem performSelect_sound {s : State} (h : s.Inv) :
    (performSelect standardTables s).sound s.missingAt s := by
  obtain ⟨e, x, hperf⟩ | ⟨f, hn, hload, hperf⟩ | ⟨v, c, raw, -, -, hsearch, hload, hperf⟩ :=
    performSelect_cases standardTables s <;> rw [hperf]
  · exact raise_sound h ..
  · refine missingAt_of_readBuf_error h.mem_wf.1 ?_ (readBuf_of_loadBits_error hload)
    simp only [Buf.size, Config.bbufSize]; omega
  · obtain ⟨-, -, hcap, hfit⟩ := searchVersion_ok hsearch
    obtain ⟨-, -, -, -, -, hc⟩ := stdCap_some hcap
    have hraw := ((loadBits_ok_iff h.mem_wf.1 ..).1 hload).1
    have hlen : (header s.mode.toNat v s.charCount.toNat ++ raw).length ≤ c := by
      rw [List.length_append, header_length, hraw]; exact hfit
    exact ⟨.at_selected (wf_storeBits h.mem_wf (by omega)) rfl (selectedOk_selected h.mem_wf.1 hcap hlen),
      keepsWritten_writeBuf h.mem_wf rfl⟩

theorem performPad_sound {s : State} (h : s.Inv) (hp : s.pstage = .selected) :
    (performPad s).sound noFault s := by
  have hsel := h.selected_ok (PStage.reached_of_eq hp (by decide) (by decide))
  obtain ⟨-, -, -, hc8, -, hc⟩ := stdCap_some hsel.cap_eq
  obtain ⟨f, hload, hperf⟩ | ⟨x, hload, hperf⟩ := performPad_cases s <;> rw [hperf]
  · exact readBuf_ne_error h.mem_wf.1 hsel.stream_written f (readBuf_of_loadBits_error hload)
  · have hx := ((loadBits_ok_iff h.mem_wf.1 ..).1 hload).1
    have hlen := padStream_length_of_fits (hx ▸ hsel.stream_le) hc8
    have hkeeps := keepsWritten_writeBuf (s := s) h.mem_wf (b := .bbuf)
      (bs := packBytes (padStream s.capBits.toNat x)) rfl
    have hwritten := written_storeBits (x := padStream s.capBits.toNat x) h.mem_wf.1 (by omega)
    rw [hlen, show (s.capBits.toNat + 7) / 8 = s.capBits.toNat / 8 by omega] at hwritten
    have en : (BitVec.ofNat 17 s.capBits.toNat).toNat = s.capBits.toNat := Nat.mod_eq_of_lt (by omega)
    refine ⟨.at_padded (wf_storeBits h.mem_wf (by omega)) rfl ?_ ⟨en, hwritten⟩, hkeeps⟩
    refine ⟨hsel.version_ge, hsel.version_le, hsel.size_eq, hsel.cap_eq, en.le, ?_⟩
    rw [en, show (s.capBits.toNat + 7) / 8 = s.capBits.toNat / 8 by omega]
    exact hwritten

/-- The short block of every version and level has fewer than 256 codewords (42_gf_rs.md R199). -/
theorem stdShort_table : ∀ v < 41, ∀ l < 4, 1 ≤ v →
    (stdCap v l).getD 0 / 8 / (stdNb v l).getD 0 < 256 := by decide +kernel

/-- The block table on the registers of an ECGEN: the entries exist where CAP has one. -/
theorem stdNb_of_cap {v l c : Nat} (h : stdCap v l = some c) :
    ∃ N k, stdNb v l = some N ∧ stdEcb v l = some k ∧ 1 ≤ N ∧ N ≤ 81 ∧ 7 ≤ k ∧ k ≤ 30
      ∧ c / 8 + N * k ≤ 3706 ∧ c / 8 / N < 256 := by
  obtain ⟨hv1, hv40, hl, -⟩ := stdCap_some h
  obtain ⟨N, k, hN, hk, hbounds⟩ := stdNb_table v (by omega) l hl hv1
  have htotal := stdTotal_table v (by omega) l hl hv1
  have hshort := stdShort_table v (by omega) l hl hv1
  rw [h, hN] at hshort
  rw [h, hN, hk] at htotal
  exact ⟨N, k, hN, hk, hbounds.1, hbounds.2.1, hbounds.2.2.1, hbounds.2.2.2, htotal, hshort⟩

theorem performEcgen_sound {s : State} (h : s.Inv) (hp : s.pstage = .padded) :
    (performEcgen standardTables s).sound noFault s := by
  have hsel := h.selected_ok (PStage.reached_of_eq hp (by decide) (by decide))
  have hpad := h.padded_ok (PStage.reached_of_eq hp (by decide) (by decide))
  obtain ⟨e, x, hperf⟩ | ⟨f, hread, hperf⟩ | ⟨N, k, gen, data, ec, hnb, hecb, hgen, hread, hdiv, hperf⟩ :=
    performEcgen_cases standardTables s <;> rw [hperf]
  · exact raise_sound h ..
  · exact readBuf_ne_error h.mem_wf.1 hpad.data_written f hread
  · obtain ⟨N', k', hnb', hecb', hN1, hN81, hk7, hk30, htotal, hshort⟩ := stdNb_of_cap hsel.cap_eq
    obtain rfl : N = N' := Option.some.inj (hnb.symm.trans hnb')
    obtain rfl : k = k' := Option.some.inj (hecb.symm.trans hecb')
    have hgl := (stdGen_some (genOf_standard k ▸ hgen)).2.2
    have hec : ec.length = N * k := by
      rw [divideBlocks_length hgl (by omega) hdiv, dataBlocks_length]
    have hsize : ec.length ≤ Buf.ebuf.size := by
      have : Buf.ebuf.size = 4096 := rfl
      omega
    have hlong : s.capBits.toNat / 8 % N < N := Nat.mod_lt _ hN1
    have hkeeps : s.keepsWritten (s.ecGenerated N k ec) := keepsWritten_writeBuf h.mem_wf (b := .ebuf) rfl
    have hwritten : (s.ecGenerated N k ec).written .ebuf ec.length := written_writeBuf h.mem_wf.1 hsize
    have eN : (s.ecGenerated N k ec).numBlocks.toNat = N := Nat.mod_eq_of_lt (by omega)
    have ek : (s.ecGenerated N k ec).ecLen.toNat = k := Nat.mod_eq_of_lt (by omega)
    have eb : (s.ecGenerated N k ec).blkShort.toNat = s.capBits.toNat / 8 / N := Nat.mod_eq_of_lt hshort
    have er : (s.ecGenerated N k ec).blkNlong.toNat = s.capBits.toNat / 8 % N :=
      Nat.mod_eq_of_lt (by omega)
    refine ⟨.at_ecDone (wf_writeBuf h.mem_wf .ebuf hsize) rfl (hsel.of_regs_eq rfl hkeeps)
      (hpad.of_regs_eq rfl hkeeps) ?_, hkeeps⟩
    constructor <;> simp only [eN, ek, eb, er]
    exacts [hnb, hecb, rfl, rfl, hec ▸ hwritten]

/-- What INTERLEAVE finds in stage EC_DONE: the data blocks end at the capacity, and both streams together fit
FBUF (42_gf_rs.md R199, 43_interleave.md R232, R233). -/
theorem EcDoneOk.interleave_bounds {s : State} (he : EcDoneOk s) (hs : SelectedOk s) :
    s.blkNlong.toNat ≤ s.numBlocks.toNat
      ∧ s.numBlocks.toNat * s.blkShort.toNat + s.blkNlong.toNat = s.capBits.toNat / 8
      ∧ interleaveReads s = s.capBits.toNat / 8
      ∧ s.capBits.toNat / 8 + s.numBlocks.toNat * s.ecLen.toNat ≤ 3706 := by
  obtain ⟨N, k, hnb, hecb, hN1, -, -, -, htotal, -⟩ := stdNb_of_cap hs.cap_eq
  obtain rfl : s.numBlocks.toNat = N := Option.some.inj (he.blocks_eq.symm.trans hnb)
  obtain rfl : s.ecLen.toNat = k := Option.some.inj (he.ec_eq.symm.trans hecb)
  have hlong := Nat.mod_lt (s.capBits.toNat / 8) hN1
  have hdata := Nat.div_add_mod (s.capBits.toNat / 8) s.numBlocks.toNat
  rw [← he.short_eq, ← he.nlong_eq] at hdata
  rw [← he.nlong_eq] at hlong
  exact ⟨hlong.le, hdata, by rw [interleaveReads, if_neg (by omega), hdata], htotal⟩

theorem performInterleave_sound {s : State} (h : s.Inv) (hp : s.pstage = .ecDone) :
    (performInterleave s).sound noFault s := by
  have hsel := h.selected_ok (PStage.reached_of_eq hp (by decide) (by decide))
  have hpad := h.padded_ok (PStage.reached_of_eq hp (by decide) (by decide))
  have hecd := h.ecDone_ok (PStage.reached_of_eq hp (by decide) (by decide))
  obtain ⟨hlong, hsum, hreads, htotal⟩ := hecd.interleave_bounds hsel
  obtain ⟨f, hread, hperf⟩ | ⟨f, hread, hperf⟩ | ⟨data, ec, out, hdata, hec, hout, hend⟩ :=
    performInterleave_cases s
  · rw [hreads] at hread
    exact absurd hread (readBuf_ne_error h.mem_wf.1 hpad.data_written f)
  · exact absurd hread (readBuf_ne_error h.mem_wf.1 hecd.ec_written f)
  · have hdl := ((readBuf_ok_iff h.mem_wf.1 ..).1 hdata).1
    have hecl := ((readBuf_ok_iff h.mem_wf.1 ..).1 hec).1
    rw [hreads] at hdl
    have hlen : out.length = s.capBits.toNat / 8 + s.numBlocks.toNat * s.ecLen.toNat := by
      rw [hout, interleaved_length hlong (hdl.trans hsum.symm) hecl, hdl]
    have hfbuf : Config.fbufSize = 4096 := rfl
    obtain ⟨htooLong, -⟩ | ⟨hfits, hperf⟩ := hend
    · omega
    rw [hperf]
    have hkeeps := keepsWritten_writeBuf (s := s) h.mem_wf (b := .fbuf) (bs := out) rfl
    have et : (BitVec.ofNat 12 out.length).toNat = out.length := Nat.mod_eq_of_lt (by omega)
    refine ⟨.at_interleaved (wf_writeBuf h.mem_wf .fbuf hfits) rfl (hsel.of_regs_eq rfl hkeeps)
      (hpad.of_regs_eq rfl hkeeps) (hecd.of_regs_eq rfl rfl hkeeps) ⟨et.trans hlen, ?_⟩, hkeeps⟩
    rw [et]
    exact written_writeBuf h.mem_wf.1 hfits

/-- BUILD stores a square of all the cells of MAT and changes no register of the stages before it. -/
theorem State.built_eq_storeGrid (s : State) (V : Nat) (P : List Nat) (code : Option Nat) :
    ∃ (g : Grid) (n : BitVec 16), g.square Config.sMax ∧ s.built V P code =
      { s.storeGrid g with
        freeCells := n, scores := Vector.replicate 8 0#32, trialDone := 0x00#8
        pstage := .patternsPlaced } :=
  ⟨_, _, Grid.square_stampSymbol (Grid.square_blank _) .., by rw [State.built]⟩

theorem performBuild_sound {s : State} (h : s.Inv) (hp : s.pstage = .interleaved) :
    (performBuild standardTables s).sound noFault s := by
  obtain ⟨e, x, hperf⟩ | ⟨P, code, hperf⟩ := performBuild_cases standardTables s <;> rw [hperf]
  · exact raise_sound h ..
  · have hsel := h.selected_ok (PStage.reached_of_eq hp (by decide) (by decide))
    have hpad := h.padded_ok (PStage.reached_of_eq hp (by decide) (by decide))
    have hecd := h.ecDone_ok (PStage.reached_of_eq hp (by decide) (by decide))
    have hint := h.interleaved_ok (PStage.reached_of_eq hp (by decide) (by decide))
    obtain ⟨g, n, hg, hbuilt⟩ := s.built_eq_storeGrid s.version.toNat P code
    rw [hbuilt]
    have hkeeps : s.keepsWritten (s.storeGrid g) := keepsWritten_storeGrid h.mem_wf (le_refl _) hg rfl
    exact ⟨⟨wf_storeGrid (le_refl _) h.mem_wf hg, fun _ => hsel.of_regs_eq rfl hkeeps,
      fun _ => hpad.of_regs_eq rfl hkeeps, fun _ => hecd.of_regs_eq rfl rfl hkeeps,
      fun _ => hint.of_regs_eq rfl rfl rfl hkeeps,
      fun _ => (holdsGrid_storeGrid (le_refl _) h.mem_wf.1 hg).cellsWritten⟩, hkeeps⟩

/-! ### Placement keeps the shape and the structural flags -/

/-- A write of a module bit in a row keeps every structural flag of the row. -/
theorem st_getD_modify (row : List MatCell) (c : Nat) (x : Bool) (j : Nat) :
    ((row.modify c fun cell => { cell with bit := x }).getD j MatCell.clear).st
      = (row.getD j MatCell.clear).st := by
  rw [List.getD_eq_getElem?_getD, List.getD_eq_getElem?_getD, List.getElem?_modify]
  cases row[j]? with
  | none => rfl
  | some cell => by_cases hj : c = j <;> simp [hj]

theorem Grid.st_setBit (g : Grid) (r c : Nat) (x : Bool) (i j : Nat) :
    ((g.setBit r c x).cell i j).st = (g.cell i j).st := by
  rw [Grid.setBit, Grid.cell, Grid.getD_modifyCell]
  split
  · exact st_getD_modify _ c x j
  · rfl

/-- A placement is made of writes of module bits: it keeps the shape and every structural flag. -/
def Grid.placedFrom (g g' : Grid) : Prop :=
  (∀ n, g.square n → g'.square n) ∧ ∀ r c, (g'.cell r c).st = (g.cell r c).st

theorem Grid.placedFrom.refl (g : Grid) : g.placedFrom g := ⟨fun _ h => h, fun _ _ => rfl⟩

theorem Grid.placedFrom.setBit {g g' : Grid} (h : g.placedFrom g') (r c : Nat) (x : Bool) :
    g.placedFrom (g'.setBit r c x) :=
  ⟨fun n hg => Grid.square_modifyCell (h.1 n hg) _ _ _, fun i j => by rw [Grid.st_setBit, h.2]⟩

theorem Grid.placedFrom.foldl {α : Type} {f : Grid → α → Grid} {g : Grid}
    (hf : ∀ g' a, g.placedFrom g' → g.placedFrom (f g' a)) (l : List α) {g' : Grid}
    (h : g.placedFrom g') : g.placedFrom (l.foldl f g') := by
  induction l generalizing g' with
  | nil => exact h
  | cons a l ih => exact ih (hf g' a h)

theorem placedFrom_placeSymbol (S f : Nat) (m : Fin 8) (bits : Bits) (g : Grid) :
    g.placedFrom (placeSymbol S f m bits g) :=
  .foldl (fun _ _ h => h.setBit _ _ _) _
    (.foldl (fun _ _ h => (h.setBit _ _ _).setBit _ _ _) _ (.refl g))

/-- The symbol TRIAL or COMMIT draws is a placement over the square that MAT holds. -/
theorem drawSymbol_ok {s : State} (hm : Memory.rising s.mem) {cmd : Instr} {f : Nat} {m : Fin 8}
    {g' : Grid} {n : Nat} (h : drawSymbol cmd f m s = .ok (g', n)) :
    ∃ g, s.holdsGrid s.size.toNat g ∧ g.placedFrom g' := by
  obtain ⟨x, -, hdraw⟩ | ⟨g, x, -, -, hdraw⟩ | ⟨g, bits, k, hload, hdraw⟩ := drawSymbol_cases cmd f m s <;>
    rw [h] at hdraw
  · simp at hdraw
  · simp at hdraw
  · simp only [Except.ok.injEq, Prod.mk.injEq] at hdraw
    exact ⟨g, (loadGrid_ok_iff hm ..).1 hload, hdraw.1 ▸ placedFrom_placeSymbol ..⟩

theorem Grid.placedFrom.square_of_holdsGrid {s : State} {n : Nat} {g g' : Grid} (h : g.placedFrom g')
    (hg : s.holdsGrid n g) : n ≤ Config.sMax ∧ g'.square n := by
  obtain ⟨hn, hlen, hrows, -⟩ := hg
  exact ⟨hn, h.1 n ⟨hlen, hrows⟩⟩

/-! ### What a family rule does, continued: TRIAL and COMMIT, SCORE and RS_RAW, RUN and RUN_RAW -/

/-- With the patterns placed, TRIAL and COMMIT read what the stages before have written: the symbol, and not
more bytes of FBUF than the final sequence has. -/
theorem drawSymbol_ne_error {s : State} (h : s.Inv) (hp : PStage.reached .patternsPlaced s.pstage)
    (cmd : Instr) (f : Nat) (m : Fin 8) (x : Fault) : drawSymbol cmd f m s ≠ .error x := by
  have hsel := h.selected_ok (hp.mono (by decide))
  have hfinal := (h.interleaved_ok (hp.mono (by decide))).final_written
  have hmat := h.mat_ok hp
  have hsize : s.size.toNat ≤ Config.sMax := by
    have hv : s.version.toNat ≤ 40 := hsel.version_le
    have hs : Config.sMax = 177 := rfl
    rw [hsel.size_eq]; omega
  intro hx
  obtain ⟨y, hload, hdraw⟩ | ⟨g, y, -, hread, hdraw⟩ | ⟨g, bits, k, -, hdraw⟩ :=
    drawSymbol_cases cmd f m s
  · exact loadGrid_ne_error h.mem_wf.1
      ⟨hsize, fun r c hr hc => hmat.2 r c (by omega) (by omega)⟩ y hload
  · have hn : (placedCount s.size.toNat s.totalCw.toNat g + 7) / 8 ≤ s.totalCw.toNat := by
      simp only [placedCount]; omega
    exact readBuf_ne_error h.mem_wf.1
      ⟨hn.trans hfinal.1, fun i hi => hfinal.2 i (by omega)⟩ y hread
  · simp [hx] at hdraw

/-- A state that a placement is stored in meets the invariant, from PATTERNS_PLACED on. -/
theorem inv_of_placed {s t : State} (h : s.Inv) (hp : PStage.reached .patternsPlaced s.pstage)
    {cmd : Instr} {f : Nat} {m : Fin 8} {g : Grid} {n : Nat} (hdraw : drawSymbol cmd f m s = .ok (g, n))
    (hm : t.mem = (s.storeGrid g).mem) (hr : t.selectedRegs = s.selectedRegs)
    (he : t.ecRegs = s.ecRegs) (ht : t.totalCw = s.totalCw) : t.Inv ∧ s.keepsWritten t := by
  obtain ⟨g₀, hg₀, hplaced⟩ := drawSymbol_ok h.mem_wf.1 hdraw
  obtain ⟨hn, hg⟩ := hplaced.square_of_holdsGrid hg₀
  have hkeeps := keepsWritten_storeGrid h.mem_wf hn hg hm
  exact ⟨h.of_regs_eq (hm ▸ wf_storeGrid hn h.mem_wf hg) hr he ht hkeeps
    fun q hq _ => hp.mono hq, hkeeps⟩

theorem performTrial_sound {s : State} (h : s.Inv) (m : Fin 8)
    (hp : PStage.reached .patternsPlaced s.pstage) :
    (performTrial standardTables m s).sound noFault s := by
  obtain ⟨e, x, hperf⟩ | ⟨f, ⟨x, hdraw, -⟩ | ⟨g, n, hdraw, hperf⟩⟩ := performTrial_cases standardTables m s
  · exact hperf ▸ raise_sound h ..
  · exact absurd hdraw (drawSymbol_ne_error h hp _ f m x)
  · exact hperf ▸ inv_of_placed h hp hdraw rfl rfl rfl rfl

theorem performCommit_sound {s : State} (h : s.Inv) (hp : PStage.reached .patternsPlaced s.pstage) :
    (performCommit standardTables s).sound noFault s := by
  obtain ⟨e, x, hperf⟩ | ⟨f, ⟨x, hdraw, -⟩ | ⟨g, n, hdraw, hperf⟩⟩ := performCommit_cases standardTables s
  · exact hperf ▸ raise_sound h ..
  · exact absurd hdraw (drawSymbol_ne_error h hp _ f _ x)
  · exact hperf ▸ inv_of_placed h hp hdraw rfl rfl rfl rfl

theorem performScore_sound {s : State} (h : s.Inv) : (performScore s).sound s.missingAt s := by
  obtain ⟨e, x, hperf⟩ | ⟨f, hn, hload, hperf⟩ | ⟨p, hperf⟩ := performScore_cases s <;> rw [hperf]
  · exact raise_sound h ..
  · exact missingAt_of_loadGrid_error h.mem_wf.1 hn hload
  · exact ⟨h.of_eq rfl rfl rfl rfl rfl, keepsWritten_of_mem_eq rfl⟩

theorem performRsRaw_sound {s : State} (h : s.Inv) :
    (performRsRaw standardTables s).sound s.missingAt s := by
  obtain ⟨e, x, hperf⟩ | ⟨f, hn, hread, hperf⟩ | ⟨gen, data, ec, hgen, hdiv, hperf⟩ :=
    performRsRaw_cases standardTables s <;> rw [hperf]
  · exact raise_sound h ..
  · exact missingAt_of_readBuf_error h.mem_wf.1 hn hread
  · obtain ⟨hk7, hk68, hgl⟩ := stdGen_some (genOf_standard _ ▸ hgen)
    have hsize : ec.length ≤ Buf.ebuf.size := by
      have : Buf.ebuf.size = 4096 := rfl
      have := rsDiv_length hgl (by omega) hdiv
      omega
    exact ⟨.of_not_selected (wf_writeBuf h.mem_wf .ebuf hsize)
      (PStage.not_reached_of_eq (p' := .idle) rfl (by decide)), keepsWritten_writeBuf h.mem_wf rfl⟩

/-- A command behind its stage check is sound where its family rule is, in its stage. -/
theorem staged_sound {i : Instr} {body : State → Perf} {s : State} {allowed : Fault → Prop} (h : s.Inv)
    (hbody : mayStart i s → (body s).sound allowed s) : (staged i body s).sound allowed s := by
  obtain ⟨hstart, hstaged⟩ | hstaged := staged_cases i body s <;> rw [hstaged]
  · exact hbody hstart
  · exact h.fail ..

/-- The stages in which a command behind a stage check starts. -/
theorem mayStart.stage_mem {i : Instr} {s : State} (h : mayStart i s) {l : List PStage}
    (hl : stagesBefore i = some l) : s.pstage ∈ l := h.1 l hl

/-- The commands behind a stage check never stop (60_exceptions.md R358). -/
theorem staged_sound_of_stagesBefore {s : State} (h : s.Inv) {i : Instr} (hi : stagesBefore i ≠ none) :
    (staged i (familyRule i) s).sound noFault s := by
  refine staged_sound h fun hstart => ?_
  have hstage := fun l => hstart.stage_mem (l := l)
  cases i with
  | pad => exact performPad_sound h (List.mem_singleton.1 (hstage _ rfl))
  | ecgen => exact performEcgen_sound h (List.mem_singleton.1 (hstage _ rfl))
  | interleave => exact performInterleave_sound h (List.mem_singleton.1 (hstage _ rfl))
  | build => exact performBuild_sound h (List.mem_singleton.1 (hstage _ rfl))
  | trial m =>
    have hp : s.pstage = .patternsPlaced ∨ s.pstage = .trialing := by simpa using hstage _ rfl
    refine performTrial_sound h m ?_
    rcases hp with hp | hp <;> exact PStage.reached_of_eq hp (by decide) (by decide)
  | commit =>
    exact performCommit_sound h
      (PStage.reached_of_eq (List.mem_singleton.1 (hstage _ rfl)) (by decide) (by decide))
  | nop | encode | select | score | runRaw | run | rsRaw => exact absurd rfl hi

/-- Every command but RUN and RUN_RAW stops at most at a byte or cell never written. -/
theorem staged_sound_single {s : State} (h : s.Inv) {i : Instr} (hrun : i ≠ .run) (hraw : i ≠ .runRaw) :
    (staged i (familyRule i) s).sound s.missingAt s := by
  by_cases hi : stagesBefore i = none
  · refine staged_sound h fun _ => ?_
    cases i with
    | nop => exact ⟨h, keepsWritten_of_mem_eq rfl⟩
    | encode => exact performEncode_sound h
    | select => exact performSelect_sound h
    | score => exact performScore_sound h
    | rsRaw => exact performRsRaw_sound h
    | run => exact absurd rfl hrun
    | runRaw => exact absurd rfl hraw
    | pad | ecgen | interleave | build | trial m | commit => simp [stagesBefore] at hi
  · exact (staged_sound_of_stagesBefore h hi).imp fun _ hf => hf.elim

/-- Sub-commands one after the other: the writes of one clear no flag that the next reads, so a byte or cell that
is not written then was not written at the start. -/
theorem performAll_sound {ps : List (State → Perf)}
    (hps : ∀ p ∈ ps, ∀ s : State, s.Inv → (p s).sound s.missingAt s) {s : State} (h : s.Inv) :
    (performAll ps s).sound s.missingAt s := by
  induction ps generalizing s with
  | nil => exact ⟨h, keepsWritten_of_mem_eq rfl⟩
  | cons p ps ih =>
    have hp := hps p (by simp) s h
    cases hres : p s with
    | failed t => rw [performAll_cons_failed hres]; rwa [hres] at hp
    | stopped f => rw [performAll_cons_stopped hres]; rwa [hres] at hp
    | ok t =>
      rw [hres] at hp
      obtain ⟨ht, hkeeps⟩ := hp
      rw [performAll_cons_ok hres]
      have hrest := ih (fun q hq => hps q (by simp [hq])) ht
      cases hall : performAll ps t with
      | ok u => rw [hall] at hrest; exact ⟨hrest.1, hkeeps.trans hrest.2⟩
      | failed u => rw [hall] at hrest; exact hrest
      | stopped f => rw [hall] at hrest; exact State.missingAt.mono hkeeps hrest

theorem performAll_staged_sound {l : List Instr} (hl : ∀ i ∈ l, i ≠ .run ∧ i ≠ .runRaw) {s : State}
    (h : s.Inv) : (performAll (l.map fun i => staged i (familyRule i)) s).sound s.missingAt s := by
  refine performAll_sound (fun p hp s hs => ?_) h
  obtain ⟨i, hi, rfl⟩ := List.mem_map.1 hp
  exact staged_sound_single hs (hl i hi).1 (hl i hi).2

/-- Every command keeps the invariant and stops at most at a byte or cell never written. -/
theorem staged_familyRule_sound {s : State} (h : s.Inv) (i : Instr) :
    (staged i (familyRule i) s).sound s.missingAt s := by
  by_cases hrun : i = .run
  · subst hrun
    refine staged_sound h fun _ => ?_
    rw [familyRule_run]
    exact performAll_staged_sound (by decide) h
  by_cases hraw : i = .runRaw
  · subst hraw
    refine staged_sound h fun _ => ?_
    rw [familyRule_runRaw]
    exact performAll_staged_sound (by decide) h
  exact staged_sound_single h hrun hraw

/-! ### The invariant is kept -/

/-- Every command keeps the invariant. -/
theorem inv_exec {s t : State} {i : Instr} (h : s.Inv) (he : exec i s = .next t) : t.Inv := by
  rw [exec_eq_finish, finish_eq_next_iff] at he
  obtain ⟨u, hu | hu, rfl⟩ := he
  all_goals
    have hsound := staged_familyRule_sound h i
    rw [hu] at hsound
  · exact hsound.1.complete
  · exact State.Inv.complete hsound

/-- The engine performs a command or rejects its word (30_encoding.md R105). -/
theorem engineTurn_cases (w : Word) (s : State) :
    (∃ i, engineTurn w s = exec i s) ∨ engineTurn w s = .next (s.rejectWord w) := by
  rw [engineTurn]
  split
  next i _ => exact .inl ⟨i, rfl⟩
  · exact .inr rfl

/-- A step is a turn of the host, perhaps with one step of the environment less, or a turn of the engine. -/
theorem step_cases (s : State) :
    step s = .next s.hostTurn ∨ (∃ h, step s = .next ({ s with hold := h } : State).hostTurn)
      ∨ ∃ w, step s = engineTurn w s := by
  obtain hp | ⟨w, hp⟩ := Option.eq_none_or_eq_some s.pending
  · exact .inl (step_of_idle hp)
  · cases hh : s.hold with
    | zero => exact .inr (.inr ⟨w, step_of_hold_zero hp hh⟩)
    | succ h => exact .inr (.inl ⟨h, step_of_hold_succ hp hh⟩)

theorem inv_engineTurn {s t : State} {w : Word} (h : s.Inv) (he : engineTurn w s = .next t) : t.Inv := by
  obtain ⟨i, hturn⟩ | hturn := engineTurn_cases w s <;> rw [hturn] at he
  · exact inv_exec h he
  · cases he
    exact (h.fail ..).complete

/-- A soft reset leaves the reset values beside the memories it leaves (70_reset_and_hazards.md R382). -/
theorem softReset_eq_resetRegisters (s : State) : ∃ t : State, s.softReset = t.resetRegisters := by
  rw [State.softReset]
  split
  · exact ⟨_, rfl⟩
  · split <;> exact ⟨_, rfl⟩

theorem pstage_softReset (s : State) : s.softReset.pstage = .idle := by
  obtain ⟨t, ht⟩ := softReset_eq_resetRegisters s
  rw [ht]; rfl

theorem inv_softReset {s : State} (h : s.Inv) : s.softReset.Inv :=
  .of_not_selected (wf_softReset h.mem_wf) (PStage.not_reached_of_eq (pstage_softReset s) (by decide))

theorem inv_hardReset (s : State) : s.hardReset.Inv :=
  .of_not_selected (wf_hardReset s) (PStage.not_reached_of_eq (p' := .idle) rfl (by decide))

theorem inv_store {s : State} (h : s.Inv) (r : Reg) (v : Word) : (Reg.store s v r).Inv := by
  cases r <;> exact h.of_eq rfl rfl rfl rfl rfl

theorem inv_writeRegister {s : State} (h : s.Inv) (off : Nat) (v : Word) : (s.writeRegister off v).Inv := by
  rw [State.writeRegister]
  split
  · exact h
  · rw [State.writeCtrl]
    split
    · exact inv_softReset h
    · exact h.of_eq rfl rfl rfl rfl rfl
  · exact h.of_eq rfl rfl rfl rfl rfl
  · rw [State.issue]
    split <;> exact h.of_eq rfl rfl rfl rfl rfl
  · split
    · exact h
    · exact inv_store h ..

theorem inv_respond {s : State} (h : s.Inv) (ok : Bool) (x : Word) : (s.respond ok x).Inv :=
  h.of_eq rfl rfl rfl rfl rfl

theorem inv_writeWindow {s : State} (h : s.Inv) (a : Nat) (n : AccSize) (v : Word) :
    (s.writeWindow a n v).Inv := by
  have hentries := wf_hostEntries s a (fun i => v.extractLsb' (8 * i) 8) n.bytes 0
  rw [← List.range_eq_range'] at hentries
  exact h.of_regs_eq (wf_writeWindow h.mem_wf a n v) rfl rfl rfl
    (keepsWritten_of_write hentries.1 h.mem_wf.1 rfl) fun _ _ hq => hq

theorem inv_hostWrite {s : State} (h : s.Inv) (a : BusAddr) (n : AccSize) (v : Word) :
    (s.hostWrite a n v).Inv := by
  rw [State.hostWrite]
  split_ifs
  · exact inv_respond h ..
  · exact inv_respond (inv_writeRegister h ..) ..
  · exact inv_respond h ..
  · exact inv_respond h ..
  · exact inv_respond h ..
  · exact inv_respond (inv_writeWindow h ..) ..

theorem inv_hostRead {s : State} (h : s.Inv) (a : BusAddr) (n : AccSize) : (s.hostRead a n).Inv :=
  h.of_eq rfl rfl rfl rfl rfl

/-- The host's queue is no part of the invariant. -/
theorem inv_host_update {s : State} (h : s.Inv) (q : List HostAction) :
    ({ s with host := q } : State).Inv := h.of_eq rfl rfl rfl rfl rfl

/-- Every turn of the host keeps the invariant. -/
theorem inv_hostTurn {s : State} (h : s.Inv) : s.hostTurn.Inv := by
  cases hq : s.host with
  | nil => rwa [hostTurn_of_nil hq]
  | cons action q =>
    cases action with
    | read a n => rw [hostTurn_of_read hq]; exact inv_hostRead (inv_host_update h q) a n
    | write a n v => rw [hostTurn_of_write hq]; exact inv_hostWrite (inv_host_update h q) a n v
    | hardReset => rw [hostTurn_of_hardReset hq]; exact inv_hardReset _
    | wait =>
      by_cases hp : s.pending = none
      · rw [hostTurn_of_wait_idle hq hp]; exact inv_host_update (inv_hostRead h ..) q
      · rw [hostTurn_of_wait_busy hq hp]; exact inv_hostRead h ..

/-- Settles O3: a turn of the host and a command each keep the invariant. -/
theorem everyStepKeepsTheInvariant : Obligations.EveryStepKeepsTheInvariant := by
  intro s t h hstep
  obtain hturn | ⟨n, hturn⟩ | ⟨w, hturn⟩ := step_cases s <;> rw [hturn] at hstep
  · cases hstep
    exact inv_hostTurn h
  · cases hstep
    exact inv_hostTurn (h.of_eq rfl rfl rfl rfl rfl)
  · exact inv_engineTurn h hstep

/-- Settles O2: nothing is written, and the stage is IDLE. -/
theorem resetMeetsTheInvariant : Obligations.ResetMeetsTheInvariant :=
  .of_not_selected wf_reset (PStage.not_reached_of_eq (p' := .idle) rfl (by decide))

/-! ### Only UNWRITTEN_READ stops a step -/

theorem missingAt_of_exec_fault {s : State} {i : Instr} {f : Fault} (h : s.Inv)
    (he : exec i s = .fault f) : s.missingAt f := by
  rw [exec_eq_finish, finish_eq_fault_iff] at he
  have hsound := staged_familyRule_sound h i
  rwa [he] at hsound

theorem exec_next_of_stagesBefore {s : State} {i : Instr} (h : s.Inv) (hi : stagesBefore i ≠ none) :
    ∃ u, exec i s = .next u := by
  have hsound := staged_sound_of_stagesBefore h hi
  rw [exec_eq_finish]
  cases hres : staged i (familyRule i) s with
  | ok t => exact ⟨_, rfl⟩
  | failed t => exact ⟨_, rfl⟩
  | stopped f => rw [hres] at hsound; exact hsound.elim

theorem engineTurn_ne_refused (w : Word) (s : State) (r : Refusal) : engineTurn w s ≠ .refused r := by
  obtain ⟨i, hturn⟩ | hturn := engineTurn_cases w s <;> rw [hturn]
  · exact exec_ne_refused i s r
  · simp

theorem missingAt_of_engineTurn_fault {s : State} {w : Word} {f : Fault} (h : s.Inv)
    (he : engineTurn w s = .fault f) : s.missingAt f := by
  obtain ⟨i, hturn⟩ | hturn := engineTurn_cases w s <;> rw [hturn] at he
  · exact missingAt_of_exec_fault h he
  · simp at he

/-- A step that answers no next state is a turn of the engine. -/
theorem step_next_or_engineTurn (s : State) : (∃ t, step s = .next t) ∨ ∃ w, step s = engineTurn w s := by
  obtain hturn | ⟨n, hturn⟩ | hturn := step_cases s
  · exact .inl ⟨_, hturn⟩
  · exact .inl ⟨_, hturn⟩
  · exact .inr hturn

/-- Settles O59: the host's turn never stops, and of the commands only those without a stage check do, at a byte or
cell never written. -/
theorem onlyUnwrittenReadsStop : Obligations.OnlyUnwrittenReadsStop := by
  intro s h
  refine ⟨fun r hr => ?_, fun f hf => ?_, fun i hi => exec_next_of_stagesBefore h hi⟩
  · obtain ⟨t, hstep⟩ | ⟨w, hstep⟩ := step_next_or_engineTurn s <;> rw [hstep] at hr
    · simp at hr
    · exact engineTurn_ne_refused w s r hr
  · obtain ⟨t, hstep⟩ | ⟨w, hstep⟩ := step_next_or_engineTurn s <;> rw [hstep] at hf
    · simp at hf
    · exact missingAt_of_engineTurn_fault h hf

end Sys2Proof.Machine
end

section
/-! PROOFS. Structural flags: what no command but BUILD writes (10_state.md R56, 44_matrix_patterns.md R253). -/

namespace Sys2Proof.Machine

/-- Every cell of MAT keeps its structural flag, and an unwritten one stays unwritten. -/
def State.keepsSt (s t : State) : Prop :=
  ∀ r c, r < Config.sMax → c < Config.sMax →
    (t.matCell r c).map MatCell.st = (s.matCell r c).map MatCell.st

section Rules

variable {s t : State}

theorem keepsSt_of_mem_eq (h : t.mem = s.mem) : s.keepsSt t := fun r c _ _ => by
  rw [State.matCell, State.at, h, State.matCell, State.at]

/-- No buffer write reaches MAT: the buffers end below its window (20_memory.md R70). -/
theorem keepsSt_writeBuf (hm : Memory.wf s.mem) {b : Buf} {bs : List Byte} (h : bs.length ≤ 0x9000)
    (ht : t.mem = (s.writeBuf b bs).mem) : s.keepsSt t := fun r c _ _ => by
  have hout : ¬ b.within bs.length (cellAddr r c) := by
    have hbase : b.base ≤ 0x7000 := by cases b <;> decide
    rintro ⟨-, hlt⟩
    unfold cellAddr matBase at hlt
    omega
  rw [State.matCell, State.at, ht]
  exact congrArg (fun x => (x.map MatCell.ofByte).map MatCell.st) (keepsOutside_writeBuf hm.1 b bs _ hout)

/-- A placement over the square that MAT holds writes module bits only. -/
theorem keepsSt_storeGrid (hm : Memory.wf s.mem) {n : Nat} {g g' : Grid} (hg : s.holdsGrid n g)
    (hplaced : g.placedFrom g') (ht : t.mem = (s.storeGrid g').mem) : s.keepsSt t := by
  intro r c hr hc
  obtain ⟨hn, hg'⟩ := hplaced.square_of_holdsGrid hg
  obtain ⟨-, -, -, hcell⟩ := hg
  rw [State.matCell, State.at, ht]
  by_cases hin : r < n ∧ c < n
  · rw [hcell r c hin.1 hin.2, ← State.at, at_cell_storeGrid hn hm.1 hg' hin.1 hin.2]
    simp [hplaced.2]
  · have hout : ¬ inSquare n (cellAddr r c) := by
      rintro ⟨r', c', hr', hc', heq⟩
      have hs : Config.sMax = 177 := rfl
      obtain ⟨rfl, rfl⟩ := cellAddr_inj (by omega) (by omega) heq
      exact hin ⟨hr', hc'⟩
    exact congrArg (fun x => (x.map MatCell.ofByte).map MatCell.st)
      (keepsOutside_storeGrid hn hm.1 hg' _ hout)

/-- TRIAL and COMMIT store what they draw. -/
theorem keepsSt_of_drawSymbol (hm : Memory.wf s.mem) {cmd : Instr} {f : Nat} {m : Fin 8} {g : Grid} {n : Nat}
    (hdraw : drawSymbol cmd f m s = .ok (g, n)) (ht : t.mem = (s.storeGrid g).mem) : s.keepsSt t := by
  obtain ⟨g₀, hg₀, hplaced⟩ := drawSymbol_ok hm.1 hdraw
  exact keepsSt_storeGrid hm hg₀ hplaced ht

end Rules

/-- The states that a family rule answers keep every structural flag. -/
def Perf.keepsSt (s : State) : Perf → Prop
  | .ok t | .failed t => s.keepsSt t
  | .stopped _ => True

theorem fail_keepsSt (s : State) (i : Instr) (e : ErrCode) (x : Word) :
    Perf.keepsSt s (.failed (s.fail i e x)) := keepsSt_of_mem_eq rfl

section Commands

variable {s : State}

theorem performEncode_keepsSt (hm : Memory.wf s.mem) : (performEncode s).keepsSt s := by
  obtain ⟨e, x, hperf⟩ | ⟨f, -, -, hperf⟩ | ⟨t, bits, hn, hread, htext, hperf⟩ :=
    performEncode_cases s <;> rw [hperf]
  · exact fail_keepsSt s _ _ _
  · trivial
  · refine keepsSt_writeBuf hm (b := .bbuf) (bs := packBytes bits) ?_ rfl
    have htl := ((readBuf_ok_iff hm.1 ..).1 hread).1
    have hbits := encodeText_length_le htext
    simp only [Config.ibufSize] at hn
    rw [packBytes_length]; omega

theorem performSelect_keepsSt (hm : Memory.wf s.mem) : (performSelect standardTables s).keepsSt s := by
  obtain ⟨e, x, hperf⟩ | ⟨f, -, -, hperf⟩ | ⟨v, c, raw, -, hn, -, hload, hperf⟩ :=
    performSelect_cases standardTables s <;> rw [hperf]
  · exact fail_keepsSt s _ _ _
  · trivial
  · refine keepsSt_writeBuf hm (b := .bbuf)
      (bs := packBytes (header s.mode.toNat v s.charCount.toNat ++ raw)) ?_ rfl
    have hraw := ((loadBits_ok_iff hm.1 ..).1 hload).1
    have hwidth := countWidth_le s.mode.toNat v
    rw [packBytes_length, List.length_append, header_length]; omega

theorem performPad_keepsSt (hm : Memory.wf s.mem) : (performPad s).keepsSt s := by
  obtain ⟨f, -, hperf⟩ | ⟨x, hload, hperf⟩ := performPad_cases s <;> rw [hperf]
  · trivial
  · refine keepsSt_writeBuf hm (b := .bbuf) (bs := packBytes (padStream s.capBits.toNat x)) ?_ rfl
    obtain ⟨-, hx, -⟩ := (loadBits_ok_iff hm.1 ..).1 hload
    have hpad := padStream_length_le s.capBits.toNat x
    have hcap := s.capBits.isLt
    simp only [Config.bbufSize] at hx
    rw [packBytes_length]; omega

/-- NB has no entry above 81, at any value of the registers. -/
theorem stdNb_le : ∀ v < 64, ∀ l < 4, (stdNb v l).getD 0 ≤ 81 := by decide +kernel

theorem performEcgen_keepsSt (hm : Memory.wf s.mem) : (performEcgen standardTables s).keepsSt s := by
  obtain ⟨e, x, hperf⟩ | ⟨f, -, hperf⟩ | ⟨N, k, gen, data, ec, hnb, -, hgen, -, hdiv, hperf⟩ :=
    performEcgen_cases standardTables s <;> rw [hperf]
  · exact fail_keepsSt s _ _ _
  · trivial
  · refine keepsSt_writeBuf hm (b := .ebuf) (bs := ec) ?_ rfl
    obtain ⟨hk7, hk68, hgl⟩ := stdGen_some (genOf_standard k ▸ hgen)
    have hN : N ≤ 81 := by
      have hle := stdNb_le _ s.version.isLt _ s.selLevel.isLt
      rwa [show stdNb s.version.toNat s.selLevel.toNat = some N from hnb] at hle
    have hlen : N * k ≤ 81 * 68 := Nat.mul_le_mul hN hk68
    rw [divideBlocks_length hgl (by omega) hdiv, dataBlocks_length]; omega

theorem performRsRaw_keepsSt (hm : Memory.wf s.mem) : (performRsRaw standardTables s).keepsSt s := by
  obtain ⟨e, x, hperf⟩ | ⟨f, -, -, hperf⟩ | ⟨gen, data, ec, hgen, hdiv, hperf⟩ :=
    performRsRaw_cases standardTables s <;> rw [hperf]
  · exact fail_keepsSt s _ _ _
  · trivial
  · refine keepsSt_writeBuf hm (b := .ebuf) (bs := ec) ?_ rfl
    obtain ⟨hk7, hk68, hgl⟩ := stdGen_some (genOf_standard _ ▸ hgen)
    rw [rsDiv_length hgl (by omega) hdiv]; omega

theorem performInterleave_keepsSt (hm : Memory.wf s.mem) : (performInterleave s).keepsSt s := by
  obtain ⟨f, -, hperf⟩ | ⟨f, -, hperf⟩ | ⟨-, -, out, -, -, -, ⟨-, f, hperf⟩ | ⟨hlen, hperf⟩⟩ :=
    performInterleave_cases s <;> rw [hperf]
  · trivial
  · trivial
  · trivial
  · exact keepsSt_writeBuf hm (b := .fbuf) (bs := out) (hlen.trans (by decide)) rfl

theorem performTrial_keepsSt (hm : Memory.wf s.mem) (m : Fin 8) :
    (performTrial standardTables m s).keepsSt s := by
  obtain ⟨e, x, hperf⟩ | ⟨f, ⟨x, -, hperf⟩ | ⟨g, n, hdraw, hperf⟩⟩ :=
    performTrial_cases standardTables m s <;> rw [hperf]
  · exact fail_keepsSt s _ _ _
  · trivial
  · exact keepsSt_of_drawSymbol hm hdraw rfl

theorem performCommit_keepsSt (hm : Memory.wf s.mem) : (performCommit standardTables s).keepsSt s := by
  obtain ⟨e, x, hperf⟩ | ⟨f, ⟨x, -, hperf⟩ | ⟨g, n, hdraw, hperf⟩⟩ :=
    performCommit_cases standardTables s <;> rw [hperf]
  · exact fail_keepsSt s _ _ _
  · trivial
  · exact keepsSt_of_drawSymbol hm hdraw rfl

theorem performScore_keepsSt : (performScore s).keepsSt s := by
  obtain ⟨e, x, hperf⟩ | ⟨f, -, -, hperf⟩ | ⟨p, hperf⟩ := performScore_cases s <;> rw [hperf]
  · exact fail_keepsSt s _ _ _
  · trivial
  · exact keepsSt_of_mem_eq rfl

/-- No command but BUILD, RUN and RUN_RAW, of which BUILD is a part, writes a structural flag. -/
theorem familyRule_keepsSt (hm : Memory.wf s.mem) {i : Instr} (hbuild : i ≠ .build) (hrun : i ≠ .run)
    (hraw : i ≠ .runRaw) : (familyRule i s).keepsSt s := by
  cases i with
  | nop => exact keepsSt_of_mem_eq rfl
  | encode => exact performEncode_keepsSt hm
  | select => exact performSelect_keepsSt hm
  | pad => exact performPad_keepsSt hm
  | ecgen => exact performEcgen_keepsSt hm
  | interleave => exact performInterleave_keepsSt hm
  | trial m => exact performTrial_keepsSt hm m
  | commit => exact performCommit_keepsSt hm
  | score => exact performScore_keepsSt
  | rsRaw => exact performRsRaw_keepsSt hm
  | build => exact absurd rfl hbuild
  | run => exact absurd rfl hrun
  | runRaw => exact absurd rfl hraw

theorem staged_keepsSt (hm : Memory.wf s.mem) {i : Instr} (hbuild : i ≠ .build) (hrun : i ≠ .run)
    (hraw : i ≠ .runRaw) : (staged i (familyRule i) s).keepsSt s := by
  obtain ⟨-, hstaged⟩ | hstaged := staged_cases i (familyRule i) s <;> rw [hstaged]
  · exact familyRule_keepsSt hm hbuild hrun hraw
  · exact fail_keepsSt s _ _ _

end Commands

/-- Settles O40, command by command: a buffer write does not reach MAT, and TRIAL and COMMIT place over the symbol
they have read. -/
theorem onlyBuildWritesStructuralFlags : Obligations.OnlyBuildWritesStructuralFlags := by
  intro s u i hm hbuild hrun hraw he
  rw [exec_eq_finish, finish_eq_next_iff] at he
  have hkeeps := staged_keepsSt hm hbuild hrun hraw
  obtain ⟨t, ht | ht, rfl⟩ := he <;> rw [ht] at hkeeps <;> exact hkeeps

end Sys2Proof.Machine
end

section
/-! PROOFS. The register page as the host sees it: what each register reads as, what a write leaves in it, and what
a reset leaves (10_state.md R20 to R54, R60, 20_memory.md R70 to R73). -/

namespace Sys2Proof.Machine

/-! ### Offsets -/

theorem Reg.at_offset (r : Reg) : Reg.at r.offset = some r := by
  cases r with
  | score m => revert m; decide
  | _ => rfl

/-- The registers stand at whole words of the page, and none at a reserved offset (10_state.md R53). -/
theorem Reg.offset_bounds (r : Reg) :
    r.offset % 4 = 0 ∧ (r.offset < 0x70 ∨ (0x80 ≤ r.offset ∧ r.offset < 0xBC)) := by
  cases r with
  | score m => revert m; decide
  | _ => decide

theorem Reg.inRegPage_offset (r : Reg) : inRegPage r.offset = true := by
  have hr := r.offset_bounds
  simp only [inRegPage, decide_eq_true_eq]; omega

/-- A bus address made of a register's offset is that offset. -/
theorem Reg.toNat_ofNat_offset (r : Reg) : (BitVec.ofNat 17 r.offset).toNat = r.offset := by
  have hr := r.offset_bounds
  exact Nat.mod_eq_of_lt (by omega)

theorem Reg.at_eq_none {off : Nat} (h : ∀ r : Reg, r.offset ≠ off) : Reg.at off = none := by
  rw [Reg.at, List.find?_eq_none]
  intro r _
  simpa using h r

/-! ### Accesses of a register -/

section Accesses

variable {s : State}

/-- An aligned word read at a register's offset reads the register: with BUSY = 0, and always for ID, CTRL and
STATUS (70_reset_and_hazards.md R391). -/
theorem memRead_offset {r : Reg} (h : s.pending = none ∨ r ∈ [Reg.id, .ctrl, .status]) :
    s.memRead r.offset .word = ⟨true, Reg.read s r⟩ := by
  have haligned : ¬ (AccSize.word ≠ .word ∨ r.offset % 4 ≠ 0) := by simp [r.offset_bounds.1]
  rw [State.memRead, if_pos r.inRegPage_offset, if_neg haligned, State.readRegister, Reg.at_offset]
  rcases h with hp | hr
  · simp [State.busy, hp]
  · simp only [List.mem_cons, List.not_mem_nil, or_false] at hr
    rcases hr with rfl | rfl | rfl <;> simp

/-- An aligned word write at a register's offset is the register write, with an OK response. -/
theorem hostWrite_offset (s : State) (r : Reg) (v : Word) :
    s.hostWrite (BitVec.ofNat 17 r.offset) .word v = (s.writeRegister r.offset v).respond true 0#32 := by
  have haligned : ¬ (AccSize.word ≠ .word ∨ r.offset % 4 ≠ 0) := by simp [r.offset_bounds.1]
  simp only [State.hostWrite, r.toNat_ofNat_offset]
  rw [if_pos r.inRegPage_offset, if_neg haligned]

/-- With BUSY = 0 a write to a register other than CTRL, STATUS and CMD stores its field. -/
theorem hostWrite_offset_store (hp : s.pending = none) {r : Reg} (hr : r ∉ [Reg.ctrl, .status, .cmd])
    (v : Word) :
    s.hostWrite (BitVec.ofNat 17 r.offset) .word v = (Reg.store s v r).respond true 0#32 := by
  simp only [List.mem_cons, List.not_mem_nil, or_false, not_or] at hr
  obtain ⟨hctrl, hstatus, hcmd⟩ := hr
  rw [hostWrite_offset, State.writeRegister, Reg.at_offset]
  split
  next heq => cases heq
  next heq => exact absurd (Option.some.inj heq) hctrl
  next heq => exact absurd (Option.some.inj heq) hstatus
  next heq => exact absurd (Option.some.inj heq) hcmd
  next heq =>
    cases heq
    simp [State.busy, hp]

/-- A store leaves PENDING alone, so BUSY. -/
theorem store_pending (s : State) (v : Word) (r : Reg) : (Reg.store s v r).pending = s.pending := by
  cases r <;> rfl

/-- The response is no register. -/
theorem read_respond (s : State) (ok : Bool) (x : Word) (r : Reg) :
    Reg.read (s.respond ok x) r = Reg.read s r := by
  cases r <;> rfl

theorem memRead_after_write (hp : s.pending = none) {r : Reg} (hr : r ∉ [Reg.ctrl, .status, .cmd])
    (v : Word) :
    (s.hostWrite (BitVec.ofNat 17 r.offset) .word v).memRead r.offset .word
      = ⟨true, Reg.read (Reg.store s v r) r⟩ := by
  rw [hostWrite_offset_store hp hr, memRead_offset (.inl ?pending), read_respond]
  case pending => rw [State.respond_pending, store_pending, hp]

end Accesses

/-! ### Operand, read-only and reserved registers -/

/-- The operand registers with their widths (10_state.md R29 to R33, R48 to R50). -/
def operandRegs : List (Reg × Nat) :=
  [(.mode, 3), (.ecl, 3), (.inLen, 14), (.charCount, 16), (.rawLen, 17), (.scoreN, 8), (.rsK, 7), (.rsLen, 14)]

/-- An operand register keeps the bits of its width (10_state.md R54). -/
theorem read_store_operand (s : State) (v : Word) :
    ∀ p ∈ operandRegs, Reg.read (Reg.store s v p.1) p.1 = (v.setWidth p.2).setWidth 32 := by
  simp [operandRegs, Reg.read, Reg.store]

theorem operand_not_control : ∀ p ∈ operandRegs, p.1 ∉ [Reg.ctrl, .status, .cmd] := by decide

/-- The read-only registers (10_state.md R53). -/
def readOnlyRegs : List Reg :=
  [.id, .errCode, .errInfo, .version, .selLevel, .size, .capBits, .streamLen, .numBlocks, .ecLen, .blkShort,
    .blkNlong, .totalCw, .freeCells, .placedBits, .bestMask, .bestScore,
    .score 0, .score 1, .score 2, .score 3, .score 4, .score 5, .score 6, .score 7,
    .pR1Row, .pR1Col, .pR2, .pR3Row, .pR3Col, .pR4, .pTotal]

theorem store_readOnly (s : State) (v : Word) : ∀ r ∈ readOnlyRegs, Reg.store s v r = s := by
  simp [readOnlyRegs, Reg.store]

theorem readOnly_not_control : ∀ r ∈ readOnlyRegs, r ∉ [Reg.ctrl, .status, .cmd] := by decide

/-- A reserved offset of the register page reads 0 and ignores writes (10_state.md R54). -/
theorem reserved_offset_access (s : State) (v : Word) {a : BusAddr} (halign : a.toNat % 4 = 0)
    (ha : (0x070 ≤ a.toNat ∧ a.toNat ≤ 0x07C) ∨ (0x0BC ≤ a.toNat ∧ a.toNat ≤ 0xFFF)) :
    s.hostWrite a .word v = s.respond true 0#32 ∧ s.memRead a.toNat .word = ⟨true, 0#32⟩ := by
  have hnone : Reg.at a.toNat = none := Reg.at_eq_none fun r hr => by
    have hbounds := r.offset_bounds
    omega
  have hpage : inRegPage a.toNat = true := by simp only [inRegPage, decide_eq_true_eq]; omega
  have haligned : ¬ (AccSize.word ≠ .word ∨ a.toNat % 4 ≠ 0) := by simp [halign]
  constructor
  · simp only [State.hostWrite]
    rw [if_pos hpage, if_neg haligned, State.writeRegister, hnone]
  · rw [State.memRead, if_pos hpage, if_neg haligned, State.readRegister, hnone]

theorem isReserved_of_range {a : Nat}
    (ha : (0x03000 ≤ a ∧ a ≤ 0x03FFF) ∨ (0x08000 ≤ a ∧ a ≤ 0x0FFFF)) :
    inRegPage a = false ∧ isReserved a = true := by
  simp only [isReserved, inRegPage, isBufByte, Buf.holds, inMatWindow, Bool.not_eq_true',
    Bool.or_eq_false_iff, Bool.and_eq_false_iff, decide_eq_false_iff_not]
  simp only [Buf.base, Buf.size, Config.ibufSize, Config.bbufSize, Config.ebufSize, Config.fbufSize,
    matBase]
  omega

/-- A reserved range reads 0 and ignores writes, at every width and alignment (20_memory.md R70, R72, R73). -/
theorem reserved_range_access (s : State) (n : AccSize) (v : Word) {a : BusAddr}
    (ha : (0x03000 ≤ a.toNat ∧ a.toNat ≤ 0x03FFF) ∨ (0x08000 ≤ a.toNat ∧ a.toNat ≤ 0x0FFFF)) :
    s.hostWrite a n v = s.respond true 0#32 ∧ s.memRead a.toNat n = ⟨true, 0#32⟩ := by
  obtain ⟨hpage, hres⟩ := isReserved_of_range ha
  simp [State.hostWrite, State.memRead, hpage, hres]

/-- Settles O5: the two tables of registers are lists of rows (offset, field), and each row is one access lemma. -/
theorem registerWritesStoreTheFieldWidth : Obligations.RegisterWritesStoreTheFieldWidth := by
  intro s v ok
  refine ⟨fun hp => ⟨fun off n x t hrow => ?operand, fun off x hrow => ?readOnly⟩,
    fun a => reserved_offset_access s v, fun a n => reserved_range_access s n v⟩
  case operand =>
    obtain ⟨p, hmem, hrow⟩ : ∃ p ∈ operandRegs,
        (p.1.offset, p.2, Reg.read s p.1, Reg.store s v p.1) = (off, n, x, t) := List.mem_map.1 hrow
    cases hrow
    have hctl := operand_not_control p hmem
    exact ⟨memRead_offset (.inl hp), hostWrite_offset_store hp hctl v,
      by rw [memRead_after_write hp hctl, read_store_operand s v p hmem]⟩
  case readOnly =>
    obtain ⟨r, hmem, hrow⟩ : ∃ r ∈ readOnlyRegs, (r.offset, Reg.read s r) = (off, x) :=
      List.mem_map.1 hrow
    cases hrow
    have hwrite := hostWrite_offset_store hp (readOnly_not_control r hmem) v
    rw [store_readOnly s v r hmem] at hwrite
    exact ⟨memRead_offset (.inl hp), hwrite⟩

/-! ### Resets -/

theorem ctrlWord_reset : State.reset.ctrlWord = 0#32 := by decide

theorem statusWord_reset : State.reset.statusWord = 0#32 := by decide

theorem resetRegisters_atResetValues (s : State) : s.resetRegisters.atResetValues := by
  refine ⟨fun r => ?_, rfl, rfl, rfl⟩
  cases r with
  | score m => simp [Reg.read, State.resetRegisters, State.reset]
  | ctrl => exact ctrlWord_reset
  | status => exact statusWord_reset
  | _ => rfl

/-- Settles O1: each of the three states is one that resets its registers. -/
theorem everyResetLeavesTheResetValues : Obligations.EveryResetLeavesTheResetValues := by
  intro s
  obtain ⟨t, ht⟩ := softReset_eq_resetRegisters s
  exact ⟨resetRegisters_atResetValues .reset, resetRegisters_atResetValues { s with mem := [] },
    ht ▸ resetRegisters_atResetValues t, fun _ => ⟨rfl, rfl⟩, rfl⟩

/-! ### CTRL and STATUS -/

theorem hostWrite_ctrl (s : State) (v : Word) :
    s.hostWrite 0x00004#17 .word v = (s.writeCtrl v).respond true 0#32 := by
  have hwrite := hostWrite_offset s .ctrl v
  rwa [State.writeRegister, Reg.at_offset] at hwrite

theorem hostWrite_status (s : State) (v : Word) :
    s.hostWrite 0x00008#17 .word v = (s.writeStatus v).respond true 0#32 := by
  have hwrite := hostWrite_offset s .status v
  rwa [State.writeRegister, Reg.at_offset] at hwrite

/-- Settles O6: both registers are written in every state. -/
theorem controlAndStatusWrites : Obligations.ControlAndStatusWrites := by
  intro s v
  refine ⟨fun hsrst => ?_, hostWrite_status s v⟩
  rw [hostWrite_ctrl, State.writeCtrl, hsrst]
  rfl

/-- A word of two fields, as a number. -/
theorem toNat_append_eq_add {m n : Nat} (x : BitVec m) (y : BitVec n) :
    (x ++ y).toNat = x.toNat * 2 ^ n + y.toNat := by
  rw [BitVec.toNat_append, ← Nat.shiftLeft_add_eq_or_of_lt y.isLt, Nat.shiftLeft_eq]

theorem ctrlWord_toNat (s : State) : s.ctrlWord.toNat = s.irqEn.toNat := by
  exact (toNat_append_eq_add 0#31 (BitVec.ofBool s.irqEn)).trans (by simp)

/-- STATUS bit by bit (10_state.md R23). -/
theorem statusWord_toNat (s : State) :
    s.statusWord.toNat = s.pending.isSome.toNat + 2 * s.done.toNat + 4 * s.err.toNat
      + 8 * s.cmdDropped.toNat + 2 ^ 8 * s.pstage.code.toNat + 2 ^ 16 * s.trialDone.toNat := by
  simp only [State.statusWord, State.busy, toNat_append_eq_add, BitVec.toNat_ofBool, BitVec.toNat_ofNat]
  omega

/-- The numbers of the stages (10_state.md R24). -/
theorem pstage_code_mem (p : PStage) : (p, p.code.toNat) ∈
    [(PStage.idle, 0), (.encoded, 1), (.selected, 2), (.padded, 3), (.ecDone, 4), (.interleaved, 5),
      (.patternsPlaced, 6), (.trialing, 7), (.committed, 8), (.failed, 15)] := by
  cases p <;> decide

/-- The numbers of the error codes (60_exceptions.md R350). -/
theorem errCode_code_mem (e : ErrCode) : (e, e.code.toNat) ∈
    [(ErrCode.none, 0x00), (.invalidCharacterSet, 0x01), (.invalidCorrectionLevel, 0x02),
      (.invalidMode, 0x03), (.dataTooLarge, 0x04), (.internalTableLookup, 0x05), (.illegalCmd, 0x10),
      (.sequence, 0x11), (.param, 0x12), (.lengthField, 0x13)] := by
  cases e <;> decide

/-- Settles O60: each register reads as its field, and the fields have the numbers of the spec. -/
theorem statusAndErrorRegistersRead : Obligations.StatusAndErrorRegistersRead := by
  intro s
  refine ⟨memRead_offset (r := .id) (.inr (by decide)),
    ⟨_, memRead_offset (r := .ctrl) (.inr (by decide)), ctrlWord_toNat s⟩,
    ⟨_, _, memRead_offset (r := .status) (.inr (by decide)), pstage_code_mem s.pstage, statusWord_toNat s⟩,
    fun hp => ⟨memRead_offset (r := .cmd) (.inl hp), memRead_offset (r := .errInfo) (.inl hp),
      _, _, memRead_offset (r := .errCode) (.inl hp), ?_, errCode_code_mem s.errCode⟩⟩
  exact BitVec.toNat_setWidth_of_le (by decide)

end Sys2Proof.Machine
end

section
/-! PROOFS. Host accesses of the memories: what the bus answers, and what a host write leaves in a buffer and in
the MAT window (20_memory.md R70 to R79, 70_reset_and_hazards.md R390, R391). -/

namespace Sys2Proof.Machine

/-! ### Regions of the address map -/

/-- A buffer byte or an address of the MAT window is in no other region (20_memory.md R70). -/
theorem region_of_memory {a : BusAddr} (h : isBufByte a.toNat = true ∨ 0x10000 ≤ a.toNat) :
    inRegPage a.toNat = false ∧ isReserved a.toNat = false := by
  have hlt : a.toNat < 0x20000 := a.isLt
  simp only [isReserved, inRegPage, isBufByte, Buf.holds, inMatWindow, Bool.not_eq_false', Bool.or_eq_true,
    Bool.and_eq_true, decide_eq_true_eq, decide_eq_false_iff_not] at h ⊢
  simp only [Buf.base, Buf.size, Config.ibufSize, Config.bbufSize, Config.ebufSize, Config.fbufSize,
    matBase] at h ⊢
  omega

theorem isBufByte_of_window {a : Nat} (h : 0x10000 ≤ a) : isBufByte a = false := by
  simp only [isBufByte, Buf.holds, Bool.or_eq_false_iff, Bool.and_eq_false_iff, decide_eq_false_iff_not]
  simp only [Buf.base, Buf.size, Config.ibufSize, Config.bbufSize, Config.ebufSize, Config.fbufSize]
  omega

/-- The buffers begin and end at whole words, so an aligned access has all its bytes in one buffer. -/
theorem isBufByte_add {a i : Nat} {n : AccSize} (h : isBufByte a = true) (halign : a % n.bytes = 0)
    (hi : i < n.bytes) : isBufByte (a + i) = true := by
  simp only [isBufByte, Buf.holds, Bool.or_eq_true, Bool.and_eq_true, decide_eq_true_eq] at h ⊢
  simp only [Buf.base, Buf.size, Config.ibufSize, Config.bbufSize, Config.ebufSize, Config.fbufSize] at h ⊢
  cases n <;> simp only [AccSize.bytes] at halign hi <;> omega

/-- An aligned access stays below the end of the address map. -/
theorem lt_of_aligned {a : BusAddr} {x : Nat} {n : AccSize} (halign : a.toNat % n.bytes = 0)
    (hx : x < a.toNat + n.bytes) : x < 0x20000 := by
  have hlt : a.toNat < 0x20000 := a.isLt
  cases n <;> simp only [AccSize.bytes] at halign hx <;> omega

theorem isCell_iff {a : Nat} (hlo : 0x10000 ≤ a) (hhi : a < 0x20000) :
    isCell a = true ↔ (a - 0x10000) / 256 < 177 ∧ (a - 0x10000) % 256 < 177 := by
  have hs : Config.sMax = 177 := rfl
  have hb : matBase = 0x10000 := rfl
  simp only [isCell, inMatWindow, Bool.and_eq_true, decide_eq_true_eq]
  omega

/-! ### The response to an access -/

section Memory

variable {s : State} {a : BusAddr} {n : AccSize} (hmem : isBufByte a.toNat = true ∨ 0x10000 ≤ a.toNat)

include hmem

theorem hostWrite_memory_misaligned (halign : a.toNat % n.bytes ≠ 0) (v : Word) :
    s.hostWrite a n v = s.respond false 0#32 := by
  obtain ⟨hpage, hres⟩ := region_of_memory hmem
  simp [State.hostWrite, hpage, hres, halign]

theorem hostWrite_memory_busy (halign : a.toNat % n.bytes = 0) (hp : s.pending ≠ none) (v : Word) :
    s.hostWrite a n v = s.respond true 0#32 := by
  obtain ⟨hpage, hres⟩ := region_of_memory hmem
  simp [State.hostWrite, hpage, hres, halign, State.busy, Option.isSome_iff_ne_none, hp]

theorem hostWrite_memory_idle (halign : a.toNat % n.bytes = 0) (hp : s.pending = none) (v : Word) :
    s.hostWrite a n v = (s.writeWindow a.toNat n v).respond true 0#32 := by
  obtain ⟨hpage, hres⟩ := region_of_memory hmem
  simp [State.hostWrite, hpage, hres, halign, State.busy, hp]

theorem memRead_memory_misaligned (halign : a.toNat % n.bytes ≠ 0) :
    s.memRead a.toNat n = ⟨false, 0#32⟩ := by
  obtain ⟨hpage, hres⟩ := region_of_memory hmem
  simp [State.memRead, hpage, hres, halign]

theorem memRead_memory_aligned (halign : a.toNat % n.bytes = 0) :
    s.memRead a.toNat n = ⟨true, BitVec.ofNat 32 (littleEndian
      ((List.range n.bytes).map fun i => s.hostByte (a.toNat + i) (s.draws + i)))⟩ := by
  obtain ⟨hpage, hres⟩ := region_of_memory hmem
  simp [State.memRead, hpage, hres, halign]

end Memory

theorem register_access_misaligned (s : State) {a : BusAddr} {n : AccSize} (hpage : a.toNat < 0x1000)
    (hbad : n ≠ .word ∨ a.toNat % 4 ≠ 0) (v : Word) :
    s.hostWrite a n v = s.respond false 0#32 ∧ s.memRead a.toNat n = ⟨false, 0#32⟩ := by
  have hin : inRegPage a.toNat = true := decide_eq_true hpage
  simp only [State.hostWrite, State.memRead]
  rw [if_pos hin, if_pos hbad, if_pos hin, if_pos hbad]
  exact ⟨rfl, rfl⟩

/-- Settles O7: a register access and a memory access each have one branch for it. -/
theorem misalignedAccessesHaveNoEffect : Obligations.MisalignedAccessesHaveNoEffect := by
  rintro s a n v (⟨hpage, hbad⟩ | ⟨hmem, halign⟩)
  · exact register_access_misaligned s hpage hbad v
  · exact ⟨hostWrite_memory_misaligned hmem halign v, memRead_memory_misaligned hmem halign⟩

/-! ### Accesses while BUSY -/

theorem Reg.offset_of_at {off : Nat} {r : Reg} (h : Reg.at off = some r) : r.offset = off := by
  simpa using List.find?_some h

/-- While BUSY = 1 a write to CMD is dropped (30_encoding.md R104). -/
theorem writeRegister_cmd_busy {s : State} (hp : s.pending ≠ none) (v : Word) :
    s.writeRegister 0x00C v = { s with cmdDropped := true } := by
  have hbusy : s.busy = true := Option.isSome_iff_ne_none.2 hp
  rw [State.writeRegister, show Reg.at 0x00C = some .cmd from Reg.at_offset .cmd]
  simp [State.issue, hbusy]

/-- While BUSY = 1 a write to a register but CTRL, STATUS and CMD is ignored (70_reset_and_hazards.md R390). -/
theorem writeRegister_busy {s : State} (hp : s.pending ≠ none) {off : Nat}
    (hoff : off ∉ [0x004, 0x008, 0x00C]) (v : Word) : s.writeRegister off v = s := by
  have hbusy : s.busy = true := Option.isSome_iff_ne_none.2 hp
  rw [State.writeRegister]
  split
  · rfl
  next hat => exact absurd (Reg.offset_of_at hat ▸ hoff) (by decide)
  next hat => exact absurd (Reg.offset_of_at hat ▸ hoff) (by decide)
  next hat => exact absurd (Reg.offset_of_at hat ▸ hoff) (by decide)
  · exact if_pos hbusy

/-- While BUSY = 1 a write to anything but CTRL, STATUS and CMD only gets its response. -/
theorem hostWrite_busy {s : State} (hp : s.pending ≠ none) {a : BusAddr}
    (ha : a.toNat ∉ [0x004, 0x008, 0x00C]) (n : AccSize) (v : Word) :
    s.hostWrite a n v = s.respond (accessOk a n) 0#32 := by
  have hbusy : s.busy = true := Option.isSome_iff_ne_none.2 hp
  simp only [State.hostWrite, accessOk, writeRegister_busy hp ha, hbusy, if_true]
  split_ifs with hpage hbad hres halign
  · obtain hn | hoff := hbad
    · simp [beq_false_of_ne hn]
    · simp [beq_false_of_ne hoff]
  · obtain ⟨hn, hoff⟩ := not_or.1 hbad
    simp [not_not.1 hn, not_not.1 hoff]
  · simp [hres]
  · simp [hres, beq_false_of_ne halign]
  · simp [not_not.1 halign]

/-- While BUSY = 1 a word write to CMD is dropped, and any other access of its word is misaligned. -/
theorem hostWrite_cmd_busy {s : State} (hp : s.pending ≠ none) (n : AccSize) (v : Word) :
    s.hostWrite 0x0000C#17 n v =
      { s with
        cmdDropped := s.cmdDropped || n == .word
        resp := some ⟨n == .word, 0#32⟩ } := by
  by_cases hn : n = .word
  · subst hn
    have hwrite := hostWrite_offset s .cmd v
    rw [show Reg.cmd.offset = 0x00C from rfl, writeRegister_cmd_busy hp] at hwrite
    rw [hwrite]
    simp [State.respond]
  · rw [(register_access_misaligned s (by decide) (.inl hn) v).1]
    simp [State.respond, hn]

theorem accessOk_cmd (n : AccSize) : accessOk 0x0000C#17 n = (n == .word) := by cases n <;> decide

/-- Settles O8: CMD apart, a write while BUSY is its response, and a read changes `resp` and `draws` only. -/
theorem accessesWhileBusyHaveNoEffect : Obligations.AccessesWhileBusyHaveNoEffect := by
  refine ⟨fun s w a n v hp hctrl hstatus => ?_, fun s w _ => ?_, fun s a n => ⟨_, _, rfl⟩⟩
  · have hbusy : s.pending ≠ none := by simp [hp]
    by_cases hcmd : a = 0x0000C#17
    · subst hcmd
      rw [hostWrite_cmd_busy hbusy, accessOk_cmd]
      simp
    · have ha : a.toNat ∉ [0x004, 0x008, 0x00C] := by
        simp only [List.mem_cons, List.not_mem_nil, or_false, not_or]
        exact ⟨fun h => hctrl (BitVec.eq_of_toNat_eq h), fun h => hstatus (BitVec.eq_of_toNat_eq h),
          fun h => hcmd (BitVec.eq_of_toNat_eq h)⟩
      rw [hostWrite_busy hbusy ha]
      simp [State.respond, hcmd]
  · exact ⟨memRead_offset (r := .id) (.inr (by decide)), memRead_offset (r := .ctrl) (.inr (by decide)),
      memRead_offset (r := .status) (.inr (by decide))⟩

/-! ### Words of bytes -/

/-- Bit `k` of a little-endian value is bit `k mod 8` of byte `k div 8` (20_memory.md R76). -/
theorem littleEndian_testBit (bs : List Byte) (k : Nat) :
    (littleEndian bs).testBit k = (bs.getD (k / 8) 0#8).getLsbD (k % 8) := by
  induction bs generalizing k with
  | nil => simp [littleEndian]
  | cons b bs ih =>
    rw [littleEndian, Nat.add_comm, show (256 : Nat) = 2 ^ 8 from rfl, Nat.testBit_two_pow_mul_add _ b.isLt]
    split
    next hk => simp [Nat.div_eq_of_lt hk, Nat.mod_eq_of_lt hk, BitVec.testBit_toNat]
    next hk =>
      have hdiv : k / 8 = (k - 8) / 8 + 1 := by omega
      rw [ih, hdiv, List.getD_cons_succ, show (k - 8) % 8 = k % 8 by omega]

theorem extractLsb'_littleEndian (bs : List Byte) {i : Nat} (hi : i < 4) :
    (BitVec.ofNat 32 (littleEndian bs)).extractLsb' (8 * i) 8 = bs.getD i 0#8 := by
  refine BitVec.eq_of_getLsbD_eq fun k hk => ?_
  have hlt : 8 * i + k < 32 := by omega
  simp only [BitVec.getLsbD_extractLsb', BitVec.getLsbD_ofNat, hk, hlt, decide_true, Bool.true_and,
    littleEndian_testBit]
  rw [show (8 * i + k) / 8 = i by omega, show (8 * i + k) % 8 = k by omega]

/-- Two words of the same four bytes are equal. -/
theorem eq_of_extractLsb'_eq {x y : Word} (h : ∀ i < 4, x.extractLsb' (8 * i) 8 = y.extractLsb' (8 * i) 8) :
    x = y := by
  refine BitVec.eq_of_getLsbD_eq fun k hk => ?_
  have hbyte := congrArg (·.getLsbD (k % 8)) (h (k / 8) (by omega))
  simpa [BitVec.getLsbD_extractLsb', Nat.mod_lt, Nat.div_add_mod] using hbyte

theorem extractLsb'_setWidth (v : Word) (n : AccSize) {i : Nat} (hi : i < 4) :
    ((v.setWidth (8 * n.bytes)).setWidth 32).extractLsb' (8 * i) 8
      = if i < n.bytes then v.extractLsb' (8 * i) 8 else 0#8 := by
  refine BitVec.eq_of_getLsbD_eq fun k hk => ?_
  have hlt : 8 * i + k < 32 := by omega
  split
  next hin =>
    have : 8 * i + k < 8 * n.bytes := by omega
    simp [hk, hlt, this]
  next hin =>
    have : ¬ 8 * i + k < 8 * n.bytes := by omega
    simp [this]

/-! ### What a host write leaves at each address -/

theorem hostEntry_bufByte (s : State) {a : Nat} (h : isBufByte a = true) (b : Byte) :
    s.hostEntry a b = some (a, b) := by simp [State.hostEntry, h]

theorem hostEntry_cell {s : State} {a : Nat} (hout : isBufByte a = false) (hcell : isCell a = true)
    (hstage : s.pstage ≠ .committed) (b : Byte) : s.hostEntry a b = some (a, b &&& 3#8) := by
  simp [State.hostEntry, hout, hcell, hstage]

theorem hostEntry_ignored {s : State} {a : Nat} (hout : isBufByte a = false)
    (h : isCell a = false ∨ s.pstage = .committed) (b : Byte) : s.hostEntry a b = none := by
  obtain h | h := h <;> simp [State.hostEntry, hout, h]

theorem lookup_hostEntries (s : State) (a : Nat) (f : Nat → Byte) (n x : Nat) :
    Memory.lookup ((List.range n).filterMap fun i => s.hostEntry (a + i) (f i)) x
      = if a ≤ x ∧ x < a + n then (s.hostEntry x (f (x - a))).map Prod.snd else none := by
  have hwf := wf_hostEntries s a f n 0
  rw [← List.range_eq_range'] at hwf
  ext b
  rw [Memory.lookup_eq_some_iff hwf.1, List.mem_filterMap]
  constructor
  · rintro ⟨i, hi, he⟩
    obtain rfl : x = a + i := (cellOk_hostEntry he).1
    rw [List.mem_range] at hi
    simp [hi, he]
  · intro h
    split at h
    next hx =>
      obtain ⟨e, he, rfl⟩ := Option.map_eq_some_iff.1 h
      obtain rfl : e.1 = x := (cellOk_hostEntry he).1
      refine ⟨e.1 - a, List.mem_range.2 (by omega), ?_⟩
      rwa [Nat.add_sub_cancel' hx.1]
    next => cases h

/-- A host write to a memory, address by address: within the access what the host's entry says, else the old
byte (20_memory.md R73). -/
theorem at_writeWindow {s : State} (hm : Memory.rising s.mem) (a : Nat) (n : AccSize) (v : Word) (x : Nat) :
    (s.writeWindow a n v).at x =
      (if a ≤ x ∧ x < a + n.bytes then (s.hostEntry x (v.extractLsb' (8 * (x - a)) 8)).map Prod.snd
        else none).or (s.at x) := by
  have hwf := wf_hostEntries s a (fun i => v.extractLsb' (8 * i) 8) n.bytes 0
  rw [← List.range_eq_range'] at hwf
  rw [State.at, State.writeWindow, Memory.lookup_write hwf.1 hm, lookup_hostEntries, State.at]

/-- A byte that the host may write holds afterwards what its entry says. -/
theorem at_writeWindow_entry {s : State} (hm : Memory.rising s.mem) {a i : Nat} {n : AccSize}
    (hi : i < n.bytes) {v : Word} {b : Byte}
    (he : s.hostEntry (a + i) (v.extractLsb' (8 * i) 8) = some (a + i, b)) :
    (s.writeWindow a n v).at (a + i) = some b := by
  rw [at_writeWindow hm]
  simp [hi, he]

/-- An address that the access does not reach, or that the host may not write, keeps what it holds. -/
theorem at_writeWindow_of_ignored {s : State} (hm : Memory.rising s.mem) {a x : Nat} {n : AccSize}
    (h : a ≤ x → x < a + n.bytes → ∀ b, s.hostEntry x b = none) (v : Word) :
    (s.writeWindow a n v).at x = s.at x := by
  rw [at_writeWindow hm]
  split
  next hx => simp [h hx.1 hx.2]
  next => rfl

/-! ### What a host read answers -/

theorem hostByte_written {s : State} (hp : s.pending = none) {a : Nat}
    (ha : isBufByte a = true ∨ isCell a = true) {b : Byte} (hat : s.at a = some b) (draw : Nat) :
    s.hostByte a draw = b := by
  rw [State.at] at hat
  simp [State.hostByte, ha, State.busy, hp, hat]

theorem hostByte_hole (s : State) {a : Nat} (hout : isBufByte a = false) (hhole : isCell a = false)
    (draw : Nat) : s.hostByte a draw = 0#8 := by
  simp [State.hostByte, hout, hhole]

/-- An aligned read of a memory answers the bytes of the access, zeros above them (20_memory.md R72, R76). -/
theorem memRead_memory_bytes {a : BusAddr} {n : AccSize}
    (hmem : isBufByte a.toNat = true ∨ 0x10000 ≤ a.toNat) (halign : a.toNat % n.bytes = 0) (s : State) :
    ∃ w, s.memRead a.toNat n = ⟨true, w⟩ ∧ ∀ i < 4,
      w.extractLsb' (8 * i) 8 =
        if i < n.bytes then s.hostByte (a.toNat + i) (s.draws + i) else 0#8 := by
  refine ⟨_, memRead_memory_aligned hmem halign, fun i hi => ?_⟩
  rw [extractLsb'_littleEndian _ hi, List.getD_eq_getElem?_getD, List.getElem?_map]
  split
  next hin => simp [hin]
  next hout => simp [hout]

/-! ### Buffers -/

section Buffer

variable {s : State} {a : BusAddr} {n : AccSize} (hbuf : isBufByte a.toNat = true)
  (halign : a.toNat % n.bytes = 0) (hp : s.pending = none)

include hbuf halign

theorem at_writeWindow_buffer (hm : Memory.rising s.mem) (v : Word) {i : Nat} (hi : i < n.bytes) :
    (s.writeWindow a.toNat n v).at (a.toNat + i) = some (v.extractLsb' (8 * i) 8) :=
  at_writeWindow_entry hm hi (hostEntry_bufByte s (isBufByte_add hbuf halign hi) _)

include hp

/-- A buffer access whose bytes are written reads them. -/
theorem memRead_buffer_written {v : Word}
    (hat : ∀ i < n.bytes, s.at (a.toNat + i) = some (v.extractLsb' (8 * i) 8)) :
    s.memRead a.toNat n = ⟨true, (v.setWidth (8 * n.bytes)).setWidth 32⟩ := by
  obtain ⟨w, hread, hbytes⟩ := memRead_memory_bytes (.inl hbuf) halign s
  rw [hread]
  congr 1
  refine eq_of_extractLsb'_eq fun i hi => ?_
  rw [hbytes i hi, extractLsb'_setWidth v n hi]
  split
  next hin => exact hostByte_written hp (.inl (isBufByte_add hbuf halign hin)) (hat i hin) _
  next => rfl

end Buffer

/-- Settles O9: the access is one window write, all of whose bytes are of the buffer. -/
theorem bufferAccessesAreLittleEndian : Obligations.BufferAccessesAreLittleEndian := by
  intro s a n v hm hp hbuf halign t
  have ht : t = (s.writeWindow a.toNat n v).respond true 0#32 :=
    hostWrite_memory_idle (.inl hbuf) halign hp v
  have hbytes : ∀ i < n.bytes, t.at (a.toNat + i) = some (v.extractLsb' (8 * i) 8) := fun i hi => by
    rw [ht, State.respond_at, at_writeWindow_buffer hbuf halign hm.1 v hi]
  refine ⟨hbytes, fun x hx => ?_, by rw [ht]; rfl,
    memRead_buffer_written hbuf halign (by rw [ht]; exact hp) hbytes⟩
  rw [ht, State.respond_at]
  exact at_writeWindow_of_ignored hm.1 (fun hlo hhi => absurd ⟨hlo, hhi⟩ hx) v

/-! ### The MAT window -/

/-- From COMMITTED on a host write to the window changes nothing (20_memory.md R75). -/
theorem writeWindow_committed {s : State} {a : Nat} (hwindow : 0x10000 ≤ a) (hstage : s.pstage = .committed)
    (n : AccSize) (v : Word) : s.writeWindow a n v = s := by
  have hnone : ((List.range n.bytes).filterMap fun i => s.hostEntry (a + i) (v.extractLsb' (8 * i) 8)) = [] :=
    List.filterMap_eq_nil_iff.2 fun i _ =>
      hostEntry_ignored (isBufByte_of_window (by omega)) (.inr hstage) _
  simp only [State.writeWindow, hnone, Memory.write]

/-- A host write sets the two bits of a cell (20_memory.md R75). -/
theorem at_writeWindow_cell {s : State} (hm : Memory.rising s.mem) (hstage : s.pstage ≠ .committed)
    {a i : Nat} {n : AccSize} (hi : i < n.bytes) (hcell : isCell (a + i) = true) (hwindow : 0x10000 ≤ a)
    (v : Word) :
    (s.writeWindow a n v).at (a + i) = some (v.extractLsb' (8 * i) 8 &&& 3#8) :=
  at_writeWindow_entry hm hi (hostEntry_cell (isBufByte_of_window (by omega)) hcell hstage _)

/-- A host write to the window reaches no hole (20_memory.md R73). -/
theorem at_writeWindow_not_cell {s : State} (hm : Memory.rising s.mem) {a x : Nat} (hwindow : 0x10000 ≤ a)
    {n : AccSize} (hx : a ≤ x → x < a + n.bytes → isCell x = false) (v : Word) :
    (s.writeWindow a n v).at x = s.at x :=
  at_writeWindow_of_ignored hm
    (fun hlo hhi b => hostEntry_ignored (isBufByte_of_window (by omega)) (.inl (hx hlo hhi)) b) v

/-- The two bits of a window byte make its number. -/
theorem toNat_eq_of_lt_four : ∀ b : Byte, b.toNat < 4 →
    b.toNat = (MatCell.ofByte b).bit.toNat ||| (MatCell.ofByte b).st.toNat <<< 1 := by decide

theorem ofByte_two_bits (v : Word) :
    MatCell.ofByte (v.extractLsb' 0 8 &&& 3#8) = ⟨v.getLsbD 0, v.getLsbD 1⟩ := by
  simp [MatCell.ofByte]

/-- A cell that memory lists is a byte below 4. -/
theorem toNat_lt_four_of_cell {s : State} (hm : Memory.wf s.mem) {a : Nat} (hwindow : 0x10000 ≤ a) {b : Byte}
    (hat : s.at a = some b) : b.toNat < 4 := by
  have hok := hm.2 _ ((Memory.lookup_eq_some_iff hm.1 a b).1 hat)
  simp only [cellOk, isBufByte_of_window hwindow, Bool.false_or, Bool.and_eq_true, decide_eq_true_eq] at hok
  exact hok.2

section Window

variable {s : State} {a : BusAddr} {n : AccSize} (hwindow : 0x10000 ≤ a.toNat)
  (halign : a.toNat % n.bytes = 0)

include hwindow halign

theorem hostWrite_window_ignored (h : s.pending ≠ none ∨ s.pstage = .committed) (v : Word) :
    s.hostWrite a n v = s.respond true 0#32 := by
  by_cases hp : s.pending = none
  · rw [hostWrite_memory_idle (.inr hwindow) halign hp,
      writeWindow_committed hwindow (h.resolve_left (not_not.2 hp))]
  · exact hostWrite_memory_busy (.inr hwindow) halign hp v

/-- A cell of a read window is what memory lists for it, and a hole is 0 (20_memory.md R70, R75). -/
theorem memRead_window (hp : s.pending = none) :
    ∃ w, s.memRead a.toNat n = ⟨true, w⟩ ∧ ∀ i < 4,
      (∀ b, i < n.bytes → isCell (a.toNat + i) = true → s.at (a.toNat + i) = some b →
          w.extractLsb' (8 * i) 8 = b)
        ∧ (n.bytes ≤ i ∨ isCell (a.toNat + i) = false → w.extractLsb' (8 * i) 8 = 0#8) := by
  obtain ⟨w, hread, hbytes⟩ := memRead_memory_bytes (.inr hwindow) halign s
  refine ⟨w, hread, fun i hi => ⟨fun b hin hcell hat => ?_, fun hout => ?_⟩⟩
  · rw [hbytes i hi, if_pos hin, hostByte_written hp (.inr hcell) hat]
  · rw [hbytes i hi]
    split
    next hin => exact hostByte_hole s (isBufByte_of_window (by omega)) (hout.resolve_left (by omega)) _
    next => rfl

/-- A host write sets the two bits of the cells it reaches, and changes nothing else (20_memory.md R75). -/
theorem hostWrite_window (hm : Memory.wf s.mem) (hp : s.pending = none) (hstage : s.pstage ≠ .committed)
    (v : Word) :
    let t := s.hostWrite a n v
    (∀ i < n.bytes, isCell (a.toNat + i) = true →
        t.at (a.toNat + i) = some (v.extractLsb' (8 * i) 8 &&& 3#8))
      ∧ keepsOutside (fun x => a.toNat ≤ x ∧ x < a.toNat + n.bytes ∧ isCell x = true) s t
      ∧ t = { s with mem := t.mem, resp := some ⟨true, 0#32⟩ } := by
  intro t
  have ht : t = (s.writeWindow a.toNat n v).respond true 0#32 :=
    hostWrite_memory_idle (.inr hwindow) halign hp v
  refine ⟨fun i hi hcell => ?_, fun x hx => ?_, by rw [ht]; rfl⟩
  · rw [ht, State.respond_at, at_writeWindow_cell hm.1 hstage hi hcell hwindow]
  · rw [ht, State.respond_at]
    exact at_writeWindow_not_cell hm.1 hwindow
      (fun hlo hhi => Bool.eq_false_iff.2 fun hcell => hx ⟨hlo, hhi, hcell⟩) v

end Window

theorem window_le_of_cell {a r c : Nat} (ha : a = cellAddr r c) : 0x10000 ≤ a := by
  rw [ha, cellAddr, matBase]; omega

/-- A written cell reads as `bit | (st << 1)` (20_memory.md R75). -/
theorem memRead_cell {s : State} (hm : Memory.wf s.mem) (hp : s.pending = none) {a : BusAddr} {r c : Nat}
    (ha : a.toNat = cellAddr r c) (hcell : isCell a.toNat = true) {x : MatCell}
    (hx : s.matCell r c = some x) :
    s.memRead a.toNat .byte = ⟨true, BitVec.ofNat 32 (x.bit.toNat ||| (x.st.toNat <<< 1))⟩ := by
  rw [State.matCell, ← ha] at hx
  obtain ⟨b, hat, rfl⟩ := Option.map_eq_some_iff.1 hx
  have hwindow := window_le_of_cell ha
  rw [memRead_memory_aligned (.inr hwindow) (Nat.mod_one _),
    ← toNat_eq_of_lt_four b (toNat_lt_four_of_cell hm hwindow hat)]
  simp [AccSize.bytes, littleEndian, hostByte_written hp (.inr hcell) hat]

theorem toNat_cell_busAddr {r c : Nat} (hr : r < 177) (hc : c < 177) :
    (BitVec.ofNat 17 (0x10000 + 256 * r + c)).toNat = cellAddr r c :=
  Nat.mod_eq_of_lt (by omega)

/-- Settles O10: a byte of the window is a cell of MAT or a hole, at every width. -/
theorem matWindowHoldsTwoBits : Obligations.MatWindowHoldsTwoBits := by
  refine ⟨?byte, ?wide⟩
  case byte =>
    intro s r c v hm hr hc a t
    have ha : a.toNat = cellAddr r c := toNat_cell_busAddr hr hc
    have hcell : isCell a.toNat = true := ha ▸ isCell_cellAddr hr hc
    have hwindow := window_le_of_cell ha
    have halign : a.toNat % AccSize.byte.bytes = 0 := Nat.mod_one _
    refine ⟨fun x hx hp => memRead_cell hm hp ha hcell hx, fun hp hstage => ?_,
      fun h => hostWrite_window_ignored hwindow halign h v⟩
    obtain ⟨hbytes, hkeeps, hframe⟩ := hostWrite_window hwindow halign hm hp hstage v
    refine ⟨?_, fun x hx => hkeeps x ?_, hframe⟩
    · have hbyte := hbytes 0 (by decide) hcell
      rw [Nat.add_zero, ha] at hbyte
      rw [State.matCell, hbyte]
      exact congrArg some (ofByte_two_bits v)
    · rintro ⟨hlo, hhi, -⟩
      rw [ha] at hlo hhi
      exact hx (Nat.le_antisymm (Nat.le_of_lt_succ hhi) hlo)
  case wide =>
    intro s a n v hm hwindow halign hp isACell t
    have hcell : ∀ x, a.toNat ≤ x → x < a.toNat + n.bytes → (isCell x = true ↔ isACell x) :=
      fun x hlo hhi => isCell_iff (hwindow.trans hlo) (lt_of_aligned halign hhi)
    refine ⟨?_, fun hstage => ?_, fun hstage => hostWrite_window_ignored hwindow halign (.inr hstage) v⟩
    · obtain ⟨w, hread, hbytes⟩ := memRead_window (s := s) hwindow halign hp
      refine ⟨w, hread, fun i hi => ⟨fun b hin hc => ?_, fun hout => ?_⟩⟩
      · exact (hbytes i hi).1 b hin ((hcell _ (by omega) (by omega)).2 hc)
      · refine (hbytes i hi).2 (or_iff_not_imp_left.2 fun hin => Bool.eq_false_iff.2 fun hc => ?_)
        exact hout.resolve_left hin ((hcell _ (by omega) (by omega)).1 hc)
    · obtain ⟨hbytes, hkeeps, hframe⟩ := hostWrite_window hwindow halign hm hp hstage v
      refine ⟨fun i hi hc => hbytes i hi ((hcell _ (by omega) (by omega)).2 hc), fun x hx => hkeeps x ?_,
        hframe⟩
      rintro ⟨hlo, hhi, hc⟩
      exact hx ⟨hlo, hhi, (hcell x hlo hhi).1 hc⟩

end Sys2Proof.Machine
end

section
/-! PROOFS. What changes no cell of MAT from COMMITTED on (20_memory.md R75, 46_penalty_select.md R313). -/

namespace Sys2Proof.Machine

/-! ### Host writes -/

theorem store_mem (s : State) (v : Word) (r : Reg) : (Reg.store s v r).mem = s.mem := by
  cases r <;> rfl

/-- With BUSY = 0 no register write changes a memory, a soft reset neither (70_reset_and_hazards.md R382). -/
theorem writeRegister_mem_idle {s : State} (hp : s.pending = none) (off : Nat) (v : Word) :
    (s.writeRegister off v).mem = s.mem := by
  rw [State.writeRegister]
  split
  · rfl
  · rw [State.writeCtrl, State.softReset, hp]
    split <;> rfl
  · rfl
  · rw [State.issue]
    split <;> rfl
  · split
    · rfl
    · exact store_mem ..

/-- With BUSY = 0 a host write leaves the memories as they are, or as its window write leaves them. -/
theorem hostWrite_mem_idle {s : State} (hp : s.pending = none) (a : BusAddr) (n : AccSize) (v : Word) :
    (s.hostWrite a n v).mem = s.mem ∨ (s.hostWrite a n v).mem = (s.writeWindow a.toNat n v).mem := by
  rw [State.hostWrite]
  split_ifs
  · exact .inl rfl
  · exact .inl (writeRegister_mem_idle hp ..)
  · exact .inl rfl
  · exact .inl rfl
  · exact .inl rfl
  · exact .inr rfl

theorem hostWrite_committed_matCell {s : State} (hm : Memory.rising s.mem) (hp : s.pending = none)
    (hstage : s.pstage = .committed) (a : BusAddr) (n : AccSize) (v : Word) (r c : Nat) :
    (s.hostWrite a n v).matCell r c = s.matCell r c := by
  rw [State.matCell, State.matCell, State.at]
  obtain hmem | hmem := hostWrite_mem_idle hp a n v <;> rw [hmem]
  · rfl
  · exact congrArg (Option.map MatCell.ofByte) (at_writeWindow_of_ignored hm
      (fun _ _ => hostEntry_ignored (isBufByte_of_window (window_le_of_cell rfl)) (.inr hstage)) v)

/-! ### Commands that start in any stage write within their column -/

/-- The states that a family rule answers differ from the one it starts in only within the command's column of
memory (30_encoding.md R110). -/
def Perf.keepsOutsideColumn (i : Instr) (s : State) : Perf → Prop
  | .ok t | .failed t => keepsOutside (mayWriteAt i) s t
  | .stopped _ => True

theorem keepsOutside_of_mem_eq {P : Nat → Prop} {s t : State} (h : t.mem = s.mem) : keepsOutside P s t :=
  fun a _ => by rw [State.at, h, State.at]

/-- A buffer write of bytes that fit the buffer stays in the buffer. -/
theorem keepsOutside_of_bufWrite {s t : State} (hm : Memory.rising s.mem) {b : Buf} {bs : List Byte}
    (hlen : bs.length ≤ b.size) (ht : t.mem = (s.writeBuf b bs).mem) :
    keepsOutside (b.within b.size) s t := fun a ha => by
  rw [State.at, ht]
  exact keepsOutside_writeBuf hm b bs a fun ⟨hlo, hhi⟩ => ha ⟨hlo, by omega⟩

theorem fail_keepsOutsideColumn (i j : Instr) (s : State) (e : ErrCode) (x : Word) :
    Perf.keepsOutsideColumn i s (.failed (s.fail j e x)) := keepsOutside_of_mem_eq rfl

theorem Perf.keepsOutsideColumn.of_answer {i : Instr} {s t : State} {p : Perf} (h : p.keepsOutsideColumn i s)
    (ht : p = .ok t ∨ p = .failed t) : keepsOutside (mayWriteAt i) s t := by
  obtain rfl | rfl := ht <;> exact h

section Commands

variable {s : State}

theorem performEncode_keepsOutsideColumn (hm : Memory.rising s.mem) :
    (performEncode s).keepsOutsideColumn .encode s := by
  obtain ⟨e, x, hperf⟩ | ⟨f, -, -, hperf⟩ | ⟨t, bits, hn, hread, htext, hperf⟩ :=
    performEncode_cases s <;> rw [hperf]
  · exact fail_keepsOutsideColumn _ _ _ _ _
  · trivial
  · refine keepsOutside_of_bufWrite hm (b := .bbuf) (bs := packBytes bits) ?_ rfl
    have htl := ((readBuf_ok_iff hm ..).1 hread).1
    have hbits := encodeText_length_le htext
    simp only [Config.ibufSize] at hn
    rw [packBytes_length, Buf.size, Config.bbufSize]; omega

theorem performSelect_keepsOutsideColumn (hm : Memory.rising s.mem) :
    (performSelect standardTables s).keepsOutsideColumn .select s := by
  obtain ⟨e, x, hperf⟩ | ⟨f, -, -, hperf⟩ | ⟨v, c, raw, -, -, hsearch, hload, hperf⟩ :=
    performSelect_cases standardTables s <;> rw [hperf]
  · exact fail_keepsOutsideColumn _ _ _ _ _
  · trivial
  · refine keepsOutside_of_bufWrite hm (b := .bbuf)
      (bs := packBytes (header s.mode.toNat v s.charCount.toNat ++ raw)) ?_ rfl
    obtain ⟨-, -, hcap, hfit⟩ := searchVersion_ok hsearch
    obtain ⟨-, -, -, -, -, hc⟩ := stdCap_some hcap
    have hraw := ((loadBits_ok_iff hm ..).1 hload).1
    rw [packBytes_length, List.length_append, header_length, Buf.size, Config.bbufSize]; omega

theorem performRsRaw_keepsOutsideColumn (hm : Memory.rising s.mem) :
    (performRsRaw standardTables s).keepsOutsideColumn .rsRaw s := by
  obtain ⟨e, x, hperf⟩ | ⟨f, -, -, hperf⟩ | ⟨gen, data, ec, hgen, hdiv, hperf⟩ :=
    performRsRaw_cases standardTables s <;> rw [hperf]
  · exact fail_keepsOutsideColumn _ _ _ _ _
  · trivial
  · refine keepsOutside_of_bufWrite hm (b := .ebuf) (bs := ec) ?_ rfl
    obtain ⟨hk7, hk68, hgl⟩ := stdGen_some (genOf_standard _ ▸ hgen)
    have hlen := rsDiv_length hgl (by omega) hdiv
    rw [Buf.size, Config.ebufSize]; omega

theorem performScore_keepsOutsideColumn : (performScore s).keepsOutsideColumn .score s := by
  obtain ⟨e, x, hperf⟩ | ⟨f, -, -, hperf⟩ | ⟨p, hperf⟩ := performScore_cases s <;> rw [hperf]
  · exact fail_keepsOutsideColumn _ _ _ _ _
  · trivial
  · exact keepsOutside_of_mem_eq rfl

/-- A command that starts in any stage, RUN and RUN_RAW apart, keeps to its column. -/
theorem familyRule_keepsOutsideColumn (hm : Memory.rising s.mem) {i : Instr} (hany : stagesBefore i = none)
    (hrun : i ≠ .run) (hraw : i ≠ .runRaw) : (familyRule i s).keepsOutsideColumn i s := by
  cases i with
  | nop => exact keepsOutside_of_mem_eq rfl
  | encode => exact performEncode_keepsOutsideColumn hm
  | select => exact performSelect_keepsOutsideColumn hm
  | score => exact performScore_keepsOutsideColumn
  | rsRaw => exact performRsRaw_keepsOutsideColumn hm
  | run => exact absurd rfl hrun
  | runRaw => exact absurd rfl hraw
  | pad | ecgen | interleave | build | trial | commit => cases hany

/-- No command with a stage before it may start from COMMITTED (30_encoding.md R103). -/
theorem stagesBefore_of_mayStart_committed (hstage : s.pstage = .committed) {i : Instr} (h : mayStart i s) :
    stagesBefore i = none := by
  obtain ⟨hbefore, -⟩ := h
  rw [hstage] at hbefore
  cases i <;> simp [stagesBefore] at hbefore ⊢

/-- The buffers end below the MAT window (20_memory.md R70). -/
theorem not_within_cell (b : Buf) (r c : Nat) : ¬ b.within b.size (cellAddr r c) := by
  have hend : b.base + b.size ≤ 0x10000 := by cases b <;> decide
  have hwindow : 0x10000 ≤ cellAddr r c := window_le_of_cell rfl
  rintro ⟨-, hhi⟩
  omega

/-- Of the commands that start in any stage, only RUN and RUN_RAW have cells in their column. -/
theorem not_mayWriteAt_cell {i : Instr} (hany : stagesBefore i = none) (hrun : i ≠ .run) (hraw : i ≠ .runRaw)
    (r c : Nat) : ¬ mayWriteAt i (cellAddr r c) := by
  cases i with
  | nop | score => exact id
  | encode | select => exact not_within_cell .bbuf r c
  | rsRaw => exact not_within_cell .ebuf r c
  | run => exact absurd rfl hrun
  | runRaw => exact absurd rfl hraw
  | pad | ecgen | interleave | build | trial | commit => cases hany

/-- From COMMITTED a command other than RUN and RUN_RAW either may not start, and fails, or keeps to a column with
no cell. -/
theorem exec_committed_matCell {u : State} (hm : Memory.rising s.mem) (hstage : s.pstage = .committed) {i : Instr}
    (hrun : i ≠ .run) (hraw : i ≠ .runRaw) (he : exec i s = .next u) (r c : Nat) :
    u.matCell r c = s.matCell r c := by
  rw [exec_eq_finish, finish_eq_next_iff] at he
  obtain ⟨t, ht, rfl⟩ := he
  obtain ⟨hmay, hstaged⟩ | hstaged := staged_cases i (familyRule i) s <;> rw [hstaged] at ht
  · have hany := stagesBefore_of_mayStart_committed hstage hmay
    have hkeeps := (familyRule_keepsOutsideColumn hm hany hrun hraw).of_answer ht
    exact congrArg (Option.map MatCell.ofByte) (hkeeps _ (not_mayWriteAt_cell hany hrun hraw r c))
  · obtain rfl : s.fail i .sequence (sequenceInfo s i) = t := by simpa using ht
    rfl

end Commands

/-- Settles O51: the command half and the host half. -/
theorem noMutationAfterCommit : Obligations.NoMutationAfterCommit := fun _ hm hstage =>
  ⟨fun _ _ hrun hraw he r c _ _ => exec_committed_matCell hm.1 hstage hrun hraw he r c,
    fun a n v hp r c _ _ => hostWrite_committed_matCell hm.1 hp hstage a n v r c⟩

end Sys2Proof.Machine
end

section
/-! PROOFS. Command words (30_encoding.md R100 to R107): what the decoder reads from a word's fields, and how a word
that is no command, a command out of its stage and a write to CMD end. -/

namespace Sys2Proof.Machine

/-! ### The fields of a word -/

/-- A word is its RSV, MARG and OPC, most significant field first (R101). -/
theorem word_eq_fields (w : Word) : w = rsvField w ++ margField w ++ opcField w := by
  refine BitVec.eq_of_toNat_eq ?_
  have hw := w.isLt
  simp only [toNat_append_eq_add, rsvField, margField, opcField, BitVec.extractLsb'_toNat,
    Nat.shiftRight_eq_div_pow]
  omega

theorem formatC_ok_iff (i j : Instr) (marg : BitVec 3) : formatC i marg = .ok j ↔ marg = 0#3 ∧ i = j := by
  rw [formatC]; split <;> simp [*]

/-- A format-`C` word that decodes has the fields of its command. -/
theorem fields_of_formatC {i j : Instr} {marg : BitVec 3} {opc : BitVec 8} (h : formatC i marg = .ok j)
    (hopc : opc.toNat = (opcodeOf i).toNat) (hi : margOf i = 0#3) :
    marg = margOf j ∧ opc = opcodeOf j := by
  obtain ⟨rfl, rfl⟩ := (formatC_ok_iff i j marg).1 h
  exact ⟨hi.symm, BitVec.eq_of_toNat_eq hopc⟩

/-- A word that decodes has RSV = 0 and the command's MARG and OPC. -/
theorem fields_of_decode {w : Word} {i : Instr} (h : decode w = .ok i) :
    rsvField w = 0#21 ∧ margField w = margOf i ∧ opcField w = opcodeOf i := by
  rw [decode] at h
  split at h
  · cases h
  next hrsv =>
  refine ⟨not_not.1 hrsv, ?_⟩
  dsimp only at h
  split at h
  case h_8 hopc =>
    cases h
    exact ⟨rfl, BitVec.eq_of_toNat_eq hopc⟩
  case h_14 => cases h
  all_goals next hopc => exact fields_of_formatC h hopc rfl

/-- The decoder reads a command from its own word. -/
theorem decode_encode (i : Instr) : decode (encode i) = .ok i := by
  cases i with
  | trial m => revert m; decide
  | _ => decide

/-- The decoder reads a command from no other word. -/
theorem decode_eq_ok_iff (w : Word) (i : Instr) : decode w = .ok i ↔ w = encode i := by
  refine ⟨fun h => ?_, fun h => h ▸ decode_encode i⟩
  obtain ⟨hrsv, hmarg, hopc⟩ := fields_of_decode h
  rw [word_eq_fields w, hrsv, hmarg, hopc, encode]

theorem encode_trial (m : Fin 8) : encode (.trial m) = BitVec.ofNat 32 (0x00000007 + 0x100 * m.val) := by
  revert m; decide

/-- Settles O11: a word is its three fields, and a word that decodes has those of its command. -/
theorem legalWordsAreExactlyTheTable : Obligations.LegalWordsAreExactlyTheTable := by
  refine ⟨decode_eq_ok_iff, ?_, ?_, ?_, ?_, ?_, ?_, ?_, encode_trial, ?_, ?_, ?_, ?_, ?_⟩ <;> decide

/-- Settles O12: each word is that of its command. -/
theorem writtenOutWordsDecode : Obligations.WrittenOutWordsDecode := by
  refine ⟨?_, ?_, ?_, ?_, ?_, ?_, ?_, ?_, ?_⟩ <;> rw [decode_eq_ok_iff] <;> decide

/-! ### Illegal words -/

/-- The opcode map (R103). -/
theorem opcodeOf_mem (i : Instr) :
    (opcodeOf i).toNat ∈ [0, 1, 2, 3, 4, 5, 6, 7, 8, 9, 0x0E, 0x0F, 0x10] := by
  cases i <;> simp [opcodeOf]

/-- Only TRIAL has a mask argument (R101, R102). -/
theorem margOf_eq_zero {i : Instr} (h : opcodeOf i ≠ 0x07#8) : margOf i = 0#3 := by
  cases i with
  | trial m => exact absurd rfl h
  | _ => rfl

/-- A word with a fault of R106 is no command's word. -/
theorem decode_ne_ok_of_illegal {w : Word} (h : rsvField w ≠ 0#21
      ∨ (opcField w).toNat ∉ [0, 1, 2, 3, 4, 5, 6, 7, 8, 9, 0x0E, 0x0F, 0x10]
      ∨ (opcField w ≠ 0x07#8 ∧ margField w ≠ 0#3)) (i : Instr) : decode w ≠ .ok i := by
  intro hd
  obtain ⟨hrsv, hmarg, hopc⟩ := fields_of_decode hd
  rw [hrsv, hmarg, hopc] at h
  obtain h | h | ⟨hopc7, h⟩ := h
  · exact h rfl
  · exact h (opcodeOf_mem i)
  · exact h (margOf_eq_zero hopc7)

theorem engineTurn_of_decode_ne_ok {w : Word} (hd : ∀ i, decode w ≠ .ok i) (s : State) :
    engineTurn w s = .next (s.rejectWord w) := by
  rw [engineTurn]
  split
  next i hi => exact absurd hi (hd i)
  · rfl

/-- Settles O16: the engine rejects a word that no command has. -/
theorem illegalWordsCompleteWithAnError : Obligations.IllegalWordsCompleteWithAnError := by
  intro s w hp hh hill
  rw [step_of_hold_zero hp hh, engineTurn_of_decode_ne_ok (decode_ne_ok_of_illegal hill)]
  rfl

/-! ### Commands out of their stage -/

/-- ERRINFO of E_SEQUENCE as a number: OPC | PSTAGE << 8 | TRIAL_DONE << 16 (R105). -/
theorem sequenceInfo_eq_ofNat (s : State) (i : Instr) : sequenceInfo s i = BitVec.ofNat 32
    ((opcodeOf i).toNat ||| (s.pstage.code.toNat <<< 8) ||| (s.trialDone.toNat <<< 16)) := by
  have hopc := (opcodeOf i).isLt
  have hstage := s.pstage.code.isLt
  have htrials := s.trialDone.isLt
  refine BitVec.eq_of_toNat_eq ?_
  rw [BitVec.toNat_ofNat, Nat.or_comm (opcodeOf i).toNat, ← Nat.shiftLeft_add_eq_or_of_lt hopc, Nat.or_comm,
    ← Nat.shiftLeft_add_eq_or_of_lt (by rw [Nat.shiftLeft_eq]; omega)]
  simp only [sequenceInfo, toNat_append_eq_add, BitVec.toNat_ofNat, Nat.shiftLeft_eq]
  omega

/-- Settles O17: the stage check fails before the family rule is reached. -/
theorem outOfSequenceCommandsFail : Obligations.OutOfSequenceCommandsFail := by
  intro s i h
  rw [exec_eq_runCommand, runCommand_of_not_mayStart h, ← sequenceInfo_eq_ofNat]
  rfl

/-! ### Writes to CMD -/

/-- With BUSY = 0 a word written to CMD is accepted, with an OK response. -/
theorem hostWrite_cmd_idle {s : State} (hp : s.pending = none) (w : Word) :
    s.hostWrite 0x0000C#17 .word w =
      ({ s.accept w (Config.busyTime s.draws) with draws := s.draws + 1 } : State).respond true 0#32 := by
  have hwrite := hostWrite_offset s .cmd w
  rw [State.writeRegister, Reg.at_offset] at hwrite
  have hbusy : s.busy = false := by simp [State.busy, hp]
  rwa [State.issue, hbusy] at hwrite

/-- Settles O13: the two ends of a command issue. -/
theorem cmdWriteIsAcceptedOrDropped : Obligations.CmdWriteIsAcceptedOrDropped := by
  intro s w t
  refine ⟨fun hp => ?_, fun u hp => ?_⟩
  · rw [show t = _ from hostWrite_cmd_idle hp w]
    rfl
  · rw [show t = _ from hostWrite_cmd_busy (by simp [hp]) .word w]
    simp

end Sys2Proof.Machine
end

section
/-! PROOFS. The columns of the command tables: the stage a command leaves, the registers and the memory it may write,
and what it leaves alone (30_encoding.md R103, R105, R110). -/

namespace Sys2Proof.Machine

/-! ### The memory column -/

/-- No version and level has more correction codewords than EBUF has bytes, at any value of the registers. -/
theorem stdEc_le : ∀ v < 64, ∀ l < 4, (stdNb v l).getD 0 * (stdEcb v l).getD 0 ≤ 4096 := by decide +kernel

/-- A write of a square stays in MAT. -/
theorem keepsOutside_of_gridWrite {s t : State} (hm : Memory.rising s.mem) {n : Nat} (hn : n ≤ Config.sMax)
    {g : Grid} (hg : g.square n) (ht : t.mem = (s.storeGrid g).mem) :
    keepsOutside (inSquare Config.sMax) s t := fun a ha => by
  rw [State.at, ht]
  exact keepsOutside_storeGrid hn hm hg a fun ⟨r, c, hr, hc, hcell⟩ =>
    ha ⟨r, c, by omega, by omega, hcell⟩

section MemoryColumn

variable {s : State}

/-- A stream of at most 8192 bytes padded to a capacity of 16 bits has at most 8192 bytes. -/
theorem performPad_keepsOutsideColumn (hm : Memory.rising s.mem) :
    (performPad s).keepsOutsideColumn .pad s := by
  obtain ⟨f, -, hperf⟩ | ⟨x, hload, hperf⟩ := performPad_cases s <;> rw [hperf]
  · trivial
  · refine keepsOutside_of_bufWrite hm (b := .bbuf) (bs := packBytes (padStream s.capBits.toNat x)) ?_ rfl
    obtain ⟨-, hx, -⟩ := (loadBits_ok_iff hm ..).1 hload
    have hcap := s.capBits.isLt
    simp only [Config.bbufSize] at hx
    rw [packBytes_length, padStream_length, terminate_length, Buf.size, Config.bbufSize]
    omega

theorem performEcgen_keepsOutsideColumn (hm : Memory.rising s.mem) :
    (performEcgen standardTables s).keepsOutsideColumn .ecgen s := by
  obtain ⟨e, x, hperf⟩ | ⟨f, -, hperf⟩ | ⟨N, k, gen, data, ec, hnb, hecb, hgen, -, hdiv, hperf⟩ :=
    performEcgen_cases standardTables s <;> rw [hperf]
  · exact fail_keepsOutsideColumn _ _ _ _ _
  · trivial
  · refine keepsOutside_of_bufWrite hm (b := .ebuf) (bs := ec) ?_ rfl
    obtain ⟨hk7, -, hgl⟩ := stdGen_some (genOf_standard k ▸ hgen)
    have hle := stdEc_le _ s.version.isLt _ s.selLevel.isLt
    rw [show stdNb s.version.toNat s.selLevel.toNat = some N from hnb,
      show stdEcb s.version.toNat s.selLevel.toNat = some k from hecb] at hle
    rw [divideBlocks_length hgl (by omega) hdiv, dataBlocks_length]
    exact hle

theorem performInterleave_keepsOutsideColumn (hm : Memory.rising s.mem) :
    (performInterleave s).keepsOutsideColumn .interleave s := by
  obtain ⟨f, -, hperf⟩ | ⟨f, -, hperf⟩ | ⟨-, -, out, -, -, -, ⟨-, f, hperf⟩ | ⟨hlen, hperf⟩⟩ :=
    performInterleave_cases s <;> rw [hperf]
  · trivial
  · trivial
  · trivial
  · exact keepsOutside_of_bufWrite hm (b := .fbuf) (bs := out) hlen rfl

theorem performBuild_keepsOutsideColumn (hm : Memory.rising s.mem) :
    (performBuild standardTables s).keepsOutsideColumn .build s := by
  obtain ⟨e, x, hperf⟩ | ⟨P, code, hperf⟩ := performBuild_cases standardTables s <;> rw [hperf]
  · exact fail_keepsOutsideColumn _ _ _ _ _
  · obtain ⟨g, n, hg, hbuilt⟩ := s.built_eq_storeGrid s.version.toNat P code
    rw [hbuilt]
    exact keepsOutside_of_gridWrite hm (le_refl _) hg rfl

/-- TRIAL and COMMIT store what they draw, over the square they have read. -/
theorem keepsOutside_of_drawSymbol {t : State} (hm : Memory.rising s.mem) {cmd : Instr} {f : Nat} {m : Fin 8}
    {g : Grid} {n : Nat} (hdraw : drawSymbol cmd f m s = .ok (g, n)) (ht : t.mem = (s.storeGrid g).mem) :
    keepsOutside (inSquare Config.sMax) s t := by
  obtain ⟨g₀, hg₀, hplaced⟩ := drawSymbol_ok hm hdraw
  obtain ⟨hn, hg⟩ := hplaced.square_of_holdsGrid hg₀
  exact keepsOutside_of_gridWrite hm hn hg ht

theorem performTrial_keepsOutsideColumn (hm : Memory.rising s.mem) (m : Fin 8) :
    (performTrial standardTables m s).keepsOutsideColumn (.trial m) s := by
  obtain ⟨e, x, hperf⟩ | ⟨f, ⟨x, -, hperf⟩ | ⟨g, n, hdraw, hperf⟩⟩ :=
    performTrial_cases standardTables m s <;> rw [hperf]
  · exact fail_keepsOutsideColumn _ _ _ _ _
  · trivial
  · exact keepsOutside_of_drawSymbol hm hdraw rfl

theorem performCommit_keepsOutsideColumn (hm : Memory.rising s.mem) :
    (performCommit standardTables s).keepsOutsideColumn .commit s := by
  obtain ⟨e, x, hperf⟩ | ⟨f, ⟨x, -, hperf⟩ | ⟨g, n, hdraw, hperf⟩⟩ :=
    performCommit_cases standardTables s <;> rw [hperf]
  · exact fail_keepsOutsideColumn _ _ _ _ _
  · trivial
  · exact keepsOutside_of_drawSymbol hm hdraw rfl

/-- Every command but RUN and RUN_RAW keeps to its column of memory. -/
theorem familyRule_keepsOutsideColumn_single (hm : Memory.rising s.mem) {i : Instr} (hrun : i ≠ .run)
    (hraw : i ≠ .runRaw) : (familyRule i s).keepsOutsideColumn i s := by
  cases i with
  | pad => exact performPad_keepsOutsideColumn hm
  | ecgen => exact performEcgen_keepsOutsideColumn hm
  | interleave => exact performInterleave_keepsOutsideColumn hm
  | build => exact performBuild_keepsOutsideColumn hm
  | trial m => exact performTrial_keepsOutsideColumn hm m
  | commit => exact performCommit_keepsOutsideColumn hm
  | nop | encode | select | score | rsRaw | run | runRaw =>
    exact familyRule_keepsOutsideColumn hm rfl hrun hraw

end MemoryColumn

/-! ### What a command leaves alone -/

/-- The fields no command writes: IRQ_EN, CMD_DROPPED and the model's own (30_encoding.md R110, log 3, 4, 6). -/
def State.environment (s : State) : Bool × Bool × List HostAction × Option BusResponse × Nat × Nat :=
  (s.irqEn, s.cmdDropped, s.host, s.resp, s.hold, s.draws)

/-- From `s` to `t` only what stands in the command's "writes" column differs, apart from STATUS, ERRCODE and ERRINFO
(30_encoding.md R110); of STATUS, TRIAL_DONE stays but for BUILD and TRIAL. -/
structure State.staysInColumn (i : Instr) (s t : State) : Prop where
  read_eq : ∀ r, r ∉ writesRegister i → r ≠ .status → r ≠ .errCode → r ≠ .errInfo →
    Reg.read t r = Reg.read s r
  trials_eq : i ≠ .build → i ≠ .run → i ≠ .runRaw → (∀ m, i ≠ .trial m) → t.trialDone = s.trialDone
  environment_eq : t.environment = s.environment
  rising : Memory.rising s.mem → Memory.rising t.mem
  at_eq : Memory.rising s.mem → keepsOutside (mayWriteAt i) s t

theorem State.staysInColumn.refl (i : Instr) (s : State) : s.staysInColumn i s :=
  ⟨fun _ _ _ _ _ => rfl, fun _ _ _ _ => rfl, rfl, id, fun _ _ _ => rfl⟩

theorem State.staysInColumn.trans {i : Instr} {s t u : State} (h : s.staysInColumn i t)
    (h' : t.staysInColumn i u) : s.staysInColumn i u where
  read_eq r hr hstatus hcode hinfo :=
    (h'.read_eq r hr hstatus hcode hinfo).trans (h.read_eq r hr hstatus hcode hinfo)
  trials_eq hbuild hrun hraw htrial :=
    (h'.trials_eq hbuild hrun hraw htrial).trans (h.trials_eq hbuild hrun hraw htrial)
  environment_eq := h'.environment_eq.trans h.environment_eq
  rising hm := h'.rising (h.rising hm)
  at_eq hm a ha := (h'.at_eq (h.rising hm) a ha).trans (h.at_eq hm a ha)

/-- An error records itself in ERR, PSTAGE, ERRCODE and ERRINFO alone. -/
theorem fail_staysInColumn (i j : Instr) (s : State) (e : ErrCode) (x : Word) :
    s.staysInColumn i (s.fail j e x) := by
  refine ⟨fun r _ hstatus hcode hinfo => ?_, fun _ _ _ _ => rfl, rfl, id, fun _ _ _ => rfl⟩
  cases r with
  | status => exact absurd rfl hstatus
  | errCode => exact absurd rfl hcode
  | errInfo => exact absurd rfl hinfo
  | _ => rfl

theorem complete_staysInColumn (i : Instr) (s : State) : s.staysInColumn i s.complete := by
  refine ⟨fun r _ hstatus _ _ => ?_, fun _ _ _ _ => rfl, rfl, id, fun _ _ _ => rfl⟩
  cases r with
  | status => exact absurd rfl hstatus
  | _ => rfl

/-- How a command ends by its rows of the tables (30_encoding.md R103, R110): on success in its "stage after", on
failure with ERR = 1, in both cases within its column. -/
def Perf.followsTables (i : Instr) (s : State) : Perf → Prop
  | .ok t => t.pstage = (stageAfter i).getD s.pstage ∧ s.staysInColumn i t
  | .failed t => t.err = true ∧ s.staysInColumn i t
  | .stopped _ => True

theorem Perf.followsTables.staysInColumn {i : Instr} {s t : State} {p : Perf} (h : p.followsTables i s)
    (ht : p = .ok t ∨ p = .failed t) : s.staysInColumn i t := by
  obtain rfl | rfl := ht <;> exact h.2

theorem fail_followsTables (i j : Instr) (s : State) (e : ErrCode) (x : Word) :
    Perf.followsTables i s (.failed (s.fail j e x)) := ⟨rfl, fail_staysInColumn i j s e x⟩

theorem rising_writeBuf {s : State} (b : Buf) (bs : List Byte) (hm : Memory.rising s.mem) :
    Memory.rising (s.writeBuf b bs).mem := Memory.rising_write (rising_cellsFrom _ _) hm

/-- What TRIAL and COMMIT store keeps the addresses rising. -/
theorem rising_of_drawSymbol {s : State} {cmd : Instr} {f : Nat} {m : Fin 8} {g : Grid} {n : Nat}
    (hdraw : drawSymbol cmd f m s = .ok (g, n)) (hm : Memory.rising s.mem) :
    Memory.rising (s.storeGrid g).mem := by
  obtain ⟨g₀, hg₀, hplaced⟩ := drawSymbol_ok hm hdraw
  obtain ⟨hn, hg⟩ := hplaced.square_of_holdsGrid hg₀
  exact Memory.rising_write (wf_gridCells hn hg).1 hm

section Tables

variable (s : State)

theorem performEncode_followsTables : (performEncode s).followsTables .encode s := by
  obtain ⟨e, x, hperf⟩ | ⟨f, -, -, hperf⟩ | ⟨t, bits, -, -, -, hperf⟩ :=
    performEncode_cases s <;> rw [hperf]
  · exact fail_followsTables _ _ _ _ _
  · trivial
  · refine ⟨rfl, fun r hr hstatus _ _ => ?_, fun _ _ _ _ => rfl, rfl, rising_writeBuf .bbuf _,
      fun hm => (performEncode_keepsOutsideColumn hm).of_answer (.inl hperf)⟩
    cases r with
    | rawLen => exact absurd (by decide) hr
    | status => exact absurd rfl hstatus
    | _ => rfl

theorem performSelect_followsTables : (performSelect standardTables s).followsTables .select s := by
  obtain ⟨e, x, hperf⟩ | ⟨f, -, -, hperf⟩ | ⟨v, c, raw, -, -, -, -, hperf⟩ :=
    performSelect_cases standardTables s <;> rw [hperf]
  · exact fail_followsTables _ _ _ _ _
  · trivial
  · refine ⟨rfl, fun r hr hstatus _ _ => ?_, fun _ _ _ _ => rfl, rfl, rising_writeBuf .bbuf _,
      fun hm => (performSelect_keepsOutsideColumn hm).of_answer (.inl hperf)⟩
    cases r with
    | version | selLevel | size | capBits | streamLen => exact absurd (by decide) hr
    | status => exact absurd rfl hstatus
    | _ => rfl

theorem performPad_followsTables : (performPad s).followsTables .pad s := by
  obtain ⟨f, -, hperf⟩ | ⟨x, -, hperf⟩ := performPad_cases s <;> rw [hperf]
  · trivial
  · refine ⟨rfl, fun r hr hstatus _ _ => ?_, fun _ _ _ _ => rfl, rfl, rising_writeBuf .bbuf _,
      fun hm => (performPad_keepsOutsideColumn hm).of_answer (.inl hperf)⟩
    cases r with
    | streamLen => exact absurd (by decide) hr
    | status => exact absurd rfl hstatus
    | _ => rfl

theorem performEcgen_followsTables : (performEcgen standardTables s).followsTables .ecgen s := by
  obtain ⟨e, x, hperf⟩ | ⟨f, -, hperf⟩ | ⟨N, k, gen, data, ec, -, -, -, -, -, hperf⟩ :=
    performEcgen_cases standardTables s <;> rw [hperf]
  · exact fail_followsTables _ _ _ _ _
  · trivial
  · refine ⟨rfl, fun r hr hstatus _ _ => ?_, fun _ _ _ _ => rfl, rfl, rising_writeBuf .ebuf _,
      fun hm => (performEcgen_keepsOutsideColumn hm).of_answer (.inl hperf)⟩
    cases r with
    | numBlocks | ecLen | blkShort | blkNlong => exact absurd (by decide) hr
    | status => exact absurd rfl hstatus
    | _ => rfl

theorem performInterleave_followsTables : (performInterleave s).followsTables .interleave s := by
  obtain ⟨f, -, hperf⟩ | ⟨f, -, hperf⟩ | ⟨-, -, out, -, -, -, ⟨-, f, hperf⟩ | ⟨-, hperf⟩⟩ :=
    performInterleave_cases s <;> rw [hperf]
  · trivial
  · trivial
  · trivial
  · refine ⟨rfl, fun r hr hstatus _ _ => ?_, fun _ _ _ _ => rfl, rfl, rising_writeBuf .fbuf _,
      fun hm => (performInterleave_keepsOutsideColumn hm).of_answer (.inl hperf)⟩
    cases r with
    | totalCw => exact absurd (by decide) hr
    | status => exact absurd rfl hstatus
    | _ => rfl

theorem performBuild_followsTables : (performBuild standardTables s).followsTables .build s := by
  obtain ⟨e, x, hperf⟩ | ⟨P, code, hperf⟩ := performBuild_cases standardTables s <;> rw [hperf]
  · exact fail_followsTables _ _ _ _ _
  · obtain ⟨g, n, hg, hbuilt⟩ := s.built_eq_storeGrid s.version.toNat P code
    rw [hbuilt] at hperf ⊢
    refine ⟨rfl, fun r hr hstatus _ _ => ?_, fun hbuild => absurd rfl hbuild, rfl,
      Memory.rising_write (wf_gridCells (le_refl _) hg).1,
      fun hm => (performBuild_keepsOutsideColumn hm).of_answer (.inl hperf)⟩
    cases r with
    | freeCells | score => exact absurd (by simp [writesRegister]) hr
    | status => exact absurd rfl hstatus
    | _ => rfl

theorem performTrial_followsTables (m : Fin 8) :
    (performTrial standardTables m s).followsTables (.trial m) s := by
  obtain ⟨e, x, hperf⟩ | ⟨f, ⟨x, -, hperf⟩ | ⟨g, n, hdraw, hperf⟩⟩ :=
    performTrial_cases standardTables m s <;> rw [hperf]
  · exact fail_followsTables _ _ _ _ _
  · trivial
  · refine ⟨rfl, fun r hr hstatus _ _ => ?_, fun _ _ _ htrial => absurd rfl (htrial m), rfl,
      rising_of_drawSymbol hdraw, fun hm => (performTrial_keepsOutsideColumn hm m).of_answer (.inl hperf)⟩
    cases r with
    | score m' =>
      have hne : m ≠ m' := fun h => hr (by simp [writesRegister, h])
      exact Vector.getElem_set_ne m.isLt m'.isLt (Fin.val_ne_of_ne hne)
    | placedBits | pR1Row | pR1Col | pR2 | pR3Row | pR3Col | pR4 | pTotal =>
      exact absurd (by simp [writesRegister, writesRegister.breakdown]) hr
    | status => exact absurd rfl hstatus
    | _ => rfl

theorem performCommit_followsTables : (performCommit standardTables s).followsTables .commit s := by
  obtain ⟨e, x, hperf⟩ | ⟨f, ⟨x, -, hperf⟩ | ⟨g, n, hdraw, hperf⟩⟩ :=
    performCommit_cases standardTables s <;> rw [hperf]
  · exact fail_followsTables _ _ _ _ _
  · trivial
  · refine ⟨rfl, fun r hr hstatus _ _ => ?_, fun _ _ _ _ => rfl, rfl, rising_of_drawSymbol hdraw,
      fun hm => (performCommit_keepsOutsideColumn hm).of_answer (.inl hperf)⟩
    cases r with
    | bestMask | bestScore | placedBits => exact absurd (by decide) hr
    | status => exact absurd rfl hstatus
    | _ => rfl

theorem performScore_followsTables : (performScore s).followsTables .score s := by
  obtain ⟨e, x, hperf⟩ | ⟨f, -, -, hperf⟩ | ⟨p, hperf⟩ := performScore_cases s <;> rw [hperf]
  · exact fail_followsTables _ _ _ _ _
  · trivial
  · refine ⟨rfl, fun r hr hstatus _ _ => ?_, fun _ _ _ _ => rfl, rfl, id,
      fun _ => performScore_keepsOutsideColumn.of_answer (.inl hperf)⟩
    cases r with
    | pR1Row | pR1Col | pR2 | pR3Row | pR3Col | pR4 | pTotal => exact absurd (by decide) hr
    | status => exact absurd rfl hstatus
    | _ => rfl

theorem performRsRaw_followsTables : (performRsRaw standardTables s).followsTables .rsRaw s := by
  obtain ⟨e, x, hperf⟩ | ⟨f, -, -, hperf⟩ | ⟨gen, data, ec, -, -, hperf⟩ :=
    performRsRaw_cases standardTables s <;> rw [hperf]
  · exact fail_followsTables _ _ _ _ _
  · trivial
  · refine ⟨rfl, fun r hr hstatus _ _ => ?_, fun _ _ _ _ => rfl, rfl, rising_writeBuf .ebuf _,
      fun hm => (performRsRaw_keepsOutsideColumn hm).of_answer (.inl hperf)⟩
    cases r with
    | ecLen => exact absurd (by decide) hr
    | status => exact absurd rfl hstatus
    | _ => rfl

/-- Every command but RUN and RUN_RAW follows its rows of the tables. -/
theorem familyRule_followsTables_single {i : Instr} (hrun : i ≠ .run) (hraw : i ≠ .runRaw) :
    (familyRule i s).followsTables i s := by
  cases i with
  | nop => exact ⟨rfl, .refl _ s⟩
  | encode => exact performEncode_followsTables s
  | select => exact performSelect_followsTables s
  | pad => exact performPad_followsTables s
  | ecgen => exact performEcgen_followsTables s
  | interleave => exact performInterleave_followsTables s
  | build => exact performBuild_followsTables s
  | trial m => exact performTrial_followsTables s m
  | commit => exact performCommit_followsTables s
  | score => exact performScore_followsTables s
  | rsRaw => exact performRsRaw_followsTables s
  | run => exact absurd rfl hrun
  | runRaw => exact absurd rfl hraw

end Tables

/-- A command behind its stage check follows its rows where its family rule does. -/
theorem staged_followsTables {i : Instr} {body : State → Perf} {s : State} (h : (body s).followsTables i s) :
    (staged i body s).followsTables i s := by
  obtain ⟨-, hstaged⟩ | hstaged := staged_cases i body s <;> rw [hstaged]
  · exact h
  · exact fail_followsTables _ _ _ _ _

/-! ### RUN and RUN_RAW -/

/-- The memory column of RUN and RUN_RAW holds that of every command (30_encoding.md R110). -/
theorem mayWriteAt_composite {j : Instr} (hj : j = .run ∨ j = .runRaw) {i : Instr} {a : Nat}
    (h : mayWriteAt i a) : mayWriteAt j a := by
  obtain rfl | rfl := hj <;> cases i with
  | nop | score => exact h.elim
  | encode | select | pad => exact .inl h
  | ecgen | rsRaw => exact .inr (.inl h)
  | interleave => exact .inr (.inr (.inl h))
  | build | trial | commit => exact .inr (.inr (.inr h))
  | run | runRaw => exact h

/-- A sub-command's registers are those of RUN or RUN_RAW. -/
theorem State.staysInColumn.composite {i j : Instr} {s t : State} (h : s.staysInColumn i t)
    (hj : j = .run ∨ j = .runRaw) (hregs : ∀ r ∈ writesRegister i, r ∈ writesRegister j) :
    s.staysInColumn j t where
  read_eq r hr := h.read_eq r fun hi => hr (hregs r hi)
  trials_eq _ hrun hraw := absurd hj (not_or.2 ⟨hrun, hraw⟩)
  environment_eq := h.environment_eq
  rising := h.rising
  at_eq hm a ha := h.at_eq hm a fun hi => ha (mayWriteAt_composite hj hi)

/-- `i` is a sub-command whose registers stand in the column of `j`. -/
def subCommandOf (j i : Instr) : Prop :=
  i ≠ .run ∧ i ≠ .runRaw ∧ ∀ r ∈ writesRegister i, r ∈ writesRegister j

section Composite

variable {j : Instr} {l : List Instr} {s t : State}

/-- Sub-commands one after the other stay in the column of RUN or RUN_RAW, as far as they come. -/
theorem performAll_staysInColumn (hj : j = .run ∨ j = .runRaw) (hl : ∀ i ∈ l, subCommandOf j i)
    (h : performAll (l.map fun i => staged i (familyRule i)) s = .ok t
      ∨ performAll (l.map fun i => staged i (familyRule i)) s = .failed t) : s.staysInColumn j t := by
  induction l generalizing s with
  | nil =>
    obtain rfl : s = t := by simpa [performAll] using h
    exact .refl j s
  | cons i l ih =>
    obtain ⟨⟨hrun, hraw, hregs⟩, hl⟩ := List.forall_mem_cons.1 hl
    have hi := staged_followsTables (familyRule_followsTables_single s hrun hraw)
    rw [List.map_cons] at h
    cases hres : staged i (familyRule i) s with
    | ok s' =>
      rw [performAll_cons_ok hres] at h
      exact ((hi.staysInColumn (.inl hres)).composite hj hregs).trans (ih hl h)
    | failed s' =>
      obtain rfl : s' = t := by simpa [performAll_cons_failed hres] using h
      exact (hi.staysInColumn (.inr hres)).composite hj hregs
    | stopped f => simp [performAll_cons_stopped hres] at h

/-- A sequence of sub-commands that fails has a sub-command that fails in its last state. -/
theorem performAll_failed {ps : List (State → Perf)} (h : performAll ps s = .failed t) :
    ∃ p ∈ ps, ∃ u, p u = .failed t := by
  induction ps generalizing s with
  | nil => simp [performAll] at h
  | cons p ps ih =>
    cases hres : p s with
    | ok s' =>
      rw [performAll_cons_ok hres] at h
      obtain ⟨q, hq, hfail⟩ := ih h
      exact ⟨q, by simp [hq], hfail⟩
    | failed s' =>
      obtain rfl : s' = t := by simpa [performAll_cons_failed hres] using h
      exact ⟨p, by simp, s, hres⟩
    | stopped f => simp [performAll_cons_stopped hres] at h

/-- A sequence of sub-commands that succeeds ends with the success of its last one. -/
theorem performAll_concat_ok {ps : List (State → Perf)} {p : State → Perf}
    (h : performAll (ps ++ [p]) s = .ok t) : ∃ u, p u = .ok t := by
  induction ps generalizing s with
  | nil =>
    cases hres : p s with
    | ok s' =>
      rw [List.nil_append, performAll_cons_ok hres] at h
      obtain rfl : s' = t := by simpa [performAll] using h
      exact ⟨s, hres⟩
    | failed s' => simp [performAll_cons_failed hres] at h
    | stopped f => simp [performAll_cons_stopped hres] at h
  | cons q ps ih =>
    rw [List.cons_append] at h
    cases hres : q s with
    | ok s' => rw [performAll_cons_ok hres] at h; exact ih h
    | failed s' => simp [performAll_cons_failed hres] at h
    | stopped f => simp [performAll_cons_stopped hres] at h

/-- A sequence of sub-commands that ends with COMMIT follows the rows of RUN or RUN_RAW. -/
theorem performAll_followsTables (hj : j = .run ∨ j = .runRaw) (hl : ∀ i ∈ l, subCommandOf j i)
    (hlast : l.getLast? = some .commit) :
    (performAll (l.map fun i => staged i (familyRule i)) s).followsTables j s := by
  have hcolumn := fun t => performAll_staysInColumn (s := s) (t := t) hj hl
  cases hall : performAll (l.map fun i => staged i (familyRule i)) s with
  | ok t =>
    refine ⟨?_, hcolumn t (.inl hall)⟩
    obtain ⟨init, rfl⟩ := List.getLast?_eq_some_iff.1 hlast
    rw [List.map_append] at hall
    obtain ⟨u, hu⟩ := performAll_concat_ok hall
    have hcommit := staged_followsTables (performCommit_followsTables u)
    rw [show staged .commit (performCommit standardTables) u = .ok t from hu] at hcommit
    obtain rfl | rfl := hj <;> exact hcommit.1
  | failed t =>
    refine ⟨?_, hcolumn t (.inr hall)⟩
    obtain ⟨p, hp, u, hu⟩ := performAll_failed hall
    obtain ⟨i, hi, rfl⟩ := List.mem_map.1 hp
    obtain ⟨hrun, hraw, -⟩ := hl i hi
    have hsub := staged_followsTables (familyRule_followsTables_single u hrun hraw)
    rw [hu] at hsub
    exact hsub.1
  | stopped f => trivial

end Composite

theorem subCommandOf_runRaw : ∀ i ∈ rawPipeline, subCommandOf .runRaw i := by
  unfold subCommandOf; decide

theorem subCommandOf_run : ∀ i ∈ Instr.encode :: rawPipeline, subCommandOf .run i := by
  unfold subCommandOf; decide

/-! ### Whole commands -/

/-- Every command follows its rows of the tables. -/
theorem staged_familyRule_followsTables (i : Instr) (s : State) :
    (staged i (familyRule i) s).followsTables i s := by
  refine staged_followsTables ?_
  by_cases hrun : i = .run
  · subst hrun
    rw [familyRule_run]
    exact performAll_followsTables (.inl rfl) subCommandOf_run rfl
  by_cases hraw : i = .runRaw
  · subst hraw
    rw [familyRule_runRaw]
    exact performAll_followsTables (.inr rfl) subCommandOf_runRaw rfl
  exact familyRule_followsTables_single s hrun hraw

/-- A command that is performed was in its stage. -/
theorem mayStart_of_staged_ok {i : Instr} {body : State → Perf} {s t : State} (h : staged i body s = .ok t) :
    mayStart i s := by
  obtain ⟨hstart, -⟩ | hstaged := staged_cases i body s
  · exact hstart
  · simp [h] at hstaged

/-- Settles O18: a command that fails leaves ERR = 1, so one that does not is performed by its family rule. -/
theorem successMovesTheStage : Obligations.SuccessMovesTheStage := by
  intro s u i _ he herr
  rw [exec_eq_finish, finish_eq_next_iff] at he
  have htables := staged_familyRule_followsTables i s
  obtain ⟨t, ht | ht, rfl⟩ := he <;> rw [ht] at htables
  · exact ⟨mayStart_of_staged_ok ht, htables.1⟩
  · obtain ⟨hfail, -⟩ := htables
    simp [hfail] at herr

/-- Settles O19: a command stays in its column, and completion changes STATUS and PENDING only. -/
theorem commandsWriteOnlyTheirColumn : Obligations.CommandsWriteOnlyTheirColumn := by
  intro s u i hm he
  rw [exec_eq_finish, finish_eq_next_iff] at he
  obtain ⟨t, ht, rfl⟩ := he
  obtain ⟨hread, htrials, henv, -, hat⟩ :=
    ((staged_familyRule_followsTables i s).staysInColumn ht).trans (complete_staysInColumn i t)
  simp only [State.environment, Prod.mk.injEq] at henv
  obtain ⟨hirq, hdropped, hhost, hresp, hhold, hdraws⟩ := henv
  exact ⟨hread, hat hm.1, rfl, rfl, by rw [State.irq, hirq]; exact Bool.and_true _, hdropped, htrials, hhost,
    hresp, hhold, hdraws⟩

end Sys2Proof.Machine
end

section
/-! PROOFS. ENCODE: the values of characters, the bit strings of texts group by group, how the command ends, and
that it reads MODE, IN_LEN and IBUF alone (40_mode_encoder.md R141 to R149). -/

namespace Sys2Proof.Machine

/-! ### Characters -/

/-- The value of a character in an alphabet listed in the order of the values (R141, R143). -/
def valueIn (l : List Nat) (b : Byte) : Option Nat :=
  if b.toNat ∈ l then some (l.idxOf b.toNat) else none

theorem valueIn_of_mem {l : List Nat} {b : Byte} (h : b.toNat ∈ l) : valueIn l b = some (l.idxOf b.toNat) :=
  if_pos h

theorem valueIn_of_not_mem {l : List Nat} {b : Byte} (h : b.toNat ∉ l) : valueIn l b = none := if_neg h

/-- A digit's place in its alphabet is its distance from '0'. -/
theorem idxOf_digit {n : Nat} (h : n ∈ List.range' 0x30 10) : (List.range' 0x30 10).idxOf n = n - 0x30 := by
  obtain ⟨i, hi, rfl⟩ := List.mem_range'.1 h
  have hidx := (List.nodup_range' (s := 0x30) (n := 10)).idxOf_getElem i (by simpa using hi)
  rw [List.getElem_range'] at hidx
  omega

theorem digitValue_eq_valueIn (b : Byte) : digitValue b = valueIn (List.range' 0x30 10) b := by
  have hmem : b.toNat ∈ List.range' 0x30 10 ↔ 0x30 ≤ b.toNat ∧ b.toNat ≤ 0x39 := by
    rw [List.mem_range'_1]; omega
  by_cases h : b.toNat ∈ List.range' 0x30 10
  · rw [valueIn_of_mem h, idxOf_digit h, digitValue, if_pos (hmem.1 h)]
  · rw [valueIn_of_not_mem h, digitValue, if_neg (mt hmem.2 h)]

/-- The 45 values of R143's table are the places in the alphabet, byte by byte. -/
theorem alnumValue_eq_valueIn : ∀ b : Byte, alnumValue b = valueIn ((alphabet 1).getD []) b := by
  decide +kernel

/-! ### Texts of an alphabet -/

theorem textValues_of_mem {l : List Nat} {t : List Byte} (i : Nat) (h : ∀ b ∈ t, b.toNat ∈ l) :
    textValues (valueIn l) t i = .ok (t.map fun b => l.idxOf b.toNat) := by
  induction t generalizing i with
  | nil => rfl
  | cons b t ih =>
    rw [List.forall_mem_cons] at h
    simp [textValues, valueIn_of_mem h.1, ih (i + 1) h.2]

theorem mem_of_textValues_ok {l : List Nat} {t : List Byte} {i : Nat} {vs : List Nat}
    (h : textValues (valueIn l) t i = .ok vs) : ∀ b ∈ t, b.toNat ∈ l := by
  induction t generalizing i vs with
  | nil => simp
  | cons b t ih =>
    have hb : b.toNat ∈ l := by
      by_contra hb
      simp [textValues, valueIn_of_not_mem hb] at h
    cases hrest : textValues (valueIn l) t (i + 1) with
    | error j => simp [textValues, valueIn_of_mem hb, hrest] at h
    | ok ws => exact List.forall_mem_cons.2 ⟨hb, ih hrest⟩

/-- The index answered is that of the first character outside the alphabet. -/
theorem textValues_of_not_mem {l : List Nat} {t : List Byte} {j : Nat} {b : Byte} (i : Nat)
    (hj : t[j]? = some b) (hb : b.toNat ∉ l)
    (hfirst : ∀ (k : Nat) (x : Byte), k < j → t[k]? = some x → x.toNat ∈ l) :
    textValues (valueIn l) t i = .error (i + j) := by
  induction t generalizing i j with
  | nil => simp at hj
  | cons c t ih =>
    cases j with
    | zero =>
      obtain rfl : c = b := by simpa using hj
      simp [textValues, valueIn_of_not_mem hb]
    | succ j =>
      have hc : c.toNat ∈ l := hfirst 0 c (by omega) rfl
      have hrest := ih (i + 1) hj fun k x hk hx => hfirst (k + 1) x (by omega) hx
      simp only [textValues, valueIn_of_mem hc, hrest]
      congr 1
      omega

/-- The bit string of the values of a digit text (mode 0, R142) or an alphanumeric one (mode 1, R144). -/
def valueBits : Nat → List Nat → Bits
  | 0 => digitBits
  | _ => alnumBits

theorem encodeText_eq_valueBits {mode : Nat} {l : List Nat} (hl : alphabet mode = some l) (t : List Byte) :
    encodeText mode t = (alphabetText (valueIn l) t).map (valueBits mode) := by
  match mode with
  | 0 => cases hl; rw [← funext digitValue_eq_valueIn]; rfl
  | 1 => cases hl; rw [encodeText, funext alnumValue_eq_valueIn]; rfl
  | _ + 2 => simp [alphabet] at hl

theorem encodeText_nil {mode : Nat} {l : List Nat} (hl : alphabet mode = some l) :
    encodeText mode [] = .error 0 := by
  rw [encodeText_eq_valueBits hl]; rfl

theorem encodeText_of_mem {mode : Nat} {l : List Nat} (hl : alphabet mode = some l) {t : List Byte}
    (hne : t ≠ []) (h : ∀ b ∈ t, b.toNat ∈ l) :
    encodeText mode t = .ok (valueBits mode (t.map fun b => l.idxOf b.toNat)) := by
  rw [encodeText_eq_valueBits hl, alphabetText, if_neg hne, textValues_of_mem 0 h]; rfl

theorem encodeText_of_not_mem {mode : Nat} {l : List Nat} (hl : alphabet mode = some l) {t : List Byte}
    {i : Nat} {b : Byte} (hi : t[i]? = some b) (hb : b.toNat ∉ l)
    (hfirst : ∀ (j : Nat) (x : Byte), j < i → t[j]? = some x → x.toNat ∈ l) :
    encodeText mode t = .error i := by
  have hne : t ≠ [] := by rintro rfl; simp at hi
  rw [encodeText_eq_valueBits hl, alphabetText, if_neg hne, textValues_of_not_mem 0 hi hb hfirst, Nat.zero_add]
  rfl

theorem mem_of_encodeText_ok {mode : Nat} {l : List Nat} (hl : alphabet mode = some l) {t : List Byte}
    {x : Bits} (h : encodeText mode t = .ok x) : t ≠ [] ∧ ∀ b ∈ t, b.toNat ∈ l := by
  have hvalues : ∃ vs, alphabetText (valueIn l) t = .ok vs := by
    rw [encodeText_eq_valueBits hl] at h
    cases hv : alphabetText (valueIn l) t with
    | error i => simp [hv, Except.map] at h
    | ok vs => exact ⟨vs, rfl⟩
  obtain ⟨vs, hvs⟩ := hvalues
  rw [alphabetText] at hvs
  split at hvs
  · simp at hvs
  next hne => exact ⟨hne, mem_of_textValues_ok hvs⟩

/-- The bit string of an encoded text is that of its characters' places in the alphabet. -/
theorem encodeText_ok {mode : Nat} {l : List Nat} (hl : alphabet mode = some l) {t : List Byte} {x : Bits}
    (h : encodeText mode t = .ok x) :
    (∀ b ∈ t, b.toNat ∈ l) ∧ x = valueBits mode (t.map fun b => l.idxOf b.toNat) := by
  obtain ⟨hne, hmem⟩ := mem_of_encodeText_ok hl h
  rw [encodeText_of_mem hl hne hmem, Except.ok.injEq] at h
  exact ⟨hmem, h.symm⟩

/-! ### The raw bit length -/

theorem digitBits_length (ds : List Nat) : (digitBits ds).length = rawLength 0 ds.length := by
  induction ds using digitBits.induct with
  | case1 d0 d1 d2 ds ih =>
    simp only [digitBits, List.length_append, bin_length, ih, List.length_cons, rawLength]
    split_ifs <;> omega
  | case2 => simp [digitBits, rawLength]
  | case3 => simp [digitBits, rawLength]
  | case4 => simp [digitBits, rawLength]

theorem alnumBits_length (cs : List Nat) : (alnumBits cs).length = rawLength 1 cs.length := by
  induction cs using alnumBits.induct with
  | case1 a b cs ih =>
    simp only [alnumBits, List.length_append, bin_length, ih, List.length_cons, rawLength]
    omega
  | case2 => simp [alnumBits, rawLength]
  | case3 => simp [alnumBits, rawLength]

/-- The raw bit length is R146's. -/
theorem encodeText_length {mode : Nat} (hmode : mode ≤ 2) {t : List Byte} {x : Bits}
    (h : encodeText mode t = .ok x) : x.length = rawLength mode t.length := by
  match mode with
  | 0 =>
    obtain ⟨-, rfl⟩ := encodeText_ok rfl h
    exact (digitBits_length _).trans (by rw [List.length_map])
  | 1 =>
    obtain ⟨-, rfl⟩ := encodeText_ok rfl h
    exact (alnumBits_length _).trans (by rw [List.length_map])
  | 2 => cases h; exact unpackBytes_length t

theorem rawLength_eq_getD {mode : Nat} (hmode : mode ≤ 2) (n : Nat) : rawLength mode n =
    [10 * (n / 3) + [0, 4, 7].getD (n % 3) 0, 11 * (n / 2) + 6 * (n % 2), 8 * n].getD mode 0 := by
  match mode with
  | 0 =>
    have hrest : (if n % 3 = 0 then 0 else if n % 3 = 1 then 4 else 7) = [0, 4, 7].getD (n % 3) 0 := by
      obtain h | h | h : n % 3 = 0 ∨ n % 3 = 1 ∨ n % 3 = 2 := by omega
      all_goals rw [h]; rfl
    rw [rawLength, hrest]; rfl
  | 1 => rfl
  | 2 => rfl

/-- Settles O24: the groups' lengths add up to R146's formula, which exceeds no 8 bits for each byte. -/
theorem rawLengthFormula : Obligations.RawLengthFormula := by
  intro mode text bits hmode h n
  have hlen : bits.length = rawLength mode n := encodeText_length hmode h
  have hle : bits.length ≤ 8 * n := encodeText_length_le h
  refine ⟨hlen.trans (rawLength_eq_getD hmode n), hlen, fun hn => by omega, ?_, rfl⟩
  rintro rfl hn
  rw [hlen, hn]; rfl

/-! ### The groups -/

/-- Where every group takes `g` characters and gives `w` bits, group `j` starts at bit `w * j` and encodes the
characters from `g * j` on. -/
theorem drop_groups {α : Type} {f : List α → Bits} {g w : Nat}
    (hgroup : ∀ l : List α, g ≤ l.length → (f l).drop w = f (l.drop g)) {j : Nat} {l : List α}
    (hj : g * j ≤ l.length) : (f l).drop (w * j) = f (l.drop (g * j)) := by
  induction j with
  | zero => rfl
  | succ j ih =>
    rw [Nat.mul_succ] at hj
    have hnext : g ≤ (l.drop (g * j)).length := by rw [List.length_drop]; omega
    rw [Nat.mul_succ, Nat.mul_succ, ← List.drop_drop, ih (by omega), hgroup _ hnext, List.drop_drop]

theorem digitBits_drop {ds : List Nat} (h : 3 ≤ ds.length) : (digitBits ds).drop 10 = digitBits (ds.drop 3) := by
  match ds with
  | d0 :: d1 :: d2 :: ds => rw [digitBits, List.drop_left' (bin_length _ _)]; rfl

theorem alnumBits_drop {cs : List Nat} (h : 2 ≤ cs.length) : (alnumBits cs).drop 11 = alnumBits (cs.drop 2) := by
  match cs with
  | a :: b :: cs => rw [alnumBits, List.drop_left' (bin_length _ _)]; rfl

theorem unpackBytes_cons (b : Byte) (bs : List Byte) : unpackBytes (b :: bs) = bin b.toNat 8 ++ unpackBytes bs :=
  rfl

theorem unpackBytes_drop {bs : List Byte} (h : 1 ≤ bs.length) :
    (unpackBytes bs).drop 8 = unpackBytes (bs.drop 1) := by
  match bs with
  | b :: bs => rw [unpackBytes_cons, List.drop_left' (bin_length _ _)]; rfl

/-- The number that the first group of a bit string stands for. -/
theorem bitsToNat_take_bin {v w : Nat} (h : v < 2 ^ w) (x : Bits) : bitsToNat ((bin v w ++ x).take w) = v := by
  rw [List.take_left' (bin_length _ _), bitsToNat_bin v w h]

theorem drop_eq_getD_cons {α : Type} {l : List α} {i : Nat} (d : α) (h : i < l.length) :
    l.drop i = l.getD i d :: l.drop (i + 1) := by
  rw [List.drop_eq_getElem_cons h, List.getD_eq_getElem l d h]

theorem getD_lt {l : List Nat} {m : Nat} (hl : ∀ v ∈ l, v < m) (e : Nat) {i : Nat} (hi : i < l.length) :
    l.getD i e < m := by
  rw [List.getD_eq_getElem l e hi]
  exact hl _ (List.getElem_mem hi)

section Digits

variable {ds : List Nat} (hds : ∀ d ∈ ds, d < 10) (e : Nat)
include hds

/-- A group of three digits, in ten bits (R142). -/
theorem digitBits_group {j : Nat} (hj : j < ds.length / 3) :
    bitsToNat (((digitBits ds).drop (10 * j)).take 10)
      = 100 * ds.getD (3 * j) e + 10 * ds.getD (3 * j + 1) e + ds.getD (3 * j + 2) e := by
  have h0 := getD_lt hds e (i := 3 * j) (by omega)
  have h1 := getD_lt hds e (i := 3 * j + 1) (by omega)
  have h2 := getD_lt hds e (i := 3 * j + 1 + 1) (by omega)
  rw [drop_groups (fun _ => digitBits_drop) (by omega), drop_eq_getD_cons e (by omega),
    drop_eq_getD_cons e (by omega), drop_eq_getD_cons e (by omega), digitBits, bitsToNat_take_bin (by omega)]

/-- A final group of two digits, in seven bits (R142). -/
theorem digitBits_last_two (h : ds.length % 3 = 2) : bitsToNat ((digitBits ds).drop (10 * (ds.length / 3)))
    = 10 * ds.getD (ds.length - 2) e + ds.getD (ds.length - 1) e := by
  have h0 := getD_lt hds e (i := ds.length - 2) (by omega)
  have h1 := getD_lt hds e (i := ds.length - 1) (by omega)
  rw [drop_groups (fun _ => digitBits_drop) (by omega), drop_eq_getD_cons e (by omega),
    drop_eq_getD_cons e (by omega), List.drop_of_length_le (by omega),
    show 3 * (ds.length / 3) = ds.length - 2 by omega, show ds.length - 2 + 1 = ds.length - 1 by omega,
    digitBits, bitsToNat_bin _ _ (by omega)]

/-- A final group of one digit, in four bits (R142). -/
theorem digitBits_last_one (h : ds.length % 3 = 1) :
    bitsToNat ((digitBits ds).drop (10 * (ds.length / 3))) = ds.getD (ds.length - 1) e := by
  have h0 := getD_lt hds e (i := ds.length - 1) (by omega)
  rw [drop_groups (fun _ => digitBits_drop) (by omega), drop_eq_getD_cons e (by omega),
    List.drop_of_length_le (by omega), show 3 * (ds.length / 3) = ds.length - 1 by omega,
    digitBits, bitsToNat_bin _ _ (by omega)]

end Digits

section Characters

variable {cs : List Nat} (hcs : ∀ c ∈ cs, c < 45) (e : Nat)
include hcs

/-- A pair of characters, in eleven bits (R144). -/
theorem alnumBits_group {j : Nat} (hj : j < cs.length / 2) :
    bitsToNat (((alnumBits cs).drop (11 * j)).take 11) = 45 * cs.getD (2 * j) e + cs.getD (2 * j + 1) e := by
  have h0 := getD_lt hcs e (i := 2 * j) (by omega)
  have h1 := getD_lt hcs e (i := 2 * j + 1) (by omega)
  rw [drop_groups (fun _ => alnumBits_drop) (by omega), drop_eq_getD_cons e (by omega),
    drop_eq_getD_cons e (by omega), alnumBits, bitsToNat_take_bin (by omega)]

/-- A trailing character, in six bits (R144). -/
theorem alnumBits_last (h : cs.length % 2 = 1) :
    bitsToNat ((alnumBits cs).drop (11 * (cs.length / 2))) = cs.getD (cs.length - 1) e := by
  have h0 := getD_lt hcs e (i := cs.length - 1) (by omega)
  rw [drop_groups (fun _ => alnumBits_drop) (by omega), drop_eq_getD_cons e (by omega),
    List.drop_of_length_le (by omega), show 2 * (cs.length / 2) = cs.length - 1 by omega,
    alnumBits, bitsToNat_bin _ _ (by omega)]

end Characters

/-- A byte, in eight bits (R145). -/
theorem unpackBytes_group {bs : List Byte} (e : Byte) {j : Nat} (hj : j < bs.length) :
    bitsToNat (((unpackBytes bs).drop (8 * j)).take 8) = (bs.getD j e).toNat := by
  rw [drop_groups (fun _ => unpackBytes_drop) (by omega), drop_eq_getD_cons e (by omega), Nat.one_mul,
    unpackBytes_cons, bitsToNat_take_bin (bs.getD j e).isLt]

/-- The digits of a digit text are its bytes' distances from '0' (R141). -/
theorem encodeText_digits {t : List Byte} {x : Bits} (h : encodeText 0 t = .ok x) :
    (∀ d ∈ t.map fun b => b.toNat - 0x30, d < 10) ∧ x = digitBits (t.map fun b => b.toNat - 0x30) := by
  obtain ⟨hmem, rfl⟩ := encodeText_ok rfl h
  refine ⟨fun d hd => ?_, congrArg digitBits (List.map_congr_left fun b hb => idxOf_digit (hmem b hb))⟩
  obtain ⟨b, hb, rfl⟩ := List.mem_map.1 hd
  have := List.mem_range'_1.1 (hmem b hb)
  omega

/-- The values of an alphanumeric text are its characters' places among the 45 (R143). -/
theorem encodeText_characters {t : List Byte} {x : Bits} (h : encodeText 1 t = .ok x) :
    (∀ c ∈ t.map fun b => ((alphabet 1).getD []).idxOf b.toNat, c < 45)
      ∧ x = alnumBits (t.map fun b => ((alphabet 1).getD []).idxOf b.toNat) := by
  obtain ⟨hmem, rfl⟩ := encodeText_ok (l := (alphabet 1).getD []) rfl h
  refine ⟨fun c hc => ?_, rfl⟩
  obtain ⟨b, hb, rfl⟩ := List.mem_map.1 hc
  exact List.idxOf_lt_length_of_mem (hmem b hb)

/-- Settles O26: group by group, the bit string of a text starts with the bits of its first group. -/
theorem groupsAreTheNumbersOfTheRules : Obligations.GroupsAreTheNumbersOfTheRules := by
  refine ⟨fun text bits h => ?_, fun text bits h => ?_, fun text bits h j hj => ?_⟩
  · obtain ⟨hds, rfl⟩ := encodeText_digits h
    have hd (i : Nat) : (text.map fun b => b.toNat - 0x30).getD i ((0#8).toNat - 0x30)
        = (text.getD i 0#8).toNat - 0x30 := text.getD_map 0#8 fun b => b.toNat - 0x30
    have hgroup := fun j => digitBits_group hds ((0#8).toNat - 0x30) (j := j)
    have htwo := digitBits_last_two hds ((0#8).toNat - 0x30)
    have hone := digitBits_last_one hds ((0#8).toNat - 0x30)
    simp only [List.length_map, hd] at hgroup htwo hone
    exact ⟨hgroup, htwo, hone⟩
  · obtain ⟨hcs, rfl⟩ := encodeText_characters h
    have hvalue (i : Nat) : (text.map fun b => ((alphabet 1).getD []).idxOf b.toNat).getD i
          (((alphabet 1).getD []).idxOf (0#8).toNat)
        = ((alphabet 1).getD []).idxOf (text.getD i 0#8).toNat :=
      text.getD_map 0#8 fun b => ((alphabet 1).getD []).idxOf b.toNat
    have hgroup := fun j => alnumBits_group hcs (((alphabet 1).getD []).idxOf (0#8).toNat) (j := j)
    have hlast := alnumBits_last hcs (((alphabet 1).getD []).idxOf (0#8).toNat)
    simp only [List.length_map, hvalue] at hgroup hlast
    exact ⟨hgroup, hlast⟩
  · cases h
    exact unpackBytes_group 0#8 hj

/-! ### How ENCODE ends -/

/-- A family rule's error completes the command as R356 says. -/
theorem finish_raise {cmd : Instr} {e : ErrCode} (hill : e ≠ .illegalCmd) (hseq : e ≠ .sequence)
    (hscore : cmd ≠ .score) (s : State) (info : Nat) :
    (raise s cmd e info).finish = .next (s.failedWith e info) := by
  simp [raise, Perf.finish, State.fail, State.complete, State.failedWith, hill, hseq, hscore]

/-- A read that answers bytes stays within its buffer. -/
theorem le_size_of_readBuf_ok {cmd : Instr} {b : Buf} {n : Nat} {s : State} {bs : List Byte}
    (h : readBuf cmd b n s = .ok bs) : n ≤ b.size := by
  by_contra hn
  rw [readBuf] at h
  split at h
  · cases h
  · simp [hn] at h

theorem exec_encode (s : State) : exec .encode s = (performEncode s).finish := rfl

/-- What an ENCODE that succeeds leaves (R148). -/
def State.encodedWith (s : State) (x : Bits) : State :=
  { s with
    mem := (s.storeBits x).mem, rawLen := BitVec.ofNat 17 x.length, pstage := .encoded, pending := none
    done := true }

section Encode

variable {s : State}

theorem exec_encode_invalidMode (hmode : 2 < s.mode.toNat) :
    exec .encode s = .next (s.failedWith .invalidMode s.mode.toNat) := by
  rw [exec_encode, performEncode, if_pos hmode, finish_raise (by decide) (by decide) (by decide)]

theorem exec_encode_param (hmode : s.mode.toNat ≤ 2) (hn : 8192 < s.inLen.toNat) :
    exec .encode s = .next (s.failedWith .param (0x020 ||| (s.inLen.toNat <<< 12))) := by
  have hperf : performEncode s = raiseParam s .encode 0x020 s.inLen.toNat := by
    rw [performEncode, if_neg (Nat.not_lt.2 hmode)]
    exact if_pos hn
  rw [exec_encode, hperf, raiseParam, finish_raise (by decide) (by decide) (by decide)]

section Text

variable (hmode : s.mode.toNat ≤ 2) {t : List Byte} (hread : readBuf .encode .ibuf s.inLen.toNat s = .ok t)
include hmode hread

theorem exec_encode_of_error {i : Nat} (h : encodeText s.mode.toNat t = .error i) :
    exec .encode s = .next (s.failedWith .invalidCharacterSet (s.mode.toNat ||| (i <<< 16))) := by
  have hn : ¬ Config.ibufSize < s.inLen.toNat := Nat.not_lt.2 (le_size_of_readBuf_ok hread)
  simp only [exec_encode, performEncode, if_neg (Nat.not_lt.2 hmode), if_neg hn, hread, h]
  exact finish_raise (by decide) (by decide) (by decide) s _

theorem exec_encode_of_ok {x : Bits} (h : encodeText s.mode.toNat t = .ok x) :
    exec .encode s = .next (s.encodedWith x) := by
  have hn : ¬ Config.ibufSize < s.inLen.toNat := Nat.not_lt.2 (le_size_of_readBuf_ok hread)
  simp only [exec_encode, performEncode, if_neg (Nat.not_lt.2 hmode), if_neg hn, hread, h]
  rfl

end Text

/-- An ENCODE that completes without error has read its text and stored its bit string. -/
theorem exec_encode_success {u : State} (hexec : exec .encode s = .next u) (hu : u.err = false) :
    ∃ t x, s.mode.toNat ≤ 2 ∧ readBuf .encode .ibuf s.inLen.toNat s = .ok t
      ∧ encodeText s.mode.toNat t = .ok x ∧ u = s.encodedWith x := by
  have hmode : s.mode.toNat ≤ 2 := by
    by_contra hmode
    rw [exec_encode_invalidMode (by omega), Host.Outcome.next.injEq] at hexec
    simp [← hexec, State.failedWith] at hu
  rw [exec_encode] at hexec
  obtain ⟨e, info, hperf⟩ | ⟨f, -, -, hperf⟩ | ⟨t, x, -, hread, htext, hperf⟩ := performEncode_cases s
  · rw [hperf, raise, Perf.finish, Host.Outcome.next.injEq] at hexec
    simp [← hexec] at hu
  · rw [hperf] at hexec
    cases hexec
  · rw [hperf] at hexec
    cases hexec
    exact ⟨t, x, hmode, hread, htext, rfl⟩

end Encode

theorem storedBits_encodedWith {s : State} (hm : Memory.wf s.mem) (x : Bits) :
    (s.encodedWith x).storedBits x := storedBits_storeBits hm.1 x

theorem keepsOutside_encodedWith {s : State} (hm : Memory.wf s.mem) (x : Bits) :
    keepsOutside (Buf.bbuf.within ((x.length + 7) / 8)) s (s.encodedWith x) := keepsOutside_storeBits hm.1 x

theorem byte_encodedWith {s : State} (hm : Memory.wf s.mem) (x : Bits) {i : Nat} (hi : i < (x.length + 7) / 8) :
    (s.encodedWith x).byte .bbuf i = (packBytes x)[i]? :=
  byte_writeBuf hm.1 .bbuf (packBytes x) (by rwa [packBytes_length])

theorem rawLen_encodedWith {s : State} {x : Bits} (hx : x.length ≤ 65536) :
    (s.encodedWith x).rawLen.toNat = x.length := by
  rw [State.encodedWith, BitVec.toNat_ofNat]
  omega

/-- BBUF holds the bit string of every text that IBUF holds (R146). -/
theorem encodeText_length_le_bbuf {s : State} {mode : Nat} {t : List Byte} {x : Bits}
    (ht : s.holdsBytes .ibuf t) (h : encodeText mode t = .ok x) : x.length ≤ 65536 := by
  have hx := encodeText_length_le h
  have hsize : t.length ≤ 8192 := ht.1
  omega

/-- A text of its mode's alphabet has a bit string. -/
theorem exists_encodeText {mode : Nat} {t : List Byte} (hmode : mode ≤ 2)
    (ht : ∀ l, alphabet mode = some l → t ≠ [] ∧ ∀ b ∈ t, b.toNat ∈ l) : ∃ x, encodeText mode t = .ok x := by
  cases hl : alphabet mode with
  | some l => exact ⟨_, encodeText_of_mem hl (ht l hl).1 (ht l hl).2⟩
  | none =>
    obtain rfl : mode = 2 := by
      match mode with
      | 0 => simp [alphabet] at hl
      | 1 => simp [alphabet] at hl
      | 2 => rfl
    exact ⟨_, rfl⟩

theorem exists_alphabet {mode : Nat} (hmode : mode ≤ 1) : ∃ l, alphabet mode = some l := by
  match mode with
  | 0 => exact ⟨_, rfl⟩
  | 1 => exact ⟨_, rfl⟩

/-- Settles O22: the text is read, its bit string stored. -/
theorem encodeWritesTheBitString : Obligations.EncodeWritesTheBitString := by
  intro s text hm hmode ht hlen halphabet
  obtain ⟨x, hx⟩ := exists_encodeText hmode halphabet
  have hread := (readBuf_ok_iff hm.1 .encode .ibuf _ text).2 ⟨hlen, ht⟩
  refine ⟨s.encodedWith x, x, hx, exec_encode_of_ok hmode hread hx, storedBits_encodedWith hm x,
    keepsOutside_encodedWith hm x, ?_⟩
  rw [← encodeText_length hmode hx]
  rfl

/-- Settles O23: each clause is one check of the family rule, with those before it passed. -/
theorem encodeErrorsInOrder : Obligations.EncodeErrorsInOrder := by
  intro s
  refine ⟨exec_encode_invalidMode, exec_encode_param, fun hmode hn => ?_, ?_⟩
  · obtain ⟨l, hl⟩ := exists_alphabet hmode
    have hread : readBuf .encode .ibuf s.inLen.toNat s = .ok [] := by rw [hn]; rfl
    simpa using exec_encode_of_error (by omega) hread (encodeText_nil hl)
  · intro text l i b hm hl hmode ht hlen hi hb hfirst
    have hread := (readBuf_ok_iff hm.1 .encode .ibuf _ text).2 ⟨hlen, ht⟩
    exact exec_encode_of_error (by omega) hread (encodeText_of_not_mem hl hi hb hfirst)

/-- Bytes of IBUF stay through ENCODE, which writes BBUF only. -/
theorem holdsBytes_ibuf_encodedWith {s : State} (hm : Memory.wf s.mem) {t : List Byte}
    (ht : s.holdsBytes .ibuf t) (x : Bits) : (s.encodedWith x).holdsBytes .ibuf t := by
  obtain ⟨hsize, hbytes⟩ := ht
  refine ⟨hsize, fun i hi => (keepsOutside_encodedWith hm x _ fun hwithin => ?_).trans (hbytes i hi)⟩
  have hbelow : Buf.ibuf.base + i < Buf.bbuf.base := by
    have hi' : i < 8192 := Nat.lt_of_lt_of_le hi hsize
    simp only [Buf.base]
    omega
  exact absurd hwithin.1 (Nat.not_le.2 hbelow)

/-- In byte mode the bit string packs to the text itself (R145, 20_memory.md R80). -/
theorem holdsBytes_bbuf_encodedWith_byteBits {s : State} (hm : Memory.wf s.mem) {t : List Byte}
    (ht : t.length ≤ 8192) : (s.encodedWith (byteBits t)).holdsBytes .bbuf t := by
  refine ⟨ht, fun i hi => ?_⟩
  rw [byte_encodedWith hm _ (by rw [byteBits, unpackBytes_length]; omega), byteBits, packBytes_unpackBytes]

/-- Settles O25: the text read from IBUF and the mode decide the bit string, and with it BBUF and RAW_LEN. -/
theorem encodeIsPure : Obligations.EncodeIsPure := by
  intro s hm
  refine ⟨fun s' u hm' hmode hlen hibuf _ hexec hu => ?_, fun t hmode ht hlen => ?_⟩
  · obtain ⟨t, x, hle, hread, hx, rfl⟩ := exec_encode_success hexec hu
    obtain ⟨htlen, ht⟩ := (readBuf_ok_iff hm.1 _ _ _ _).1 hread
    have ht' : s'.holdsBytes .ibuf t :=
      ⟨ht.1, fun i hi => (hibuf i (by omega)).trans (ht.2 i hi)⟩
    have hread' : readBuf .encode .ibuf s'.inLen.toNat s' = .ok t :=
      (readBuf_ok_iff hm'.1 _ _ _ _).2 ⟨hlen ▸ htlen, ht'⟩
    refine ⟨s'.encodedWith x, exec_encode_of_ok (hmode ▸ hle) hread' (hmode ▸ hx), rfl, rfl, fun i hi => ?_⟩
    rw [rawLen_encodedWith (encodeText_length_le_bbuf ht hx)] at hi
    rw [byte_encodedWith hm' x hi, byte_encodedWith hm x hi]
  · have hread := (readBuf_ok_iff hm.1 .encode .ibuf _ t).2 ⟨hlen, ht⟩
    have hx : encodeText s.mode.toNat t = .ok (byteBits t) := by rw [hmode]; rfl
    exact ⟨_, exec_encode_of_ok hmode.le hread hx, holdsBytes_bbuf_encodedWith_byteBits hm ht.1,
      holdsBytes_ibuf_encodedWith hm ht _⟩

end Sys2Proof.Machine
end

section
/-! PROOFS. SELECT and PAD: the version search on the standard capacities, how SELECT ends, and the padded stream bit
by bit and byte by byte (41_capacity_padding.md R160 to R173). -/

namespace Sys2Proof.Machine

/-! ### Capacities -/

/-- CAP does not fall from one version to a later one (R166). -/
theorem stdCap_mono {l u v a b : Nat} (huv : u ≤ v) (ha : stdCap u l = some a) (hb : stdCap v l = some b) :
    a ≤ b := by
  obtain ⟨hu, -, hl, -⟩ := stdCap_some ha
  obtain ⟨-, hv, -⟩ := stdCap_some hb
  have hrise : v ≤ 40 → (stdCap u l).getD 0 ≤ (stdCap v l).getD 0 := by
    clear hb hv
    induction v, huv using Nat.le_induction with
    | base => exact fun _ => le_rfl
    | succ w huw ih => exact fun hw => (ih (by omega)).trans (stdCap_rises w (by omega) l hl (by omega)).le
  simpa [ha, hb] using hrise hv

/-- Where a version does not fit, its capacity is less than header and raw bits. -/
theorem exists_cap_lt_of_not_fits {mode l n v : Nat} (hl : l ≤ 3) (h1 : 1 ≤ v) (h40 : v ≤ 40)
    (h : ¬ fits mode l n v) : ∃ c, stdCap v l = some c ∧ c < 4 + countWidth mode v + n := by
  obtain ⟨c, hc, -⟩ := stdCap_table v (by omega) l (by omega) h1
  exact ⟨c, hc, Nat.not_le.1 fun hfit => h ⟨c, hc, hfit⟩⟩

/-! ### The version search -/

/-- One turn of the first step, with the versions from `v` to 40 to try (R164). -/
theorem firstVersion_turn {l n v c : Nat} (hc : stdCap v l = some c) :
    firstVersion standardTables l n (41 - v) v
      = if n < c then .ok v else firstVersion standardTables l n (41 - (v + 1)) (v + 1) := by
  obtain ⟨-, h40, -⟩ := stdCap_some hc
  have hcap : standardTables.cap v l = some c := hc
  rw [show 41 - v = 41 - (v + 1) + 1 by omega, firstVersion, hcap]

/-- One turn of the fit loop, with the versions from `v` to 40 to try (R163, R165). -/
theorem fitVersion_turn {mode l n cnt v c : Nat} (hc : stdCap v l = some c) :
    fitVersion standardTables mode l n cnt (41 - v) v
      = if 2 ^ countWidth mode v ≤ cnt then .error (.lengthField, v ||| (countWidth mode v <<< 8))
        else if 4 + countWidth mode v + n ≤ c then .ok (v, c)
        else fitVersion standardTables mode l n cnt (41 - (v + 1)) (v + 1) := by
  obtain ⟨-, h40, -⟩ := stdCap_some hc
  have hcap : standardTables.cap v l = some c := hc
  rw [show 41 - v = 41 - (v + 1) + 1 by omega, fitVersion, hcap]

/-- From `v` on the first step answers a version up to `x` with more capacity than raw bits, where `x` is one, or
comes to the end of the versions (R164). -/
theorem firstVersion_cases {l n v x : Nat} (hl : l ≤ 3) (hx : x ≤ 41)
    (hpass : x ≤ 40 → ∃ c, stdCap x l = some c ∧ n < c) (h1 : 1 ≤ v) (hvx : v ≤ x) :
    (firstVersion standardTables l n (41 - v) v = .error (tooLarge standardTables l) ∧ x = 41)
      ∨ ∃ v0 c, firstVersion standardTables l n (41 - v) v = .ok v0 ∧ 1 ≤ v0 ∧ v0 ≤ x
          ∧ stdCap v0 l = some c ∧ n < c := by
  induction hvx using Nat.decreasingInduction with
  | self =>
    obtain rfl | hlt := Nat.eq_or_lt_of_le hx
    · exact .inl ⟨rfl, rfl⟩
    · obtain ⟨c, hc, hn⟩ := hpass (by omega)
      exact .inr ⟨x, c, by rw [firstVersion_turn hc, if_pos hn], h1, le_rfl, hc, hn⟩
  | of_succ v hvx ih =>
    obtain ⟨c, hc, -⟩ := stdCap_table v (by omega) l (by omega) h1
    rw [firstVersion_turn hc]
    split
    next hn => exact .inr ⟨v, c, rfl, h1, hvx.le, hc, hn⟩
    next => exact ih (by omega)

section Search

variable {mode l n cnt x : Nat} (hl : l ≤ 3) (hx : x ≤ 41) (hfit : ∀ u, 1 ≤ u → u < x → ¬ fits mode l n u)
  (hcount : countFits mode l n cnt (x - 1))
include hl hx hfit hcount

/-- From a version with more capacity than raw bits on, the fit loop passes by every version below `x` (R163,
R165). -/
theorem fitVersion_of_not_fits {v c : Nat} (h1 : 1 ≤ v) (hvx : v ≤ x) (hc : stdCap v l = some c) (hn : n < c) :
    fitVersion standardTables mode l n cnt (41 - v) v = fitVersion standardTables mode l n cnt (41 - x) x := by
  induction hvx using Nat.decreasingInduction generalizing c with
  | self => rfl
  | of_succ v hvx ih =>
    obtain ⟨c', hc', hsmall⟩ := exists_cap_lt_of_not_fits hl h1 (by omega) (hfit v h1 hvx)
    obtain rfl : c = c' := Option.some.inj (hc.symm.trans hc')
    have hcnt : cnt < 2 ^ countWidth mode v := hcount v c h1 (by omega) hc hn
    rw [fitVersion_turn hc, if_neg (Nat.not_le.2 hcnt), if_neg (Nat.not_le.2 hsmall)]
    obtain rfl | hlt := Nat.eq_or_lt_of_le hvx
    · rfl
    · obtain ⟨d, hd, -⟩ := stdCap_table (v + 1) (by omega) l (by omega) (by omega)
      exact ih (by omega) hd (hn.trans_le (stdCap_mono (Nat.le_succ v) hc hd))

/-- The versions below `x` passed by, the search comes to the fit loop at `x` (R164, R165). -/
theorem searchVersion_of_not_fits (h1 : 1 ≤ x) (hpass : x ≤ 40 → ∃ c, stdCap x l = some c ∧ n < c) :
    searchVersion standardTables mode l n cnt = fitVersion standardTables mode l n cnt (41 - x) x := by
  obtain ⟨hfirst, rfl⟩ | ⟨v, c, hfirst, hv1, hvx, hc, hn⟩ := firstVersion_cases hl hx hpass le_rfl h1
  · rw [searchVersion, show firstVersion standardTables l n Config.vMax 1 = _ from hfirst]
    rfl
  · rw [← fitVersion_of_not_fits hl hx hfit hcount hv1 hvx hc hn, searchVersion,
      show firstVersion standardTables l n Config.vMax 1 = _ from hfirst]
    rfl

end Search

/-- Where no version fits, the search reports CAP(40, l) (R168). -/
theorem searchVersion_tooLarge {mode l n cnt c : Nat} (hc : stdCap 40 l = some c)
    (hfit : ∀ v, 1 ≤ v → v ≤ 40 → ¬ fits mode l n v) (hcount : countFits mode l n cnt 40) :
    searchVersion standardTables mode l n cnt = .error (.dataTooLarge, c) := by
  obtain ⟨-, -, hl, -⟩ := stdCap_some hc
  have hcap : standardTables.cap Config.vMax l = some c := hc
  rw [searchVersion_of_not_fits (x := 41) (by omega) le_rfl (fun u h1 hu => hfit u h1 (by omega)) hcount
    (by decide) (by omega), fitVersion, tooLarge, hcap]

section Reached

variable {mode l n cnt v c : Nat} (hc : stdCap v l = some c) (hn : n < c)
  (hfit : ∀ u, 1 ≤ u → u < v → ¬ fits mode l n u) (hcount : countFits mode l n cnt (v - 1))
include hc hn hfit hcount

/-- The search comes to a version with more capacity than raw bits where no version below it fits. -/
theorem searchVersion_reaches :
    searchVersion standardTables mode l n cnt = fitVersion standardTables mode l n cnt (41 - v) v := by
  obtain ⟨h1, h40, hl, -⟩ := stdCap_some hc
  exact searchVersion_of_not_fits (by omega) (by omega) hfit hcount h1 fun _ => ⟨c, hc, hn⟩

/-- A count that does not fit the field of the version reached ends the search (R163). -/
theorem searchVersion_lengthField (hcnt : 2 ^ countWidth mode v ≤ cnt) :
    searchVersion standardTables mode l n cnt = .error (.lengthField, v ||| (countWidth mode v <<< 8)) := by
  rw [searchVersion_reaches hc hn hfit hcount, fitVersion_turn hc, if_pos hcnt]

end Reached

/-- The search answers the least version that fits, with its capacity (R167). -/
theorem searchVersion_of_leastFit {mode l n cnt v : Nat} (h : leastFit mode l n v)
    (hcount : countFits mode l n cnt v) :
    ∃ c, stdCap v l = some c ∧ 4 + countWidth mode v + n ≤ c
      ∧ searchVersion standardTables mode l n cnt = .ok (v, c) := by
  obtain ⟨h1, -, ⟨c, hc, hle⟩, hleast⟩ := h
  have hn : n < c := by omega
  have hbelow : countFits mode l n cnt (v - 1) := fun u d hu huv => hcount u d hu (by omega)
  have hcnt : cnt < 2 ^ countWidth mode v := hcount v c h1 le_rfl hc hn
  refine ⟨c, hc, hle, ?_⟩
  rw [searchVersion_reaches hc hn hleast hbelow, fitVersion_turn hc, if_neg (Nat.not_le.2 hcnt), if_pos hle]

/-! ### How SELECT ends -/

theorem exec_select (s : State) : exec .select s = (performSelect standardTables s).finish := rfl

theorem exec_select_invalidMode {s : State} (hmode : 2 < s.mode.toNat) :
    exec .select s = .next (s.failedWith .invalidMode s.mode.toNat) := by
  rw [exec_select, performSelect, if_pos hmode, finish_raise (by decide) (by decide) (by decide)]

theorem exec_select_invalidLevel {s : State} (hmode : s.mode.toNat ≤ 2) (hl : 3 < s.ecl.toNat) :
    exec .select s = .next (s.failedWith .invalidCorrectionLevel s.ecl.toNat) := by
  rw [exec_select, performSelect, if_neg (Nat.not_lt.2 hmode), if_pos hl,
    finish_raise (by decide) (by decide) (by decide)]

section Select

variable {s : State} (hmode : s.mode.toNat ≤ 2) (hl : s.ecl.toNat ≤ 3)
include hmode hl

theorem exec_select_param (hn : 65536 < s.rawLen.toNat) :
    exec .select s = .next (s.failedWith .param (0x028 ||| (s.rawLen.toNat <<< 12))) := by
  rw [exec_select, performSelect, if_neg (Nat.not_lt.2 hmode), if_neg (Nat.not_lt.2 hl), if_pos hn, raiseParam,
    finish_raise (by decide) (by decide) (by decide)]

variable (hn : s.rawLen.toNat ≤ 65536)
include hn

theorem exec_select_of_error {e : ErrCode} {info : Nat} (hill : e ≠ .illegalCmd) (hseq : e ≠ .sequence)
    (h : searchVersion standardTables s.mode.toNat s.ecl.toNat s.rawLen.toNat s.charCount.toNat
      = .error (e, info)) :
    exec .select s = .next (s.failedWith e info) := by
  rw [exec_select, performSelect, if_neg (Nat.not_lt.2 hmode), if_neg (Nat.not_lt.2 hl), if_neg (Nat.not_lt.2 hn),
    h]
  exact finish_raise hill hseq (by decide) s info

theorem exec_select_of_ok {v c : Nat} {raw : Bits} (hload : loadBits .select s.rawLen.toNat s = .ok raw)
    (h : searchVersion standardTables s.mode.toNat s.ecl.toNat s.rawLen.toNat s.charCount.toNat = .ok (v, c)) :
    exec .select s = .next (s.selected s.mode.toNat s.ecl.toNat v c raw).complete := by
  rw [exec_select, performSelect, if_neg (Nat.not_lt.2 hmode), if_neg (Nat.not_lt.2 hl), if_neg (Nat.not_lt.2 hn),
    h]
  simp only [hload, Perf.finish]

end Select

/-- Settles O28: each clause is one check of the family rule, with those before it passed; in the last two the
version search passes by the versions that do not fit. -/
theorem selectErrorsInOrder : Obligations.SelectErrorsInOrder := by
  intro s mode l n cnt
  refine ⟨exec_select_invalidMode, exec_select_invalidLevel, exec_select_param, ?tooLarge, ?lengthField⟩
  case tooLarge =>
    intro c hmode hl hn hc hfit hcount
    exact exec_select_of_error hmode hl hn (by decide) (by decide) (searchVersion_tooLarge hc hfit hcount)
  case lengthField =>
    intro v c hmode hl _ _ hc hnc hfit hcount hcnt
    obtain ⟨-, -, -, -, -, hmax⟩ := stdCap_some hc
    exact exec_select_of_error hmode hl (show n ≤ 65536 by omega) (by decide) (by decide)
      (searchVersion_lengthField hc hnc hfit hcount hcnt)

/-! ### The header -/

/-- `bin(v, w)` written out, most significant bit first (00_scope.md R9). -/
theorem bin_eq_map (v w : Nat) : bin v w = (List.range w).map fun i => v.testBit (w - 1 - i) := by
  induction w with
  | zero => rfl
  | succ w ih =>
    rw [bin, ih, List.range_succ_eq_map, List.map_cons, List.map_map]
    refine congrArg₂ List.cons rfl (List.map_congr_left fun i _ => ?_)
    exact congrArg v.testBit (by simp only [Nat.succ_eq_add_one]; omega)

/-- The mode indicators of R160. -/
theorem modeIndicator_mem {mode : Nat} (h : mode ≤ 2) : (mode, modeIndicator mode) ∈
    [(0, [false, false, false, true]), (1, [false, false, true, false]), (2, [false, true, false, false])] := by
  match mode with
  | 0 => decide
  | 1 => decide
  | 2 => decide

/-- The field widths of R161, by version tier. -/
theorem countWidth_mem {mode : Nat} (h : mode ≤ 2) (v : Nat) : (mode, countWidth mode v) ∈
    if v ≤ 9 then [(0, 10), (1, 9), (2, 8)]
    else if v ≤ 26 then [(0, 12), (1, 11), (2, 16)]
    else [(0, 14), (1, 13), (2, 16)] := by
  unfold countWidth
  split_ifs
  all_goals match mode with
  | 0 => decide
  | 1 => decide
  | 2 => decide

/-- The numbers that SELECT writes fit their registers. -/
theorem toNat_regs_selected {s : State} {mode l v c : Nat} {raw : Bits} (hcap : stdCap v l = some c)
    (hlen : (header mode v s.charCount.toNat ++ raw).length ≤ c) :
    let u := s.selected mode l v c raw
    u.version.toNat = v ∧ u.selLevel.toNat = l ∧ u.size.toNat = 17 + 4 * v ∧ u.capBits.toNat = c
      ∧ u.streamLen.toNat = (header mode v s.charCount.toNat ++ raw).length := by
  obtain ⟨-, hv40, hl, -, -, hc⟩ := stdCap_some hcap
  exact ⟨Nat.mod_eq_of_lt (by omega), Nat.mod_eq_of_lt (by omega), Nat.mod_eq_of_lt (by omega),
    Nat.mod_eq_of_lt (by omega), Nat.mod_eq_of_lt (by omega)⟩

/-- Settles O27: the search answers the least version that fits, and its header is stored before the raw bits. -/
theorem selectChoosesTheLeastVersion : Obligations.SelectChoosesTheLeastVersion := by
  refine ⟨fun mode v hmode _ _ => countWidth_mem hmode v, ?_⟩
  intro s v raw hm hmode hl hraw hlen hleast hcount
  obtain ⟨c, hc, hfit, hsearch⟩ := searchVersion_of_leastFit hleast hcount
  obtain ⟨-, -, -, -, -, hmax⟩ := stdCap_some hc
  have hload : loadBits .select s.rawLen.toNat s = .ok raw := (loadBits_ok_iff hm.1 ..).2 ⟨hlen, hraw⟩
  have hstream : (header s.mode.toNat v s.charCount.toNat ++ raw).length
      = 4 + countWidth s.mode.toNat v + s.rawLen.toNat := by rw [List.length_append, header_length, hlen]
  obtain ⟨hversion, hlevel, hsize, hcap, hstreamLen⟩ := toNat_regs_selected hc (hstream.trans_le hfit)
  have hbits : (s.selected s.mode.toNat s.ecl.toNat v c raw).complete.storedBits
      (header s.mode.toNat v s.charCount.toNat ++ raw) := storedBits_storeBits hm.1 _
  have hkeeps := keepsOutside_storeBits hm.1 (header s.mode.toNat v s.charCount.toNat ++ raw)
  rw [header, bin_eq_map] at hbits
  rw [← hstreamLen] at hkeeps
  exact ⟨(s.selected s.mode.toNat s.ecl.toNat v c raw).complete, c, countWidth s.mode.toNat v,
    modeIndicator s.mode.toNat, exec_select_of_ok hmode hl (by omega) hload hsearch, hc, hcap,
    modeIndicator_mem hmode, countWidth_mem hmode v, hversion, hlevel, hsize, hstreamLen.trans hstream,
    (hstreamLen.trans hstream).trans_le hfit, hbits, hkeeps, rfl⟩

/-! ### The padded stream -/

/-- Zeros after the end of a bit string change none of its bits. -/
theorem getD_append_zeros (x : Bits) (k i : Nat) : (x ++ zeros k).getD i false = x.getD i false := by
  obtain hi | hi := Nat.lt_or_ge i x.length
  · exact List.getD_append _ _ _ _ hi
  · rw [List.getD_append_right _ _ _ _ hi, List.getD_eq_default _ _ hi, zeros,
      List.getD_eq_getElem?_getD, List.getElem?_getD_replicate_default_eq]

/-- The terminator and the fill to a byte boundary are zeros (R169). -/
theorem terminate_getD (c : Nat) (x : Bits) (i : Nat) : (terminate c x).getD i false = x.getD i false := by
  rw [terminate, getD_append_zeros, getD_append_zeros]

/-- A bit string of whole bytes is the bits of its bytes. -/
theorem unpackBytes_packBytes {x : Bits} (h : x.length % 8 = 0) : unpackBytes (packBytes x) = x := by
  refine List.ext_getElem? fun i => ?_
  rw [unpackBytes_getElem?]
  obtain hi | hi := Nat.lt_or_ge i x.length
  · rw [packBytes_bit x i (by omega), List.getD_eq_getElem x false hi, List.getElem?_eq_getElem hi]
  · rw [List.getElem?_eq_none hi, List.getElem?_eq_none (by rw [packBytes_length]; omega)]
    rfl

/-- The pad bytes of R171 as bytes: 0xEC and 0x11 in turn, 0xEC first. -/
def padByteValue (i : Nat) : Byte := if i % 2 = 0 then 0xEC#8 else 0x11#8

theorem padByte_eq_bin (i : Nat) : padByte i = bin (padByteValue i).toNat 8 := by
  unfold padByte padByteValue
  split <;> rfl

/-- The padded stream is, byte by byte, the terminated stream and the pad bytes (R169, R171). -/
theorem packBytes_padStream (c : Nat) (x : Bits) : packBytes (padStream c x) =
    packBytes (terminate c x)
      ++ (List.range ((c - (terminate c x).length + 7) / 8)).map padByteValue := by
  have hbytes : (terminate c x).length % 8 = 0 := by rw [terminate_length]; omega
  have hpad : ∀ l : List Nat, l.flatMap padByte = unpackBytes (l.map padByteValue) := fun l => by
    rw [unpackBytes, List.flatMap_map]
    exact congrArg l.flatMap (funext padByte_eq_bin)
  have happend : ∀ a b : List Byte, unpackBytes a ++ unpackBytes b = unpackBytes (a ++ b) :=
    fun a b => List.flatMap_append.symm
  rw [padStream, hpad]
  conv_lhs => rw [← unpackBytes_packBytes hbytes, happend, packBytes_unpackBytes]
  rw [unpackBytes_packBytes hbytes]

/-- The bits of the padded stream up to the pad bytes are those of the stream, then zeros (R169). -/
theorem padStream_getD {c i : Nat} {x : Bits} (hi : i < (terminate c x).length) :
    (padStream c x).getD i false = x.getD i false := by
  rw [padStream, List.getD_append _ _ _ _ hi, terminate_getD]

/-- A pad byte of the padded stream (R171). -/
theorem packBytes_padStream_getElem? {c j : Nat} {x : Bits}
    (hj : j < (c - (terminate c x).length + 7) / 8) :
    (packBytes (padStream c x))[(terminate c x).length / 8 + j]? = some (padByteValue j) := by
  have hlen : (packBytes (terminate c x)).length = (terminate c x).length / 8 := by
    rw [packBytes_length, terminate_length]; omega
  rw [packBytes_padStream, ← hlen, List.getElem?_append_right (Nat.le_add_right _ _), Nat.add_sub_cancel_left,
    List.getElem?_map, List.getElem?_range hj, Option.map_some]

/-- PAD in its stage, on a stream that it can read, stores the padded stream (R172). -/
theorem exec_pad_of_ok {s : State} {x : Bits} (hp : s.pstage = .selected)
    (hload : loadBits .pad s.streamLen.toNat s = .ok x) :
    exec .pad s = .next
      { s.storeBits (padStream s.capBits.toNat x) with
        streamLen := BitVec.ofNat 17 s.capBits.toNat, pstage := .padded, pending := none, done := true } := by
  have hstart : mayStart .pad s := (stageOk_iff s .pad).1 (by simp [stageOk, hp])
  rw [show exec .pad s = runCommand .pad performPad s from rfl, runCommand_of_mayStart hstart, performPad, hload]
  rfl

/-- Settles O29: the stream read is stored with its terminator and pad bytes, which end at the capacity. -/
theorem padFillsTheCapacity : Obligations.PadFillsTheCapacity := by
  intro s x hinv hp hx hlen c e
  have hm := hinv.mem_wf
  have hsel := hinv.selected_ok (PStage.reached_of_eq hp (by decide) (by decide))
  obtain ⟨-, -, -, hc8, -, hmax⟩ := stdCap_some hsel.cap_eq
  have hxc : x.length ≤ c := hlen.trans_le hsel.stream_le
  have hload : loadBits .pad s.streamLen.toNat s = .ok x := (loadBits_ok_iff hm.1 ..).2 ⟨hlen, hx⟩
  have hterm : (terminate c x).length = e := by rw [terminate_length]; omega
  have hpadded : (padStream c x).length = c := padStream_length_of_fits hxc hc8
  have hbits := storedBits_storeBits hm.1 (padStream c x)
  have hkeeps := keepsOutside_storeBits hm.1 (padStream c x)
  have hec : e ≤ c := by omega
  rw [State.storedBits, hpadded] at hbits
  rw [hpadded, show (c + 7) / 8 = c / 8 by omega] at hkeeps
  refine ⟨_, exec_pad_of_ok hp hload, Nat.mod_eq_of_lt (by omega), hc8, hec, fun i hi => ?stream,
    fun i hi hie => ?zeros, fun j hj => ?pad, hkeeps, rfl⟩
  case stream =>
    rw [List.getElem?_eq_getElem hi, ← List.getD_eq_getElem x false hi, ← padStream_getD (c := c) (by omega)]
    exact hbits i (by omega)
  case zeros =>
    rw [← List.getD_eq_default x false hi, ← padStream_getD (c := c) (by omega)]
    exact hbits i (by omega)
  case pad =>
    have hpad := packBytes_padStream_getElem? (c := c) (x := x) (j := j) (by omega)
    rw [hterm, padByteValue] at hpad
    exact (byte_writeBuf hm.1 .bbuf _ (by rw [packBytes_length, hpadded]; omega)).trans hpad

end Sys2Proof.Machine
end

section
/-! PROOFS. GF(256): every byte but 0 is a power of α, and multiplication by α is linear, from which the laws of
multiplication follow (42_gf_rs.md R190 to R193). -/

namespace Sys2Proof.Machine

/-! ### Powers of α -/

/-- Multiplication by α on bytes: the shift of R190, reduced by the polynomial 0x11D, whose bit 8 the shift drops.
`alphaPow_succ` ties it to EXP. -/
def timesAlpha (b : Byte) : Byte := (b <<< 1) ^^^ if b.msb then 0x1D#8 else 0#8

theorem timesAlpha_xor (a b : Byte) : timesAlpha (a ^^^ b) = timesAlpha a ^^^ timesAlpha b := by
  have hcarry : ∀ x y : Bool, (if x ^^ y then 0x1D#8 else 0#8)
      = (if x then 0x1D#8 else 0#8) ^^^ if y then 0x1D#8 else 0#8 := by decide
  simp only [timesAlpha, BitVec.shiftLeft_xor_distrib, BitVec.msb_xor, hcarry]
  ac_rfl

theorem timesAlpha_iterate_xor (n : Nat) (a b : Byte) :
    timesAlpha^[n] (a ^^^ b) = timesAlpha^[n] a ^^^ timesAlpha^[n] b :=
  Function.Semiconj₂.iterate (op := (· ^^^ ·)) timesAlpha_xor n a b

theorem alphaPow_mod (n : Nat) : alphaPow (n % 255) = alphaPow n := by
  rw [alphaPow, Nat.mod_mod, alphaPow]

theorem alphaPow_succ_table : ∀ i < 255, alphaPow (i + 1) = timesAlpha (alphaPow i) := by decide +kernel

theorem alphaPow_succ (n : Nat) : alphaPow (n + 1) = timesAlpha (alphaPow n) := by
  have h := alphaPow_succ_table (n % 255) (Nat.mod_lt _ (by decide))
  rwa [alphaPow_mod, ← alphaPow_mod (n % 255 + 1), Nat.mod_add_mod, alphaPow_mod] at h

theorem alphaPow_add (n m : Nat) : alphaPow (n + m) = timesAlpha^[n] (alphaPow m) := by
  induction n with
  | zero => rw [Nat.zero_add, Function.iterate_zero_apply]
  | succ n ih => rw [Nat.succ_add, alphaPow_succ, ih, Function.iterate_succ_apply']

theorem gfExp_eq_alphaPow {i : Nat} (h : i < 255) : gfExp i = some (alphaPow i) := by
  obtain ⟨x, hx⟩ := Option.isSome_iff_exists.1 (gfExp_isSome i h)
  rw [alphaPow, Nat.mod_eq_of_lt h, hx, Option.getD_some]

theorem gfLog_alphaPow (n : Nat) : gfLog (alphaPow n) = some (n % 255) := by
  have hlt : n % 255 < 255 := Nat.mod_lt _ (by decide)
  have h := gfLog_gfExp (n % 255) hlt
  rwa [gfExp_eq_alphaPow hlt, alphaPow_mod] at h

theorem alphaPow_of_gfLog {b : Byte} {i : Nat} (h : gfLog b = some i) : i < 255 ∧ alphaPow i = b := by
  have hb : b ≠ 0#8 := by rintro rfl; cases h
  obtain ⟨j, hj, hlog, hexp⟩ := gfLog_inverse hb
  obtain rfl : i = j := Option.some.inj (h.symm.trans hlog)
  exact ⟨hj, Option.some.inj ((gfExp_eq_alphaPow hj).symm.trans hexp)⟩

/-- A byte is 0 or a power of α. -/
theorem eq_zero_or_alphaPow (b : Byte) : b = 0#8 ∨ ∃ i, b = alphaPow i := by
  by_cases hb : b = 0#8
  · exact .inl hb
  · obtain ⟨i, hi, -⟩ := gfLog_isSome hb
    exact .inr ⟨i, (alphaPow_of_gfLog hi).2.symm⟩

/-! ### Multiplication -/

@[simp] theorem gmul_zero_left (b : Byte) : gmul 0#8 b = 0#8 := rfl

theorem gmul_comm (a b : Byte) : gmul a b = gmul b a := by
  unfold gmul
  cases gfLog a with
  | none => cases gfLog b <;> rfl
  | some i =>
    cases gfLog b with
    | none => rfl
    | some j => exact congrArg alphaPow (Nat.add_comm i j)

@[simp] theorem gmul_zero_right (a : Byte) : gmul a 0#8 = 0#8 := by rw [gmul_comm, gmul_zero_left]

theorem gmul_alphaPow_alphaPow (i j : Nat) : gmul (alphaPow i) (alphaPow j) = alphaPow (i + j) := by
  rw [gmul, gfLog_alphaPow, gfLog_alphaPow]
  exact (alphaPow_mod _).symm.trans (by rw [← Nat.add_mod, alphaPow_mod])

theorem timesAlpha_iterate_zero (n : Nat) : timesAlpha^[n] 0#8 = 0#8 := Function.iterate_fixed (by decide) n

/-- Multiplication by a power of α is repeated multiplication by α; what is linear in R193 follows from it. -/
theorem gmul_alphaPow (i : Nat) (b : Byte) : gmul (alphaPow i) b = timesAlpha^[i] b := by
  obtain rfl | ⟨j, rfl⟩ := eq_zero_or_alphaPow b
  · rw [gmul_zero_right, timesAlpha_iterate_zero]
  · rw [gmul_alphaPow_alphaPow, alphaPow_add]

theorem gmul_xor_right (a b c : Byte) : gmul a (b ^^^ c) = gmul a b ^^^ gmul a c := by
  obtain rfl | ⟨i, rfl⟩ := eq_zero_or_alphaPow a
  · simp
  · simp only [gmul_alphaPow, timesAlpha_iterate_xor]

theorem gmul_xor_left (a b c : Byte) : gmul (a ^^^ b) c = gmul a c ^^^ gmul b c := by
  simp only [gmul_comm _ c, gmul_xor_right]

theorem gmul_assoc (a b c : Byte) : gmul (gmul a b) c = gmul a (gmul b c) := by
  obtain rfl | ⟨i, rfl⟩ := eq_zero_or_alphaPow a
  · rfl
  obtain rfl | ⟨j, rfl⟩ := eq_zero_or_alphaPow b
  · simp
  · rw [gmul_alphaPow_alphaPow, gmul_alphaPow, gmul_alphaPow, gmul_alphaPow, Function.iterate_add_apply]

@[simp] theorem gmul_one_left (b : Byte) : gmul 1#8 b = b := by
  rw [show 1#8 = alphaPow 0 from by decide, gmul_alphaPow, Function.iterate_zero_apply]

end Sys2Proof.Machine
end

section
/-! PROOFS. The division engine as a fold over the data: it is linear, and the data followed by its correction bytes
vanish at the generator's roots (42_gf_rs.md R194 to R196). -/

namespace Sys2Proof.Machine

/-! ### Blocks of bytes -/

/-- The sum of two blocks, byte by byte (R193). -/
abbrev xorBytes (l l' : List Byte) : List Byte := List.zipWith (· ^^^ ·) l l'

theorem xorBytes_xorBytes_comm (a b c d : List Byte) :
    xorBytes (xorBytes a b) (xorBytes c d) = xorBytes (xorBytes a c) (xorBytes b d) := by
  induction a generalizing b c d with
  | nil => simp
  | cons x a ih =>
    match b, c, d with
    | [], _, _ | _, [], _ | _, _, [] => simp
    | y :: b, z :: c, w :: d =>
      simp only [List.zipWith_cons_cons, List.cons.injEq]
      exact ⟨by ac_rfl, ih b c d⟩

theorem xorBytes_zeros {n : Nat} {l : List Byte} (h : l.length = n) :
    xorBytes l (List.replicate n 0#8) = l := by
  subst h
  simp [← List.map_const', List.zipWith_map_right, List.zipWith_self]

theorem zeros_xorBytes {n : Nat} {l : List Byte} (h : l.length = n) :
    xorBytes (List.replicate n 0#8) l = l := by
  subst h
  simp [← List.map_const', List.zipWith_map_left, List.zipWith_self]

theorem map_gmul_zero (l : List Byte) : l.map (gmul 0#8) = List.replicate l.length 0#8 := List.map_const'

theorem map_gmul_xorBytes (f f' : Byte) (l : List Byte) :
    l.map (gmul (f ^^^ f')) = xorBytes (l.map (gmul f)) (l.map (gmul f')) := by
  simp [List.zipWith_self, gmul_xor_left]

/-! ### The division engine as a fold -/

/-- One step of the division engine on the generator's coefficients (R195): the ejected value times the
generator is added to the shifted buffer. -/
def rsNext (coeffs buf : List Byte) (d : Byte) : List Byte :=
  xorBytes (buf.tail ++ [0#8]) (coeffs.map (gmul (d ^^^ buf.headD 0#8)))

/-- The shift by one place keeps the length. -/
theorem shifted_length {buf : List Byte} {k : Nat} (hk : 1 ≤ k) (hb : buf.length = k) :
    (buf.tail ++ [0#8]).length = k := by
  rw [List.length_append, List.length_tail, List.length_singleton, hb]; omega

theorem rsNext_length {coeffs buf : List Byte} {k : Nat} (hk : 1 ≤ k) (hc : coeffs.length = k)
    (hb : buf.length = k) (d : Byte) : (rsNext coeffs buf d).length = k := by
  rw [rsNext, List.length_zipWith, shifted_length hk hb, List.length_map, hc, Nat.min_self]

/-- The step of the standard record looks nothing up in vain, and where the ejected value is 0 it adds zeros. -/
theorem rsStep_standard_eq {gen : List Nat} {k : Nat} (hk : 1 ≤ k) (hg : gen.length = k) {buf : List Byte}
    (hb : buf.length = k) (d : Byte) :
    rsStep standardTables gen buf d = .ok (rsNext (gen.map alphaPow) buf d) := by
  have hlen : (buf.tail ++ [0#8]).length = (gen.map alphaPow).length := by
    rw [shifted_length hk hb, List.length_map, hg]
  rw [rsStep, rsNext]
  by_cases hf : d ^^^ buf.headD 0#8 = 0#8
  · rw [if_pos hf, hf, map_gmul_zero, xorBytes_zeros hlen]
  · obtain ⟨lf, hlog, hat⟩ := logAt_standard hf
    have hmul : ∀ g, gmul (d ^^^ buf.headD 0#8) (alphaPow g) = alphaPow (g + lf) := fun g => by
      rw [← (alphaPow_of_gfLog hlog).2, gmul_alphaPow_alphaPow, Nat.add_comm]
    rw [if_neg hf, hat, List.map_map, xorBytes, List.zipWith_map_right]
    simp only [addScaled_standard, Function.comp_apply, hmul]

theorem rsSteps_standard_eq {gen : List Nat} {k : Nat} (hk : 1 ≤ k) (hg : gen.length = k)
    (data : List Byte) {buf : List Byte} (hb : buf.length = k) :
    rsSteps standardTables gen buf data = .ok (data.foldl (rsNext (gen.map alphaPow)) buf) := by
  induction data generalizing buf with
  | nil => rfl
  | cons d data ih =>
    rw [rsSteps, rsStep_standard_eq hk hg hb]
    exact ih (rsNext_length hk (by rw [List.length_map, hg]) hb d)

/-- The division of the standard record is a fold of the data over the cleared buffer. -/
theorem rsDiv_standard_eq {gen : List Nat} {k : Nat} (hk : 1 ≤ k) (hg : gen.length = k) (data : List Byte) :
    rsDiv standardTables gen k data
      = .ok (data.foldl (rsNext (gen.map alphaPow)) (List.replicate k 0#8)) :=
  rsSteps_standard_eq hk hg data (List.length_replicate ..)

/-! ### Linearity (R196) -/

theorem rsNext_xorBytes {buf buf' : List Byte} (h : buf.length = buf'.length) (coeffs : List Byte)
    (d d' : Byte) :
    rsNext coeffs (xorBytes buf buf') (d ^^^ d')
      = xorBytes (rsNext coeffs buf d) (rsNext coeffs buf' d') := by
  have hhead : (xorBytes buf buf').headD 0#8 = buf.headD 0#8 ^^^ buf'.headD 0#8 := by
    cases buf <;> cases buf' <;> simp at h ⊢
  have htail : (xorBytes buf buf').tail ++ [0#8] = xorBytes (buf.tail ++ [0#8]) (buf'.tail ++ [0#8]) := by
    rw [xorBytes, List.tail_zipWith, xorBytes, List.zipWith_append (by simp [h])]
    rfl
  have hejected : d ^^^ d' ^^^ (buf.headD 0#8 ^^^ buf'.headD 0#8)
      = d ^^^ buf.headD 0#8 ^^^ (d' ^^^ buf'.headD 0#8) := by ac_rfl
  rw [rsNext, hhead, htail, hejected, map_gmul_xorBytes, xorBytes_xorBytes_comm, rsNext, rsNext]

theorem foldl_rsNext_xorBytes {coeffs : List Byte} {k : Nat} (hk : 1 ≤ k) (hc : coeffs.length = k)
    {d d' : List Byte} (h : d.length = d'.length) {buf buf' : List Byte} (hb : buf.length = k)
    (hb' : buf'.length = k) :
    (xorBytes d d').foldl (rsNext coeffs) (xorBytes buf buf')
      = xorBytes (d.foldl (rsNext coeffs) buf) (d'.foldl (rsNext coeffs) buf') := by
  induction d generalizing d' buf buf' with
  | nil => obtain rfl := List.length_eq_zero_iff.1 h.symm; rfl
  | cons x d ih =>
    obtain _ | ⟨y, d'⟩ := d'
    · cases h
    · have hstep := rsNext_xorBytes (hb.trans hb'.symm) coeffs x y
      rw [show xorBytes (x :: d) (y :: d') = (x ^^^ y) :: xorBytes d d' from rfl, List.foldl_cons, hstep]
      exact ih (Nat.succ.inj h) (rsNext_length hk hc hb x) (rsNext_length hk hc hb' y)

/-- On the cleared buffer the ejected value is the data byte itself. -/
theorem rsNext_zeros {coeffs : List Byte} {k : Nat} (hk : 1 ≤ k) (hc : coeffs.length = k) (d : Byte) :
    rsNext coeffs (List.replicate k 0#8) d = coeffs.map (gmul d) := by
  obtain ⟨k, rfl⟩ := Nat.exists_eq_add_of_le' hk
  have hshifted : (List.replicate (k + 1) 0#8).tail ++ [0#8] = List.replicate (k + 1) 0#8 := by
    rw [List.tail_replicate, List.replicate_succ']; rfl
  rw [rsNext, hshifted, zeros_xorBytes (by rw [List.length_map, hc]), List.replicate_succ, List.headD_cons,
    BitVec.xor_zero]

theorem foldl_rsNext_zeros {coeffs : List Byte} {k : Nat} (hk : 1 ≤ k) (hc : coeffs.length = k) (n : Nat) :
    (List.replicate n 0#8).foldl (rsNext coeffs) (List.replicate k 0#8) = List.replicate k 0#8 := by
  induction n with
  | zero => rfl
  | succ n ih => rw [List.replicate_succ, List.foldl_cons, rsNext_zeros hk hc, map_gmul_zero, hc, ih]

theorem mapM_gfExp {gen : List Nat} (h : ∀ g ∈ gen, g < 255) : gen.mapM gfExp = some (gen.map alphaPow) := by
  induction gen with
  | nil => rfl
  | cons g gen ih =>
    obtain ⟨hg, hgen⟩ := List.forall_mem_cons.1 h
    rw [List.mapM_cons, gfExp_eq_alphaPow hg, ih hgen]
    rfl

/-! ### The generator (R194) -/

/-- Logarithms of bytes are exponents of EXP, and the bytes are their powers of α. -/
theorem mapM_gfLog {p : List Byte} {gen : List Nat} (h : p.mapM gfLog = some gen) :
    gen.map alphaPow = p ∧ ∀ g ∈ gen, g < 255 := by
  induction p generalizing gen with
  | nil => cases h; simp
  | cons b p ih =>
    simp only [List.mapM_cons, Option.bind_eq_bind, Option.bind_eq_some_iff] at h
    obtain ⟨i, hi, is, his, hgen⟩ := h
    cases hgen
    obtain ⟨hlt, hpow⟩ := alphaPow_of_gfLog hi
    obtain ⟨hmap, hall⟩ := ih his
    exact ⟨by rw [List.map_cons, hpow, hmap], List.forall_mem_cons.2 ⟨hlt, hall⟩⟩

theorem genPoly_succ (k : Nat) : genPoly (k + 1) = mulRoot (genPoly k) (alphaPow k) := by
  rw [genPoly, List.range_succ, List.foldl_append]; rfl

/-- The leading coefficient is 1. -/
theorem genPoly_eq_cons (k : Nat) : genPoly k = 1#8 :: (genPoly k).tail := by
  induction k with
  | zero => rfl
  | succ k ih => rw [genPoly_succ, ih]; rfl

/-- The exponents of a generator of the standard record: they stay in EXP's domain, and with the leading 1 they
are the generator polynomial. -/
theorem stdGen_genPoly {k : Nat} {gen : List Nat} (h : stdGen k = some gen) :
    (∀ g ∈ gen, g < 255) ∧ genPoly k = 1#8 :: gen.map alphaPow := by
  unfold stdGen at h
  split at h
  · obtain ⟨hmap, hlt⟩ := mapM_gfLog h
    exact ⟨hlt, by rw [hmap]; exact genPoly_eq_cons k⟩
  · cases h

/-- Settles O30: the division is a fold of linear steps from the cleared buffer. -/
theorem divisionIsLinear : Obligations.DivisionIsLinear := by
  intro k gen hgen
  obtain ⟨hk7, -, hgl⟩ := stdGen_some hgen
  have hk : 1 ≤ k := by omega
  have hc : (gen.map alphaPow).length = k := by rw [List.length_map, hgl]
  refine ⟨fun d d' hlen => ?linear, fun n => ?zeros, gen.map alphaPow, ?unit, ?coefficients⟩
  case linear =>
    have hzeros := List.length_replicate (n := k) (a := 0#8)
    have hfold := foldl_rsNext_xorBytes hk hc hlen hzeros hzeros
    rw [zeros_xorBytes (List.length_replicate ..)] at hfold
    exact ⟨_, _, rsDiv_standard_eq hk hgl d, rsDiv_standard_eq hk hgl d',
      (rsDiv_standard_eq hk hgl _).trans (congrArg Except.ok hfold)⟩
  case zeros => rw [rsDiv_standard_eq hk hgl, foldl_rsNext_zeros hk hc]
  case unit =>
    rw [rsDiv_standard_eq hk hgl, List.foldl_cons, rsNext_zeros hk hc, List.foldl_nil,
      show gmul 1#8 = id from funext gmul_one_left, List.map_id]
  case coefficients => exact mapM_gfExp (stdGen_genPoly hgen).1

/-! ### Roots -/

/-- One step of Horner's rule at `a`, as `polyAt` folds it. -/
def hornerStep (a x c : Byte) : Byte := gmul x a ^^^ c

theorem polyAt_eq (a : Byte) (p : List Byte) : polyAt a p = p.foldl (hornerStep a) 0#8 := rfl

/-- Horner's rule is linear in the start value and the coefficients. -/
theorem foldl_hornerStep_xorBytes (a : Byte) {p q : List Byte} (h : p.length = q.length) (x y : Byte) :
    (xorBytes p q).foldl (hornerStep a) (x ^^^ y) = p.foldl (hornerStep a) x ^^^ q.foldl (hornerStep a) y := by
  induction p generalizing q x y with
  | nil => obtain rfl := List.length_eq_zero_iff.1 h.symm; rfl
  | cons c p ih =>
    obtain _ | ⟨e, q⟩ := q
    · cases h
    · have hstep : hornerStep a (x ^^^ y) (c ^^^ e) = hornerStep a x c ^^^ hornerStep a y e := by
        simp only [hornerStep, gmul_xor_left]; ac_rfl
      simp only [List.zipWith_cons_cons, List.foldl_cons, hstep]
      exact ih (Nat.succ.inj h) _ _

theorem foldl_hornerStep_gmul (a f : Byte) (p : List Byte) (x : Byte) :
    (p.map (gmul f)).foldl (hornerStep a) (gmul f x) = gmul f (p.foldl (hornerStep a) x) := by
  induction p generalizing x with
  | nil => rfl
  | cons c p ih =>
    have hstep : hornerStep a (gmul f x) (gmul f c) = gmul f (hornerStep a x c) := by
      rw [hornerStep, gmul_assoc, hornerStep, gmul_xor_right]
    rw [List.map_cons, List.foldl_cons, List.foldl_cons, hstep, ih]

theorem polyAt_xorBytes (a : Byte) {p q : List Byte} (h : p.length = q.length) :
    polyAt a (xorBytes p q) = polyAt a p ^^^ polyAt a q := foldl_hornerStep_xorBytes a h 0#8 0#8

theorem polyAt_gmul (a f : Byte) (p : List Byte) : polyAt a (p.map (gmul f)) = gmul f (polyAt a p) := by
  have h := foldl_hornerStep_gmul a f p 0#8
  rwa [gmul_zero_right] at h

theorem polyAt_zero_cons (a : Byte) (p : List Byte) : polyAt a (0#8 :: p) = polyAt a p := by
  rw [polyAt_eq, List.foldl_cons, hornerStep, gmul_zero_left, BitVec.xor_zero, polyAt_eq]

theorem polyAt_append_zero (a : Byte) (p : List Byte) : polyAt a (p ++ [0#8]) = gmul (polyAt a p) a := by
  rw [polyAt_eq, List.foldl_append, ← polyAt_eq]
  exact BitVec.xor_zero

/-- The value at `a` of a product with (x ⊕ b) has the factor a ⊕ b (R194). -/
theorem polyAt_mulRoot (a b : Byte) (p : List Byte) :
    polyAt a (mulRoot p b) = gmul (a ^^^ b) (polyAt a p) := by
  rw [mulRoot, polyAt_xorBytes a (by simp), polyAt_append_zero, polyAt_zero_cons, polyAt_gmul, gmul_xor_left,
    gmul_comm a]

/-- α^0 .. α^(k − 1) are roots of the generator polynomial (R194). -/
theorem polyAt_genPoly {i k : Nat} (h : i < k) : polyAt (alphaPow i) (genPoly k) = 0#8 := by
  induction k with
  | zero => omega
  | succ k ih =>
    rw [genPoly_succ, polyAt_mulRoot]
    obtain hik | rfl := Nat.lt_succ_iff_lt_or_eq.1 h
    · rw [ih hik, gmul_zero_right]
    · rw [BitVec.xor_self, gmul_zero_left]

/-- A step of the division puts the data byte, where the ejected byte was, before the shifted buffer, and adds a
multiple of the generator to the two: at a root of the generator the value of all the codewords so far stays 0. Here
`x` is Horner's value of the codewords before the buffer. -/
theorem foldl_hornerStep_rsNext {a : Byte} {coeffs : List Byte} (hroot : polyAt a (1#8 :: coeffs) = 0#8)
    {buf : List Byte} {k : Nat} (hk : 1 ≤ k) (hc : coeffs.length = k) (hb : buf.length = k) {x : Byte}
    (h : buf.foldl (hornerStep a) x = 0#8) (d : Byte) :
    (rsNext coeffs buf d).foldl (hornerStep a) (hornerStep a x d) = 0#8 := by
  obtain _ | ⟨y, ys⟩ := buf
  · rw [List.length_nil] at hb; omega
  have hshifted : (ys ++ [0#8]).foldl (hornerStep a) (hornerStep a x y) = 0#8 := by
    rw [List.foldl_append, ← List.foldl_cons, h, ← polyAt_eq, polyAt_zero_cons]; rfl
  have hmultiple : (coeffs.map (gmul (d ^^^ y))).foldl (hornerStep a) (d ^^^ y) = 0#8 := by
    have hm := polyAt_gmul a (d ^^^ y) (1#8 :: coeffs)
    rwa [hroot, gmul_zero_right, List.map_cons, gmul_comm _ 1#8, gmul_one_left, polyAt_eq, List.foldl_cons,
      hornerStep, gmul_zero_left, BitVec.zero_xor] at hm
  have hstart : hornerStep a x d = hornerStep a x y ^^^ (d ^^^ y) := by
    rw [hornerStep, hornerStep, BitVec.xor_assoc, BitVec.xor_comm d, ← BitVec.xor_assoc y, BitVec.xor_self,
      BitVec.zero_xor]
  have hlen : (ys ++ [0#8]).length = (coeffs.map (gmul (d ^^^ y))).length := by
    rw [List.length_map, hc]; exact shifted_length hk hb
  rw [hstart, rsNext, List.tail_cons, List.headD_cons, foldl_hornerStep_xorBytes a hlen, hshifted, hmultiple,
    BitVec.xor_zero]

/-- The data and what the division leaves of it vanish at a root of the generator. -/
theorem foldl_hornerStep_division {a : Byte} {coeffs : List Byte} (hroot : polyAt a (1#8 :: coeffs) = 0#8)
    {k : Nat} (hk : 1 ≤ k) (hc : coeffs.length = k) (data : List Byte) {buf : List Byte}
    (hb : buf.length = k) {x : Byte} (h : buf.foldl (hornerStep a) x = 0#8) :
    (data ++ data.foldl (rsNext coeffs) buf).foldl (hornerStep a) x = 0#8 := by
  induction data generalizing buf x with
  | nil => exact h
  | cons d data ih =>
    exact ih (rsNext_length hk hc hb d) (foldl_hornerStep_rsNext hroot hk hc hb h d)

theorem polyAt_zeros (a : Byte) (n : Nat) : polyAt a (List.replicate n 0#8) = 0#8 := by
  induction n with
  | zero => rfl
  | succ n ih => rw [List.replicate_succ, polyAt_zero_cons, ih]

/-- Settles O31: at a root of the generator every step keeps the value 0 that the cleared buffer has. -/
theorem codewordsVanishAtTheRoots : Obligations.CodewordsVanishAtTheRoots := by
  intro k hk7 hk68
  obtain ⟨gen, hgen, hgl⟩ := stdGen_table k (by omega) hk7
  have hk : 1 ≤ k := by omega
  have hc : (gen.map alphaPow).length = k := by rw [List.length_map, hgl]
  refine ⟨gen, hgen, fun d => ?_⟩
  have hdiv := rsDiv_standard_eq hk hgl d
  refine ⟨_, hdiv, rsDiv_length hgl hk hdiv, fun i hi => ⟨alphaPow i, gfExp_eq_alphaPow (by omega), ?_⟩⟩
  have hroot : polyAt (alphaPow i) (1#8 :: gen.map alphaPow) = 0#8 :=
    (stdGen_genPoly hgen).2 ▸ polyAt_genPoly hi
  exact foldl_hornerStep_division hroot hk hc d (List.length_replicate ..) (polyAt_zeros (alphaPow i) k)

end Sys2Proof.Machine
end

section
/-! PROOFS. The Block Divider, ECGEN and RS_RAW (42_gf_rs.md R198 to R201): the blocks are the data in order, and how
the two commands of the division engine end. -/

namespace Sys2Proof.Machine

/-! ### The data blocks -/

/-- The first n blocks are the data up to the offset of the next one: no gap and no overlap (R198). -/
theorem flatten_blocks {N b r : Nat} (hr : r ≤ N) (data : List Byte) (n : Nat) :
    ((List.range n).map fun j => (data.drop (blockOff N b r j)).take (blockLen N b r j)).flatten
      = data.take (blockOff N b r n) := by
  induction n with
  | zero => simp [blockOff, Nat.sub_eq_zero_of_le hr]
  | succ n ih =>
    rw [List.range_succ, List.map_append, List.flatten_append, ih, blockOff_succ, List.take_add]
    simp

theorem dataBlocks_flatten {N b r : Nat} (hr : r ≤ N) {data : List Byte} (hd : data.length = N * b + r) :
    (dataBlocks N b r data).flatten = data := by
  rw [dataBlocks, flatten_blocks hr, blockOff_end, ← hd, List.take_length]

/-- Block j is the codewords from `off(j)` on, as R198 writes its offset and its length. -/
theorem dataBlocks_getElem? {N r j : Nat} (hr : r ≤ N) (hj : j < N) (b : Nat) (data : List Byte) :
    (dataBlocks N b r data)[j]?
      = some ((data.drop (j * b + (j - (N - r)))).take (b + if N - r ≤ j then 1 else 0)) := by
  have hoff : blockOff N b r j = j * b + (j - (N - r)) := by rw [blockOff]; omega
  have hlen : blockLen N b r j = b + if N - r ≤ j then 1 else 0 := by
    rw [blockLen]; exact congrArg (b + ·) (if_congr (by omega) rfl rfl)
  rw [dataBlocks, List.getElem?_map, List.getElem?_range hj, Option.map_some, hoff, hlen]

theorem blockLen_eq {N r : Nat} (hr : r ≤ N) (b j : Nat) :
    blockLen N b r j = if j < N - r then b else b + 1 := by
  rw [blockLen]; split_ifs <;> omega

theorem length_of_dataBlocks_getElem? {N b r j : Nat} (hr : r ≤ N) {data x : List Byte}
    (hd : data.length = N * b + r) (hx : (dataBlocks N b r data)[j]? = some x) :
    x.length = if j < N - r then b else b + 1 := by
  have hj : j < N := by
    have := (List.getElem?_eq_some_iff.1 hx).1
    rwa [dataBlocks_length] at this
  have hlen := congrArg (·[j]?) (dataBlocks_map_length hd)
  simp only [List.getElem?_map, hx, Option.map_some, List.getElem?_range hj, Option.some.injEq] at hlen
  rw [hlen, blockLen_eq hr]

/-- Exactly r of the blocks have the extra codeword (R199). -/
theorem count_long_dataBlocks {N b r : Nat} (hr : r ≤ N) {data : List Byte} (hd : data.length = N * b + r) :
    ((dataBlocks N b r data).filter fun x => x.length == b + 1).length = r := by
  have hshort : (List.range (N - r)).countP (fun j => blockLen N b r j == b + 1) = 0 :=
    List.countP_eq_zero.2 fun j hj => by simp [blockLen_eq hr, List.mem_range.1 hj]
  have hlong : ((List.range r).map (N - r + ·)).countP (fun j => blockLen N b r j == b + 1) = r := by
    have hall := List.countP_eq_length (p := fun j => blockLen N b r j == b + 1)
      (l := (List.range r).map (N - r + ·))
    rw [List.length_map, List.length_range] at hall
    exact hall.2 fun j hj => by
      obtain ⟨i, -, rfl⟩ := List.mem_map.1 hj
      simp [blockLen_eq hr]
  calc ((dataBlocks N b r data).filter fun x => x.length == b + 1).length
      = ((dataBlocks N b r data).map List.length).countP (· == b + 1) := by
        rw [List.countP_map, List.countP_eq_length_filter]; rfl
    _ = (List.range (N - r + r)).countP (fun j => blockLen N b r j == b + 1) := by
        rw [dataBlocks_map_length hd, List.countP_map, Nat.sub_add_cancel hr]; rfl
    _ = r := by rw [List.range_add, List.countP_append, hshort, hlong, Nat.zero_add]

/-- The length of the short block of every version and level (R199). -/
theorem stdShort_bounds_table : ∀ v < 41, ∀ l < 4, 1 ≤ v →
    let b := (stdCap v l).getD 0 / 8 / (stdNb v l).getD 0
    1 ≤ b ∧ b ≤ 122 := by decide +kernel

/-- Settles O32: the blocks end where the next ones start, and their lengths are those of R198. -/
theorem blockDivisionCoversTheData : Obligations.BlockDivisionCoversTheData := by
  refine ⟨?blocks, fun v l c N hc hnb => ?bounds, fun k gen d hgen => ?bytes⟩
  case blocks =>
    intro N data hN b r blocks
    have hr : r ≤ N := (Nat.mod_lt _ hN).le
    have hd : data.length = N * b + r := (Nat.div_add_mod _ _).symm
    refine ⟨dataBlocks_flatten hr hd, dataBlocks_length .., fun j x => length_of_dataBlocks_getElem? hr hd,
      count_long_dataBlocks hr hd, ?_⟩
    rw [← blockOff_succ, Nat.sub_add_cancel hN, blockOff_end, hd]
  case bounds =>
    obtain ⟨hv1, hv40, hl, -⟩ := stdCap_some hc
    obtain ⟨N', k, hnb', -, hN1, hN81, -⟩ := stdNb_of_cap hc
    obtain rfl : N = N' := Option.some.inj (hnb.symm.trans hnb')
    have hb := stdShort_bounds_table v (by omega) l hl hv1
    rw [hc, hnb] at hb
    exact ⟨hN1, hb.1, hb.2, hN81⟩
  case bytes =>
    obtain ⟨hk7, -, hgl⟩ := stdGen_some hgen
    exact rsDiv_standard hgl (by omega) d

/-! ### ECGEN -/

/-- Entry i of block j of blocks of one length, laid out one after the other. -/
theorem flatten_getElem? {k : Nat} {es : List (List Byte)} (h : ∀ e ∈ es, e.length = k) (j : Nat) {i : Nat}
    (hi : i < k) : es.flatten[j * k + i]? = es[j]?.bind (·[i]?) := by
  induction es generalizing j with
  | nil => simp
  | cons e es ih =>
    obtain ⟨he, hes⟩ := List.forall_mem_cons.1 h
    rw [List.flatten_cons]
    cases j with
    | zero => rw [List.getElem?_append_left (by omega)]; simp
    | succ j =>
      rw [Nat.succ_mul, List.getElem?_append_right (by omega), List.getElem?_cons_succ, ← ih hes j, he]
      congr 1; omega

/-- Correction block j, k bytes from `j * k` on, is the division of data block j (R200). -/
theorem divideBlocks_getElem? {gen : List Nat} {k : Nat} (hg : gen.length = k) (hk : 1 ≤ k)
    {blocks : List (List Byte)} {ec : List Byte}
    (h : divideBlocks standardTables gen k blocks = .ok ec) {j : Nat} {d : List Byte}
    (hj : blocks[j]? = some d) :
    ∃ e, rsDiv standardTables gen k d = .ok e ∧ ∀ i, i < k → ec[j * k + i]? = e[i]? := by
  obtain ⟨es, hes, hall⟩ := divideBlocks_standard hg hk blocks
  obtain rfl : ec = es.flatten := Except.ok.inj (h.symm.trans hes)
  obtain ⟨hlen, hget⟩ := List.forall₂_iff_get.1 hall
  have hk' : ∀ e ∈ es, e.length = k := fun e he => by
    obtain ⟨i, hi, rfl⟩ := List.getElem_of_mem he
    exact (hget i (hlen ▸ hi) hi).2
  obtain ⟨hjb, rfl⟩ := List.getElem?_eq_some_iff.1 hj
  have hje : j < es.length := hlen ▸ hjb
  refine ⟨es[j], (hget j hjb hje).1, fun i hi => ?_⟩
  rw [flatten_getElem? hk' j hi, List.getElem?_eq_getElem hje, Option.bind_some]

/-- ECGEN in its stage, with the entries of the standard tables and the data at hand (R200). -/
theorem exec_ecgen_of_ok {s : State} {N k : Nat} {gen : List Nat} {data ec : List Byte}
    (hp : s.pstage = .padded) (hN : 1 ≤ N) (hnb : stdNb s.version.toNat s.selLevel.toNat = some N)
    (hecb : stdEcb s.version.toNat s.selLevel.toNat = some k) (hgen : stdGen k = some gen)
    (hread : readBuf .ecgen .bbuf (s.capBits.toNat / 8) s = .ok data)
    (hdiv : divideBlocks standardTables gen k
      (dataBlocks N (s.capBits.toNat / 8 / N) (s.capBits.toNat / 8 % N) data) = .ok ec) :
    exec .ecgen s = .next (s.ecGenerated N k ec).complete := by
  have hstart : mayStart .ecgen s := (stageOk_iff s .ecgen).1 (by simp [stageOk, hp])
  have hgenOf : genOf standardTables k = some gen := (genOf_standard k).trans hgen
  have hperf : performEcgen standardTables s = .ok (s.ecGenerated N k ec) := by
    simp [performEcgen, show standardTables.nb = stdNb from rfl, show standardTables.ecb = stdEcb from rfl, hnb,
      Nat.one_le_iff_ne_zero.1 hN, hecb, hgenOf, hread, hdiv]
  rw [show exec .ecgen s = runCommand .ecgen (performEcgen standardTables) s from rfl,
    runCommand_of_mayStart hstart, hperf]
  rfl

/-- The numbers that ECGEN writes fit their registers. -/
theorem toNat_regs_ecGenerated {s : State} {N k : Nat} (hN1 : 1 ≤ N) (hN : N ≤ 81) (hk : k ≤ 30)
    (hshort : s.capBits.toNat / 8 / N < 256) (ec : List Byte) :
    let u := s.ecGenerated N k ec
    u.numBlocks.toNat = N ∧ u.ecLen.toNat = k ∧ u.blkShort.toNat = s.capBits.toNat / 8 / N
      ∧ u.blkNlong.toNat = s.capBits.toNat / 8 % N := by
  have hlong : s.capBits.toNat / 8 % N < N := Nat.mod_lt _ hN1
  exact ⟨Nat.mod_eq_of_lt (by omega), Nat.mod_eq_of_lt (by omega), Nat.mod_eq_of_lt hshort,
    Nat.mod_eq_of_lt (by omega)⟩

/-- Settles O33: in stage PADDED every lookup and the read succeed, and each correction block is written at its
place. -/
theorem ecgenWritesTheCorrectionBlocks : Obligations.EcgenWritesTheCorrectionBlocks := by
  intro s data hinv hp hdata hlen
  have hm := hinv.mem_wf
  have hsel := hinv.selected_ok (PStage.reached_of_eq hp (by decide) (by decide))
  obtain ⟨N, k, hnb, hecb, hN1, hN81, hk7, hk30, -, hshort⟩ := stdNb_of_cap hsel.cap_eq
  obtain ⟨gen, hgen, hgl⟩ := stdGen_table k (by omega) hk7
  have hk : 1 ≤ k := by omega
  obtain ⟨es, hdiv, -⟩ := divideBlocks_standard hgl hk
    (dataBlocks N (s.capBits.toNat / 8 / N) (s.capBits.toNat / 8 % N) data)
  have hec : es.flatten.length = N * k := by rw [divideBlocks_length hgl hk hdiv, dataBlocks_length]
  have hread := (readBuf_ok_iff hm.1 .ecgen .bbuf _ data).2 ⟨hlen, hdata⟩
  obtain ⟨eN, ek, eb, er⟩ := toNat_regs_ecGenerated hN1 hN81 hk30 hshort es.flatten
  have hkeeps := keepsOutside_writeBuf hm.1 .ebuf es.flatten
  rw [hec] at hkeeps
  refine ⟨(s.ecGenerated N k es.flatten).complete, N, k, gen,
    exec_ecgen_of_ok hp hN1 hnb hecb hgen hread hdiv, hnb, hecb, hgen, eN, ek, hlen ▸ eb, hlen ▸ er,
    fun j hj => ?blocks, hkeeps, rfl⟩
  case blocks =>
    have hblock := dataBlocks_getElem? (Nat.mod_lt data.length hN1).le hj (data.length / N) data
    rw [← hlen] at hdiv
    obtain ⟨e, he, hbytes⟩ := divideBlocks_getElem? hgl hk hdiv hblock
    refine ⟨e, he, fun i hi => ?_⟩
    have hin : j * k + i < es.flatten.length := by
      have : (j + 1) * k ≤ N * k := Nat.mul_le_mul_right k hj
      rw [Nat.succ_mul] at this
      omega
    exact (byte_writeBuf hm.1 .ebuf _ hin).trans (hbytes i hi)

/-! ### RS_RAW -/

theorem exec_rsRaw (s : State) : exec .rsRaw s = (performRsRaw standardTables s).finish := rfl

/-- What an RS_RAW that succeeds leaves (R201). -/
def State.rsDivided (s : State) (ec : List Byte) : State :=
  { s with
    mem := (s.writeBuf .ebuf ec).mem, ecLen := BitVec.ofNat 7 s.rsK.toNat, pstage := .idle, pending := none
    done := true }

section RsRaw

variable {s : State}

theorem exec_rsRaw_of_degree (hk : s.rsK.toNat < 7 ∨ 68 < s.rsK.toNat) :
    exec .rsRaw s = .next (s.failedWith .param (0x068 ||| (s.rsK.toNat <<< 12))) := by
  have hperf : performRsRaw standardTables s = raiseParam s .rsRaw 0x068 s.rsK.toNat := if_pos hk
  rw [exec_rsRaw, hperf, raiseParam, finish_raise (by decide) (by decide) (by decide)]

variable (hmin : 7 ≤ s.rsK.toNat) (hmax : s.rsK.toNat ≤ 68)
include hmin hmax

theorem exec_rsRaw_of_length (hn : 8192 < s.rsLen.toNat) :
    exec .rsRaw s = .next (s.failedWith .param (0x06C ||| (s.rsLen.toNat <<< 12))) := by
  have hperf : performRsRaw standardTables s = raiseParam s .rsRaw 0x06C s.rsLen.toNat :=
    (if_neg (not_degree_out_of_range hmin hmax)).trans (if_pos hn)
  rw [exec_rsRaw, hperf, raiseParam, finish_raise (by decide) (by decide) (by decide)]

theorem exec_rsRaw_of_ok {gen : List Nat} {data ec : List Byte} (hgen : stdGen s.rsK.toNat = some gen)
    (hread : readBuf .rsRaw .bbuf s.rsLen.toNat s = .ok data)
    (hdiv : rsDiv standardTables gen s.rsK.toNat data = .ok ec) :
    exec .rsRaw s = .next (s.rsDivided ec) := by
  have hn : ¬ 8192 < s.rsLen.toNat := Nat.not_lt.2 (le_size_of_readBuf_ok hread)
  have hgenOf : genOf standardTables s.rsK.toNat = some gen := (genOf_standard _).trans hgen
  simp only [exec_rsRaw, performRsRaw, if_neg (not_degree_out_of_range hmin hmax), if_neg hn, hgenOf, hread, hdiv]
  rfl

end RsRaw

/-- Settles O34: each clause is one check of the family rule, or their passing. -/
theorem rsRawDividesOrReportsTheOperand : Obligations.RsRawDividesOrReportsTheOperand := by
  intro s k n
  refine ⟨fun data hm hmin hmax hdata hlen => ?divides, exec_rsRaw_of_degree, exec_rsRaw_of_length⟩
  obtain ⟨gen, hgen, hgl⟩ := stdGen_table k (by omega) hmin
  obtain ⟨e, hdiv, hel⟩ := rsDiv_standard hgl (by omega) data
  have hread := (readBuf_ok_iff hm.1 .rsRaw .bbuf _ data).2 ⟨hlen, hdata⟩
  have hkeeps := keepsOutside_writeBuf hm.1 .ebuf e
  rw [hel] at hkeeps
  have hsize : e.length ≤ Buf.ebuf.size := by
    rw [hel, Buf.size, Config.ebufSize]; omega
  exact ⟨s.rsDivided e, gen, e, hgen, hdiv, hel, exec_rsRaw_of_ok hmin hmax hgen hread hdiv,
    ⟨hsize, fun i hi => byte_writeBuf hm.1 .ebuf e hi⟩, Nat.mod_eq_of_lt (by omega), hkeeps, rfl⟩

end Sys2Proof.Machine
end

section
/-! PROOFS. INTERLEAVE (43_interleave.md R230 to R233): where the walk of R231 puts each codeword, and how the command
ends. -/

namespace Sys2Proof.Machine

/-! ### The columns of a walk -/

/-- Column c: in block order, the byte of every block that has one there (R231). -/
def column (c : Nat) (blocks : List (List Byte)) : List Byte := blocks.filterMap fun x => x[c]?

theorem columnWalk_eq_flatMap (cols : Nat) (blocks : List (List Byte)) :
    columnWalk cols blocks = (List.range cols).flatMap (column · blocks) := rfl

/-- A column that no block lacks has one byte of each. -/
theorem column_getElem? {c : Nat} {blocks : List (List Byte)} (h : ∀ x ∈ blocks, c < x.length) (j : Nat) :
    (column c blocks)[j]? = blocks[j]?.bind (·[c]?) := by
  induction blocks generalizing j with
  | nil => simp [column]
  | cons x blocks ih =>
    obtain ⟨hx, hblocks⟩ := List.forall_mem_cons.1 h
    have hcons : column c (x :: blocks) = x[c] :: column c blocks :=
      List.filterMap_cons_some (List.getElem?_eq_getElem hx)
    rw [hcons]
    cases j with
    | zero => exact (List.getElem?_eq_getElem hx).symm
    | succ j => exact ih hblocks j

/-- The first blocks, when they end before column c, contribute nothing to it (R231). -/
theorem column_drop {c n : Nat} {blocks : List (List Byte)} (h : ∀ x ∈ blocks.take n, x.length ≤ c) :
    column c (blocks.drop n) = column c blocks := by
  have hnone : column c (blocks.take n) = [] :=
    List.filterMap_eq_nil_iff.2 fun x hx => List.getElem?_eq_none (h x hx)
  calc column c (blocks.drop n)
      = column c (blocks.take n) ++ column c (blocks.drop n) := by rw [hnone, List.nil_append]
    _ = column c (blocks.take n ++ blocks.drop n) := List.filterMap_append.symm
    _ = column c blocks := by rw [List.take_append_drop]

/-- The walk over columns that no block lacks takes as many bytes of each block. -/
theorem columnWalk_length_of_full {c : Nat} {blocks : List (List Byte)} (h : ∀ x ∈ blocks, c ≤ x.length) :
    (columnWalk c blocks).length = c * blocks.length := by
  induction blocks with
  | nil => simp [columnWalk]
  | cons x blocks ih =>
    obtain ⟨hx, hblocks⟩ := List.forall_mem_cons.1 h
    rw [columnWalk_cons_length, ih hblocks, Nat.min_eq_left hx, List.length_cons, Nat.mul_succ, Nat.add_comm]

/-- Behind c columns that no block lacks, a walk goes on with column c. -/
theorem columnWalk_getElem? {c cols i : Nat} {blocks : List (List Byte)} {y : Byte} (hc : c < cols)
    (hfull : ∀ x ∈ blocks, c ≤ x.length) (hy : (column c blocks)[i]? = some y) :
    (columnWalk cols blocks)[c * blocks.length + i]? = some y := by
  obtain ⟨n, rfl⟩ := Nat.exists_eq_add_of_lt hc
  have hsplit : columnWalk (c + n + 1) blocks
      = columnWalk c blocks ++ (column c blocks ++ (List.range n).flatMap fun m => column (c + (m + 1)) blocks) := by
    rw [columnWalk_eq_flatMap, Nat.add_assoc, List.range_add, List.flatMap_append, List.range_succ_eq_map]
    simp [columnWalk_eq_flatMap, List.flatMap_map]
  have hi := (List.getElem?_eq_some_iff.1 hy).1
  rw [hsplit, ← columnWalk_length_of_full hfull, List.getElem?_append_right (Nat.le_add_right ..),
    Nat.add_sub_cancel_left, List.getElem?_append_left hi, hy]

/-- In a column that no block lacks, and no block lacks one before it, block j has place j. -/
theorem columnWalk_getElem?_of_full {c cols j : Nat} {blocks : List (List Byte)} {y : Byte} (hc : c < cols)
    (hfull : ∀ x ∈ blocks, c < x.length) (hy : blocks[j]?.bind (·[c]?) = some y) :
    (columnWalk cols blocks)[c * blocks.length + j]? = some y :=
  columnWalk_getElem? hc (fun x hx => (hfull x hx).le) ((column_getElem? hfull j).trans hy)

/-! ### The final sequence -/

section FinalSequence

variable {N k b r j c : Nat} {data ec : List Byte} {y : Byte}

theorem le_length_of_mem_dataBlocks (hr : r ≤ N) (hd : data.length = N * b + r) {x : List Byte}
    (hx : x ∈ dataBlocks N b r data) : b ≤ x.length := by
  obtain ⟨j, hj⟩ := List.getElem?_of_mem hx
  rw [length_of_dataBlocks_getElem? hr hd hj]
  split_ifs <;> omega

/-- The walk over the data blocks is the final sequence without correction codewords. -/
theorem dataWalk_length (hr : r ≤ N) (hd : data.length = N * b + r) :
    (columnWalk (b + if 0 < r then 1 else 0) (dataBlocks N b r data)).length = N * b + r := by
  have hlen := interleaved_length (k := 0) (ec := []) hr hd rfl
  simpa [interleaved, columnWalk, hd] using hlen

/-- Byte c of data block j (R230). -/
theorem dataBlocks_bind_getElem? (hr : r ≤ N) (hj : j < N) (hc : c < b + if N - r ≤ j then 1 else 0) :
    (dataBlocks N b r data)[j]?.bind (·[c]?) = data[j * b + (j - (N - r)) + c]? := by
  rw [dataBlocks_getElem? hr hj, Option.bind_some, List.getElem?_take_of_lt hc, List.getElem?_drop]

theorem interleaved_getElem?_of_data {p : Nat}
    (h : (columnWalk (b + if 0 < r then 1 else 0) (dataBlocks N b r data))[p]? = some y) :
    (interleaved N k b r data ec)[p]? = some y := by
  rw [interleaved, List.getElem?_append_left (List.getElem?_eq_some_iff.1 h).1, h]

/-- The columns that every data block has (R232). -/
theorem interleaved_getElem?_short (hr : r ≤ N) (hd : data.length = N * b + r) (hc : c < b) (hj : j < N)
    (hy : data[j * b + (j - (N - r)) + c]? = some y) :
    (interleaved N k b r data ec)[c * N + j]? = some y := by
  refine interleaved_getElem?_of_data ?_
  have hwalk := columnWalk_getElem?_of_full (j := j) (y := y) (cols := b + if 0 < r then 1 else 0) (by omega)
    (fun x hx => hc.trans_le (le_length_of_mem_dataBlocks hr hd hx))
    (by rw [dataBlocks_bind_getElem? hr hj (by omega), hy])
  rwa [dataBlocks_length] at hwalk

/-- Column b of the data is the last bytes of the long blocks, from block N − r on. -/
theorem lastColumn_getElem? (hr : r ≤ N) (hd : data.length = N * b + r) (hlong : N - r ≤ j) (hj : j < N) :
    (column b (dataBlocks N b r data))[j - (N - r)]? = data[j * b + (j - (N - r)) + b]? := by
  have hshort : ∀ x ∈ (dataBlocks N b r data).take (N - r), x.length ≤ b := by
    intro x hx
    obtain ⟨i, hi, hget⟩ := List.mem_take_iff_getElem.1 hx
    rw [length_of_dataBlocks_getElem? hr hd (List.getElem?_eq_some_iff.2 ⟨by omega, hget⟩), if_pos (by omega)]
  have hrest : ∀ x ∈ (dataBlocks N b r data).drop (N - r), b < x.length := by
    intro x hx
    obtain ⟨i, hi⟩ := List.getElem?_of_mem hx
    rw [List.getElem?_drop] at hi
    rw [length_of_dataBlocks_getElem? hr hd hi, if_neg (by omega)]
    exact Nat.lt_succ_self b
  rw [← column_drop hshort, column_getElem? hrest, List.getElem?_drop, Nat.add_sub_cancel' hlong,
    dataBlocks_bind_getElem? hr hj (by rw [if_pos hlong]; omega)]

/-- The last column of the data, which only the long blocks have (R232). -/
theorem interleaved_getElem?_long (hr : r ≤ N) (hd : data.length = N * b + r) (hlong : N - r ≤ j) (hj : j < N)
    (hy : data[j * b + (j - (N - r)) + b]? = some y) :
    (interleaved N k b r data ec)[b * N + (j - (N - r))]? = some y := by
  refine interleaved_getElem?_of_data ?_
  have hwalk := columnWalk_getElem? (cols := b + if 0 < r then 1 else 0) (by rw [if_pos (by omega)]; omega)
    (fun x hx => le_length_of_mem_dataBlocks hr hd hx) ((lastColumn_getElem? hr hd hlong hj).trans hy)
  rwa [dataBlocks_length] at hwalk

/-- The correction codewords follow the data, column by column (R232). -/
theorem interleaved_getElem?_correction (hr : r ≤ N) (hd : data.length = N * b + r) (he : ec.length = N * k)
    (hc : c < k) (hj : j < N) (hy : ec[j * k + c]? = some y) :
    (interleaved N k b r data ec)[N * b + r + c * N + j]? = some y := by
  have hfull : ∀ x ∈ chunks k N ec, c < x.length := by
    intro x hx
    have hmem := List.mem_map_of_mem (f := List.length) hx
    rw [chunks_map_length k N ec he] at hmem
    rw [List.eq_of_mem_replicate hmem]
    exact hc
  have hwalk := columnWalk_getElem?_of_full (j := j) (y := y) hc hfull (by
    rw [chunks_getElem? _ _ _ _ hj, Option.bind_some, List.getElem?_take_of_lt hc, List.getElem?_drop,
      Nat.mul_comm, hy])
  rw [chunks_length] at hwalk
  rw [interleaved, Nat.add_assoc, ← dataWalk_length hr hd,
    List.getElem?_append_right (Nat.le_add_right ..), Nat.add_sub_cancel_left, hwalk]

/-- Every byte of a data block lies in the data (R198). -/
theorem blockByte_lt (hr : r ≤ N) (hj : j < N) (hc : c < b + if N - r ≤ j then 1 else 0) :
    j * b + (j - (N - r)) + c < N * b + r := by
  have hblocks : (j + 1) * b ≤ N * b := Nat.mul_le_mul_right b hj
  rw [Nat.succ_mul] at hblocks
  split_ifs at hc <;> omega

end FinalSequence

/-! ### INTERLEAVE -/

/-- What an INTERLEAVE that succeeds leaves before it completes (R231). -/
def State.finalStored (s : State) (out : List Byte) : State :=
  { s.writeBuf .fbuf out with totalCw := BitVec.ofNat 12 out.length, pstage := .interleaved }

theorem complete_finalStored (s : State) (out : List Byte) :
    (s.finalStored out).complete = { s with
      mem := (s.finalStored out).complete.mem, totalCw := (s.finalStored out).complete.totalCw
      pstage := .interleaved, pending := none, done := true } := rfl

/-- In its stage INTERLEAVE reads both streams and stores the final sequence. -/
theorem performInterleave_ok {s : State} (h : s.Inv) (hp : s.pstage = .ecDone) :
    ∃ data ec out, readBuf .interleave .bbuf (interleaveReads s) s = .ok data
      ∧ readBuf .interleave .ebuf (s.numBlocks.toNat * s.ecLen.toNat) s = .ok ec
      ∧ out = interleaved s.numBlocks.toNat s.ecLen.toNat s.blkShort.toNat s.blkNlong.toNat data ec
      ∧ performInterleave s = .ok (s.finalStored out) := by
  have hsound := performInterleave_sound h hp
  obtain ⟨f, -, hperf⟩ | ⟨f, -, hperf⟩
    | ⟨data, ec, out, hdata, hec, hout, ⟨-, f, hperf⟩ | ⟨-, hperf⟩⟩ := performInterleave_cases s
  case inr.inr.inr => exact ⟨data, ec, out, hdata, hec, hout, hperf⟩
  all_goals
    rw [hperf] at hsound
    exact hsound.elim

/-- The invariant that INTERLEAVE keeps, read off for what it leaves (R232, R233). -/
theorem interleavedOk_of_ok {s : State} {out : List Byte} (h : s.Inv) (hp : s.pstage = .ecDone)
    (hperf : performInterleave s = .ok (s.finalStored out)) : InterleavedOk (s.finalStored out) := by
  have hsound := performInterleave_sound h hp
  rw [hperf] at hsound
  have hstage : (s.finalStored out).pstage = .interleaved := rfl
  exact hsound.1.interleaved_ok (PStage.reached_of_eq hstage (by decide) (by decide))

theorem exec_interleave_of_ok {s t : State} (hp : s.pstage = .ecDone) (hperf : performInterleave s = .ok t) :
    exec .interleave s = .next t.complete := by
  have hstart : mayStart .interleave s := (stageOk_iff s .interleave).1 (by simp [stageOk, hp])
  rw [show exec .interleave s = runCommand .interleave performInterleave s from rfl,
    runCommand_of_mayStart hstart, hperf]
  rfl

/-- A byte that a buffer write puts at p and that stands at q of the bytes a buffer holds. -/
theorem byte_writeBuf_eq_byte {s : State} (hm : Memory.rising s.mem) {src dst : Buf} {bs out : List Byte}
    (hbs : s.holdsBytes src bs) {p q : Nat} (hq : q < bs.length)
    (h : ∀ y, bs[q]? = some y → out[p]? = some y) : (s.writeBuf dst out).byte dst p = s.byte src q := by
  have hy := List.getElem?_eq_getElem hq
  have hout := h _ hy
  rw [byte_writeBuf hm dst out (List.getElem?_eq_some_iff.1 hout).1, hout, hbs.2 q hq, hy]

/-- Settles O35: the walk of R231 puts each codeword at its place of R232; TOTAL_CW and the written bytes are those
of the invariant that the command keeps. -/
theorem interleaveClosedForm : Obligations.InterleaveClosedForm := by
  intro s h hp N k b r D off
  have hm := h.mem_wf.1
  have hsel := h.selected_ok (PStage.reached_of_eq hp (by decide) (by decide))
  have hecd := h.ecDone_ok (PStage.reached_of_eq hp (by decide) (by decide))
  obtain ⟨hr, hD, hreads, -⟩ := hecd.interleave_bounds hsel
  obtain ⟨data, ec, out, hdata, hec, hout, hperf⟩ := performInterleave_ok h hp
  obtain ⟨hdl, hdata⟩ := (readBuf_ok_iff hm ..).1 hdata
  obtain ⟨hel, hec⟩ := (readBuf_ok_iff hm ..).1 hec
  replace hdl : data.length = N * b + r := hdl.trans (hreads.trans hD.symm)
  have hlen : out.length = D + N * k := by rw [hout, interleaved_length hr hdl hel, hdl]
  obtain ⟨htotal, hwritten⟩ := interleavedOk_of_ok h hp hperf
  replace htotal : (s.finalStored out).totalCw.toNat = D + N * k :=
    htotal.trans (congrArg (· + N * k) hD.symm)
  rw [htotal] at hwritten
  have hkeeps := keepsOutside_writeBuf hm .fbuf out
  rw [hlen] at hkeeps
  subst hout
  refine ⟨_, exec_interleave_of_ok hp hperf, fun c j hc hj => ?short, fun j hlong hj => ?long,
    fun c j hc hj => ?correction, htotal, hwritten.2, hkeeps, complete_finalStored ..⟩
  case short =>
    exact byte_writeBuf_eq_byte hm hdata (hdl ▸ blockByte_lt hr hj (by omega)) fun y =>
      interleaved_getElem?_short hr hdl hc hj
  case long =>
    exact byte_writeBuf_eq_byte hm hdata (hdl ▸ blockByte_lt hr hj (by rw [if_pos hlong]; omega)) fun y =>
      interleaved_getElem?_long hr hdl hlong hj
  case correction =>
    have hin : j * k + c < ec.length := by
      have hblocks : (j + 1) * k ≤ N * k := Nat.mul_le_mul_right k hj
      rw [Nat.succ_mul] at hblocks
      rw [hel]
      exact (Nat.add_lt_add_left hc _).trans_le hblocks
    exact byte_writeBuf_eq_byte hm hec hin fun y => interleaved_getElem?_correction hr hdl hel hc hj

end Sys2Proof.Machine
end

section
/-! PROOFS. Writing cells of a square one after the other: the stamps of BUILD, and the module bits of TRIAL
(44_matrix_patterns.md R240, 45_placement_mask.md R276, R282). -/

namespace Sys2Proof.Machine

/-! ### Changing one cell -/

/-- A change of one cell, seen at a cell of the square; the changed one may lie outside. -/
theorem Grid.cell_modifyCell_of_lt {n : Nat} {g : Grid} (hg : g.square n) {i j : Nat} (hi : i < n)
    (hj : j < n) (r c : Nat) (f : MatCell → MatCell) :
    (g.modifyCell r c f).cell i j = if i = r ∧ j = c then f (g.cell i j) else g.cell i j := by
  by_cases hin : r < n ∧ c < n
  · rw [Grid.cell_modifyCell hg hin.1 hin.2]
    split
    next h => rw [h.1, h.2]
    · rfl
  · rw [if_neg (by omega), Grid.cell, Grid.cell, Grid.getD_modifyCell]
    split
    next h =>
      have hcol : c ≠ j := by omega
      simp [List.getD_eq_getElem?_getD, hcol]
    · rfl

/-! ### Writes one after the other -/

/-- How a write changes a cell: what it leaves depends on the module value and on the cell. -/
abbrev CellWrite := Bool → MatCell → MatCell

/-- A stamp: the module value, and structural (44_matrix_patterns.md R240). -/
def stampCell : CellWrite := fun x _ => ⟨x, true⟩

/-- A write of the module bit alone (45_placement_mask.md R276, R282). -/
def bitCell : CellWrite := fun x cell => { cell with bit := x }

/-- Cells written in order; a later write overwrites. -/
def Grid.writeAll (f : CellWrite) (g : Grid) (ps : List Stamp) : Grid :=
  ps.foldl (fun g p => g.modifyCell p.1 p.2.1 (f p.2.2)) g

theorem Grid.stampAll_eq_writeAll (g : Grid) (ps : List Stamp) :
    g.stampAll ps = g.writeAll stampCell ps := rfl

theorem Grid.square_writeAll {n : Nat} {g : Grid} (hg : g.square n) (f : CellWrite) (ps : List Stamp) :
    Grid.square n (g.writeAll f ps) :=
  Grid.square_foldl (fun _ _ h => Grid.square_modifyCell h _ _ _) hg ps

/-- No write of the list is at the cell. -/
def untouched (ps : List Stamp) (r c : Nat) : Prop := ∀ x, (r, c, x) ∉ ps

/-- Some write of the list is at the cell, and all that are there write the value `x`. -/
def drawn (ps : List Stamp) (r c : Nat) (x : Bool) : Prop :=
  (r, c, x) ∈ ps ∧ ∀ y, (r, c, y) ∈ ps → y = x

theorem untouched_append {ps qs : List Stamp} {r c : Nat} :
    untouched (ps ++ qs) r c ↔ untouched ps r c ∧ untouched qs r c := by
  simp [untouched, forall_and]

section Writes

variable {n : Nat} {g : Grid} (hg : g.square n) {r c : Nat} (hr : r < n) (hc : c < n) {ps : List Stamp}
include hg hr hc

theorem Grid.cell_writeAll_of_untouched (f : CellWrite) (h : untouched ps r c) :
    (g.writeAll f ps).cell r c = g.cell r c := by
  induction ps generalizing g with
  | nil => rfl
  | cons p ps ih =>
    have hp : ¬ (r = p.1 ∧ c = p.2.1) := fun ⟨h1, h2⟩ => h p.2.2 (by rw [h1, h2]; simp)
    rw [Grid.writeAll, List.foldl_cons, ← Grid.writeAll,
      ih (Grid.square_modifyCell hg _ _ _) fun x hx => h x (List.mem_cons_of_mem _ hx),
      Grid.cell_modifyCell_of_lt hg hr hc, if_neg hp]

/-- Where every write at a cell writes the same value, the order plays no part. -/
theorem Grid.cell_writeAll_of_drawn {f : CellWrite} (hf : ∀ x cell, f x (f x cell) = f x cell) {x : Bool}
    (h : drawn ps r c x) : (g.writeAll f ps).cell r c = f x (g.cell r c) := by
  obtain ⟨hmem, hall⟩ := h
  induction ps generalizing g with
  | nil => simp at hmem
  | cons p ps ih =>
    have hstep := Grid.cell_modifyCell_of_lt hg hr hc p.1 p.2.1 (f p.2.2)
    have hhead : r = p.1 ∧ c = p.2.1 → p.2.2 = x := fun ⟨h1, h2⟩ =>
      hall _ (by rw [h1, h2]; simp)
    rw [Grid.writeAll, List.foldl_cons, ← Grid.writeAll]
    by_cases hrest : ∃ y, (r, c, y) ∈ ps
    · obtain ⟨y, hy⟩ := hrest
      obtain rfl := hall y (List.mem_cons_of_mem _ hy)
      rw [ih (Grid.square_modifyCell hg _ _ _) hy fun z hz => hall z (List.mem_cons_of_mem _ hz), hstep]
      split
      next hp => rw [hhead hp, hf]
      · rfl
    · obtain rfl | hmem := List.mem_cons.1 hmem
      · rw [Grid.cell_writeAll_of_untouched (Grid.square_modifyCell hg _ _ _) hr hc f
          fun y hy => hrest ⟨y, hy⟩, hstep, if_pos ⟨rfl, rfl⟩]
      · exact absurd ⟨x, hmem⟩ hrest

theorem Grid.cell_stampAll_of_untouched (h : untouched ps r c) : (g.stampAll ps).cell r c = g.cell r c :=
  Grid.cell_writeAll_of_untouched hg hr hc stampCell h

theorem Grid.cell_stampAll_of_drawn {x : Bool} (h : drawn ps r c x) :
    (g.stampAll ps).cell r c = ⟨x, true⟩ :=
  Grid.cell_writeAll_of_drawn hg hr hc (f := stampCell) (fun _ _ => rfl) h

end Writes

/-! ### Timing stamps -/

theorem Grid.square_stampFree {n : Nat} {g : Grid} (hg : g.square n) (p : Stamp) :
    Grid.square n (g.stampFree p) := by
  rw [Grid.stampFree]
  split
  · exact hg
  · exact Grid.square_modifyCell hg _ _ _

section Timing

variable {n : Nat} {g : Grid} (hg : g.square n) {r c : Nat} (hr : r < n) (hc : c < n) {ps : List Stamp}
include hg hr hc

/-- A timing stamp, seen at a cell of the square (44_matrix_patterns.md R250). -/
theorem Grid.cell_stampFree (p : Stamp) : (g.stampFree p).cell r c =
    if (r = p.1 ∧ c = p.2.1) ∧ (g.cell r c).st = false then ⟨p.2.2, true⟩ else g.cell r c := by
  have hstamp := Grid.cell_modifyCell_of_lt hg hr hc p.1 p.2.1 fun _ => ⟨p.2.2, true⟩
  rw [Grid.stampFree]
  split
  next hst => rw [if_neg fun ⟨⟨h1, h2⟩, h⟩ => by simp [h1, h2, hst] at h]
  next hst =>
    rw [Grid.stamp, hstamp]
    refine if_congr ⟨fun h => ⟨h, ?_⟩, And.left⟩ rfl rfl
    rw [h.1, h.2]
    exact Bool.eq_false_iff.2 hst

theorem Grid.cell_stampFree_of_st (h : (g.cell r c).st = true) :
    (ps.foldl Grid.stampFree g).cell r c = g.cell r c := by
  induction ps generalizing g with
  | nil => rfl
  | cons p ps ih =>
    have hstep : (g.stampFree p).cell r c = g.cell r c := by
      rw [Grid.cell_stampFree hg hr hc, if_neg (by simp [h])]
    rw [List.foldl_cons, ih (Grid.square_stampFree hg p) (hstep ▸ h), hstep]

theorem Grid.cell_stampFree_of_untouched (h : untouched ps r c) :
    (ps.foldl Grid.stampFree g).cell r c = g.cell r c := by
  induction ps generalizing g with
  | nil => rfl
  | cons p ps ih =>
    have hp : ¬ (r = p.1 ∧ c = p.2.1) := fun ⟨h1, h2⟩ => h p.2.2 (by rw [h1, h2]; simp)
    rw [List.foldl_cons, ih (Grid.square_stampFree hg p) fun x hx => h x (List.mem_cons_of_mem _ hx),
      Grid.cell_stampFree hg hr hc, if_neg fun hh => hp hh.1]

theorem Grid.cell_stampFree_of_drawn (hst : (g.cell r c).st = false) {x : Bool} (h : drawn ps r c x) :
    (ps.foldl Grid.stampFree g).cell r c = ⟨x, true⟩ := by
  obtain ⟨hmem, hall⟩ := h
  induction ps generalizing g with
  | nil => simp at hmem
  | cons p ps ih =>
    have hstep := Grid.cell_stampFree hg hr hc p
    rw [List.foldl_cons]
    by_cases hp : r = p.1 ∧ c = p.2.1
    · have hx : p.2.2 = x := hall _ (by rw [hp.1, hp.2]; simp)
      rw [if_pos ⟨hp, hst⟩, hx] at hstep
      rw [Grid.cell_stampFree_of_st (Grid.square_stampFree hg p) hr hc (by rw [hstep]), hstep]
    · rw [if_neg fun hh => hp hh.1] at hstep
      refine ih (Grid.square_stampFree hg p) (hstep ▸ hst) ?_ fun y hy => hall y (List.mem_cons_of_mem _ hy)
      obtain rfl | hmem := List.mem_cons.1 hmem
      · exact absurd ⟨rfl, rfl⟩ hp
      · exact hmem

end Timing

end Sys2Proof.Machine
end

section
/-! PROOFS. The stamps of BUILD, list by list: which cells each list writes, and the module value there
(44_matrix_patterns.md R242 to R251). -/

namespace Sys2Proof.Machine

/-! ### Finder patterns -/

/-- The module value at distance `d` from the centre of a finder pattern (R242). -/
def finderValue (d : Nat) : Bool := decide (d ∈ [0, 1, 3])

theorem finderValue_eq (d : Nat) : (d == 0 || d == 1 || d == 3) = finderValue d := by
  simp [finderValue, Bool.or_assoc, Bool.decide_or]
  rfl

/-- The distance of a cell from a centre (R242, R244). -/
def ringAt (r c cr cc : Nat) : Nat := max (distance r cr) (distance c cc)

/-- The finder pattern around (cr, cc) with its separator, where it lies in the symbol. -/
theorem mem_finderStamps {S cr cc r c : Nat} {x : Bool} :
    (r, c, x) ∈ finderStamps S cr cc ↔ (r < S ∧ c < S ∧ distance r cr ≤ 4 ∧ distance c cc ≤ 4)
      ∧ x = finderValue (ringAt r c cr cc) := by
  simp only [finderStamps, List.mem_flatMap, List.mem_filterMap, List.mem_range, Option.ite_none_right_eq_some,
    Option.some.injEq, Prod.mk.injEq, ringAt, ← finderValue_eq]
  constructor
  · rintro ⟨i, hi, j, hj, hin, rfl, rfl, rfl⟩
    have hrow : distance (cr + i - 4) cr = distance i 4 := by unfold distance; omega
    have hcol : distance (cc + j - 4) cc = distance j 4 := by unfold distance; omega
    rw [hrow, hcol]
    refine ⟨⟨by omega, by omega, ?_, ?_⟩, rfl⟩ <;> unfold distance <;> omega
  · rintro ⟨⟨hr, hc, h1, h2⟩, rfl⟩
    have hrow : distance (r + 4 - cr) 4 = distance r cr := by unfold distance at *; omega
    have hcol : distance (c + 4 - cc) 4 = distance c cc := by unfold distance at *; omega
    refine ⟨r + 4 - cr, ?_, c + 4 - cc, ?_, ?_, ?_, ?_, by rw [hrow, hcol]⟩ <;>
      (unfold distance at *; omega)

/-! ### Alignment patterns -/

/-- The pair of positions that bears no alignment pattern (R245). -/
abbrev isCornerPair (S ar ac : Nat) : Prop := (ar = 6 ∧ ac = 6) ∨ (ar = 6 ∧ ac = S - 7) ∨ (ar = S - 7 ∧ ac = 6)

theorem mem_alignmentStamps {ar ac r c : Nat} (har : 2 ≤ ar) (hac : 2 ≤ ac) {x : Bool} :
    (r, c, x) ∈ alignmentStamps ar ac ↔ (distance r ar ≤ 2 ∧ distance c ac ≤ 2)
      ∧ x = (ringAt r c ar ac != 1) := by
  simp only [alignmentStamps, List.mem_flatMap, List.mem_map, List.mem_range, Prod.mk.injEq, ringAt]
  constructor
  · rintro ⟨i, hi, j, hj, rfl, rfl, rfl⟩
    have hrow : distance (ar + i - 2) ar = distance i 2 := by unfold distance; omega
    have hcol : distance (ac + j - 2) ac = distance j 2 := by unfold distance; omega
    rw [hrow, hcol]
    refine ⟨⟨?_, ?_⟩, rfl⟩ <;> unfold distance <;> omega
  · rintro ⟨⟨h1, h2⟩, rfl⟩
    have hrow : distance (r + 2 - ar) 2 = distance r ar := by unfold distance at *; omega
    have hcol : distance (c + 2 - ac) 2 = distance c ac := by unfold distance at *; omega
    refine ⟨r + 2 - ar, ?_, c + 2 - ac, ?_, ?_, ?_, by rw [hrow, hcol]⟩ <;>
      (unfold distance at *; omega)

/-- What the alignment positions of a symbol of side `S` are (R246, R247): 6, the positions inside, S − 7, or
none at all. -/
structure Positions (S : Nat) (P : List Nat) : Prop where
  ends : P = [] ∨ P.head? = some 6 ∧ P.getLast? = some (S - 7) ∧ 25 ≤ S
  range : ∀ p ∈ P, p = 6 ∨ p = S - 7 ∨ 16 ≤ p ∧ p + 23 ≤ S
  even : ∀ p ∈ P, p % 2 = 0
  apart : ∀ p ∈ P, ∀ q ∈ P, p ≠ q → 5 ≤ distance p q

/-- The row of the table of alignment positions (R246). -/
def positionsOf (V : Nat) : List Nat := (stdApos V).getD []

theorem stdApos_eq_positionsOf : ∀ V < 41, 1 ≤ V → stdApos V = some (positionsOf V) := by decide +kernel

theorem positionsOf_ends : ∀ V < 41, 1 ≤ V → positionsOf V = [] ∨ (positionsOf V).head? = some 6
    ∧ (positionsOf V).getLast? = some (17 + 4 * V - 7) ∧ 25 ≤ 17 + 4 * V := by decide +kernel

theorem positionsOf_range : ∀ V < 41, 1 ≤ V → ∀ p ∈ positionsOf V,
    p = 6 ∨ p = 17 + 4 * V - 7 ∨ 16 ≤ p ∧ p + 23 ≤ 17 + 4 * V := by decide +kernel

theorem positionsOf_even_apart : ∀ V < 41, 1 ≤ V → (∀ p ∈ positionsOf V, p % 2 = 0)
    ∧ ∀ p ∈ positionsOf V, ∀ q ∈ positionsOf V, p ≠ q → 5 ≤ distance p q := by decide +kernel

theorem positions_of_version {V : Nat} (h1 : 1 ≤ V) (h40 : V ≤ 40) :
    Positions (17 + 4 * V) (positionsOf V) :=
  have hV : V < 41 := by omega
  ⟨positionsOf_ends V hV h1, positionsOf_range V hV h1, (positionsOf_even_apart V hV h1).1,
    (positionsOf_even_apart V hV h1).2⟩

/-- The position whose alignment patterns reach row or column `i`, where there is one (R244). -/
def nearest (P : List Nat) (i : Nat) : Option Nat := P.find? fun p => decide (distance i p ≤ 2)

/-- The value the alignment patterns leave at a cell, where one of them reaches it. -/
def alignmentAt (S : Nat) (P : List Nat) (r c : Nat) : Option Bool :=
  (nearest P r).bind fun ar => (nearest P c).bind fun ac =>
    if isCornerPair S ar ac then none else some (ringAt r c ar ac != 1)

section Alignment

variable {S : Nat} {P : List Nat} (hP : Positions S P)
include hP

/-- No two positions reach one row or column. -/
theorem Positions.nearest_eq_some_iff {i p : Nat} : nearest P i = some p ↔ p ∈ P ∧ distance i p ≤ 2 := by
  constructor
  · intro h
    exact ⟨List.mem_of_find?_eq_some h, by simpa using List.find?_some h⟩
  · rintro ⟨hp, hd⟩
    cases hq : nearest P i with
    | none => simpa [hd] using List.find?_eq_none.1 hq p hp
    | some q =>
      have hqd : distance i q ≤ 2 := by simpa using List.find?_some hq
      by_contra hne
      have := hP.apart p hp q (List.mem_of_find?_eq_some hq) fun h => hne (h ▸ rfl)
      unfold distance at *
      omega

theorem Positions.alignmentAt_eq_some_iff {r c : Nat} {x : Bool} : alignmentAt S P r c = some x ↔
    ∃ ar ∈ P, ∃ ac ∈ P, ¬ isCornerPair S ar ac ∧ (distance r ar ≤ 2 ∧ distance c ac ≤ 2)
      ∧ x = (ringAt r c ar ac != 1) := by
  simp only [alignmentAt, Option.bind_eq_some_iff, hP.nearest_eq_some_iff, Option.ite_none_left_eq_some,
    Option.some.injEq]
  constructor
  · rintro ⟨ar, ⟨har, hr⟩, ac, ⟨hac, hc⟩, hcorner, rfl⟩
    exact ⟨ar, har, ac, hac, hcorner, ⟨hr, hc⟩, rfl⟩
  · rintro ⟨ar, har, ac, hac, hcorner, ⟨hr, hc⟩, rfl⟩
    exact ⟨ar, ⟨har, hr⟩, ac, ⟨hac, hc⟩, hcorner, rfl⟩

/-- The alignment patterns are the same in rows and in columns. -/
theorem Positions.alignmentAt_comm (r c : Nat) : alignmentAt S P r c = alignmentAt S P c r := by
  have hswap : ∀ r c x, alignmentAt S P r c = some x → alignmentAt S P c r = some x := fun r c x h => by
    obtain ⟨ar, har, ac, hac, hcorner, ⟨hr, hc⟩, rfl⟩ := hP.alignmentAt_eq_some_iff.1 h
    exact hP.alignmentAt_eq_some_iff.2 ⟨ac, hac, ar, har, by omega, ⟨hc, hr⟩, by rw [ringAt, ringAt, max_comm]⟩
  exact Option.ext fun x => ⟨hswap r c x, hswap c r x⟩

/-- The centres are the pairs of positions but the corners (R245). -/
theorem Positions.mem_alignmentCentres {ar ac : Nat} :
    (ar, ac) ∈ alignmentCentres P ↔ ar ∈ P ∧ ac ∈ P ∧ ¬ isCornerPair S ar ac := by
  obtain rfl | ⟨hhead, hlast, -⟩ := hP.ends
  · simp [alignmentCentres]
  · simp only [alignmentCentres, hhead, hlast, List.mem_flatMap, List.mem_filterMap,
      Option.ite_none_left_eq_some, Option.some.injEq, Prod.mk.injEq]
    constructor
    · rintro ⟨_, har, _, hac, hcorner, rfl, rfl⟩
      exact ⟨har, hac, hcorner⟩
    · rintro ⟨har, hac, hcorner⟩
      exact ⟨ar, har, ac, hac, hcorner, rfl, rfl⟩

theorem Positions.side_ge {p : Nat} (hp : p ∈ P) : 25 ≤ S := by
  obtain rfl | ⟨-, -, h25⟩ := hP.ends
  · simp at hp
  · exact h25

theorem Positions.two_le (hS : 21 ≤ S) {p : Nat} (hp : p ∈ P) : 2 ≤ p := by
  have := hP.range p hp; omega

theorem Positions.mem_allAlignmentStamps (hS : 21 ≤ S) {r c : Nat} {x : Bool} :
    (r, c, x) ∈ allAlignmentStamps P ↔ alignmentAt S P r c = some x := by
  simp only [allAlignmentStamps, List.mem_flatMap, Prod.exists, hP.mem_alignmentCentres,
    hP.alignmentAt_eq_some_iff]
  constructor
  · rintro ⟨ar, ac, ⟨har, hac, hcorner⟩, hmem⟩
    exact ⟨ar, har, ac, hac, hcorner,
      (mem_alignmentStamps (hP.two_le hS har) (hP.two_le hS hac)).1 hmem⟩
  · rintro ⟨ar, har, ac, hac, hcorner, hmem⟩
    exact ⟨ar, ac, ⟨har, hac, hcorner⟩,
      (mem_alignmentStamps (hP.two_le hS har) (hP.two_le hS hac)).2 hmem⟩

end Alignment

/-! ### Version blocks, timing strips, format cells -/

/-- The version block of the top right (R249). -/
abbrev inBlock (S r c : Nat) : Prop := r < 6 ∧ S - 11 ≤ c ∧ c < S - 8

/-- The index in the version code of the bit in row `r` and column `c` of the block of the top right (R249). -/
def blockIndex (S r c : Nat) : Nat := 3 * r + (c - (S - 11))

theorem mem_versionStamps {S code r c : Nat} (hS : 11 ≤ S) {x : Bool} :
    (r, c, x) ∈ versionStamps S code ↔ inBlock S r c ∧ x = code.testBit (blockIndex S r c)
      ∨ inBlock S c r ∧ x = code.testBit (blockIndex S c r) := by
  simp only [versionStamps, List.mem_flatMap, List.mem_range, List.mem_cons, Prod.mk.injEq, List.not_mem_nil,
    or_false]
  have hindex : ∀ i, blockIndex S (i / 3) (S - 11 + i % 3) = i := fun i => by unfold blockIndex; omega
  constructor
  · rintro ⟨i, hi, ⟨rfl, rfl, rfl⟩ | ⟨rfl, rfl, rfl⟩⟩
    · exact .inl ⟨by omega, by rw [hindex]⟩
    · exact .inr ⟨by omega, by rw [hindex]⟩
  · rintro (⟨h, rfl⟩ | ⟨h, rfl⟩)
    · exact ⟨blockIndex S r c, by unfold blockIndex; omega, .inl ⟨by unfold blockIndex; omega,
        by unfold blockIndex; omega, rfl⟩⟩
    · exact ⟨blockIndex S c r, by unfold blockIndex; omega, .inr ⟨by unfold blockIndex; omega,
        by unfold blockIndex; omega, rfl⟩⟩

theorem mem_timingStamps {S r c : Nat} {x : Bool} : (r, c, x) ∈ timingStamps S ↔
    (r = 6 ∧ c < S ∧ x = (c % 2 == 0)) ∨ (c = 6 ∧ r < S ∧ x = (r % 2 == 0)) := by
  simp only [timingStamps, List.mem_flatMap, List.mem_range, List.mem_cons, Prod.mk.injEq, List.not_mem_nil,
    or_false]
  constructor
  · rintro ⟨i, hi, ⟨rfl, rfl, rfl⟩ | ⟨rfl, rfl, rfl⟩⟩
    · exact .inl ⟨rfl, hi, rfl⟩
    · exact .inr ⟨rfl, hi, rfl⟩
  · rintro (⟨rfl, h, rfl⟩ | ⟨rfl, h, rfl⟩)
    · exact ⟨c, h, .inl ⟨rfl, rfl, rfl⟩⟩
    · exact ⟨r, h, .inr ⟨rfl, rfl, rfl⟩⟩

/-- The format cells of a symbol of side `S`, in row 8 and column 8 (R251). -/
abbrev onFormat (S r c : Nat) : Prop :=
  (r = 8 ∧ (c ≤ 8 ∧ c ≠ 6 ∨ S - 8 ≤ c ∧ c < S)) ∨ (c = 8 ∧ (r ≤ 8 ∧ r ≠ 6 ∨ S - 7 ≤ r ∧ r < S))

/-- `FCELL1` lists the format cells around the top-left finder (R251). -/
theorem exists_formatCell1_iff {r c : Nat} : (∃ i < 15, (r, c) = formatCell1 i) ↔
    r = 8 ∧ c ≤ 8 ∧ c ≠ 6 ∨ c = 8 ∧ r ≤ 8 ∧ r ≠ 6 := by
  constructor
  · rintro ⟨i, hi, h⟩
    unfold formatCell1 at h
    split_ifs at h <;> simp only [Prod.mk.injEq] at h <;> omega
  · intro h
    refine ⟨if c = 8 then (if r ≤ 5 then r else r - 1) else (if c = 7 then 8 else 14 - c),
      by split_ifs <;> omega, ?_⟩
    unfold formatCell1
    split_ifs <;> rw [Prod.mk.injEq] <;> omega

/-- `FCELL2` lists the format cells beside the other two finders (R251). -/
theorem exists_formatCell2_iff {S r c : Nat} (hS : 21 ≤ S) : (∃ i < 15, (r, c) = formatCell2 S i) ↔
    r = 8 ∧ S - 8 ≤ c ∧ c < S ∨ c = 8 ∧ S - 7 ≤ r ∧ r < S := by
  constructor
  · rintro ⟨i, hi, h⟩
    unfold formatCell2 at h
    split_ifs at h <;> simp only [Prod.mk.injEq] at h <;> omega
  · intro h
    refine ⟨if r = 8 then S - 1 - c else r + 15 - S, by split_ifs <;> omega, ?_⟩
    unfold formatCell2
    split_ifs <;> rw [Prod.mk.injEq] <;> omega

/-- The 15 bits of a number, written to both copies of the format cells (R251, 45_placement_mask.md R276). -/
def formatWrites (S f : Nat) : List Stamp :=
  (List.range 15).flatMap fun i =>
    [((formatCell1 i).1, (formatCell1 i).2, f.testBit i), ((formatCell2 S i).1, (formatCell2 S i).2, f.testBit i)]

theorem mem_formatWrites {S f r c : Nat} {x : Bool} : (r, c, x) ∈ formatWrites S f ↔
    ∃ i < 15, ((r, c) = formatCell1 i ∨ (r, c) = formatCell2 S i) ∧ x = f.testBit i := by
  simp only [formatWrites, List.mem_flatMap, List.mem_range, List.mem_cons, List.not_mem_nil, or_false,
    Prod.ext_iff]
  constructor
  · rintro ⟨i, hi, ⟨h1, h2, hx⟩ | ⟨h1, h2, hx⟩⟩
    · exact ⟨i, hi, .inl ⟨h1, h2⟩, hx⟩
    · exact ⟨i, hi, .inr ⟨h1, h2⟩, hx⟩
  · rintro ⟨i, hi, ⟨h1, h2⟩ | ⟨h1, h2⟩, hx⟩
    · exact ⟨i, hi, .inl ⟨h1, h2, hx⟩⟩
    · exact ⟨i, hi, .inr ⟨h1, h2, hx⟩⟩

theorem formatStamps_eq_formatWrites (S : Nat) : formatStamps S = formatWrites S 0 := by
  simp [formatStamps, formatWrites]

theorem mem_formatStamps {S r c : Nat} (hS : 21 ≤ S) {x : Bool} :
    (r, c, x) ∈ formatStamps S ↔ onFormat S r c ∧ x = false := by
  have hcells : onFormat S r c ↔ (∃ i < 15, (r, c) = formatCell1 i) ∨ ∃ i < 15, (r, c) = formatCell2 S i := by
    rw [exists_formatCell1_iff, exists_formatCell2_iff hS]; omega
  rw [formatStamps_eq_formatWrites, mem_formatWrites, hcells]
  simp only [Nat.zero_testBit, ← and_assoc, exists_and_right, and_or_left, exists_or]

end Sys2Proof.Machine
end

section
/-! PROOFS. The symbol BUILD stamps, cell by cell, in closed form (44_matrix_patterns.md R240, R241). -/

namespace Sys2Proof.Machine

/-! ### The patterns that are stamped unconditionally -/

/-- The stamps before the timing strips, in the order of R241. -/
def patternStamps (V : Nat) (P : List Nat) (code : Option Nat) : List Stamp :=
  allFinderStamps (17 + 4 * V) ++ [darkModule V] ++ allAlignmentStamps P
    ++ (code.map (versionStamps (17 + 4 * V))).getD []

theorem stampSymbol_eq (V : Nat) (P : List Nat) (code : Option Nat) (g : Grid) :
    stampSymbol V P code g =
      ((timingStamps (17 + 4 * V)).foldl Grid.stampFree (g.stampAll (patternStamps V P code))).stampAll
        (formatStamps (17 + 4 * V)) := by
  simp only [patternStamps, Grid.stampAll, List.foldl_append]
  cases code <;> rfl

/-- What the finder patterns, the dark module, the version blocks and the alignment patterns leave at a cell, where
one of them reaches it. -/
def patternAt (S : Nat) (P : List Nat) (code : Option Nat) (r c : Nat) : Option Bool :=
  if r ≤ 7 ∧ c ≤ 7 then some (finderValue (ringAt r c 3 3))
  else if r ≤ 7 ∧ S - 8 ≤ c then some (finderValue (ringAt r c 3 (S - 4)))
  else if S - 8 ≤ r ∧ c ≤ 7 then some (finderValue (ringAt r c (S - 4) 3))
  else if r = S - 8 ∧ c = 8 then some true
  else if inBlock S r c then code.map (·.testBit (blockIndex S r c))
  else if inBlock S c r then code.map (·.testBit (blockIndex S c r))
  else alignmentAt S P r c

section Patterns

variable {S : Nat} (hS : 21 ≤ S) {r c : Nat} {x : Bool}
include hS

theorem mem_allFinderStamps (hr : r < S) (hc : c < S) : (r, c, x) ∈ allFinderStamps S ↔
    (r ≤ 7 ∧ c ≤ 7) ∧ x = finderValue (ringAt r c 3 3)
      ∨ (r ≤ 7 ∧ S - 8 ≤ c) ∧ x = finderValue (ringAt r c 3 (S - 4))
      ∨ (S - 8 ≤ r ∧ c ≤ 7) ∧ x = finderValue (ringAt r c (S - 4) 3) := by
  have hnear : ∀ i, distance i 3 ≤ 4 ↔ i ≤ 7 := fun i => by unfold distance; omega
  have hfar : ∀ i < S, distance i (S - 4) ≤ 4 ↔ S - 8 ≤ i := fun i hi => by unfold distance; omega
  simp only [allFinderStamps, List.mem_append, mem_finderStamps, hr, hc, hnear, hfar r hr, hfar c hc, true_and,
    or_assoc]

omit hS in
/-- An alignment pattern stays clear of the finder patterns, the format cells and the version blocks. -/
theorem Positions.alignmentAt_clear {P : List Nat} (hP : Positions S P) (h : alignmentAt S P r c = some x) :
    ¬ (r ≤ 8 ∧ c ≤ 8) ∧ ¬ (r ≤ 8 ∧ S - 11 ≤ c) ∧ ¬ (S - 11 ≤ r ∧ c ≤ 8) ∧ r < S ∧ c < S := by
  obtain ⟨ar, har, ac, hac, hcorner, ⟨hr, hc⟩, -⟩ := hP.alignmentAt_eq_some_iff.1 h
  have h25 := hP.side_ge har
  have hrow := hP.range ar har
  have hcol := hP.range ac hac
  unfold distance at hr hc
  omega

theorem mem_blockStamps {code : Option Nat} : (r, c, x) ∈ (code.map (versionStamps S)).getD [] ↔
    inBlock S r c ∧ code.map (·.testBit (blockIndex S r c)) = some x
      ∨ inBlock S c r ∧ code.map (·.testBit (blockIndex S c r)) = some x := by
  cases code with
  | none => simp
  | some k => simp [mem_versionStamps (show 11 ≤ S by omega), eq_comm]

end Patterns

/-- The patterns never disagree on a cell: `patternAt` says what they stamp. -/
theorem mem_patternStamps_iff {V : Nat} {P : List Nat} {code : Option Nat} (h1 : 1 ≤ V)
    (hP : Positions (17 + 4 * V) P) {r c : Nat} (hr : r < 17 + 4 * V) (hc : c < 17 + 4 * V) (x : Bool) :
    (r, c, x) ∈ patternStamps V P code ↔ patternAt (17 + 4 * V) P code r c = some x := by
  have hS : 21 ≤ 17 + 4 * V := by omega
  have hdark : (r, c, x) ∈ [darkModule V] ↔ (r = 17 + 4 * V - 8 ∧ c = 8) ∧ true = x := by
    have hrow : 4 * V + 9 = 17 + 4 * V - 8 := by omega
    simp [darkModule, hrow, and_assoc, eq_comm]
  have hclear := fun h : alignmentAt (17 + 4 * V) P r c = some x => hP.alignmentAt_clear h
  rw [patternStamps, List.mem_append, List.mem_append, List.mem_append, mem_allFinderStamps hS hr hc, hdark,
    hP.mem_allAlignmentStamps hS, mem_blockStamps hS]
  generalize 17 + 4 * V = S at *
  unfold patternAt
  -- In each region one disjunct is left: the other lists write elsewhere.
  split_ifs <;> grind

theorem lt_of_mem_patternStamps {V : Nat} {P : List Nat} {code : Option Nat} (h1 : 1 ≤ V)
    (hP : Positions (17 + 4 * V) P) {r c : Nat} {x : Bool} (h : (r, c, x) ∈ patternStamps V P code) :
    r < 17 + 4 * V ∧ c < 17 + 4 * V := by
  simp only [patternStamps, List.mem_append, allFinderStamps, mem_finderStamps, List.mem_singleton, darkModule,
    Prod.mk.injEq, hP.mem_allAlignmentStamps (show 21 ≤ 17 + 4 * V by omega),
    mem_blockStamps (show 21 ≤ 17 + 4 * V by omega)] at h
  obtain ((((⟨h, -⟩ | ⟨h, -⟩) | ⟨h, -⟩) | h) | h) | ⟨h, -⟩ | ⟨h, -⟩ := h
  case inl.inr => exact (hP.alignmentAt_clear h).2.2.2
  all_goals omega

/-! ### The symbol -/

/-- What the timing strips would leave at a cell (R250). -/
def timingAt (r c : Nat) : Option Bool :=
  if r = 6 then some (c % 2 == 0) else if c = 6 then some (r % 2 == 0) else none

/-- The module value BUILD leaves at a cell of the symbol; `none` where the cell is free. Format cells come before
the patterns, and these before the timing strips (R241). -/
def symbolAt (S : Nat) (P : List Nat) (code : Option Nat) (r c : Nat) : Option Bool :=
  if onFormat S r c then some false else (patternAt S P code r c).or (timingAt r c)

theorem mem_timingStamps_iff {S r c : Nat} (hr : r < S) (hc : c < S) (x : Bool) :
    (r, c, x) ∈ timingStamps S ↔ timingAt r c = some x := by
  rw [mem_timingStamps, timingAt]
  split_ifs <;> grind

theorem drawn_of_iff {ps : List Stamp} {r c : Nat} {o : Option Bool} (h : ∀ x, (r, c, x) ∈ ps ↔ o = some x)
    {x : Bool} (ho : o = some x) : drawn ps r c x :=
  ⟨(h x).2 ho, fun _ hy => (Option.some.inj (ho.symm.trans ((h _).1 hy))).symm⟩

theorem untouched_of_iff {ps : List Stamp} {r c : Nat} {o : Option Bool} (h : ∀ x, (r, c, x) ∈ ps ↔ o = some x)
    (ho : o = none) : untouched ps r c := fun x hx => by simp [(h x).1 hx] at ho

theorem Grid.cell_blank (n r c : Nat) : (Grid.blank n).cell r c = MatCell.clear := by
  simp only [Grid.cell, Grid.blank, List.getD_eq_getElem?_getD, List.getElem?_replicate]
  split <;> simp

section Symbol

variable {V : Nat} {P : List Nat} {code : Option Nat} (h1 : 1 ≤ V) (hP : Positions (17 + 4 * V) P)
  {n : Nat}
include h1 hP

/-- The symbol BUILD stamps on a clear square, in closed form. -/
theorem cell_stampSymbol (hn : 17 + 4 * V ≤ n) {r c : Nat} (hr : r < 17 + 4 * V) (hc : c < 17 + 4 * V) :
    (stampSymbol V P code (Grid.blank n)).cell r c =
      ((symbolAt (17 + 4 * V) P code r c).map (⟨·, true⟩)).getD MatCell.clear := by
  have hg := Grid.square_blank n
  have hrn := hr.trans_le hn
  have hcn := hc.trans_le hn
  have hpattern := mem_patternStamps_iff (code := code) h1 hP hr hc
  have htiming := mem_timingStamps_iff hr hc
  have hg1 := Grid.square_stampAll hg (patternStamps V P code)
  have hg2 := Grid.square_foldl (fun _ p h => Grid.square_stampFree h p) hg1 (timingStamps (17 + 4 * V))
  have hS : 21 ≤ 17 + 4 * V := by omega
  rw [stampSymbol_eq, symbolAt]
  split
  next hf =>
    exact Grid.cell_stampAll_of_drawn hg2 hrn hcn
      ⟨(mem_formatStamps hS).2 ⟨hf, rfl⟩, fun _ hy => ((mem_formatStamps hS).1 hy).2⟩
  next hf =>
  rw [Grid.cell_stampAll_of_untouched hg2 hrn hcn fun _ hx => hf ((mem_formatStamps hS).1 hx).1]
  cases hp : patternAt (17 + 4 * V) P code r c with
  | some x =>
    have hcell := Grid.cell_stampAll_of_drawn hg hrn hcn (drawn_of_iff hpattern hp)
    rw [Grid.cell_stampFree_of_st hg1 hrn hcn (by rw [hcell]), hcell]
    rfl
  | none =>
    have hcell := Grid.cell_stampAll_of_untouched hg hrn hcn (untouched_of_iff hpattern hp)
    rw [Grid.cell_blank] at hcell
    cases ht : timingAt r c with
    | some x =>
      rw [Grid.cell_stampFree_of_drawn hg1 hrn hcn (by rw [hcell]; rfl) (drawn_of_iff htiming ht)]
      rfl
    | none =>
      rw [Grid.cell_stampFree_of_untouched hg1 hrn hcn (untouched_of_iff htiming ht), hcell]
      rfl

/-- BUILD stamps no cell outside the symbol. -/
theorem cell_stampSymbol_outside {r c : Nat} (hr : r < n) (hc : c < n) (h : 17 + 4 * V ≤ r ∨ 17 + 4 * V ≤ c) :
    (stampSymbol V P code (Grid.blank n)).cell r c = MatCell.clear := by
  have hg := Grid.square_blank n
  have hg1 := Grid.square_stampAll hg (patternStamps V P code)
  have hg2 := Grid.square_foldl (fun _ p h => Grid.square_stampFree h p) hg1 (timingStamps (17 + 4 * V))
  rw [stampSymbol_eq, Grid.cell_stampAll_of_untouched hg2 hr hc, Grid.cell_stampFree_of_untouched hg1 hr hc,
    Grid.cell_stampAll_of_untouched hg hr hc, Grid.cell_blank]
  · intro x hx
    have := lt_of_mem_patternStamps h1 hP hx
    omega
  · intro x hx
    have := mem_timingStamps.1 hx
    omega
  · intro x hx
    have := (mem_formatStamps (by omega)).1 hx
    omega

end Symbol

end Sys2Proof.Machine
end

section
/-! PROOFS. BUILD (44_matrix_patterns.md R240 to R252): how it ends, and the patterns it leaves. -/

namespace Sys2Proof.Machine

/-! ### How BUILD ends -/

/-- What MAT holds depends on memory alone. -/
theorem State.holdsGrid.of_mem_eq {s t : State} {n : Nat} {g : Grid} (h : s.holdsGrid n g)
    (hm : t.mem = s.mem) : t.holdsGrid n g := by
  obtain ⟨hn, hlen, hrows, hcell⟩ := h
  refine ⟨hn, hlen, hrows, fun r c hr hc => ?_⟩
  rw [← hcell r c hr hc, State.matCell, State.at, hm, State.matCell, State.at]

/-- The symbol of every version fits MAT. -/
theorem side_le_sMax {V : Nat} (h40 : V ≤ 40) : 17 + 4 * V ≤ Config.sMax := by
  have : Config.sMax = 177 := rfl
  omega

/-- The square BUILD stores for a version. -/
def builtSymbol (V : Nat) : Grid :=
  stampSymbol V (positionsOf V) (stdVcode V) (Grid.blank Config.sMax)

theorem square_builtSymbol (V : Nat) : (builtSymbol V).square Config.sMax := by
  rw [builtSymbol]
  exact Grid.square_stampSymbol (Grid.square_blank _) ..

/-- The symbol BUILD stores, in closed form. -/
theorem cell_builtSymbol {V : Nat} (h1 : 1 ≤ V) (h40 : V ≤ 40) {r c : Nat} (hr : r < 17 + 4 * V)
    (hc : c < 17 + 4 * V) : (builtSymbol V).cell r c =
      ((symbolAt (17 + 4 * V) (positionsOf V) (stdVcode V) r c).map (⟨·, true⟩)).getD MatCell.clear :=
  cell_stampSymbol h1 (positions_of_version h1 h40) (side_le_sMax h40) hr hc

theorem cell_builtSymbol_outside {V : Nat} (h1 : 1 ≤ V) (h40 : V ≤ 40) {r c : Nat} (hr : r < Config.sMax)
    (hc : c < Config.sMax) (h : 17 + 4 * V ≤ r ∨ 17 + 4 * V ≤ c) : (builtSymbol V).cell r c = MatCell.clear :=
  cell_stampSymbol_outside h1 (positions_of_version h1 h40) hr hc h

/-- A free cell holds bit 0: what is stamped is structural (R240). -/
theorem bit_builtSymbol_of_free {V : Nat} (h1 : 1 ≤ V) (h40 : V ≤ 40) {r c : Nat} (hr : r < Config.sMax)
    (hc : c < Config.sMax) (hst : ((builtSymbol V).cell r c).st = false) : ((builtSymbol V).cell r c).bit = false := by
  by_cases hin : r < 17 + 4 * V ∧ c < 17 + 4 * V
  · rw [cell_builtSymbol h1 h40 hin.1 hin.2] at hst ⊢
    cases hx : symbolAt (17 + 4 * V) (positionsOf V) (stdVcode V) r c with
    | none => rfl
    | some x => simp [hx] at hst
  · rw [cell_builtSymbol_outside h1 h40 hr hc (by omega)]
    rfl

/-- What BUILD leaves before it completes, given the square and its number of free cells (R252). -/
def State.builtWith (s : State) (n : Nat) (g : Grid) : State :=
  { s.storeGrid g with
    freeCells := BitVec.ofNat 16 n, scores := Vector.replicate 8 0#32, trialDone := 0x00#8
    pstage := .patternsPlaced }

theorem built_eq_builtWith (s : State) (V : Nat) : s.built V (positionsOf V) (stdVcode V)
    = s.builtWith (freeCount (17 + 4 * V) (builtSymbol V)) (builtSymbol V) := by
  rw [builtSymbol, State.built, State.builtWith]

theorem complete_builtWith (s : State) (n : Nat) (g : Grid) :
    (s.builtWith n g).complete = { s with
      mem := (s.storeGrid g).mem, freeCells := BitVec.ofNat 16 n, scores := Vector.replicate 8 0#32
      trialDone := 0x00#8, pstage := .patternsPlaced, pending := none, done := true } := rfl

theorem mem_complete_builtWith (s : State) (n : Nat) (g : Grid) :
    (s.builtWith n g).complete.mem = (s.storeGrid g).mem := rfl

/-- A version has a code exactly from 7 on (R248). -/
theorem stdVcode_isSome_table : ∀ V < 41, (stdVcode V).isSome = decide (7 ≤ V) := by decide +kernel

section Build

variable {s : State} (h : s.Inv) (hp : s.pstage = .interleaved)
include h hp

theorem selectedOk_of_interleaved : SelectedOk s :=
  h.selected_ok (PStage.reached_of_eq hp (by decide) (by decide))

/-- In its stage BUILD finds its table entries and stores the symbol of the version. -/
theorem exec_build_of_interleaved : exec .build s =
    .next (s.builtWith (freeCount (17 + 4 * s.version.toNat) (builtSymbol s.version.toNat))
      (builtSymbol s.version.toNat)).complete := by
  have hsel := selectedOk_of_interleaved h hp
  have hV : s.version.toNat < 41 := Nat.lt_succ_of_le hsel.version_le
  have hstart : mayStart .build s := (stageOk_iff s .build).1 (by simp [stageOk, hp])
  have hapos : standardTables.apos s.version.toNat = some (positionsOf s.version.toNat) :=
    stdApos_eq_positionsOf _ hV hsel.version_ge
  have hcode := stdVcode_isSome_table _ hV
  have hperf : performBuild standardTables s
      = .ok (s.built s.version.toNat (positionsOf s.version.toNat) (stdVcode s.version.toNat)) := by
    simp only [performBuild, hapos, show standardTables.vcode = stdVcode from rfl]
    cases hc : stdVcode s.version.toNat with
    | none => rw [if_pos (by simpa [hc] using hcode)]
    | some code => rw [if_neg (by simpa [hc] using hcode)]
  rw [show exec .build s = runCommand .build (performBuild standardTables) s from rfl,
    runCommand_of_mayStart hstart, hperf, built_eq_builtWith]
  rfl

theorem holdsGrid_of_build {u : State} (hu : exec .build s = .next u) :
    u.holdsGrid Config.sMax (builtSymbol s.version.toNat) := by
  rw [exec_build_of_interleaved h hp] at hu
  cases hu
  exact (holdsGrid_storeGrid (le_refl _) h.mem_wf.1 (square_builtSymbol _)).of_mem_eq
    (mem_complete_builtWith ..)

/-- The cell BUILD leaves where the closed form of the symbol has a value. -/
theorem matCell_of_build {u : State} (hu : exec .build s = .next u) {r c : Nat} {x : Bool}
    (hr : r < 17 + 4 * s.version.toNat) (hc : c < 17 + 4 * s.version.toNat)
    (hx : symbolAt (17 + 4 * s.version.toNat) (positionsOf s.version.toNat) (stdVcode s.version.toNat) r c = some x) :
    u.matCell r c = some ⟨x, true⟩ := by
  have hsel := selectedOk_of_interleaved h hp
  have hS := side_le_sMax hsel.version_le
  obtain ⟨-, -, -, hcell⟩ := holdsGrid_of_build h hp hu
  rw [hcell r c (by omega) (by omega), cell_builtSymbol hsel.version_ge hsel.version_le hr hc, hx]
  rfl

end Build

/-! ### The patterns of every symbol -/

section Symbol

variable {S : Nat} {P : List Nat} {code : Option Nat} {r c : Nat}

theorem symbolAt_of_format (h : onFormat S r c) : symbolAt S P code r c = some false := if_pos h

theorem symbolAt_of_pattern (h : ¬ onFormat S r c) {x : Bool} (hx : patternAt S P code r c = some x) :
    symbolAt S P code r c = some x := by
  rw [symbolAt, if_neg h, hx]; rfl

/-- The three finder patterns with their separators (R242). -/
theorem symbolAt_of_finder (hS : 21 ≤ S) (hr : r < S) (hc : c < S) {cr cc : Nat}
    (h : (cr, cc) ∈ [(3, 3), (3, S - 4), (S - 4, 3)]) (hrow : distance r cr ≤ 4) (hcol : distance c cc ≤ 4) :
    symbolAt S P code r c = some (finderValue (ringAt r c cr cc)) := by
  unfold distance at hrow hcol
  simp only [List.mem_cons, Prod.mk.injEq, List.not_mem_nil, or_false] at h
  refine symbolAt_of_pattern (by omega) ?_
  unfold patternAt
  obtain ⟨rfl, rfl⟩ | ⟨rfl, rfl⟩ | ⟨rfl, rfl⟩ := h
  · rw [if_pos (by omega)]
  · rw [if_neg (by omega), if_pos (by omega)]
  · rw [if_neg (by omega), if_neg (by omega), if_pos (by omega)]

theorem symbolAt_darkModule (hS : 21 ≤ S) : symbolAt S P code (S - 8) 8 = some true := by
  refine symbolAt_of_pattern (by omega) ?_
  rw [patternAt, if_neg (by omega), if_neg (by omega), if_neg (by omega), if_pos ⟨rfl, rfl⟩]

/-- Outside the finder patterns and the version blocks, the alignment patterns alone come before the timing
strips. -/
theorem patternAt_eq_alignmentAt (hfinder : ¬ (r ≤ 7 ∧ c ≤ 7) ∧ ¬ (r ≤ 7 ∧ S - 8 ≤ c) ∧ ¬ (S - 8 ≤ r ∧ c ≤ 7))
    (hdark : ¬ (r = S - 8 ∧ c = 8)) (hblock : ¬ inBlock S r c ∧ ¬ inBlock S c r) :
    patternAt S P code r c = alignmentAt S P r c := by
  rw [patternAt, if_neg hfinder.1, if_neg hfinder.2.1, if_neg hfinder.2.2, if_neg hdark, if_neg hblock.1,
    if_neg hblock.2]

/-- An alignment pattern on a timing strip has the strip's colours, for its centre is even (R245, R250). -/
theorem Positions.alignmentAt_row6 (hP : Positions S P) (hS : 21 ≤ S) {i : Nat} {x : Bool}
    (h : alignmentAt S P 6 i = some x) : x = (i % 2 == 0) := by
  obtain ⟨ar, har, ac, hac, -, ⟨hr, hc⟩, rfl⟩ := hP.alignmentAt_eq_some_iff.1 h
  have hrow := hP.range ar har
  have heven := hP.even ac hac
  unfold distance at hr hc
  obtain rfl : ar = 6 := by omega
  rw [Bool.eq_iff_iff, bne_iff_ne, beq_iff_eq, ringAt, distance, distance]
  omega

/-- The timing strips between the finder patterns (R250). -/
theorem symbolAt_timing (hP : Positions S P) (hS : 21 ≤ S) {i : Nat} (h8 : 8 ≤ i) (hi : i + 8 < S) :
    symbolAt S P code 6 i = some (i % 2 == 0) ∧ symbolAt S P code i 6 = some (i % 2 == 0) := by
  have hi6 : i ≠ 6 := by omega
  constructor
  · rw [symbolAt, if_neg (by omega), patternAt_eq_alignmentAt (by omega) (by omega) (by omega)]
    cases h : alignmentAt S P 6 i with
    | some x => rw [hP.alignmentAt_row6 hS h]; rfl
    | none => simp [timingAt]
  · rw [symbolAt, if_neg (by omega), patternAt_eq_alignmentAt (by omega) (by omega) (by omega),
      hP.alignmentAt_comm]
    cases h : alignmentAt S P 6 i with
    | some x => rw [hP.alignmentAt_row6 hS h]; rfl
    | none => simp [timingAt, hi6]

/-- The alignment patterns around every pair of positions but the corners (R244, R245). -/
theorem symbolAt_of_alignment (hP : Positions S P) (hS : 21 ≤ S) {ar ac : Nat} (har : ar ∈ P) (hac : ac ∈ P)
    (hcorner : ¬ isCornerPair S ar ac) (hrow : distance r ar ≤ 2) (hcol : distance c ac ≤ 2) :
    r < S ∧ c < S ∧ symbolAt S P code r c = some (ringAt r c ar ac != 1) := by
  have h := hP.alignmentAt_eq_some_iff.2 ⟨ar, har, ac, hac, hcorner, ⟨hrow, hcol⟩, rfl⟩
  obtain ⟨hfirst, hright, hleft, hr, hc⟩ := hP.alignmentAt_clear h
  refine ⟨hr, hc, symbolAt_of_pattern (by omega) ?_⟩
  rw [patternAt_eq_alignmentAt (by omega) (by omega) (by omega), h]

/-- The two version blocks (R249). -/
theorem symbolAt_of_block (hS : 21 ≤ S) {k i : Nat} (hi : i < 18) :
    symbolAt S P (some k) (i / 3) (S - 11 + i % 3) = some (k.testBit i)
      ∧ symbolAt S P (some k) (S - 11 + i % 3) (i / 3) = some (k.testBit i) := by
  have hindex : blockIndex S (i / 3) (S - 11 + i % 3) = i := by unfold blockIndex; omega
  constructor <;> refine symbolAt_of_pattern (by omega) ?_
  · rw [patternAt, if_neg (by omega), if_neg (by omega), if_neg (by omega), if_neg (by omega), if_pos (by omega),
      hindex]
    rfl
  · rw [patternAt, if_neg (by omega), if_neg (by omega), if_neg (by omega), if_neg (by omega), if_neg (by omega),
      if_pos (by omega), hindex]
    rfl

end Symbol

/-- Settles O37: the closed form of the symbol, region by region. -/
theorem buildStampsTheFixedPatterns : Obligations.BuildStampsTheFixedPatterns := by
  intro s u h hp hu S
  have hsel := selectedOk_of_interleaved h hp
  have hP := positions_of_version hsel.version_ge hsel.version_le
  have hsize : S = 17 + 4 * s.version.toNat := hsel.size_eq
  have hS : 21 ≤ S := by have := hsel.version_ge; omega
  have hcell := fun {r c : Nat} {x : Bool} => matCell_of_build (r := r) (c := c) (x := x) h hp hu
  rw [← hsize] at hP hcell
  refine ⟨fun cr cc hmem r c hr hc hrow hcol => ?finder, ?dark, fun i h8 hi => ?timing, fun i hi hne => ?format1,
    fun i hi => ?format2row, fun i hi => ?format2column⟩
  case finder => exact hcell hr hc (symbolAt_of_finder hS hr hc hmem hrow hcol)
  case dark => exact hcell (by omega) (by omega) (symbolAt_darkModule hS)
  case timing =>
    obtain ⟨hrow, hcol⟩ := symbolAt_timing hP hS h8 hi
    exact ⟨hcell (by omega) (by omega) hrow, hcell (by omega) (by omega) hcol⟩
  case format1 =>
    exact ⟨hcell (by omega) (by omega) (symbolAt_of_format (by omega)),
      hcell (by omega) (by omega) (symbolAt_of_format (by omega))⟩
  case format2row => exact hcell (by omega) (by omega) (symbolAt_of_format (by omega))
  case format2column => exact hcell (by omega) (by omega) (symbolAt_of_format (by omega))

/-- Settles O38: the closed form of the symbol on the alignment patterns and the version blocks. -/
theorem buildStampsTheVersionPatterns : Obligations.BuildStampsTheVersionPatterns := by
  intro s u h hp hu V S
  have hsel := selectedOk_of_interleaved h hp
  have h1 : 1 ≤ V := hsel.version_ge
  have h40 : V ≤ 40 := hsel.version_le
  have hP := positions_of_version h1 h40
  have hS : 21 ≤ S := by omega
  have hcell := fun {r c : Nat} {x : Bool} => matCell_of_build (r := r) (c := c) (x := x) h hp hu
  refine ⟨fun P hapos ar ac har hac hc1 hc2 hc3 r c hrow hcol => ?alignment, fun h7 => ?blocks⟩
  case alignment =>
    obtain rfl : positionsOf V = P := Option.some.inj ((stdApos_eq_positionsOf V (by omega) h1).symm.trans hapos)
    obtain ⟨hr, hc, hx⟩ := symbolAt_of_alignment (code := stdVcode V) hP hS har hac (by omega) hrow hcol
    exact hcell hr hc hx
  case blocks =>
    have hsome := stdVcode_isSome_table V (by omega)
    rw [decide_eq_true h7] at hsome
    obtain ⟨code, hcode⟩ := Option.isSome_iff_exists.1 hsome
    refine ⟨code, hcode, fun i hi => ?_⟩
    obtain ⟨hright, hleft⟩ := symbolAt_of_block (P := positionsOf V) (k := code) hS hi
    rw [← hcode] at hright hleft
    exact ⟨hcell (by omega) (by omega) hright, hcell (by omega) (by omega) hleft⟩

end Sys2Proof.Machine
end

section
/-! PROOFS. The free cells of the symbol (44_matrix_patterns.md R252, R255): the rows, and the columns, fall into ten
bands, and the bands of its row and its column decide whether a cell is free. -/

namespace Sys2Proof.Machine

/-! ### Counting cells -/

theorem sum_map_take {α : Type} (f : α → Nat) (d : α) {l : List α} {n : Nat} (h : n ≤ l.length) :
    ((l.take n).map f).sum = ∑ i ∈ Finset.range n, f (l.getD i d) := by
  have htake : l.take n = (List.range n).map (l.getD · d) := by
    refine List.ext_getElem (by simpa using h) fun i h1 h2 => ?_
    have hi : i < l.length := by simp at h1; omega
    simp [List.getD_eq_getElem?_getD, List.getElem?_eq_getElem hi]
  rw [htake, List.map_map]
  rfl

theorem countP_eq_sum_map {α : Type} (p : α → Bool) (l : List α) :
    l.countP p = (l.map fun x => if p x then 1 else 0).sum := by
  induction l with
  | nil => rfl
  | cons x l ih => rw [List.countP_cons, ih, List.map_cons, List.sum_cons, Nat.add_comm]

/-- The free cells of the top-left part of a square, cell by cell (R252). -/
theorem freeCount_eq_sum {n S : Nat} {g : Grid} (hg : g.square n) (hS : S ≤ n) : freeCount S g =
    ∑ r ∈ Finset.range S, ∑ c ∈ Finset.range S, (if (g.cell r c).st then 0 else 1) := by
  obtain ⟨hlen, hrows⟩ := hg
  rw [freeCount, sum_map_take _ [] (hlen.symm ▸ hS)]
  refine Finset.sum_congr rfl fun r hr => ?_
  have hr : r < (g : List (List MatCell)).length := by have := Finset.mem_range.1 hr; omega
  have hrow : ((g : List (List MatCell)).getD r []).length = n := by
    rw [List.getD_eq_getElem?_getD, List.getElem?_eq_getElem hr]
    exact hrows _ (List.getElem_mem hr)
  rw [countP_eq_sum_map, sum_map_take _ MatCell.clear (hrow.symm ▸ hS)]
  exact Finset.sum_congr rfl fun c _ => by rw [Grid.cell]; cases (List.getD _ c MatCell.clear).st <;> rfl

/-! ### Bands -/

/-- The bands of rows, or columns, from the first to the last: before and at the first alignment position, the timing
strip, the rest of the finder patterns' reach, between the finder patterns off and on the reach of a position, the
version block, its last row on the reach of the last position, the finder patterns on and off that reach. -/
inductive Band
  | outer
  | first
  | timing
  | inside
  | plain
  | aligned
  | block
  | blockLast
  | last
  | far
  deriving DecidableEq

/-- The band of row or column `i`. -/
def bandOf (S : Nat) (P : List Nat) (i : Nat) : Band :=
  if i < 4 then .outer else if i < 6 then .first else if i = 6 then .timing else if i < 9 then .inside
  else if i < S - 11 then if (nearest P i).isSome then .aligned else .plain
  else if i < S - 9 then .block else if i < S - 8 then .blockLast else if i < S - 4 then .last else .far

namespace Band

/-- A timing strip. -/
def strip : Band → Bool
  | timing => true
  | _ => false

/-- Within the reach of the finder patterns at the top or left, or of the format cells there. -/
def low : Band → Bool
  | outer | first | timing | inside => true
  | _ => false

/-- Within the reach of the finder pattern at the bottom or right. -/
def high : Band → Bool
  | last | far => true
  | _ => false

/-- From the last row of the version block on. -/
def fromBlockLast : Band → Bool
  | blockLast | last | far => true
  | _ => false

/-- From the version block on. -/
def fromBlock : Band → Bool
  | block | blockLast | last | far => true
  | _ => false

/-- A long side of a version block reaches it. -/
def alongBlock : Band → Bool
  | outer | first => true
  | _ => false

/-- An alignment position reaches it, where the symbol has any. -/
def near : Band → Bool
  | first | timing | inside | aligned | blockLast | last => true
  | _ => false

/-- The cells of the two bands are free, in a symbol with or without alignment patterns and version blocks. -/
def free (align blocks : Bool) (a b : Band) : Bool :=
  !(a.low && b.low) && !(a.low && b.high) && !(a.high && b.low) && !a.strip && !b.strip
    && !(blocks && (a.alongBlock && b.fromBlock || a.fromBlock && b.alongBlock))
    && !(align && a.near && b.near && !(a.low && b.fromBlockLast) && !(a.fromBlockLast && b.low))

end Band

section Bands

variable {S : Nat} {P : List Nat}

theorem low_bandOf (i : Nat) : (bandOf S P i).low = decide (i ≤ 8) := by
  unfold bandOf; split_ifs <;> simp [Band.low] <;> omega

theorem alongBlock_bandOf (i : Nat) : (bandOf S P i).alongBlock = decide (i < 6) := by
  unfold bandOf; split_ifs <;> simp [Band.alongBlock] <;> omega

theorem strip_bandOf (i : Nat) : (bandOf S P i).strip = decide (i = 6) := by
  unfold bandOf; split_ifs <;> simp [Band.strip] <;> omega

variable (hS : 21 ≤ S)
include hS

theorem high_bandOf (i : Nat) : (bandOf S P i).high = decide (S - 8 ≤ i) := by
  unfold bandOf; split_ifs <;> simp [Band.high] <;> omega

theorem fromBlockLast_bandOf (i : Nat) : (bandOf S P i).fromBlockLast = decide (S - 9 ≤ i) := by
  unfold bandOf; split_ifs <;> simp [Band.fromBlockLast] <;> omega

theorem fromBlock_bandOf (i : Nat) : (bandOf S P i).fromBlock = decide (S - 11 ≤ i) := by
  unfold bandOf; split_ifs <;> simp [Band.fromBlock] <;> omega

omit hS in
/-- The first position reaches 4 to 8, the last S − 9 to S − 5, and the others what lies between. -/
theorem near_bandOf (hP : Positions S P) (hne : P ≠ []) (i : Nat) :
    (bandOf S P i).near = (nearest P i).isSome := by
  obtain hnil | ⟨hhead, hlast, h25⟩ := hP.ends
  · exact absurd hnil hne
  have hfirst := List.mem_of_head? hhead
  have hend := List.mem_of_getLast? hlast
  have hreached : ∀ p ∈ P, distance i p ≤ 2 → (nearest P i).isSome = true := fun p hp hd => by
    rw [(hP.nearest_eq_some_iff).2 ⟨hp, hd⟩]; rfl
  have hout : (∀ p, (p = 6 ∨ p = S - 7 ∨ 16 ≤ p ∧ p + 23 ≤ S) → ¬ distance i p ≤ 2) →
      (nearest P i).isSome = false := fun h => by
    rw [Option.isSome_eq_false_iff, Option.isNone_iff_eq_none]
    exact List.find?_eq_none.2 fun p hp => by simpa using h p (hP.range p hp)
  unfold distance at hreached hout
  unfold bandOf
  split_ifs with h1 h2 h3 h4 h5 h6 h7 h8 h9
  · rw [hout fun p hp => by omega]; rfl
  · rw [hreached 6 hfirst (by omega)]; rfl
  · rw [hreached 6 hfirst (by omega)]; rfl
  · rw [hreached 6 hfirst (by omega)]; rfl
  · rw [h6]; rfl
  · rw [Bool.eq_false_iff.2 h6]; rfl
  · rw [hout fun p hp => by omega]; rfl
  · rw [hreached _ hend (by omega)]; rfl
  · rw [hreached _ hend (by omega)]; rfl
  · rw [hout fun p hp => by omega]; rfl

omit hS in
/-- Where alignment patterns reach both the row and the column, a cell is in one unless the pair of positions is a
corner. -/
theorem alignmentAt_eq_none_iff (hP : Positions S P) {r c : Nat} : alignmentAt S P r c = none ↔
    ¬ ((nearest P r).isSome ∧ (nearest P c).isSome
      ∧ ¬ (r ≤ 8 ∧ c ≤ 8) ∧ ¬ (r ≤ 8 ∧ S - 9 ≤ c) ∧ ¬ (S - 9 ≤ r ∧ c ≤ 8)) := by
  rw [alignmentAt]
  cases hnr : nearest P r with
  | none => simp
  | some ar =>
    cases hnc : nearest P c with
    | none => simp
    | some ac =>
      obtain ⟨har, hrow⟩ := hP.nearest_eq_some_iff.1 hnr
      obtain ⟨hac, hcol⟩ := hP.nearest_eq_some_iff.1 hnc
      have hrrange := hP.range ar har
      have hcrange := hP.range ac hac
      have h25 := hP.side_ge har
      have hcorner : isCornerPair S ar ac ↔ r ≤ 8 ∧ c ≤ 8 ∨ r ≤ 8 ∧ S - 9 ≤ c ∨ S - 9 ≤ r ∧ c ≤ 8 := by
        unfold distance at hrow hcol
        constructor <;> omega
      simp only [Option.bind_some, Option.isSome_some, true_and, ← not_or, not_not, ← hcorner]
      split_ifs with h <;> simp [h]

/-- The cells of the symbol that are free, by their coordinates. -/
theorem symbolAt_eq_none_iff {code : Option Nat} (hP : Positions S P) {r c : Nat} (hr : r < S) (hc : c < S) :
    symbolAt S P code r c = none ↔
      (¬ (r ≤ 8 ∧ c ≤ 8) ∧ ¬ (r ≤ 8 ∧ S - 8 ≤ c) ∧ ¬ (S - 8 ≤ r ∧ c ≤ 8)) ∧ r ≠ 6 ∧ c ≠ 6
        ∧ ¬ (code.isSome ∧ (r < 6 ∧ S - 11 ≤ c ∨ S - 11 ≤ r ∧ c < 6)) ∧ alignmentAt S P r c = none := by
  have hcode : ∀ f : Nat → Bool, code.map f = none ↔ ¬ code.isSome := fun f => by cases code <;> simp
  have hclear : alignmentAt S P r c ≠ none → ¬ (r ≤ 8 ∧ S - 11 ≤ c) ∧ ¬ (S - 11 ≤ r ∧ c ≤ 8) := fun h => by
    obtain ⟨x, hx⟩ := Option.ne_none_iff_exists'.1 h
    obtain ⟨-, hright, hleft, -⟩ := hP.alignmentAt_clear hx
    exact ⟨hright, hleft⟩
  unfold symbolAt patternAt timingAt
  split_ifs <;> simp only [Option.or_eq_none_iff, hcode, reduceCtorEq, and_false, and_true, false_iff] <;> grind

/-- The bands decide which cells of the symbol are free. -/
theorem symbolAt_eq_none_iff_free {code : Option Nat} (hP : Positions S P) {r c : Nat} (hr : r < S) (hc : c < S) :
    symbolAt S P code r c = none
      ↔ Band.free (decide (P ≠ [])) code.isSome (bandOf S P r) (bandOf S P c) = true := by
  have halign : alignmentAt S P r c = none ↔ ¬ (P ≠ [] ∧ (bandOf S P r).near ∧ (bandOf S P c).near
      ∧ ¬ (r ≤ 8 ∧ c ≤ 8) ∧ ¬ (r ≤ 8 ∧ S - 9 ≤ c) ∧ ¬ (S - 9 ≤ r ∧ c ≤ 8)) := by
    by_cases hne : P = []
    · subst hne; simp [alignmentAt, nearest]
    · rw [alignmentAt_eq_none_iff hP, near_bandOf hP hne, near_bandOf hP hne]
      simp [hne]
  rw [symbolAt_eq_none_iff hS hP hr hc, halign]
  simp only [Band.free, low_bandOf, high_bandOf hS, strip_bandOf, fromBlock_bandOf hS, fromBlockLast_bandOf hS,
    alongBlock_bandOf, Bool.and_eq_true, Bool.not_eq_true', Bool.and_eq_false_iff]
  grind

end Bands

/-! ### The number of free cells -/

/-- A sum over the rows, or columns, of the symbol of version V, band by band; a position that is not the first or the
last reaches five of them. -/
def bandSum (V : Nat) (f : Band → Nat) : Nat :=
  let reached := 5 * ((positionsOf V).length - 2)
  4 * f .outer + 2 * f .first + f .timing + 2 * f .inside
    + (reached * f .aligned + (4 * V - 3 - reached) * f .plain)
    + (2 * f .block + f .blockLast + 4 * f .last + 4 * f .far)

/-- The rows between the finder patterns that a position reaches: five for each position inside. -/
theorem card_reached : ∀ V < 41, 1 ≤ V →
    ((Finset.range (4 * V - 3)).filter fun i => (nearest (positionsOf V) (9 + i)).isSome).card
      = 5 * ((positionsOf V).length - 2) := by decide +kernel

/-- Beside the bands between the finder patterns, every band has the same rows in every symbol. -/
theorem sum_bandOf (P : List Nat) (f : Band → Nat) (k : Nat) :
    ∑ i ∈ Finset.range (9 + k + 11), f (bandOf (9 + k + 11) P i) =
      4 * f .outer + 2 * f .first + f .timing + 2 * f .inside
        + ∑ i ∈ Finset.range k, (if (nearest P (9 + i)).isSome then f .aligned else f .plain)
        + (2 * f .block + f .blockLast + 4 * f .last + 4 * f .far) := by
  rw [Finset.sum_range_add, Finset.sum_range_add]
  congr 1
  · congr 1
    · simp [Finset.sum_range_succ, bandOf]
      omega
    · refine Finset.sum_congr rfl fun i hi => ?_
      have := Finset.mem_range.1 hi
      rw [bandOf, if_neg (by omega), if_neg (by omega), if_neg (by omega), if_neg (by omega), if_pos (by omega)]
      split <;> rfl
  · have hband : ∀ i ∈ Finset.range 11, f (bandOf (9 + k + 11) P (9 + k + i))
        = f (if i < 2 then .block else if i < 3 then .blockLast else if i < 7 then .last else .far) := fun i hi => by
      rw [bandOf, if_neg (by omega), if_neg (by omega), if_neg (by omega), if_neg (by omega), if_neg (by omega)]
      congr 1
      grind
    rw [Finset.sum_congr rfl hband]
    simp [Finset.sum_range_succ]
    omega

/-- What depends on the band of a row alone is summed band by band. -/
theorem sum_bandOf_symbol {V : Nat} (h1 : 1 ≤ V) (h40 : V ≤ 40) (f : Band → Nat) :
    ∑ i ∈ Finset.range (17 + 4 * V), f (bandOf (17 + 4 * V) (positionsOf V) i) = bandSum V f := by
  have hreached := card_reached V (by omega) h1
  have hrest := Finset.card_filter_add_card_filter_not (s := Finset.range (4 * V - 3))
    fun i => (nearest (positionsOf V) (9 + i)).isSome
  rw [Finset.card_range, hreached] at hrest
  replace hrest := Nat.eq_sub_of_add_eq' hrest
  rw [show 17 + 4 * V = 9 + (4 * V - 3) + 11 by omega, sum_bandOf, Finset.sum_ite, Finset.sum_const, Finset.sum_const,
    hreached, hrest, smul_eq_mul, smul_eq_mul, bandSum]

/-- F(V) is the sum over the pairs of bands (R255). -/
theorem sum_free_bands : ∀ V < 41, 1 ≤ V →
    (bandSum V fun a => bandSum V fun b =>
      (Band.free (decide (positionsOf V ≠ [])) (stdVcode V).isSome a b).toNat) = freeCellFormula V := by
  decide +kernel

/-- A cell of the symbol is free as its bands say. -/
theorem ite_st_builtSymbol {V : Nat} (h1 : 1 ≤ V) (h40 : V ≤ 40) {r c : Nat} (hr : r < 17 + 4 * V)
    (hc : c < 17 + 4 * V) : (if ((builtSymbol V).cell r c).st then 0 else 1)
      = (Band.free (decide (positionsOf V ≠ [])) (stdVcode V).isSome
          (bandOf (17 + 4 * V) (positionsOf V) r) (bandOf (17 + 4 * V) (positionsOf V) c)).toNat := by
  have hfree := symbolAt_eq_none_iff_free (code := stdVcode V) (show 21 ≤ 17 + 4 * V by omega)
    (positions_of_version h1 h40) hr hc
  rw [cell_builtSymbol h1 h40 hr hc]
  cases hx : symbolAt (17 + 4 * V) (positionsOf V) (stdVcode V) r c with
  | none => rw [hfree.1 hx]; rfl
  | some x =>
    rw [hx] at hfree
    simp only [reduceCtorEq, false_iff, Bool.not_eq_true] at hfree
    rw [hfree]; rfl

/-- The symbol of version V has F(V) free cells (R255). -/
theorem freeCount_builtSymbol {V : Nat} (h1 : 1 ≤ V) (h40 : V ≤ 40) :
    freeCount (17 + 4 * V) (builtSymbol V) = freeCellFormula V := by
  rw [freeCount_eq_sum (square_builtSymbol V) (side_le_sMax h40), ← sum_free_bands V (by omega) h1,
    ← sum_bandOf_symbol h1 h40]
  refine Finset.sum_congr rfl fun r hr => ?_
  rw [← sum_bandOf_symbol h1 h40]
  exact Finset.sum_congr rfl fun c hc =>
    ite_st_builtSymbol h1 h40 (Finset.mem_range.1 hr) (Finset.mem_range.1 hc)

/-- The free cells hold the codewords of every level, and at most 7 bits are left over (R255). -/
theorem freeCellFormula_table : ∀ V < 41, ∀ l < 4, 1 ≤ V →
    8 * ((stdCap V l).getD 0 / 8 + (stdNb V l).getD 0 * (stdEcb V l).getD 0) ≤ freeCellFormula V
      ∧ freeCellFormula V ≤ 8 * ((stdCap V l).getD 0 / 8 + (stdNb V l).getD 0 * (stdEcb V l).getD 0) + 7 := by
  decide +kernel

theorem freeCellFormula_lt : ∀ V < 41, freeCellFormula V < 2 ^ 16 := by decide +kernel

section Build

variable {s : State} (h : s.Inv) (hp : s.pstage = .interleaved)
include h hp

/-- BUILD counts F(V) free cells (R252, R255). -/
theorem freeCells_of_build {u : State} (hu : exec .build s = .next u) :
    u.freeCells.toNat = freeCellFormula s.version.toNat := by
  have hsel := selectedOk_of_interleaved h hp
  have hlt := freeCellFormula_lt _ (Nat.lt_succ_of_le hsel.version_le)
  rw [exec_build_of_interleaved h hp, freeCount_builtSymbol hsel.version_ge hsel.version_le] at hu
  cases hu
  exact Nat.mod_eq_of_lt hlt

end Build

/-- Settles O36: BUILD stores one square of all the cells, which is clear outside the symbol. -/
theorem buildWritesEveryCell : Obligations.BuildWritesEveryCell := by
  intro s h hp S
  have hsel := selectedOk_of_interleaved h hp
  have h1 := hsel.version_ge
  have h40 : s.version.toNat ≤ 40 := hsel.version_le
  have hsize : S = 17 + 4 * s.version.toNat := hsel.size_eq
  have hexec := exec_build_of_interleaved h hp
  have hgrid := holdsGrid_of_build h hp hexec
  have hfree := freeCells_of_build h hp hexec
  have hout := fun r c => cell_builtSymbol_outside h1 h40 (r := r) (c := c)
  have hbit := fun r c => bit_builtSymbol_of_free h1 h40 (r := r) (c := c)
  have hsquare := square_builtSymbol s.version.toNat
  have hcount := freeCount_builtSymbol h1 h40
  rw [freeCount_eq_sum hsquare (side_le_sMax h40), ← hsize] at hcount
  rw [← hsize] at hout
  generalize builtSymbol s.version.toNat = g at *
  exact ⟨_, g, hexec, hgrid, hout, hbit, hfree.trans hcount.symm, fun m => Vector.getElem_replicate .., rfl,
    keepsOutside_storeGrid (le_refl _) h.mem_wf.1 hsquare, complete_builtWith ..⟩

/-- Settles O39: BUILD counts F(V) cells, and the table of the codewords says how many bits they hold. -/
theorem freeCellsFormula : Obligations.FreeCellsFormula := by
  intro s u h hp hu
  have hsel := selectedOk_of_interleaved h hp
  have hecd := h.ecDone_ok (PStage.reached_of_eq hp (by decide) (by decide))
  have hint := h.interleaved_ok (PStage.reached_of_eq hp (by decide) (by decide))
  have htable := freeCellFormula_table _ (Nat.lt_succ_of_le hsel.version_le) _ s.selLevel.isLt hsel.version_ge
  rw [hsel.cap_eq, hecd.blocks_eq, hecd.ec_eq] at htable
  have hfree := freeCells_of_build h hp hu
  rw [hfree, hint.total_eq]
  exact ⟨rfl, htable⟩

end Sys2Proof.Machine
end

section
/-! PROOFS. The walk of the position cursor (45_placement_mask.md R280) in closed form: which cell it visits at each
place. -/

namespace Sys2Proof.Machine

/-- The right column of the pair of columns `p` of the walk, which leaves column 6 out. -/
def pairColumn (S p : Nat) : Nat := if 6 < S - 1 - 2 * p then S - 1 - 2 * p else S - 2 - 2 * p

/-- The cursor in pair `p`, after `k` rows of it, in the left column or the right. -/
def cursorIn (S p k : Nat) (left : Bool) : Cursor :=
  ⟨if p % 2 = 0 then S - 1 - k else k, pairColumn S p, p % 2 == 0, left⟩

/-- The cursor after `t` advances: a pair of columns takes 2·S of them, a row two. -/
def cursorAt (S t : Nat) : Cursor := cursorIn S (t / (2 * S)) (t % (2 * S) / 2) (t % (2 * S) % 2 == 1)

theorem cursorAt_eq {S k : Nat} (hk : k < S) (p : Nat) (left : Bool) :
    cursorAt S (2 * S * p + (2 * k + left.toNat)) = cursorIn S p k left := by
  have hlt : 2 * k + left.toNat < 2 * S := by have := left.toNat_le; omega
  rw [cursorAt, Nat.mul_add_div (by omega), Nat.mul_add_mod, Nat.div_eq_of_lt hlt, Nat.mod_eq_of_lt hlt]
  cases left
  · congr 1 <;> simp
  · congr 1
    · simp; omega
    · simp

/-- Every number of advances is some pairs of columns, some rows and perhaps the right cell of one more. -/
theorem exists_place {S : Nat} (hS : 0 < S) (t : Nat) :
    ∃ p k left, k < S ∧ t = 2 * S * p + (2 * k + Bool.toNat left) := by
  have hlt := Nat.mod_lt t (show 0 < 2 * S by omega)
  have hsplit := Nat.div_add_mod t (2 * S)
  generalize t % (2 * S) = m at hlt hsplit
  refine ⟨t / (2 * S), m / 2, decide (m % 2 = 1), by omega, ?_⟩
  have hodd : (decide (m % 2 = 1)).toNat = m % 2 := by
    rcases Nat.mod_two_eq_zero_or_one m with h | h <;> simp [h]
  omega

section Walk

variable {h : Nat}

theorem shiftLeft_pairColumn {p : Nat} (hp : p < h) :
    shiftLeft (pairColumn (2 * h + 1) p) = pairColumn (2 * h + 1) (p + 1) := by
  unfold shiftLeft pairColumn
  split_ifs <;> omega

/-- One advance, on the left or the right cell of a row, and at the end of a pair of columns. -/
theorem advance_cursorAt {t : Nat} (ht : t < 2 * (2 * h + 1) * h) :
    (cursorAt (2 * h + 1) t).advance (2 * h + 1) = cursorAt (2 * h + 1) (t + 1) := by
  obtain ⟨p, k, left, hk, rfl⟩ := exists_place (show 0 < 2 * h + 1 by omega) t
  have hp : p < h := Nat.lt_of_mul_lt_mul_left (Nat.lt_of_le_of_lt (Nat.le_add_right ..) ht)
  rw [cursorAt_eq hk]
  cases left with
  | false =>
    rw [show 2 * (2 * h + 1) * p + (2 * k + false.toNat) + 1 = 2 * (2 * h + 1) * p + (2 * k + true.toNat) from rfl,
      cursorAt_eq hk]
    rfl
  | true =>
    by_cases hend : k + 1 < 2 * h + 1
    · rw [show 2 * (2 * h + 1) * p + (2 * k + true.toNat) + 1
          = 2 * (2 * h + 1) * p + (2 * (k + 1) + false.toNat) from rfl, cursorAt_eq hend]
      simp only [cursorIn, Cursor.advance]
      grind
    · obtain rfl : k = 2 * h := by omega
      rw [show 2 * (2 * h + 1) * p + (2 * (2 * h) + true.toNat) + 1
          = 2 * (2 * h + 1) * (p + 1) + (2 * 0 + false.toNat) by simp; ring, cursorAt_eq (by omega)]
      have hshift := shiftLeft_pairColumn hp
      simp only [cursorIn, Cursor.advance]
      grind

theorem pairColumn_lt_one_iff {p : Nat} (hp : p ≤ h) : pairColumn (2 * h + 1) p < 1 ↔ p = h := by
  unfold pairColumn
  split_ifs <;> omega

/-- The walk from any place on. -/
theorem walk_cursorAt (n : Nat) {t : Nat} (ht : t ≤ 2 * (2 * h + 1) * h) :
    walk (2 * h + 1) n (cursorAt (2 * h + 1) t)
      = (List.range' t (min n (2 * (2 * h + 1) * h - t))).map fun t => (cursorAt (2 * h + 1) t).cell := by
  have hpos : 0 < 2 * (2 * h + 1) := by omega
  induction n generalizing t with
  | zero => simp [walk]
  | succ n ih =>
    have hp : t / (2 * (2 * h + 1)) ≤ h := Nat.div_le_of_le_mul ht
    have hstop := pairColumn_lt_one_iff hp
    obtain rfl | hlt := ht.eq_or_lt
    · rw [Nat.mul_div_cancel_left _ hpos] at hstop
      simp [walk, cursorAt, cursorIn, Nat.mul_div_cancel_left _ hpos, hstop]
    · have hgo := Nat.div_lt_of_lt_mul hlt
      rw [walk, if_neg fun hright => by have := hstop.1 hright; omega, advance_cursorAt hlt, ih hlt,
        show min (n + 1) (2 * (2 * h + 1) * h - t) = min n (2 * (2 * h + 1) * h - (t + 1)) + 1 by omega,
        List.range'_succ, List.map_cons]

/-- The cells of the walk, in order. -/
theorem visited_eq_map (h4 : 4 ≤ h) : visited (2 * h + 1)
    = (List.range (2 * (2 * h + 1) * h)).map fun t => (cursorAt (2 * h + 1) t).cell := by
  have hstart : Cursor.start (2 * h + 1) = cursorAt (2 * h + 1) 0 := by
    simp only [Cursor.start, cursorAt, cursorIn, pairColumn]
    simp; omega
  have hlen : 2 * (2 * h + 1) * h ≤ (2 * h + 1) * (2 * h + 1) := by nlinarith
  rw [visited, hstart, walk_cursorAt _ (Nat.zero_le _), Nat.sub_zero, Nat.min_eq_right hlen, List.range_eq_range']

/-- The cell of pair `p` after `k` rows. -/
theorem cell_cursorIn {p k : Nat} (left : Bool) :
    (cursorIn (2 * h + 1) p k left).cell
      = (if p % 2 = 0 then 2 * h - k else k, pairColumn (2 * h + 1) p - left.toNat) := by
  cases left <;> rfl

theorem lt_of_mem_visited (h4 : 4 ≤ h) {r c : Nat} (hmem : (r, c) ∈ visited (2 * h + 1)) :
    r < 2 * h + 1 ∧ c < 2 * h + 1 := by
  rw [visited_eq_map h4, List.mem_map] at hmem
  obtain ⟨t, ht, hcell⟩ := hmem
  obtain ⟨p, k, left, hk, rfl⟩ := exists_place (show 0 < 2 * h + 1 by omega) t
  rw [cursorAt_eq hk, cell_cursorIn, Prod.mk.injEq] at hcell
  unfold pairColumn at hcell
  split_ifs at hcell <;> omega

/-- The walk visits no cell twice. -/
theorem nodup_visited (h4 : 4 ≤ h) : (visited (2 * h + 1)).Nodup := by
  rw [visited_eq_map h4]
  refine List.Nodup.map_on (fun t ht t' ht' heq => ?_) List.nodup_range
  obtain ⟨p, k, left, hk, rfl⟩ := exists_place (show 0 < 2 * h + 1 by omega) t
  obtain ⟨p', k', left', hk', rfl⟩ := exists_place (show 0 < 2 * h + 1 by omega) t'
  have hp : p < h := Nat.lt_of_mul_lt_mul_left (Nat.lt_of_le_of_lt (Nat.le_add_right ..) (List.mem_range.1 ht))
  have hp' : p' < h := Nat.lt_of_mul_lt_mul_left (Nat.lt_of_le_of_lt (Nat.le_add_right ..) (List.mem_range.1 ht'))
  rw [cursorAt_eq hk, cursorAt_eq hk', cell_cursorIn, cell_cursorIn, Prod.mk.injEq] at heq
  obtain ⟨hrow, hcol⟩ := heq
  have hpair : p = p' ∧ left.toNat = left'.toNat := by
    have := left.toNat_le
    have := left'.toNat_le
    unfold pairColumn at hcol
    split_ifs at hcol <;> omega
  obtain ⟨rfl, hleft⟩ := hpair
  have hrows : k = k' := by split_ifs at hrow <;> omega
  rw [hleft, hrows]

end Walk

end Sys2Proof.Machine
end

section
/-! PROOFS. TRIAL (45_placement_mask.md R270 to R286, 44_matrix_patterns.md R251): the format bits, the placement of
the stream under a mask, and how the command ends. -/

namespace Sys2Proof.Machine

/-! ### Format bits -/

theorem writeFormat_eq_writeAll (S f : Nat) (g : Grid) :
    g.writeFormat S f = g.writeAll bitCell (formatWrites S f) := by
  rw [Grid.writeAll, formatWrites, List.foldl_flatMap]
  rfl

/-- The index of a format cell (44_matrix_patterns.md R251). -/
def formatIndex (S r c : Nat) : Nat :=
  if c = 8 ∧ r ≤ 8 then (if r ≤ 5 then r else r - 1)
  else if r = 8 ∧ c < 8 then (if c = 7 then 8 else 14 - c)
  else if r = 8 then S - 1 - c else r + 15 - S

/-- No cell stands for two bits of the format code. -/
theorem eq_formatIndex {S r c i : Nat} (hS : 21 ≤ S) (hi : i < 15)
    (h : (r, c) = formatCell1 i ∨ (r, c) = formatCell2 S i) : i = formatIndex S r c := by
  rcases h with h | h
  · unfold formatCell1 at h
    split_ifs at h <;> (rw [Prod.mk.injEq] at h; unfold formatIndex; split_ifs <;> omega)
  · unfold formatCell2 at h
    split_ifs at h <;> (rw [Prod.mk.injEq] at h; unfold formatIndex; split_ifs <;> omega)

theorem lt_of_formatCell {S i : Nat} (hS : 21 ≤ S) (hi : i < 15) {p : Nat × Nat}
    (h : p = formatCell1 i ∨ p = formatCell2 S i) : p.1 < S ∧ p.2 < S := by
  rcases h with h | h
  · have := exists_formatCell1_iff.1 ⟨i, hi, h⟩
    omega
  · have := (exists_formatCell2_iff hS).1 ⟨i, hi, h⟩
    omega

section Format

variable {n : Nat} {g : Grid} (hg : g.square n) {S : Nat} (hS : 21 ≤ S) {f r c : Nat} (hr : r < n) (hc : c < n)
include hg hS hr hc

theorem cell_writeFormat_of_cell {i : Nat} (hi : i < 15)
    (h : (r, c) = formatCell1 i ∨ (r, c) = formatCell2 S i) :
    (g.writeFormat S f).cell r c = bitCell (f.testBit i) (g.cell r c) := by
  rw [writeFormat_eq_writeAll]
  refine Grid.cell_writeAll_of_drawn hg hr hc (f := bitCell) (fun _ _ => rfl) ⟨mem_formatWrites.2 ⟨i, hi, h, rfl⟩, ?_⟩
  intro y hy
  obtain ⟨j, hj, hcell, rfl⟩ := mem_formatWrites.1 hy
  rw [eq_formatIndex hS hi h, eq_formatIndex hS hj hcell]

omit hS in
theorem cell_writeFormat_of_not_cell
    (h : ∀ i < 15, ¬ ((r, c) = formatCell1 i ∨ (r, c) = formatCell2 S i)) :
    (g.writeFormat S f).cell r c = g.cell r c := by
  rw [writeFormat_eq_writeAll]
  refine Grid.cell_writeAll_of_untouched hg hr hc bitCell fun x hx => ?_
  obtain ⟨i, hi, hcell, -⟩ := mem_formatWrites.1 hx
  exact h i hi hcell

end Format

/-! ### Placement -/

/-- The writes of `place(m)` (45_placement_mask.md R282). -/
def placeWrites (m : Fin 8) (cells : List (Nat × Nat)) (bits : Bits) : List Stamp :=
  (cells.zip bits).map fun q => (q.1.1, q.1.2, q.2 ^^ maskAt m q.1.1 q.1.2)

theorem placeAll_eq_writeAll (m : Fin 8) (cells : List (Nat × Nat)) (bits : Bits) (g : Grid) :
    placeAll m cells bits g = g.writeAll bitCell (placeWrites m cells bits) := by
  rw [Grid.writeAll, placeWrites, List.foldl_map]
  rfl

theorem mem_placeWrites {m : Fin 8} {cells : List (Nat × Nat)} {bits : Bits} {r c : Nat} {x : Bool} :
    (r, c, x) ∈ placeWrites m cells bits ↔
      ∃ (i : Nat) (b : Bool), cells[i]? = some (r, c) ∧ bits[i]? = some b ∧ x = (b ^^ maskAt m r c) := by
  rw [placeWrites, List.mem_map]
  constructor
  · rintro ⟨⟨⟨r', c'⟩, b⟩, hmem, heq⟩
    obtain ⟨i, hi⟩ := List.mem_iff_getElem?.1 hmem
    obtain ⟨hcell, hbit⟩ := List.getElem?_zip_eq_some.1 hi
    simp only [Prod.mk.injEq] at heq
    obtain ⟨rfl, rfl, rfl⟩ := heq
    exact ⟨i, b, hcell, hbit, rfl⟩
  · rintro ⟨i, b, hcell, hbit, rfl⟩
    exact ⟨((r, c), b), List.mem_iff_getElem?.2 ⟨i, List.getElem?_zip_eq_some.2 ⟨hcell, hbit⟩⟩, rfl⟩

section Placement

variable {n : Nat} {g : Grid} (hg : g.square n) {r c : Nat} (hr : r < n) (hc : c < n) {m : Fin 8}
  {cells : List (Nat × Nat)} {bits : Bits}
include hg hr hc

/-- The cell of a bit of the stream holds it under the mask, for no cell is visited twice. -/
theorem cell_placeAll_of_getElem? (hnodup : cells.Nodup) {i : Nat} {b : Bool} (hcell : cells[i]? = some (r, c))
    (hbit : bits[i]? = some b) :
    (placeAll m cells bits g).cell r c = bitCell (b ^^ maskAt m r c) (g.cell r c) := by
  rw [placeAll_eq_writeAll]
  refine Grid.cell_writeAll_of_drawn hg hr hc (f := bitCell) (fun _ _ => rfl)
    ⟨mem_placeWrites.2 ⟨i, b, hcell, hbit, rfl⟩, fun y hy => ?_⟩
  obtain ⟨j, b', hcell', hbit', rfl⟩ := mem_placeWrites.1 hy
  obtain rfl : i = j := (List.getElem?_inj (List.getElem?_eq_some_iff.1 hcell).1 hnodup).1 (hcell.trans hcell'.symm)
  rw [Option.some.inj (hbit.symm.trans hbit')]

theorem cell_placeAll_of_not_mem (h : (r, c) ∉ cells.take bits.length) :
    (placeAll m cells bits g).cell r c = g.cell r c := by
  rw [placeAll_eq_writeAll]
  refine Grid.cell_writeAll_of_untouched hg hr hc bitCell fun x hx => h ?_
  obtain ⟨i, b, hcell, hbit, -⟩ := mem_placeWrites.1 hx
  exact List.mem_of_getElem? (i := i) (by
    rw [List.getElem?_take, if_pos (List.getElem?_eq_some_iff.1 hbit).1, hcell])

end Placement

/-- The mask conditions in the order of their indexes (45_placement_mask.md R270). -/
theorem maskAt_eq_getD (m : Fin 8) (i j : Nat) : maskAt m i j =
    [(i + j) % 2 == 0, i % 2 == 0, j % 3 == 0, (i + j) % 3 == 0, (i / 2 + j / 3) % 2 == 0,
      (i * j) % 2 + (i * j) % 3 == 0, ((i * j) % 2 + (i * j) % 3) % 2 == 0,
      ((i + j) % 2 + (i * j) % 3) % 2 == 0].getD m.val false := by
  fin_cases m <;> rfl

/-! ### How TRIAL ends -/

section Trial

variable {s : State} (h : s.Inv) (hp : s.pstage = .patternsPlaced ∨ s.pstage = .trialing)
include h hp

theorem selectedOk_of_placed : SelectedOk s := by
  rcases hp with hp | hp <;> exact h.selected_ok (PStage.reached_of_eq hp (by decide) (by decide))

theorem interleavedOk_of_placed : InterleavedOk s := by
  rcases hp with hp | hp <;> exact h.interleaved_ok (PStage.reached_of_eq hp (by decide) (by decide))

/-- The side of a symbol (10_state.md R36). -/
theorem side_of_placed : s.size.toNat % 2 = 1 ∧ 21 ≤ s.size.toNat := by
  have hsel := selectedOk_of_placed h hp
  have h1 := hsel.version_ge
  rw [hsel.size_eq]
  omega

/-- The bytes of FBUF whose bits are placed are written (43_interleave.md R232). -/
theorem exists_stream (cmd : Instr) {n : Nat} (hn : n ≤ 8 * s.totalCw.toNat) :
    ∃ bytes, readBuf cmd .fbuf ((n + 7) / 8) s = .ok bytes := by
  have hfinal := (interleavedOk_of_placed h hp).final_written
  have hwritten : s.written .fbuf ((n + 7) / 8) :=
    ⟨by have := hfinal.1; omega, fun i hi => hfinal.2 i (by omega)⟩
  cases hread : readBuf cmd .fbuf ((n + 7) / 8) s with
  | ok bytes => exact ⟨bytes, rfl⟩
  | error x => exact absurd hread (readBuf_ne_error h.mem_wf.1 hwritten x)

theorem exec_trial_of_placed {m : Fin 8} {g : Grid} (hg : s.holdsGrid s.size.toNat g) :
    ∃ f bytes, stdFcode s.selLevel.toNat m.val = some f
      ∧ readBuf (.trial m) .fbuf ((placedCount s.size.toNat s.totalCw.toNat g + 7) / 8) s = .ok bytes
      ∧ exec (.trial m) s = .next (s.tried m
          (placeSymbol s.size.toNat f m
            ((unpackBytes bytes).take (placedCount s.size.toNat s.totalCw.toNat g)) g)
          (placedCount s.size.toNat s.totalCw.toNat g)).complete := by
  obtain ⟨f, hf, -⟩ := stdFcode_table _ s.selLevel.isLt _ m.isLt
  obtain ⟨bytes, hread⟩ := exists_stream h hp (.trial m) (Nat.min_le_left _ (zigzag s.size.toNat g).length)
  refine ⟨f, bytes, hf, hread, ?_⟩
  have hstart : mayStart (.trial m) s := (stageOk_iff s (.trial m)).1 (by simpa [stageOk] using hp)
  have hload := (loadGrid_ok_iff h.mem_wf.1 (.trial m) _ _).2 hg
  rw [← placedCount] at hread
  rw [show exec (.trial m) s = runCommand (.trial m) (performTrial standardTables m) s from rfl,
    runCommand_of_mayStart hstart]
  simp only [performTrial, show standardTables.fcode = stdFcode from rfl, hf, drawSymbol, hload, hread]
  rfl

end Trial

/-! ### The symbol TRIAL leaves -/

section Symbol

variable {S : Nat} (hodd : S % 2 = 1) (hS : 21 ≤ S) {g : Grid} (hg : g.square S) {f : Nat} {m : Fin 8} {bits : Bits}

theorem square_writeFormat (hg : g.square S) : Grid.square S (g.writeFormat S f) := by
  rw [writeFormat_eq_writeAll]
  exact Grid.square_writeAll hg _ _

include hodd hS

theorem nodup_zigzag (g : Grid) : (zigzag S g).Nodup := by
  obtain ⟨k, rfl⟩ : ∃ k, S = 2 * k + 1 := ⟨S / 2, by omega⟩
  exact (nodup_visited (by omega)).filter _

theorem lt_of_mem_zigzag {g : Grid} {p : Nat × Nat} (h : p ∈ zigzag S g) : p.1 < S ∧ p.2 < S := by
  obtain ⟨k, rfl⟩ : ∃ k, S = 2 * k + 1 := ⟨S / 2, by omega⟩
  exact lt_of_mem_visited (by omega) (List.mem_of_mem_filter h)

include hg

/-- A cell of the zigzag holds its bit of the stream under the mask (45_placement_mask.md R271, R282). -/
theorem bit_placeSymbol_of_zigzag {i : Nat} {p : Nat × Nat} {b : Bool}
    (hcell : (zigzag S g)[i]? = some p) (hbit : bits[i]? = some b) :
    ((placeSymbol S f m bits g).cell p.1 p.2).bit = (b ^^ maskAt m p.1 p.2) := by
  obtain ⟨hr, hc⟩ := lt_of_mem_zigzag hodd hS (List.mem_of_getElem? hcell)
  rw [placeSymbol, cell_placeAll_of_getElem? (square_writeFormat hg) hr hc (nodup_zigzag hodd hS g) hcell hbit]
  rfl

variable {p : Nat × Nat} (hr : p.1 < S) (hc : p.2 < S)
  (hp : p ∉ (zigzag S g).take bits.length)
omit hodd
include hr hc hp

/-- A format cell that no bit of the stream has overwritten holds its bit of the format code
(45_placement_mask.md R276). -/
theorem bit_placeSymbol_of_formatCell {i : Nat} (hi : i < 15)
    (h : p = formatCell1 i ∨ p = formatCell2 S i) :
    ((placeSymbol S f m bits g).cell p.1 p.2).bit = f.testBit i := by
  rw [placeSymbol, cell_placeAll_of_not_mem (square_writeFormat hg) hr hc hp,
    cell_writeFormat_of_cell hg hS hr hc hi h]
  rfl

omit hS in
theorem cell_placeSymbol_of_other (h : ∀ i < 15, ¬ (p = formatCell1 i ∨ p = formatCell2 S i)) :
    (placeSymbol S f m bits g).cell p.1 p.2 = g.cell p.1 p.2 := by
  rw [placeSymbol, cell_placeAll_of_not_mem (square_writeFormat hg) hr hc hp,
    cell_writeFormat_of_not_cell hg hr hc h]

end Symbol

/-- The lists of R251 by bit index. -/
theorem formatCells1_eq : (List.range 15).map formatCell1 = [(0, 8), (1, 8), (2, 8), (3, 8), (4, 8), (5, 8), (7, 8),
    (8, 8), (8, 7), (8, 5), (8, 4), (8, 3), (8, 2), (8, 1), (8, 0)] := rfl

theorem formatCells2_eq {S : Nat} (hS : 21 ≤ S) : (List.range 15).map (formatCell2 S) = [(8, S - 1), (8, S - 2),
    (8, S - 3), (8, S - 4), (8, S - 5), (8, S - 6), (8, S - 7), (8, S - 8), (S - 7, 8), (S - 6, 8), (S - 5, 8),
    (S - 4, 8), (S - 3, 8), (S - 2, 8), (S - 1, 8)] := by
  obtain ⟨k, rfl⟩ := Nat.exists_eq_add_of_le hS
  simp [List.range_succ, formatCell2]
  omega

/-- The cells that the two lists have at one index. -/
theorem formatCell_of_getElem? {S i : Nat} {p : Nat × Nat}
    (h : ((List.range 15).map formatCell1)[i]? = some p ∨ ((List.range 15).map (formatCell2 S))[i]? = some p) :
    i < 15 ∧ (p = formatCell1 i ∨ p = formatCell2 S i) := by
  have hi : i < 15 := by
    rcases h with h | h <;> simpa using (List.getElem?_eq_some_iff.1 h).1
  simp only [List.getElem?_map, List.getElem?_range hi, Option.map_some, Option.some.injEq] at h
  exact ⟨hi, h.imp Eq.symm Eq.symm⟩

theorem tried_eq (s : State) (m : Fin 8) (g : Grid) (n : Nat) : (s.tried m g n).complete = { s with
    mem := (s.tried m g n).complete.mem
    scores := s.scores.set m (BitVec.ofNat 32 (penaltyOf s.size.toNat g.lines).total)
    penalty := (penaltyOf s.size.toNat g.lines).registers, placedBits := (s.tried m g n).complete.placedBits
    trialDone := s.trialDone ||| (1#8 <<< m.val), pstage := .trialing, pending := none, done := true } := rfl

/-- A bit placed is a bit of its byte of FBUF. -/
theorem bits_getElem?_of_holdsBytes {s : State} {bytes : List Byte} {n i : Nat}
    (hbytes : s.holdsBytes .fbuf bytes) (hlen : bytes.length = (n + 7) / 8) (hi : i < n) :
    ((unpackBytes bytes).take n)[i]? = (s.byte .fbuf (i / 8)).map fun b => b.getLsbD (7 - i % 8) := by
  rw [List.getElem?_take_of_lt hi, unpackBytes_getElem?, hbytes.2 (i / 8) (by omega)]

/-- Settles O43: the symbol is drawn by writes of module bits, of which no two of the stream meet. -/
theorem trialPlacesTheStreamUnderTheMask : Obligations.TrialPlacesTheStreamUnderTheMask := by
  intro s m g h hp hg S zz n masks fcell1 fcell2
  obtain ⟨hodd, hS⟩ := side_of_placed h hp
  have hm := h.mem_wf.1
  obtain ⟨f, bytes, hf, hread, hexec⟩ := exec_trial_of_placed (m := m) h hp hg
  obtain ⟨hlen, hbytes⟩ := (readBuf_ok_iff hm ..).1 hread
  change bytes.length = (n + 7) / 8 at hlen
  have hbit := fun i hi => bits_getElem?_of_holdsBytes (n := n) (i := i) hbytes hlen hi
  have hbits : ((unpackBytes bytes).take n).length = n := by
    rw [List.length_take, unpackBytes_length, hlen]
    exact Nat.min_eq_left (by omega)
  have hcells1 : (List.range 15).map formatCell1 = fcell1 := formatCells1_eq
  have hcells2 : (List.range 15).map (formatCell2 S) = fcell2 := formatCells2_eq hS
  obtain ⟨hside, hsquare⟩ : S ≤ Config.sMax ∧ g.square S := ⟨hg.1, hg.2.1, hg.2.2.1⟩
  change exec (.trial m) s = .next (s.tried m (placeSymbol S f m ((unpackBytes bytes).take n) g) n).complete at hexec
  generalize (unpackBytes bytes).take n = bits at hbit hbits hexec
  have hplaced := placedFrom_placeSymbol S f m bits g
  refine ⟨_, f, placeSymbol S f m bits g, hexec, hf, ?holds, fun r c _ _ => hplaced.2 r c, fun i p hi hp => ?stream,
    fun i p hcell hp => ?format, fun p hr hc hp h1 h2 => ?other, ?outside, tried_eq .., ?placed⟩
  case holds => exact (holdsGrid_storeGrid hside hm (hplaced.1 S hsquare)).of_mem_eq rfl
  case outside => exact keepsOutside_storeGrid hside hm (hplaced.1 S hsquare)
  case placed =>
    have hn : n ≤ 8 * s.totalCw.toNat := Nat.min_le_left ..
    have hcw := s.totalCw.isLt
    exact Nat.mod_eq_of_lt (by omega)
  case stream =>
    have hb := hbit i hi
    cases hbyte : s.byte .fbuf (i / 8) with
    | none =>
      rw [hbyte, Option.map_none, List.getElem?_eq_none_iff] at hb
      omega
    | some b =>
      rw [hbyte] at hb
      rw [bit_placeSymbol_of_zigzag hodd hS hsquare hp hb, maskAt_eq_getD]
      rfl
  case format =>
    rw [← hcells1, ← hcells2] at hcell
    obtain ⟨hi, hcell⟩ := formatCell_of_getElem? hcell
    obtain ⟨hr, hc⟩ := lt_of_formatCell hS hi hcell
    exact bit_placeSymbol_of_formatCell hS hsquare hr hc (hbits.symm ▸ hp) hi hcell
  case other =>
    rw [← hcells1, List.mem_map] at h1
    rw [← hcells2, List.mem_map] at h2
    refine cell_placeSymbol_of_other hsquare hr hc (hbits.symm ▸ hp) fun i hi hcell => ?_
    exact hcell.elim (fun h => h1 ⟨i, List.mem_range.2 hi, h.symm⟩) fun h => h2 ⟨i, List.mem_range.2 hi, h.symm⟩

end Sys2Proof.Machine
end

section
/-! PROOFS. The cells the position cursor visits, each at its place of the walk (45_placement_mask.md R280), and the
zigzag of the symbol BUILD stamps (R281). -/

namespace Sys2Proof.Machine

/-! ### The place of each cell -/

section Walk

variable {h : Nat} (h4 : 4 ≤ h)
include h4

theorem length_visited : (visited (2 * h + 1)).length = 2 * (2 * h + 1) * h := by
  rw [visited_eq_map h4, List.length_map, List.length_range]

/-- The cell visited in pair `p`, after `k` rows of it. -/
theorem visited_getElem? {p k : Nat} (hp : p < h) (hk : k < 2 * h + 1) (left : Bool) :
    (visited (2 * h + 1))[2 * (2 * h + 1) * p + (2 * k + left.toNat)]?
      = some (cursorIn (2 * h + 1) p k left).cell := by
  have hlt : 2 * (2 * h + 1) * p + (2 * k + left.toNat) < 2 * (2 * h + 1) * h := by
    have hleft := left.toNat_le
    calc _ < 2 * (2 * h + 1) * p + 2 * (2 * h + 1) := by omega
      _ = 2 * (2 * h + 1) * (p + 1) := by ring
      _ ≤ _ := Nat.mul_le_mul_left _ hp
  rw [visited_eq_map h4, List.getElem?_map, List.getElem?_range hlt, Option.map_some, cursorAt_eq hk]

/-- The place of a cell in the walk, by its column counted from the right without column 6 (R280). -/
theorem visited_getElem?_of_cell {r c : Nat} (hr : r < 2 * h + 1) (hc : c < 2 * h + 1) (h6 : c ≠ 6) :
    let q := if c < 6 then 2 * h + 1 - 2 - c else 2 * h + 1 - 1 - c
    let rows := if q / 2 % 2 = 0 then 2 * h + 1 - 1 - r else r
    (visited (2 * h + 1))[2 * (2 * h + 1) * (q / 2) + 2 * rows + q % 2]? = some (r, c) := by
  intro q rows
  have hq : q + 1 < 2 * h + 1 := by grind
  have hrows : rows < 2 * h + 1 := by grind
  have hcolumn : pairColumn (2 * h + 1) (q / 2) - q % 2 = c := by
    unfold pairColumn; grind
  have hleft : (decide (q % 2 = 1)).toNat = q % 2 := by
    rcases Nat.mod_two_eq_zero_or_one q with h | h <;> simp [h]
  have hplace := visited_getElem? h4 (show q / 2 < h by omega) hrows (decide (q % 2 = 1))
  rw [cell_cursorIn, hleft, hcolumn, ← Nat.add_assoc] at hplace
  rw [hplace]
  grind

theorem column_ne_six_of_mem_visited {r c : Nat} (hmem : (r, c) ∈ visited (2 * h + 1)) : c ≠ 6 := by
  rw [visited_eq_map h4, List.mem_map] at hmem
  obtain ⟨t, -, hcell⟩ := hmem
  obtain ⟨p, k, left, hk, rfl⟩ := exists_place (show 0 < 2 * h + 1 by omega) t
  rw [cursorAt_eq hk, cell_cursorIn, Prod.mk.injEq] at hcell
  have hleft := left.toNat_le
  unfold pairColumn at hcell
  split_ifs at hcell <;> omega

theorem mem_visited {r c : Nat} : (r, c) ∈ visited (2 * h + 1) ↔ r < 2 * h + 1 ∧ c < 2 * h + 1 ∧ c ≠ 6 := by
  constructor
  · intro hmem
    obtain ⟨hr, hc⟩ := lt_of_mem_visited h4 hmem
    exact ⟨hr, hc, column_ne_six_of_mem_visited h4 hmem⟩
  · rintro ⟨hr, hc, h6⟩
    exact List.mem_of_getElem? (visited_getElem?_of_cell h4 hr hc h6)

end Walk

/-- Settles O41: the walk in closed form has each cell at its place. -/
theorem zigzagVisitsEachCellOnce : Obligations.ZigzagVisitsEachCellOnce := by
  intro V h1 S
  obtain ⟨h, hS, h4⟩ : ∃ h, S = 2 * h + 1 ∧ 4 ≤ h := ⟨2 * V + 8, by omega, by omega⟩
  clear_value S
  subst hS
  refine ⟨nodup_visited h4, ?_, fun r c => mem_visited h4, fun r c => visited_getElem?_of_cell h4⟩
  rw [length_visited h4, Nat.add_sub_cancel]
  ring

/-! ### The zigzag -/

section Zigzag

variable {S : Nat} {g : Grid} (hodd : S % 2 = 1) (hS : 21 ≤ S) (hcolumn : ∀ r, r < S → (g.cell r 6).st = true)
include hodd hS hcolumn

/-- Where column 6 is structural, the zigzag is the free cells (R281). -/
theorem mem_zigzag {r c : Nat} : (r, c) ∈ zigzag S g ↔ r < S ∧ c < S ∧ (g.cell r c).st = false := by
  obtain ⟨h, rfl⟩ : ∃ h, S = 2 * h + 1 := ⟨S / 2, by omega⟩
  rw [zigzag, List.mem_filter, mem_visited (show 4 ≤ h by omega), Bool.not_eq_true']
  constructor
  · rintro ⟨⟨hr, hc, -⟩, hst⟩
    exact ⟨hr, hc, hst⟩
  · rintro ⟨hr, hc, hst⟩
    refine ⟨⟨hr, hc, ?_⟩, hst⟩
    rintro rfl
    simp [hcolumn r hr] at hst

/-- The length of the zigzag is the number of free cells, cell by cell. -/
theorem length_zigzag : (zigzag S g).length =
    ∑ r ∈ Finset.range S, ∑ c ∈ Finset.range S, (if (g.cell r c).st then 0 else 1) := by
  have hcells : (zigzag S g).toFinset =
      (Finset.range S ×ˢ Finset.range S).filter fun p => (g.cell p.1 p.2).st = false := by
    ext ⟨r, c⟩
    simp [mem_zigzag hodd hS hcolumn, and_assoc]
  rw [← List.toFinset_card_of_nodup (nodup_zigzag hodd hS g), hcells, Finset.card_filter, Finset.sum_product]
  refine Finset.sum_congr rfl fun r _ => Finset.sum_congr rfl fun c _ => ?_
  cases (g.cell r c).st <;> rfl

end Zigzag

/-! ### The symbol BUILD stamps -/

/-- Column 6 of the symbol is structural (44_matrix_patterns.md R242, R250). -/
theorem st_builtSymbol_column6 {V : Nat} (h1 : 1 ≤ V) (h40 : V ≤ 40) {r : Nat} (hr : r < 17 + 4 * V) :
    ((builtSymbol V).cell r 6).st = true := by
  have hfree := symbolAt_eq_none_iff (code := stdVcode V) (show 21 ≤ 17 + 4 * V by omega)
    (positions_of_version h1 h40) hr (show 6 < 17 + 4 * V by omega)
  rw [cell_builtSymbol h1 h40 hr (by omega)]
  cases hx : symbolAt (17 + 4 * V) (positionsOf V) (stdVcode V) r 6 with
  | none => exact absurd rfl (hfree.1 hx).2.2.1
  | some x => rfl

/-- Two squares that MAT holds have the same cells. -/
theorem State.holdsGrid.cell_eq {s : State} {n n' : Nat} {g g' : Grid} (h : s.holdsGrid n g)
    (h' : s.holdsGrid n' g') {r c : Nat} (hr : r < n) (hc : c < n) (hr' : r < n') (hc' : c < n') :
    g.cell r c = g'.cell r c := by
  obtain ⟨-, -, -, hcell⟩ := h
  obtain ⟨-, -, -, hcell'⟩ := h'
  exact Option.some.inj ((hcell r c hr hc).symm.trans (hcell' r c hr' hc'))

theorem State.holdsGrid.unique {s : State} {n : Nat} {g g' : Grid} (h : s.holdsGrid n g) (h' : s.holdsGrid n g') :
    g = g' := by
  have hcell := fun r c hr hc => h.cell_eq h' (r := r) (c := c) hr hc hr hc
  obtain ⟨-, hlen, hrows, -⟩ := h
  obtain ⟨-, hlen', hrows', -⟩ := h'
  exact Grid.ext_cell ⟨hlen, hrows⟩ ⟨hlen', hrows'⟩ hcell

theorem size_of_build {s u : State} (h : s.Inv) (hp : s.pstage = .interleaved) (hu : exec .build s = .next u) :
    u.size = s.size := by
  rw [exec_build_of_interleaved h hp] at hu
  generalize builtSymbol s.version.toNat = g at hu
  cases hu
  rfl

/-- Settles O42: the walk misses column 6 only, which is structural, and BUILD counts the cells that are not. -/
theorem zigzagHoldsEveryFreeCell : Obligations.ZigzagHoldsEveryFreeCell := by
  intro s u g h hp hu hg S
  have hsel := selectedOk_of_interleaved h hp
  have h1 := hsel.version_ge
  have h40 : s.version.toNat ≤ 40 := hsel.version_le
  have hside := side_le_sMax h40
  have hsize : S = 17 + 4 * s.version.toNat := by rw [← hsel.size_eq, ← size_of_build h hp hu]
  have hcell : ∀ r c, r < S → c < S → g.cell r c = (builtSymbol s.version.toNat).cell r c := fun r c hr hc =>
    hg.cell_eq (holdsGrid_of_build h hp hu) hr hc (by omega) (by omega)
  have hcolumn : ∀ r, r < S → (g.cell r 6).st = true := fun r hr => by
    rw [hcell r 6 hr (by omega), st_builtSymbol_column6 h1 h40 (hsize ▸ hr)]
  have hodd : S % 2 = 1 := by omega
  have hS : 21 ≤ S := by omega
  refine ⟨hcolumn, List.filter_sublist, nodup_zigzag hodd hS g, ?_, fun r c => mem_zigzag hodd hS hcolumn⟩
  rw [freeCells_of_build h hp hu, ← freeCount_builtSymbol h1 h40,
    freeCount_eq_sum (square_builtSymbol _) hside, ← hsize, length_zigzag hodd hS hcolumn]
  refine Finset.sum_congr rfl fun r hr => Finset.sum_congr rfl fun c hc => ?_
  rw [hcell r c (Finset.mem_range.1 hr) (Finset.mem_range.1 hc)]

end Sys2Proof.Machine
end

section
/-! PROOFS. A TRIAL or COMMIT draws over what a TRIAL before it has drawn as it draws over the symbol that BUILD left
(45_placement_mask.md R284). -/

namespace Sys2Proof.Machine

/-! ### Module bits written over module bits -/

/-- Writes of module bits leave the same square over two that differ in the module bits of the written cells only. -/
theorem Grid.writeAll_bitCell_congr {n : Nat} {g g' : Grid} (hg : g.square n) (hg' : g'.square n) {ps : List Stamp}
    (hst : ∀ r c, r < n → c < n → (g.cell r c).st = (g'.cell r c).st)
    (hcell : ∀ r c, r < n → c < n → untouched ps r c → g.cell r c = g'.cell r c) :
    g.writeAll bitCell ps = g'.writeAll bitCell ps := by
  induction ps generalizing g g' with
  | nil => exact Grid.ext_cell hg hg' fun r c hr hc => hcell r c hr hc fun x => List.not_mem_nil
  | cons p ps ih =>
    have hstep : ∀ r c, r < n → c < n → bitCell p.2.2 (g.cell r c) = bitCell p.2.2 (g'.cell r c) :=
      fun r c hr hc => by rw [bitCell, bitCell, hst r c hr hc]
    refine ih (Grid.square_modifyCell hg _ _ _) (Grid.square_modifyCell hg' _ _ _) (fun r c hr hc => ?_)
      fun r c hr hc huntouched => ?_ <;>
      rw [Grid.cell_modifyCell_of_lt hg hr hc, Grid.cell_modifyCell_of_lt hg' hr hc] <;> split
    · rw [hstep r c hr hc]
    · exact hst r c hr hc
    · exact hstep r c hr hc
    next hne =>
      refine hcell r c hr hc fun x hx => ?_
      obtain rfl | hx := List.mem_cons.1 hx
      · exact hne ⟨rfl, rfl⟩
      · exact huntouched x hx

/-- The writes of `writeFormat` and of `place(m)`, in order (R276, R282). -/
def symbolWrites (S f : Nat) (m : Fin 8) (cells : List (Nat × Nat)) (bits : Bits) : List Stamp :=
  formatWrites S f ++ placeWrites m cells bits

theorem placeSymbol_eq_writeAll (S f : Nat) (m : Fin 8) (bits : Bits) (g : Grid) :
    placeSymbol S f m bits g = g.writeAll bitCell (symbolWrites S f m (zigzag S g) bits) := by
  rw [placeSymbol, placeAll_eq_writeAll, writeFormat_eq_writeAll, symbolWrites, Grid.writeAll, Grid.writeAll,
    Grid.writeAll, List.foldl_append]

/-- Which cells are written depends neither on the code nor on the mask. -/
theorem untouched_symbolWrites_iff {S f : Nat} {m : Fin 8} {cells : List (Nat × Nat)} {bits : Bits} {r c : Nat} :
    untouched (symbolWrites S f m cells bits) r c ↔
      (∀ i < 15, ¬ ((r, c) = formatCell1 i ∨ (r, c) = formatCell2 S i))
        ∧ ∀ i < bits.length, cells[i]? ≠ some (r, c) := by
  rw [symbolWrites, untouched_append]
  refine and_congr ⟨fun h i hi hcell => h _ (mem_formatWrites.2 ⟨i, hi, hcell, rfl⟩), fun h x hx => ?_⟩
    ⟨fun h i hi hcell => h _ (mem_placeWrites.2 ⟨i, _, hcell, List.getElem?_eq_getElem hi, rfl⟩), fun h x hx => ?_⟩
  · obtain ⟨i, hi, hcell, -⟩ := mem_formatWrites.1 hx
    exact h i hi hcell
  · obtain ⟨i, b, hcell, hbit, -⟩ := mem_placeWrites.1 hx
    exact h i (List.getElem?_eq_some_iff.1 hbit).1 hcell

theorem Grid.placedFrom.zigzag_eq {g g' : Grid} (h : g.placedFrom g') (S : Nat) : zigzag S g' = zigzag S g := by
  rw [zigzag, zigzag]
  exact List.filter_congr fun p _ => by rw [h.2]

/-- A symbol drawn over a drawn symbol is as drawn over the first square. -/
theorem placeSymbol_placeSymbol {n : Nat} {g : Grid} (hg : g.square n) (S f f' : Nat) (m m' : Fin 8) (bits : Bits) :
    placeSymbol S f' m' bits (placeSymbol S f m bits g) = placeSymbol S f' m' bits g := by
  have hplaced := placedFrom_placeSymbol S f m bits g
  rw [placeSymbol_eq_writeAll S f' m' bits g, placeSymbol_eq_writeAll, hplaced.zigzag_eq]
  refine Grid.writeAll_bitCell_congr (hplaced.1 n hg) hg (fun r c _ _ => hplaced.2 r c) fun r c hr hc h => ?_
  rw [placeSymbol_eq_writeAll]
  exact Grid.cell_writeAll_of_untouched hg hr hc bitCell
    (untouched_symbolWrites_iff.2 (untouched_symbolWrites_iff.1 h))

theorem placedCount_placeSymbol (S T f : Nat) (m : Fin 8) (bits : Bits) (g : Grid) :
    placedCount S T (placeSymbol S f m bits g) = placedCount S T g := by
  rw [placedCount, placedCount, (placedFrom_placeSymbol ..).zigzag_eq]

/-! ### What TRIAL and COMMIT read -/

/-- MAT holds the square `g`, and `bits` are the bits of the stream in FBUF that have a cell in its zigzag (R282). -/
def State.supplies (s : State) (g : Grid) (bits : Bits) : Prop :=
  s.holdsGrid s.size.toNat g ∧ ∃ bytes, s.holdsBytes .fbuf bytes
    ∧ bytes.length = (placedCount s.size.toNat s.totalCw.toNat g + 7) / 8
    ∧ bits = (unpackBytes bytes).take (placedCount s.size.toNat s.totalCw.toNat g)

/-- A command draws the symbol exactly from what it reads. -/
theorem drawSymbol_ok_iff {s : State} (hm : Memory.rising s.mem) {cmd : Instr} {f : Nat} {m : Fin 8} {g' : Grid}
    {n : Nat} : drawSymbol cmd f m s = .ok (g', n) ↔ ∃ g bits, s.supplies g bits
      ∧ g' = placeSymbol s.size.toNat f m bits g ∧ n = placedCount s.size.toNat s.totalCw.toNat g := by
  constructor
  · intro h
    rw [drawSymbol] at h
    dsimp only at h
    split at h
    · simp at h
    next g hload =>
    split at h
    · simp at h
    next bytes hread =>
    obtain ⟨hlen, hbytes⟩ := (readBuf_ok_iff hm ..).1 hread
    simp only [Except.ok.injEq, Prod.mk.injEq] at h
    exact ⟨g, _, ⟨(loadGrid_ok_iff hm ..).1 hload, bytes, hbytes, hlen, rfl⟩, h.1.symm, h.2.symm⟩
  · rintro ⟨g, bits, ⟨hg, bytes, hbytes, hlen, rfl⟩, rfl, rfl⟩
    simp only [drawSymbol, (loadGrid_ok_iff hm ..).2 hg, (readBuf_ok_iff hm ..).2 ⟨hlen, hbytes⟩]

/-- After a symbol has been drawn, MAT and FBUF supply it and the same bits. -/
theorem State.supplies.redrawn {s t : State} (hm : Memory.rising s.mem) {g : Grid} {bits : Bits}
    (h : s.supplies g bits) (f : Nat) (m : Fin 8)
    (hmem : t.mem = (s.storeGrid (placeSymbol s.size.toNat f m bits g)).mem) (hsize : t.size = s.size)
    (htotal : t.totalCw = s.totalCw) : t.supplies (placeSymbol s.size.toNat f m bits g) bits := by
  obtain ⟨hg, bytes, hbytes, hlen, hbits⟩ := h
  obtain ⟨hside, hsquare⟩ := (placedFrom_placeSymbol s.size.toNat f m bits g).square_of_holdsGrid hg
  rw [State.supplies, hsize, htotal, placedCount_placeSymbol]
  refine ⟨(holdsGrid_storeGrid hside hm hsquare).of_mem_eq hmem, bytes, ⟨hbytes.1, fun i hi => ?_⟩, hlen, hbits⟩
  rw [← hbytes.2 i hi, ← byte_storeGrid hside hm hsquare .fbuf (Nat.lt_of_lt_of_le hi hbytes.1)]
  rw [State.byte, State.at, hmem, State.byte, State.at]

theorem State.supplies.unique {s : State} (hm : Memory.rising s.mem) {g g' : Grid} {bits bits' : Bits}
    (h : s.supplies g bits) (h' : s.supplies g' bits') : g = g' ∧ bits = bits' := by
  obtain ⟨hg, bytes, hbytes, hlen, rfl⟩ := h
  obtain ⟨hg', bytes', hbytes', hlen', rfl⟩ := h'
  obtain rfl := hg.unique hg'
  obtain rfl : bytes = bytes' := Except.ok.inj
    (((readBuf_ok_iff hm .commit ..).2 ⟨hlen, hbytes⟩).symm.trans
      ((readBuf_ok_iff hm .commit ..).2 ⟨hlen', hbytes'⟩))
  exact ⟨rfl, rfl⟩

/-! ### Drawing with a mask -/

/-- A TRIAL or COMMIT with mask `m` draws the square `g'` and places `n` bits. -/
def State.drawsSymbol (s : State) (m : Fin 8) (g' : Grid) (n : Nat) : Prop :=
  ∃ f g bits, stdFcode s.selLevel.toNat m.val = some f ∧ s.supplies g bits
    ∧ g' = placeSymbol s.size.toNat f m bits g ∧ n = placedCount s.size.toNat s.totalCw.toNat g

theorem State.drawsSymbol_iff {s : State} (hm : Memory.rising s.mem) (cmd : Instr) {m : Fin 8} {g : Grid} {n : Nat} :
    s.drawsSymbol m g n ↔
      ∃ f, stdFcode s.selLevel.toNat m.val = some f ∧ drawSymbol cmd f m s = .ok (g, n) := by
  simp only [State.drawsSymbol, drawSymbol_ok_iff hm, exists_and_left]

section Draw

variable {s t : State} {m : Fin 8} {g : Grid} {n : Nat} (h : s.drawsSymbol m g n)
include h

/-- The square that is drawn fits MAT. -/
theorem State.drawsSymbol.square : s.size.toNat ≤ Config.sMax ∧ g.square s.size.toNat := by
  obtain ⟨f, g₀, bits, -, ⟨hg, -⟩, rfl, -⟩ := h
  exact (placedFrom_placeSymbol ..).square_of_holdsGrid hg

variable (hm : Memory.rising s.mem)
include hm

theorem State.drawsSymbol.rising_storeGrid : Memory.rising (s.storeGrid g).mem := by
  obtain ⟨hside, hsquare⟩ := h.square
  exact Memory.rising_write (rising_gridCells (hside.trans (by decide)) 0 hsquare.2) hm

theorem State.drawsSymbol.unique {g' : Grid} {n' : Nat} (h' : s.drawsSymbol m g' n') : g = g' ∧ n = n' := by
  obtain ⟨f, g₀, bits, hf, hsupplies, rfl, rfl⟩ := h
  obtain ⟨f', g₀', bits', hf', hsupplies', rfl, rfl⟩ := h'
  obtain ⟨rfl, rfl⟩ := hsupplies.unique hm hsupplies'
  obtain rfl := Option.some.inj (hf.symm.trans hf')
  exact ⟨rfl, rfl⟩

/-- What a drawing leaves in MAT, a drawing with any mask draws over as over what MAT held before (R284). -/
theorem State.drawsSymbol.redrawn_iff (hmem : t.mem = (s.storeGrid g).mem) (hsize : t.size = s.size)
    (htotal : t.totalCw = s.totalCw) (hlevel : t.selLevel = s.selLevel) {m' : Fin 8} {g' : Grid} {n' : Nat} :
    t.drawsSymbol m' g' n' ↔ s.drawsSymbol m' g' n' := by
  have htm : Memory.rising t.mem := hmem ▸ h.rising_storeGrid hm
  obtain ⟨f, g₀, bits, -, hsupplies, rfl, -⟩ := h
  have hredrawn := hsupplies.redrawn hm f m hmem hsize htotal
  obtain ⟨hn, hlen, hrows, -⟩ := hsupplies.1
  have hplace := fun f' m' => placeSymbol_placeSymbol (n := s.size.toNat) ⟨hlen, hrows⟩ s.size.toNat f f' m m' bits
  rw [State.drawsSymbol, State.drawsSymbol, hlevel, hsize, htotal]
  constructor
  · rintro ⟨f', g', bits', hf', hsupplies', rfl, rfl⟩
    obtain ⟨rfl, rfl⟩ := hredrawn.unique htm hsupplies'
    exact ⟨f', g₀, bits, hf', hsupplies, hplace f' m', placedCount_placeSymbol ..⟩
  · rintro ⟨f', g', bits', hf', hsupplies', rfl, rfl⟩
    obtain ⟨rfl, rfl⟩ := hsupplies.unique hm hsupplies'
    exact ⟨f', _, bits, hf', hredrawn, (hplace f' m').symm, (placedCount_placeSymbol ..).symm⟩

end Draw

/-! ### Trials without an error -/

/-- A command that leaves ERR = 0 is performed by its family rule, in its stage. -/
theorem performed_of_exec {i : Instr} {s u : State} (he : exec i s = .next u) (herr : u.err = false) :
    ∃ t, mayStart i s ∧ familyRule i s = .ok t ∧ u = t.complete := by
  rw [exec_eq_finish, finish_eq_next_iff] at he
  have htables := staged_familyRule_followsTables i s
  obtain ⟨t, ht | ht, rfl⟩ := he
  · have hstart := mayStart_of_staged_ok ht
    rw [staged, if_pos ((stageOk_iff s i).2 hstart)] at ht
    exact ⟨t, hstart, ht, rfl⟩
  · rw [ht] at htables
    obtain ⟨hfail, -⟩ := htables
    simp [hfail] at herr

/-- Whether a trial may start does not depend on its mask (30_encoding.md R103). -/
theorem mayStart_trial_iff {s : State} (m m' : Fin 8) : mayStart (.trial m) s ↔ mayStart (.trial m') s := by
  simp [mayStart, stagesBefore]

/-- A TRIAL clears no error. -/
theorem err_of_exec_trial {s u : State} {m : Fin 8} (he : exec (.trial m) s = .next u) (herr : u.err = false) :
    s.err = false := by
  obtain ⟨t, -, hperf, rfl⟩ := performed_of_exec he herr
  rw [show familyRule (.trial m) s = performTrial standardTables m s from rfl] at hperf
  obtain ⟨e, x, hcase⟩ | ⟨f, ⟨x, -, hcase⟩ | ⟨g, n, -, hcase⟩⟩ := performTrial_cases standardTables m s <;>
    rw [hcase] at hperf <;> cases hperf
  exact herr

section Trial

variable {s : State} (hm : Memory.rising s.mem) {m : Fin 8}
include hm

theorem performTrial_ok_iff {t : State} : performTrial standardTables m s = .ok t ↔
    ∃ g n, s.drawsSymbol m g n ∧ t = s.tried m g n := by
  simp only [State.drawsSymbol_iff hm (.trial m), performTrial, show standardTables.fcode = stdFcode from rfl]
  cases hf : stdFcode s.selLevel.toNat m.val with
  | none => simp [raiseTable, raise]
  | some f =>
    cases hdraw : drawSymbol (.trial m) f m s with
    | error x => simp [hdraw]
    | ok q => obtain ⟨g, n⟩ := q; simp [hdraw, eq_comm]

theorem performCommit_ok_iff {t : State} : performCommit standardTables s = .ok t ↔
    ∃ g n, s.drawsSymbol (selectMask s.scores) g n ∧ t = s.committed (selectMask s.scores) g n := by
  simp only [State.drawsSymbol_iff hm .commit, performCommit, show standardTables.fcode = stdFcode from rfl]
  cases hf : stdFcode s.selLevel.toNat (selectMask s.scores).val with
  | none => simp [raiseTable, raise]
  | some f =>
    cases hdraw : drawSymbol .commit f (selectMask s.scores) s with
    | error x => simp [hdraw]
    | ok q => obtain ⟨g, n⟩ := q; simp [hdraw, eq_comm]

/-- A TRIAL that leaves ERR = 0 has drawn its symbol in its stage. -/
theorem exec_trial_inv {u : State} (he : exec (.trial m) s = .next u) (herr : u.err = false) :
    ∃ g n, mayStart (.trial m) s ∧ s.drawsSymbol m g n ∧ u = (s.tried m g n).complete := by
  obtain ⟨t, hstart, hperf, rfl⟩ := performed_of_exec he herr
  obtain ⟨g, n, hdraw, rfl⟩ := (performTrial_ok_iff hm).1 hperf
  exact ⟨g, n, hstart, hdraw, rfl⟩

theorem exec_trial_of_drawsSymbol {g : Grid} {n : Nat} (hstart : mayStart (.trial m) s)
    (hdraw : s.drawsSymbol m g n) : exec (.trial m) s = .next (s.tried m g n).complete := by
  rw [show exec (.trial m) s = runCommand (.trial m) (performTrial standardTables m) s from rfl,
    runCommand_of_mayStart hstart, (performTrial_ok_iff hm).2 ⟨g, n, hdraw, rfl⟩]
  rfl

/-- What a trial has drawn, every later trial and COMMIT draws over as if it had not run (R284). -/
theorem State.drawsSymbol.tried_iff {g : Grid} {n : Nat} (h : s.drawsSymbol m g n) {m' : Fin 8} {g' : Grid}
    {n' : Nat} : (s.tried m g n).complete.drawsSymbol m' g' n' ↔ s.drawsSymbol m' g' n' :=
  h.redrawn_iff hm rfl rfl rfl rfl

end Trial

/-- A square written over a square of the same side leaves nothing of it. -/
theorem at_storeGrid_storeGrid {k : Nat} (hk : k ≤ Config.sMax) {s : State} (hm : Memory.rising s.mem) {g g' : Grid}
    (hg : g.square k) (hg' : g'.square k) (a : Nat) :
    ((s.storeGrid g).storeGrid g').at a = (s.storeGrid g').at a := by
  have hm' : Memory.rising (s.storeGrid g).mem :=
    Memory.rising_write (rising_gridCells (hk.trans (by decide)) 0 hg.2) hm
  by_cases hin : inSquare k a
  · obtain ⟨r, c, hr, hc, rfl⟩ := hin
    rw [at_cell_storeGrid hk hm' hg' hr hc, at_cell_storeGrid hk hm hg' hr hc]
  · rw [keepsOutside_storeGrid hk hm' hg' a hin, keepsOutside_storeGrid hk hm hg a hin,
      keepsOutside_storeGrid hk hm hg' a hin]

/-- Settles O44: what a trial has drawn, the next draws over as over the symbol it started from. -/
theorem trialsAreIndependentOfTheirOrder : Obligations.TrialsAreIndependentOfTheirOrder := by
  intro s a b c m m' hwf ha hb hc _ herr
  have hm := hwf.1
  obtain ⟨g, n, hstart, hdraw, rfl⟩ := exec_trial_inv hm ha (err_of_exec_trial hb herr)
  obtain ⟨g', n', -, hdraw', rfl⟩ :=
    exec_trial_inv (s := (s.tried m g n).complete) (hdraw.rising_storeGrid hm) hb herr
  rw [hdraw.tried_iff hm] at hdraw'
  rw [exec_trial_of_drawsSymbol hm ((mayStart_trial_iff m m').1 hstart) hdraw'] at hc
  cases hc
  obtain ⟨hside, hsquare⟩ := hdraw.square
  refine ⟨fun x => at_storeGrid_storeGrid hside hm hsquare hdraw'.square.2 x, ?_, rfl, rfl⟩
  simp [State.tried]

end Sys2Proof.Machine
end

section
/-! PROOFS. Bounds of the penalty's components (46_penalty_select.md R307). -/

namespace Sys2Proof.Machine

/-! ### One line -/

theorem sum_runLengths (l : Line) : (runLengths l).sum = l.length := by
  fun_induction runLengths l with
  | case1 => rfl
  | case2 a => rfl
  | case3 a l k ks hruns ih => rw [hruns] at ih; simp at ih ⊢; omega
  | case4 a l hruns ih => rw [hruns] at ih; simp at ih
  | case5 a b l hne ih => simp at ih ⊢; omega

/-- Runs of length L ≥ 5 add L − 2 each, so a line adds at most its length without 2 (R301). -/
theorem runScore_le (l : Line) : runScore l ≤ l.length - 2 := by
  have hsum : ∀ ns : List Nat, (ns.map fun n => if 5 ≤ n then n - 2 else 0).sum ≤ ns.sum - 2 := by
    intro ns
    induction ns with
    | nil => simp
    | cons n ns ih => rw [List.map_cons, List.sum_cons, List.sum_cons]; split <;> omega
  rw [runScore, ← sum_runLengths l]
  exact hsum _

/-- Every window of 11 bits adds at most 40 (R303). -/
theorem finderScore_le (l : Line) : finderScore l ≤ 40 * (l.length - 10) := by
  induction l with
  | nil => simp [finderScore]
  | cons b l ih =>
    rw [finderScore, List.length_cons]
    split
    next hmem =>
      have hlength : ∀ w ∈ finderLike, w.length = 11 := by decide
      have hwindow := hlength _ hmem
      rw [List.length_take, List.length_cons] at hwindow
      omega
    · omega

theorem rowPairBlocks_le (a b : Line) : rowPairBlocks a b ≤ a.length - 1 := by
  fun_induction rowPairBlocks a b with
  | case1 x x' as y y' bs ih => simp at ih ⊢; split <;> omega
  | case2 => exact Nat.zero_le _

/-! ### A region -/

section Region

variable {n : Nat} {rows : List Line} (hrows : ∀ r ∈ rows, r.length = n)
include hrows

/-- Two adjacent rows have at most one block for each pair of adjacent columns (R302). -/
theorem blockCount_le : blockCount rows ≤ (rows.length - 1) * (n - 1) := by
  fun_induction blockCount rows with
  | case1 r r' rows ih =>
    have hpair := rowPairBlocks_le r r'
    rw [hrows r (by simp)] at hpair
    have hrest := ih fun r hr => hrows r (List.mem_cons_of_mem _ hr)
    simp only [List.length_cons, Nat.add_sub_cancel] at hrest ⊢
    calc _ ≤ (n - 1) + rows.length * (n - 1) := by omega
      _ = (rows.length + 1) * (n - 1) := by ring
  | case2 => exact Nat.zero_le _

variable (hlen : rows.length = n)
include hlen

/-- What is bounded on each line is bounded on all of them. -/
theorem sum_map_le_mul {f : Line → Nat} {k : Nat} (hf : ∀ l : Line, l.length = n → f l ≤ k) :
    (rows.map f).sum ≤ n * k := by
  have hsum := List.sum_le_card_nsmul (rows.map f) k fun x hx => by
    obtain ⟨l, hl, rfl⟩ := List.mem_map.1 hx
    exact hf l (hrows l hl)
  rwa [List.length_map, hlen, smul_eq_mul] at hsum

/-- The balance of dark and light is at most 50 percent off, counted twice (R304). -/
theorem balanceScore_le : balanceScore n rows ≤ 100 := by
  have hdark : (rows.map fun r => r.countP id).sum ≤ n * n :=
    sum_map_le_mul hrows hlen fun l hl => hl ▸ List.countP_le_length
  have hquot : ∀ d t : Nat, d ≤ t → ((100 * d - 50 * t) + (50 * t - 100 * d)) / t ≤ 50 := fun d t h =>
    Nat.div_le_of_le_mul (by omega)
  have := hquot _ _ hdark
  rw [balanceScore]
  omega

omit hrows in
theorem columns_length : (columns n rows).length = n ∧ ∀ c ∈ columns n rows, c.length = n := by
  refine ⟨by rw [columns, List.length_map, List.length_range], fun c hc => ?_⟩
  obtain ⟨i, -, rfl⟩ := List.mem_map.1 hc
  rw [List.length_map, hlen]

/-- The bounds of the components over a region of side n (R307). -/
theorem penaltyOf_le : let a := penaltyOf n rows
    a.a1 ≤ n * (n - 2) ∧ a.a2 ≤ n * (n - 2) ∧ a.a3 ≤ 3 * ((n - 1) * (n - 1))
      ∧ a.a4 ≤ n * (40 * (n - 10)) ∧ a.a5 ≤ n * (40 * (n - 10)) ∧ a.a6 ≤ 100 := by
  obtain ⟨hclen, hcolumns⟩ := columns_length hlen
  have hrun : ∀ l : Line, l.length = n → runScore l ≤ n - 2 := fun l hl => hl ▸ runScore_le l
  have hfinder : ∀ l : Line, l.length = n → finderScore l ≤ 40 * (n - 10) := fun l hl => hl ▸ finderScore_le l
  have hblocks := blockCount_le hrows
  rw [hlen] at hblocks
  exact ⟨sum_map_le_mul hrows hlen hrun, sum_map_le_mul hcolumns hclen hrun, Nat.mul_le_mul_left 3 hblocks,
    sum_map_le_mul hrows hlen hfinder, sum_map_le_mul hcolumns hclen hfinder, balanceScore_le hrows hlen⟩

/-- The total of a region that fits MAT fits 22 bits (R307). -/
theorem penaltyOf_total_lt (hn : n ≤ Config.sMax) : (penaltyOf n rows).total < 2 ^ 22 := by
  have hn : n ≤ 177 := hn
  obtain ⟨h1, h2, h3, h4, h5, h6⟩ := penaltyOf_le hrows hlen
  have hruns : n * (n - 2) ≤ 177 * 175 := Nat.mul_le_mul hn (by omega)
  have hblocks : (n - 1) * (n - 1) ≤ 176 * 176 := Nat.mul_le_mul (by omega) (by omega)
  have hfinders : n * (40 * (n - 10)) ≤ 177 * (40 * 167) := Nat.mul_le_mul hn (by omega)
  rw [Components.total]
  omega

end Region

theorem lines_length {n : Nat} {g : Grid} (hg : g.square n) :
    g.lines.length = n ∧ ∀ l ∈ g.lines, l.length = n := by
  obtain ⟨hlen, hrows⟩ := hg
  refine ⟨by rw [Grid.lines, List.length_map, hlen], fun l hl => ?_⟩
  obtain ⟨row, hrow, rfl⟩ := List.mem_map.1 hl
  rw [List.length_map, hrows row hrow]

end Sys2Proof.Machine
end

section
/-! PROOFS. The min-selector, and the symbol that COMMIT leaves after eight trials (46_penalty_select.md R312, R313). -/

namespace Sys2Proof.Machine

/-! ### The min-selector -/

/-- The better of two masks, the first where their scores are equal (R312). -/
def betterMask (scores : Vector Word 8) (best m : Fin 8) : Fin 8 :=
  if scores[m].toNat < scores[best].toNat then m else best

theorem selectMask_eq_foldl (scores : Vector Word 8) :
    selectMask scores = [1, 2, 3, 4, 5, 6, 7].foldl (betterMask scores) 0 := rfl

/-- The fold answers a mask with a score no higher than the first one's and any in the list. -/
theorem foldl_betterMask_le (scores : Vector Word 8) (l : List (Fin 8)) (best : Fin 8) :
    ∀ m ∈ best :: l, scores[l.foldl (betterMask scores) best].toNat ≤ scores[m].toNat := by
  induction l generalizing best with
  | nil => simp
  | cons x l ih =>
    have hbetter : scores[betterMask scores best x].toNat ≤ scores[best].toNat
        ∧ scores[betterMask scores best x].toNat ≤ scores[x].toNat := by
      unfold betterMask
      split <;> omega
    have hhead := ih (betterMask scores best x) _ List.mem_cons_self
    intro m hm
    simp only [List.mem_cons] at hm
    obtain rfl | rfl | hm := hm
    · exact hhead.trans hbetter.1
    · exact hhead.trans hbetter.2
    · exact ih _ m (List.mem_cons_of_mem _ hm)

/-- No mask's score is lower than the selected one's. -/
theorem selectMask_le (scores : Vector Word 8) (m : Fin 8) :
    scores[selectMask scores].toNat ≤ scores[m].toNat := by
  have hall : ∀ m : Fin 8, m ∈ (0 :: [1, 2, 3, 4, 5, 6, 7] : List (Fin 8)) := by decide
  exact foldl_betterMask_le scores [1, 2, 3, 4, 5, 6, 7] 0 m (hall m)

/-! ### Scores of trials -/

/-- SCORE[m] is the total penalty of the symbol that mask `m` draws. -/
def State.scored (s : State) (m : Fin 8) : Prop :=
  ∃ g n, s.drawsSymbol m g n ∧ s.scores[m] = BitVec.ofNat 32 (penaltyOf s.size.toNat g.lines).total

/-- A sequence of commands without an error goes on behind its first command. -/
theorem performCommands_cons {i : Instr} {is : List Instr} {s u : State}
    (h : performCommands (i :: is) s = .next u) (herr : u.err = false) :
    ∃ t, exec i s = .next t ∧ t.err = false ∧ performCommands is t = .next u := by
  rw [performCommands] at h
  cases he : exec i s with
  | next t =>
    simp only [he] at h
    split at h
    next hfail => cases h; simp [hfail] at herr
    next hok => exact ⟨t, rfl, Bool.eq_false_iff.2 hok, h⟩
  | fault f => simp [he] at h
  | refused r => simp [he] at h

/-- A trial scores its mask, and leaves every other score right. -/
theorem scored_of_exec_trial {s t : State} (hm : Memory.rising s.mem) {m : Fin 8} (he : exec (.trial m) s = .next t)
    (herr : t.err = false) :
    Memory.rising t.mem ∧ t.scored m ∧ ∀ m', s.scored m' → t.scored m' := by
  obtain ⟨g, n, -, hdraw, rfl⟩ := exec_trial_inv hm he herr
  have hown : (s.tried m g n).complete.scored m :=
    ⟨g, n, (hdraw.tried_iff hm).2 hdraw, Vector.getElem_set_self ..⟩
  refine ⟨hdraw.rising_storeGrid hm, hown, fun m' ⟨g', n', hdraw', hscore⟩ => ?_⟩
  by_cases hne : m = m'
  · exact hne ▸ hown
  · exact ⟨g', n', (hdraw.tried_iff hm).2 hdraw',
      (Vector.getElem_set_ne m.isLt m'.isLt fun h => hne (Fin.ext h)).trans hscore⟩

/-- Trials one after the other score each of their masks. -/
theorem scored_of_trials {l : List (Fin 8)} {is : List Instr} {s u : State} (hm : Memory.rising s.mem)
    (h : performCommands (l.map .trial ++ is) s = .next u) (herr : u.err = false) :
    ∃ t, Memory.rising t.mem ∧ performCommands is t = .next u ∧ (∀ m ∈ l, t.scored m)
      ∧ ∀ m, s.scored m → t.scored m := by
  induction l generalizing s with
  | nil => exact ⟨s, hm, h, by simp, fun _ => id⟩
  | cons m l ih =>
    obtain ⟨s', he, herr', hrest⟩ := performCommands_cons h herr
    obtain ⟨hm', hown, hkeeps⟩ := scored_of_exec_trial hm he herr'
    obtain ⟨t, ht, hend, hl, hall⟩ := ih hm' hrest
    exact ⟨t, ht, hend, List.forall_mem_cons.2 ⟨hall m hown, hl⟩, fun m' h' => hall m' (hkeeps m' h')⟩

/-! ### COMMIT -/

/-- A COMMIT that leaves ERR = 0 has drawn the symbol of the selected mask. -/
theorem exec_commit_inv {s u : State} (hm : Memory.rising s.mem) (he : exec .commit s = .next u)
    (herr : u.err = false) : ∃ g n, s.drawsSymbol (selectMask s.scores) g n
      ∧ u = (s.committed (selectMask s.scores) g n).complete := by
  obtain ⟨t, -, hperf, rfl⟩ := performed_of_exec he herr
  obtain ⟨g, n, hdraw, rfl⟩ := (performCommit_ok_iff hm).1 hperf
  exact ⟨g, n, hdraw, rfl⟩

/-- Settles O50: every score is its mask's in the state that COMMIT starts from, and COMMIT draws the symbol of the
least. -/
theorem theCommittedSymbolHasTheBestScore : Obligations.TheCommittedSymbolHasTheBestScore := by
  intro s u g hwf h herr hg
  obtain ⟨t, hm, hcommit, hscored, -⟩ := scored_of_trials hwf.1 h herr
  obtain ⟨v, he, hverr, hend⟩ := performCommands_cons hcommit herr
  obtain rfl : v = u := by simpa [performCommands] using hend
  obtain ⟨g', n, hdraw, rfl⟩ := exec_commit_inv hm he hverr
  obtain ⟨g'', n', hdraw'', hscore⟩ := hscored (selectMask t.scores) (List.mem_finRange _)
  obtain ⟨rfl, -⟩ := hdraw.unique hm hdraw''
  obtain ⟨hside, hsquare⟩ := hdraw.square
  have hheld : (t.committed (selectMask t.scores) g' n).complete.holdsGrid t.size.toNat g' :=
    (holdsGrid_storeGrid hside hm hsquare).of_mem_eq rfl
  obtain rfl := hg.unique hheld
  obtain ⟨hlen, hrows⟩ := lines_length hsquare
  have htotal := penaltyOf_total_lt hrows hlen hside
  refine ⟨rfl, ?_, selectMask_le t.scores⟩
  change (t.scores[selectMask t.scores]).toNat = _
  rw [hscore, BitVec.toNat_ofNat]
  exact Nat.mod_eq_of_lt (by omega)

end Sys2Proof.Machine
end

section
/-! PROOFS. The accumulator computes the penalty as the rules define it, rule by rule over lines and regions
(46_penalty_select.md R301 to R306). -/

namespace Sys2Proof.Machine

/-! ### Runs of a line -/

/-- The `l` bits of a line of length `n` from `i` on are a maximal run (R301). -/
abbrev isMaximalRun (n : Nat) (x : Nat → Bool) (i l : Nat) : Prop :=
  (∀ j < l, x (i + j) = x i) ∧ (i = 0 ∨ x (i - 1) ≠ x i) ∧ (i + l = n ∨ x (i + l) ≠ x i)

/-- What the maximal run that starts at `i` adds, if there is one (R301). -/
def runAt (n : Nat) (x : Nat → Bool) (i : Nat) : Nat :=
  ∑ l ∈ Finset.Icc 5 (n - i), if isMaximalRun n x i l then l - 2 else 0

theorem lineRuns_eq_sum_runAt (n : Nat) (x : Nat → Bool) : lineRuns n x = ∑ i ∈ Finset.range n, runAt n x i := rfl

/-- A line has one maximal run from `i` on at most. -/
theorem runAt_of_isMaximalRun {n i k : Nat} {x : Nat → Bool} (hk : i + k ≤ n) (hrun : isMaximalRun n x i k) :
    runAt n x i = if 5 ≤ k then k - 2 else 0 := by
  have honly : ∀ l, i + l ≤ n → isMaximalRun n x i l → l = k := by
    rintro l hl ⟨hsame, -, hend⟩
    obtain ⟨hsame', -, hend'⟩ := hrun
    rcases lt_trichotomy l k with hlt | heq | hlt
    · exact hend.elim (by omega) (absurd (hsame' l hlt))
    · exact heq
    · exact hend'.elim (by omega) (absurd (hsame k hlt))
  have hother : ∀ l ∈ Finset.Icc 5 (n - i), l ≠ k → (if isMaximalRun n x i l then l - 2 else 0) = 0 := by
    intro l hl hne
    rw [Finset.mem_Icc] at hl
    exact if_neg fun h => hne (honly l (by omega) h)
  rw [runAt, Finset.sum_eq_ite k hother, if_pos hrun]
  simp only [Finset.mem_Icc, show k ≤ n - i by omega, and_true]

/-- No run starts where the bit before is the same. -/
theorem runAt_succ_of_eq {n i : Nat} {x : Nat → Bool} (h : x i = x (i + 1)) : runAt n x (i + 1) = 0 :=
  Finset.sum_eq_zero fun _ _ => if_neg fun ⟨_, hstart, _⟩ => hstart.elim (by omega) (absurd h)

/-- The bits of a line by index. -/
def lineBit (l : Line) (i : Nat) : Bool := l.getD i false

@[simp] theorem lineBit_cons_zero (b : Bool) (l : Line) : lineBit (b :: l) 0 = b := rfl

@[simp] theorem lineBit_cons_succ (b : Bool) (l : Line) (i : Nat) : lineBit (b :: l) (i + 1) = lineBit l i := rfl

/-- The runs behind the first bit of a line are those of the line without it, but for one that the first bit
continues. -/
theorem runAt_cons {n i : Nat} {b : Bool} {l : Line} (h : i = 0 → b ≠ lineBit l 0) :
    runAt (n + 1) (lineBit (b :: l)) (i + 1) = runAt n (lineBit l) i := by
  have hstart : lineBit (b :: l) i ≠ lineBit l i ↔ i = 0 ∨ lineBit l (i - 1) ≠ lineBit l i := by
    cases i with
    | zero => simpa using h rfl
    | succ i => simp
  rw [runAt, runAt, Nat.add_sub_add_right]
  refine Finset.sum_congr rfl fun k _ => if_congr ?_ rfl rfl
  simp [isMaximalRun, Nat.add_right_comm _ 1, ← hstart]

theorem runLengths_cons_cons {b b' : Bool} {l : Line} {k : Nat} {ks : List Nat} (h : runLengths (b' :: l) = k :: ks) :
    runLengths (b :: b' :: l) = if b = b' then (k + 1) :: ks else 1 :: k :: ks := by
  rw [runLengths, h]

/-- The first of the run lengths is that of the maximal run at index 0, the others are those of the runs behind it. -/
theorem exists_runLengths_cons (b : Bool) (l : Line) : ∃ k ks, runLengths (b :: l) = k :: ks ∧ k ≤ l.length + 1
    ∧ isMaximalRun (l.length + 1) (lineBit (b :: l)) 0 k
    ∧ (ks.map fun n => if 5 ≤ n then n - 2 else 0).sum
        = ∑ i ∈ Finset.range l.length, runAt (l.length + 1) (lineBit (b :: l)) (i + 1) := by
  induction l generalizing b with
  | nil => exact ⟨1, [], rfl, le_rfl, by simp [isMaximalRun], rfl⟩
  | cons b' l ih =>
    obtain ⟨k, ks, hruns, hk, hrun, hsum⟩ := ih b'
    have hfirst := runAt_of_isMaximalRun (show 0 + k ≤ l.length + 1 by omega) hrun
    rw [runLengths_cons_cons hruns, List.length_cons]
    by_cases heq : b = b'
    · subst heq
      obtain ⟨hsame, -, hend⟩ := hrun
      refine ⟨k + 1, ks, if_pos rfl, by omega, ⟨fun j hj => ?_, .inl rfl, ?_⟩, ?_⟩
      · cases j with
        | zero => rfl
        | succ j => simpa using hsame j (by omega)
      · simpa [← Nat.add_assoc] using hend
      · rw [Finset.sum_range_succ', runAt_succ_of_eq (by simp), hsum]
        exact Finset.sum_congr rfl fun i _ => (runAt_cons (by simp)).symm
    · refine ⟨1, k :: ks, if_neg heq, by omega, ⟨by simp, .inl rfl, .inr (by simpa using Ne.symm heq)⟩, ?_⟩
      rw [List.map_cons, List.sum_cons, hsum, ← hfirst, Nat.add_comm,
        ← Finset.sum_range_succ' (runAt (l.length + 1) (lineBit (b' :: l)))]
      exact Finset.sum_congr rfl fun i _ => (runAt_cons fun _ => heq).symm

/-- Rule 1 over a line (R301). -/
theorem runScore_eq_lineRuns (l : Line) : runScore l = lineRuns l.length (lineBit l) := by
  cases l with
  | nil => rfl
  | cons b l =>
    obtain ⟨k, ks, hruns, hk, hrun, hsum⟩ := exists_runLengths_cons b l
    have hfirst := runAt_of_isMaximalRun (show 0 + k ≤ l.length + 1 by omega) hrun
    rw [runScore, hruns, List.map_cons, List.sum_cons, hsum, ← hfirst, Nat.add_comm, lineRuns_eq_sum_runAt,
      List.length_cons, Finset.sum_range_succ']

/-! ### Windows of a line -/

/-- The window of 11 bits from `i` on is one of the two literals (R303). -/
def isFinderAt (x : Nat → Bool) (i : Nat) : Bool :=
  decide ((List.range 11).map (fun j => x (i + j)) ∈ finderLike)

theorem lineFinders_eq_countP (n : Nat) (x : Nat → Bool) :
    lineFinders n x = 40 * (List.range (n - 10)).countP (isFinderAt x) := by
  rw [List.countP_eq_length_filter]
  rfl

theorem take_eq_map_lineBit {l : Line} {k : Nat} (hk : k ≤ l.length) : l.take k = (List.range k).map (lineBit l) := by
  refine List.ext_getElem (by simpa using hk) fun i h _ => ?_
  rw [List.length_take] at h
  rw [List.getElem_take, List.getElem_map, List.getElem_range, lineBit, List.getD_eq_getElem _ _ (by omega)]

/-- Rule 3 over a line (R303). -/
theorem finderScore_eq_lineFinders (l : Line) : finderScore l = lineFinders l.length (lineBit l) := by
  induction l with
  | nil => rfl
  | cons b l ih =>
    by_cases hl : 10 ≤ l.length
    · have hwindow : decide ((b :: l).take 11 ∈ finderLike) = isFinderAt (lineBit (b :: l)) 0 := by
        rw [take_eq_map_lineBit (by simpa using hl)]
        simp [isFinderAt]
      have hshift : isFinderAt (lineBit (b :: l)) ∘ Nat.succ = isFinderAt (lineBit l) := by
        funext i
        simp [isFinderAt, Nat.add_right_comm _ 1]
      rw [finderScore, ih, lineFinders_eq_countP, lineFinders_eq_countP, List.length_cons, Nat.sub_add_comm hl,
        List.range_succ_eq_map, List.countP_cons, List.countP_map, hshift, ← hwindow]
      simp only [decide_eq_true_eq]
      split <;> omega
    · have hnone : (b :: l).length - 10 = 0 := by rw [List.length_cons]; omega
      have hle := finderScore_le (b :: l)
      rw [hnone] at hle
      rw [lineFinders_eq_countP, hnone]
      exact Nat.le_zero.1 hle

/-! ### Regions -/

/-- The bits of a region by row and column, of the list of its rows. -/
def regionBit (rows : List Line) (r c : Nat) : Bool := lineBit (rows.getD r []) c

/-- A sum over a list by index. -/
theorem sum_map_eq_sum_range {α : Type} (d : α) (f : α → Nat) (l : List α) :
    (l.map f).sum = ∑ i ∈ Finset.range l.length, f (l.getD i d) := by
  induction l with
  | nil => rfl
  | cons a l ih =>
    rw [List.map_cons, List.sum_cons, ih, List.length_cons, Finset.sum_range_succ', Nat.add_comm]
    rfl

/-- The four cells of the block at row r and column c have one colour (R302). -/
abbrev isBlockAt (x : Nat → Nat → Bool) (r c : Nat) : Prop :=
  x r c = x r (c + 1) ∧ x r c = x (r + 1) c ∧ x r c = x (r + 1) (c + 1)

/-- Rule 2 over the first two rows of a region (R302). -/
theorem rowPairBlocks_eq_sum (a b : Line) (rows : List Line) (h : a.length = b.length) :
    rowPairBlocks a b
      = ∑ c ∈ Finset.range (a.length - 1), if isBlockAt (regionBit (a :: b :: rows)) 0 c then 1 else 0 := by
  fun_induction rowPairBlocks a b with
  | case1 x x' as y y' bs ih =>
    simp only [ih (by simpa using h), List.length_cons, Nat.add_sub_cancel]
    rw [Finset.sum_range_succ', Nat.add_comm]
    rfl
  | case2 a b hshort =>
    have ha : a.length - 1 = 0 := by
      match a, b with
      | [], _ | [_], _ => rfl
      | x :: x' :: as, [] | x :: x' :: as, [_] => simp at h
      | x :: x' :: as, y :: y' :: bs => exact absurd rfl (hshort x x' as y y' bs rfl)
    rw [ha]
    rfl

/-- The columns of a region are the rows of the transposed one (R300). -/
theorem regionBit_columns {n c : Nat} (rows : List Line) (hc : c < n) :
    regionBit (columns n rows) c = fun r => regionBit rows r c := by
  funext r
  rw [regionBit, columns, List.getD_eq_getElem _ _ (by simpa using hc), List.getElem_map, List.getElem_range, lineBit,
    regionBit, lineBit]
  exact rows.getD_map [] fun l => l.getD c false

theorem countP_id_eq_sum (l : Line) : l.countP id = ∑ c ∈ Finset.range l.length, (lineBit l c).toNat := by
  have hcount : l.countP id = (l.map Bool.toNat).sum := by
    induction l with
    | nil => rfl
    | cons b l ih => cases b <;> simp [ih, Nat.add_comm]
  rw [hcount, sum_map_eq_sum_range false]
  rfl

section Region

variable {n : Nat} {rows : List Line} (hrows : ∀ r ∈ rows, r.length = n)
include hrows

/-- Rule 2 over a region (R302). -/
theorem blockCount_eq_sum : blockCount rows = ∑ r ∈ Finset.range (rows.length - 1), ∑ c ∈ Finset.range (n - 1),
    if isBlockAt (regionBit rows) r c then 1 else 0 := by
  fun_induction blockCount rows with
  | case1 a b rows ih =>
    have ha := hrows a (by simp)
    have hb := hrows b (by simp)
    have hrest := ih fun r hr => hrows r (List.mem_cons_of_mem _ hr)
    simp only [List.length_cons, Nat.add_sub_cancel] at hrest ⊢
    rw [hrest, rowPairBlocks_eq_sum a b rows (ha.trans hb.symm), ha, Finset.sum_range_succ', Nat.add_comm]
    rfl
  | case2 rows hshort =>
    match rows with
    | [] | [_] => rfl
    | a :: b :: rows => exact absurd rfl (hshort a b rows)

/-- What a rule adds on each line by its index, it adds on the region's rows. -/
theorem sum_rows_eq {f : Line → Nat} {f' : (Nat → Bool) → Nat}
    (hf : ∀ l : Line, l.length = n → f l = f' (lineBit l)) :
    (rows.map f).sum = ∑ r ∈ Finset.range rows.length, f' (regionBit rows r) := by
  rw [sum_map_eq_sum_range []]
  refine Finset.sum_congr rfl fun r hr => hf _ (hrows _ ?_)
  rw [List.getD_eq_getElem _ _ (Finset.mem_range.1 hr)]
  exact List.getElem_mem _

variable (hlen : rows.length = n)
include hlen

omit hrows in
/-- What a rule adds on each line by its index, it adds on the region's columns. -/
theorem sum_columns_eq {f : Line → Nat} {f' : (Nat → Bool) → Nat}
    (hf : ∀ l : Line, l.length = n → f l = f' (lineBit l)) :
    ((columns n rows).map f).sum = ∑ c ∈ Finset.range n, f' fun r => regionBit rows r c := by
  obtain ⟨hclen, hcolumns⟩ := columns_length hlen
  rw [sum_rows_eq hcolumns hf, hclen]
  exact Finset.sum_congr rfl fun c hc => by rw [regionBit_columns rows (Finset.mem_range.1 hc)]

/-- Rule 4 over a region (R304). -/
theorem balanceScore_eq : balanceScore n rows = (100 * ((∑ r ∈ Finset.range n, ∑ c ∈ Finset.range n,
    (regionBit rows r c).toNat : Nat) : Int) - 50 * (n * n : Nat)).natAbs / (n * n) * 2 := by
  have hsum := sum_rows_eq hrows (f' := fun x => ∑ c ∈ Finset.range n, (x c).toNat)
    fun l hl => hl ▸ countP_id_eq_sum l
  rw [hlen] at hsum
  rw [balanceScore, hsum]
  congr 2
  omega

/-- The accumulator over a region is the rule over its bits (R306). -/
theorem penaltyOf_eq_specPenalty : penaltyOf n rows = specPenalty n (regionBit rows) := by
  have hruns : ∀ l : Line, l.length = n → runScore l = lineRuns n (lineBit l) := fun l hl =>
    hl ▸ runScore_eq_lineRuns l
  have hfinders : ∀ l : Line, l.length = n → finderScore l = lineFinders n (lineBit l) := fun l hl =>
    hl ▸ finderScore_eq_lineFinders l
  rw [penaltyOf, sum_rows_eq hrows hruns, sum_columns_eq hlen hruns, blockCount_eq_sum hrows,
    sum_rows_eq hrows hfinders, sum_columns_eq hlen hfinders, balanceScore_eq hrows hlen, hlen]
  rfl

end Region

theorem regionBit_lines (g : Grid) (r c : Nat) : regionBit g.lines r c = (g.cell r c).bit := by
  have hrow : g.lines.getD r [] = (g.getD r []).map MatCell.bit := g.getD_map [] fun row => row.map MatCell.bit
  rw [regionBit, hrow]
  exact (g.getD r []).getD_map MatCell.clear MatCell.bit

/-- Settles O45, rule by rule and line by line. -/
theorem penaltyIsTheRule : Obligations.PenaltyIsTheRule := by
  intro n g hlen hrows
  obtain ⟨hlines, hlengths⟩ := lines_length ⟨hlen, hrows⟩
  rw [penaltyOf_eq_specPenalty hlengths hlines]
  congr 1
  funext r c
  exact regionBit_lines g r c

end Sys2Proof.Machine
end

section
/-! PROOFS. The registers hold the penalty's components (46_penalty_select.md R307), and how SCORE ends (R314). -/

namespace Sys2Proof.Machine

/-! ### Bounds -/

/-- Settles O46 from the bounds of a region of any side. -/
theorem penaltyFitsTheRegisters : Obligations.PenaltyFitsTheRegisters := by
  intro n g hn hlen hrows a
  obtain ⟨hlines, hlengths⟩ := lines_length ⟨hlen, hrows⟩
  obtain ⟨h1, h2, h3, h4, h5, h6⟩ := penaltyOf_le hlengths hlines
  have htotal : a.total < 2 ^ 22 := penaltyOf_total_lt hlengths hlines hn
  have hruns : n * (n - 2) ≤ 177 * 175 := Nat.mul_le_mul hn (by omega)
  have hblocks : (n - 1) * (n - 1) ≤ 176 * 176 := Nat.mul_le_mul (by omega) (by omega)
  have hfinders : n * (40 * (n - 10)) ≤ 177 * (40 * 167) := Nat.mul_le_mul hn (by omega)
  have hfits : ∀ k ≤ a.total, (BitVec.ofNat 32 k).toNat = k := fun k hk => Nat.mod_eq_of_lt (by omega)
  have htotal_eq : a.total = a.a1 + a.a2 + a.a3 + a.a4 + a.a5 + a.a6 := rfl
  exact ⟨h1.trans hruns, h2.trans hruns, h3.trans (Nat.mul_le_mul_left 3 hblocks), h4.trans hfinders,
    h5.trans hfinders, h6, htotal, hfits _ (by omega), hfits _ (by omega), hfits _ (by omega), hfits _ (by omega),
    hfits _ (by omega), hfits _ (by omega), hfits _ le_rfl⟩

/-! ### SCORE -/

theorem exec_score_of_holdsGrid {s : State} {g : Grid} (hm : Memory.rising s.mem) (hn : 1 ≤ s.scoreN.toNat)
    (hg : s.holdsGrid s.scoreN.toNat g) : exec .score s = .next
      ({ s with penalty := (penaltyOf s.scoreN.toNat g.lines).registers } : State).complete := by
  have hside := hg.1
  have hperf : performScore s = .ok { s with penalty := (penaltyOf s.scoreN.toNat g.lines).registers } := by
    rw [performScore, if_neg (by omega), (loadGrid_ok_iff hm ..).2 hg]
  rw [show exec .score s = (performScore s).finish from rfl, hperf]
  rfl

theorem exec_score_param {s : State} (hn : s.scoreN.toNat = 0 ∨ 177 < s.scoreN.toNat) :
    exec .score s = .next (s.fail .score .param (BitVec.ofNat 32 (0x064 ||| (s.scoreN.toNat <<< 12)))).complete := by
  have hperf : performScore s = raiseParam s .score 0x064 s.scoreN.toNat :=
    if_pos (hn.imp (fun h => by omega) id)
  rw [show exec .score s = (performScore s).finish from rfl, hperf]
  rfl

/-- A line shorter than 5 has no run that counts (R314). -/
theorem runScore_of_lt {l : Line} (h : l.length < 5) : runScore l = 0 := by
  rw [runScore_eq_lineRuns, lineRuns_eq_sum_runAt]
  refine Finset.sum_eq_zero fun i _ => ?_
  rw [runAt, Finset.Icc_eq_empty (by omega), Finset.sum_empty]

/-- One cell is all dark or all light (R314). -/
theorem balanceScore_one (b : Bool) : balanceScore 1 [[b]] = 100 := by cases b <;> rfl

section Region

variable {n : Nat} {rows : List Line} (hrows : ∀ r ∈ rows, r.length = n) (hlen : rows.length = n)
include hrows hlen

theorem penaltyOf_runs_of_lt (hn : n < 5) : (penaltyOf n rows).a1 = 0 ∧ (penaltyOf n rows).a2 = 0 := by
  have hzero : ∀ l : Line, l.length = n → runScore l ≤ 0 := fun l hl => (runScore_of_lt (hl.trans_lt hn)).le
  obtain ⟨hclen, hcolumns⟩ := columns_length hlen
  exact ⟨Nat.le_zero.1 (sum_map_le_mul hrows hlen hzero), Nat.le_zero.1 (sum_map_le_mul hcolumns hclen hzero)⟩

theorem penaltyOf_finders_of_lt (hn : n < 11) : (penaltyOf n rows).a4 = 0 ∧ (penaltyOf n rows).a5 = 0 := by
  obtain ⟨-, -, -, h4, h5, -⟩ := penaltyOf_le hrows hlen
  rw [show n - 10 = 0 by omega] at h4 h5
  exact ⟨Nat.le_zero.1 h4, Nat.le_zero.1 h5⟩

theorem penaltyOf_one (hn : n = 1) : (penaltyOf n rows).a3 = 0 ∧ (penaltyOf n rows).a6 = 100 := by
  subst hn
  obtain ⟨row, rfl⟩ := List.length_eq_one_iff.1 hlen
  obtain ⟨b, rfl⟩ := List.length_eq_one_iff.1 (hrows row (by simp))
  exact ⟨rfl, balanceScore_one b⟩

end Region

/-- Settles O47: SCORE reads the region and lays the rule's components into the breakdown. -/
theorem scoreWritesTheBreakdown : Obligations.ScoreWritesTheBreakdown := by
  intro s n
  refine ⟨fun g hwf hn hg => ?_, exec_score_param, fun g hg => ?_⟩
  · obtain ⟨-, hlen, hrows, -⟩ := id hg
    rw [exec_score_of_holdsGrid hwf.1 hn hg, penaltyIsTheRule _ g hlen hrows]
    rfl
  · obtain ⟨-, hlen, hrows, -⟩ := hg
    obtain ⟨hlines, hlengths⟩ := lines_length ⟨hlen, hrows⟩
    exact ⟨penaltyOf_runs_of_lt hlengths hlines, penaltyOf_finders_of_lt hlengths hlines,
      penaltyOf_one hlengths hlines⟩

end Sys2Proof.Machine
end

section
/-! PROOFS. The selected mask is the first of the lowest scores (46_penalty_select.md R312), and COMMIT draws what a
TRIAL of it draws (R313). -/

namespace Sys2Proof.Machine

/-! ### The first of the lowest scores -/

/-- In a rising list of masks the fold answers the first of the lowest scores (R312). -/
theorem foldl_betterMask_lt (scores : Vector Word 8) (l : List (Fin 8)) (best : Fin 8)
    (hrising : (best :: l).Pairwise (· < ·)) :
    ∀ m ∈ best :: l, m < l.foldl (betterMask scores) best →
      scores[l.foldl (betterMask scores) best].toNat < scores[m].toNat := by
  induction l generalizing best with
  | nil =>
    intro m hm hlt
    obtain rfl := List.mem_singleton.1 hm
    exact absurd hlt (lt_irrefl _)
  | cons x l ih =>
    obtain ⟨hbest, hrest⟩ := List.pairwise_cons.1 hrising
    have hfirst := foldl_betterMask_le scores l (betterMask scores best x) _ List.mem_cons_self
    intro m hm hlt
    rw [List.mem_cons] at hm
    simp only [List.foldl_cons] at hlt ⊢
    by_cases hbetter : scores[x].toNat < scores[best].toNat
    · simp only [show betterMask scores best x = x from if_pos hbetter] at hfirst hlt ⊢
      obtain rfl | hm := hm
      · exact hfirst.trans_lt hbetter
      · exact ih x hrest m hm hlt
    · simp only [show betterMask scores best x = best from if_neg hbetter] at hlt ⊢
      have hkeep := ih best (hrising.sublist (.cons_cons _ (List.sublist_cons_self x l)))
      obtain rfl | hm := hm
      · exact hkeep m List.mem_cons_self hlt
      obtain rfl | hm := List.mem_cons.1 hm
      · have hbest := hkeep best List.mem_cons_self ((hbest m List.mem_cons_self).trans hlt)
        exact hbest.trans_le (Nat.le_of_not_lt hbetter)
      · exact hkeep m (List.mem_cons_of_mem _ hm) hlt

/-- Settles O48: a later mask replaces the recorded one only with a strictly lower score. -/
theorem theLeastMinimalScoreWins : Obligations.TheLeastMinimalScoreWins := by
  intro scores
  have hall : ∀ m : Fin 8, m ∈ (0 :: [1, 2, 3, 4, 5, 6, 7] : List (Fin 8)) := by decide
  exact ⟨selectMask_le scores, fun m hlt =>
    foldl_betterMask_lt scores [1, 2, 3, 4, 5, 6, 7] 0 (by decide) m (hall m) hlt⟩

/-! ### COMMIT beside TRIAL -/

theorem exec_commit_of_drawsSymbol {s : State} (hm : Memory.rising s.mem) {g : Grid} {n : Nat}
    (hstart : mayStart .commit s) (hdraw : s.drawsSymbol (selectMask s.scores) g n) :
    exec .commit s = .next (s.committed (selectMask s.scores) g n).complete := by
  rw [show exec .commit s = runCommand .commit (performCommit standardTables) s from rfl,
    runCommand_of_mayStart hstart, (performCommit_ok_iff hm).2 ⟨g, n, hdraw, rfl⟩]
  rfl

/-- With the patterns placed, every mask draws a symbol (R313: FCODE is never missing). -/
theorem exists_drawsSymbol {s : State} (h : s.Inv) (hp : PStage.reached .patternsPlaced s.pstage) (m : Fin 8) :
    ∃ g n, s.drawsSymbol m g n := by
  obtain ⟨f, hf, -⟩ := stdFcode_table _ s.selLevel.isLt _ m.isLt
  cases hdraw : drawSymbol .commit f m s with
  | error x => exact absurd hdraw (drawSymbol_ne_error h hp .commit f m x)
  | ok q => exact ⟨q.1, q.2, (State.drawsSymbol_iff h.mem_wf.1 .commit).2 ⟨f, hf, hdraw⟩⟩

/-- Settles O49: COMMIT and a TRIAL of the winning mask draw one symbol. -/
theorem commitPlacesTheWinningMask : Obligations.CommitPlacesTheWinningMask := by
  intro s h hp htried best
  have hm := h.mem_wf.1
  obtain ⟨g, n, hdraw⟩ := exists_drawsSymbol h (PStage.reached_of_eq hp (by decide) (by decide)) best
  have hcommit := exec_commit_of_drawsSymbol hm ((stageOk_iff s .commit).1 (by simp [stageOk, hp, htried])) hdraw
  have htrial := exec_trial_of_drawsSymbol hm ((stageOk_iff s (.trial best)).1 (by simp [stageOk, hp])) hdraw
  obtain ⟨hside, hsquare⟩ := hdraw.square
  exact ⟨_, _, hcommit, htrial, fun _ => rfl, rfl, keepsOutside_storeGrid hside hm hsquare, rfl⟩

end Sys2Proof.Machine
end

section
/-! PROOFS. The errors a command can end with, and what a failing command leaves (60_exceptions.md R350 to R356). -/

namespace Sys2Proof.Machine

/-! ### The errors of each command -/

/-- ERR, ERRCODE and ERRINFO (10_state.md R23, R27, R28). -/
def State.errors (s : State) : Bool × ErrCode × Word := (s.err, s.errCode, s.errInfo)

/-- The errors that a command's family rule raises on QRCE's tables (60_exceptions.md R350). -/
def ownErrors : Instr → List ErrCode
  | .encode => [.invalidMode, .param, .invalidCharacterSet]
  | .select => [.invalidMode, .invalidCorrectionLevel, .param, .dataTooLarge, .lengthField]
  | .ecgen | .build => [.internalTableLookup]
  | .score | .rsRaw => [.param]
  | .nop | .pad | .interleave | .trial _ | .commit | .runRaw | .run => []

/-- No family rule raises the errors of the decoder and of the stage check (30_encoding.md R105). -/
theorem ownErrors_ne {i : Instr} {e : ErrCode} (h : e ∈ ownErrors i) :
    e ≠ .none ∧ e ≠ .illegalCmd ∧ e ≠ .sequence := by
  have hall : ∀ e ∈ ownErrors i, e ≠ .none ∧ e ≠ .illegalCmd ∧ e ≠ .sequence := by
    cases i <;> simp [ownErrors]
  exact hall e h

/-- How a command ends as to errors: on success it leaves the error registers, on failure it has recorded one error
of the list and written nothing else (60_exceptions.md R354, R356). -/
def Perf.failsWith (i : Instr) (es : List ErrCode) (s : State) : Perf → Prop
  | .ok t => t.errors = s.errors
  | .failed t => ∃ e ∈ es, ∃ x, t = s.fail i e x
  | .stopped _ => True

theorem raise_failsWith {es : List ErrCode} {e : ErrCode} (he : e ∈ es) (i : Instr) (s : State) (x : Nat) :
    (raise s i e x).failsWith i es s := ⟨e, he, _, rfl⟩

/-- The standard CAP has an entry for version 40 and every level, so a search past it ends in DataTooLarge (R168). -/
theorem tooLarge_standard {l : Nat} (hl : l ≤ 3) : (tooLarge standardTables l).1 = .dataTooLarge := by
  obtain ⟨c, hc, -⟩ := stdCap_table Config.vMax (by decide) l (by omega) (by decide)
  rw [tooLarge, show standardTables.cap Config.vMax l = some c from hc]

/-- The fit loop misses no entry of the standard CAP (R163, R168). -/
theorem fitVersion_error {mode l n cnt k v : Nat} (hl : l ≤ 3) (h1 : 1 ≤ v) (hk : v + k ≤ 41) {e : SearchError}
    (h : fitVersion standardTables mode l n cnt k v = .error e) : e.1 ∈ [ErrCode.dataTooLarge, .lengthField] := by
  induction k generalizing v with
  | zero =>
    obtain rfl : tooLarge standardTables l = e := by simpa [fitVersion] using h
    simp [tooLarge_standard hl]
  | succ k ih =>
    obtain ⟨c, hc, -⟩ := stdCap_table v (by omega) l (by omega) h1
    simp only [fitVersion, show standardTables.cap v l = some c from hc] at h
    split_ifs at h
    · cases h
      simp
    · exact ih (by omega) (by omega) h

/-- With the standard tables the version search ends in DataTooLarge or E_LENGTH_FIELD, if in an error (R163,
R168). -/
theorem searchVersion_error {mode l n cnt : Nat} (hl : l ≤ 3) {e : SearchError}
    (h : searchVersion standardTables mode l n cnt = .error e) : e.1 ∈ [ErrCode.dataTooLarge, .lengthField] := by
  have hfirst := firstVersion_cases (n := n) hl le_rfl (by omega) le_rfl (by omega : 1 ≤ 41)
  obtain ⟨hfirst, -⟩ | ⟨v, c, hfirst, h1, -, hc, -⟩ := hfirst <;>
    rw [searchVersion, show firstVersion standardTables l n Config.vMax 1 = _ from hfirst] at h
  · cases h
    simp [tooLarge_standard hl]
  · obtain ⟨-, h40, -⟩ := stdCap_some hc
    exact fitVersion_error hl h1 (by have : Config.vMax = 40 := rfl; omega) h

section Rules

variable (s : State)

theorem performEncode_failsWith : (performEncode s).failsWith .encode (ownErrors .encode) s := by
  rw [performEncode]
  dsimp only
  split
  · exact raise_failsWith (by decide) ..
  split
  · exact raise_failsWith (by decide) ..
  split
  · trivial
  split
  · exact raise_failsWith (by decide) ..
  · rfl

theorem performSelect_failsWith :
    (performSelect standardTables s).failsWith .select (ownErrors .select) s := by
  rw [performSelect]
  split
  · exact raise_failsWith (by decide) ..
  split
  · exact raise_failsWith (by decide) ..
  next hl =>
  split
  · exact raise_failsWith (by decide) ..
  split
  next e hsearch =>
    have hmem := searchVersion_error (Nat.not_lt.1 hl) hsearch
    exact raise_failsWith (List.mem_of_mem_drop (i := 3) hmem) ..
  split
  · trivial
  · rfl

theorem performPad_failsWith : (performPad s).failsWith .pad (ownErrors .pad) s := by
  obtain ⟨f, -, hperf⟩ | ⟨x, -, hperf⟩ := performPad_cases s <;> rw [hperf]
  · trivial
  · rfl

theorem performEcgen_failsWith : (performEcgen standardTables s).failsWith .ecgen (ownErrors .ecgen) s := by
  rw [performEcgen]
  dsimp only
  split
  · exact raise_failsWith (by decide) ..
  · exact raise_failsWith (by decide) ..
  split
  · exact raise_failsWith (by decide) ..
  split
  · exact raise_failsWith (by decide) ..
  split
  · trivial
  split
  · exact raise_failsWith (by decide) ..
  · rfl

theorem performInterleave_failsWith : (performInterleave s).failsWith .interleave (ownErrors .interleave) s := by
  obtain ⟨f, -, hperf⟩ | ⟨f, -, hperf⟩ | ⟨-, -, out, -, -, -, ⟨-, f, hperf⟩ | ⟨-, hperf⟩⟩ :=
    performInterleave_cases s <;> rw [hperf]
  · trivial
  · trivial
  · trivial
  · rfl

theorem errors_built (V : Nat) (P : List Nat) (code : Option Nat) : (s.built V P code).errors = s.errors := by
  obtain ⟨g, n, -, hbuilt⟩ := s.built_eq_storeGrid V P code
  rw [hbuilt]
  rfl

theorem performBuild_failsWith : (performBuild standardTables s).failsWith .build (ownErrors .build) s := by
  rw [performBuild]
  split
  · exact raise_failsWith (by decide) ..
  split
  · exact errors_built ..
  split
  · exact raise_failsWith (by decide) ..
  · exact errors_built ..

/-- FCODE is never missing (45_placement_mask.md R275), so TRIAL raises no error of its own. -/
theorem performTrial_failsWith (m : Fin 8) :
    (performTrial standardTables m s).failsWith (.trial m) (ownErrors (.trial m)) s := by
  obtain ⟨f, hf, -⟩ := stdFcode_table _ s.selLevel.isLt _ m.isLt
  simp only [performTrial, show standardTables.fcode = stdFcode from rfl, hf]
  split
  · trivial
  · rfl

theorem performCommit_failsWith : (performCommit standardTables s).failsWith .commit (ownErrors .commit) s := by
  obtain ⟨f, hf, -⟩ := stdFcode_table _ s.selLevel.isLt _ (selectMask s.scores).isLt
  simp only [performCommit, show standardTables.fcode = stdFcode from rfl, hf]
  split
  · trivial
  · rfl

theorem performScore_failsWith : (performScore s).failsWith .score (ownErrors .score) s := by
  rw [performScore]
  split
  · exact raise_failsWith (by decide) ..
  split
  · trivial
  · rfl

/-- GEN has an entry for every RS_K that passes the check, and its division misses no lookup (42_gf_rs.md R201). -/
theorem performRsRaw_failsWith : (performRsRaw standardTables s).failsWith .rsRaw (ownErrors .rsRaw) s := by
  rw [performRsRaw]
  dsimp only
  split
  · exact raise_failsWith (by decide) ..
  next hk =>
  split
  · exact raise_failsWith (by decide) ..
  obtain ⟨hk7, hk68⟩ : 7 ≤ s.rsK.toNat ∧ s.rsK.toNat ≤ 68 := by
    simpa [Config.kMin, Config.kMax] using hk
  obtain ⟨gen, hgen, hgl⟩ := stdGen_table s.rsK.toNat (by omega) hk7
  simp only [genOf_standard, hgen]
  split
  · trivial
  next data _ =>
  obtain ⟨e, hdiv, -⟩ := rsDiv_standard hgl (by omega) data
  rw [hdiv]
  rfl

end Rules

section Commands

variable {s : State} {i : Instr} (hrun : i ≠ .run) (hraw : i ≠ .runRaw)
include hrun hraw

/-- Every command but RUN and RUN_RAW raises its own errors only. -/
theorem familyRule_failsWith : (familyRule i s).failsWith i (ownErrors i) s := by
  cases i with
  | nop => rfl
  | encode => exact performEncode_failsWith s
  | select => exact performSelect_failsWith s
  | pad => exact performPad_failsWith s
  | ecgen => exact performEcgen_failsWith s
  | interleave => exact performInterleave_failsWith s
  | build => exact performBuild_failsWith s
  | trial m => exact performTrial_failsWith s m
  | commit => exact performCommit_failsWith s
  | score => exact performScore_failsWith s
  | rsRaw => exact performRsRaw_failsWith s
  | run => exact absurd rfl hrun
  | runRaw => exact absurd rfl hraw

/-- A sub-command that succeeds leaves ERR, ERRCODE and ERRINFO. -/
theorem errors_of_staged_ok {t : State} (h : staged i (familyRule i) s = .ok t) : t.errors = s.errors := by
  obtain ⟨-, hstaged⟩ | hstaged := staged_cases i (familyRule i) s <;> rw [hstaged] at h
  · have hfails := familyRule_failsWith (s := s) hrun hraw
    rwa [h] at hfails
  · cases h

/-- A family rule that fails has recorded one of its command's own errors. -/
theorem fail_of_familyRule_failed {t : State} (h : familyRule i s = .failed t) :
    ∃ e ∈ ownErrors i, ∃ x, t = s.fail i e x := by
  have hfails := familyRule_failsWith (s := s) hrun hraw
  rwa [h] at hfails

/-- A command that fails has recorded E_SEQUENCE, out of its stage, or an error of its own, in it. -/
theorem fail_of_staged_failed {t : State} (h : staged i (familyRule i) s = .failed t) :
    ∃ e x, t = s.fail i e x ∧ (e = .sequence ∨ (mayStart i s ∧ e ∈ ownErrors i)) := by
  obtain ⟨hstart, hstaged⟩ | hstaged := staged_cases i (familyRule i) s <;> rw [hstaged] at h
  · obtain ⟨e, he, x, ht⟩ := fail_of_familyRule_failed hrun hraw h
    exact ⟨e, x, ht, .inr ⟨hstart, he⟩⟩
  · cases h
    exact ⟨_, _, rfl, .inl rfl⟩

end Commands

theorem pstage_fail_own {i : Instr} {e : ErrCode} (he : e ∈ ownErrors i) (hscore : i ≠ .score) (s : State)
    (x : Word) : (s.fail i e x).pstage = .failed := by
  obtain ⟨-, hill, hseq⟩ := ownErrors_ne he
  exact if_pos ⟨hill, hseq, hscore⟩

/-- Sub-commands that succeed leave ERR, ERRCODE and ERRINFO. -/
theorem errors_of_performAll_ok {l : List Instr} (hl : ∀ i ∈ l, i ≠ .run ∧ i ≠ .runRaw) {s t : State}
    (h : performAll (l.map fun i => staged i (familyRule i)) s = .ok t) : t.errors = s.errors := by
  refine performAll_ok (P := fun u => u.errors = s.errors) (fun p hp a b ha hb => ?_) rfl h
  obtain ⟨i, hi, rfl⟩ := List.mem_map.1 hp
  exact (errors_of_staged_ok (hl i hi).1 (hl i hi).2 hb).trans ha

/-- RUN and RUN_RAW are sequences of other commands (47_control.md R332, R333). -/
theorem staged_composite {i : Instr} (hi : i = .run ∨ i = .runRaw) : ∃ l : List Instr,
    (∀ j ∈ l, j ≠ .run ∧ j ≠ .runRaw)
      ∧ ∀ s, staged i (familyRule i) s = performAll (l.map fun j => staged j (familyRule j)) s := by
  obtain rfl | rfl := hi
  · exact ⟨.encode :: rawPipeline, by decide, fun _ => rfl⟩
  · exact ⟨rawPipeline, by decide, fun _ => rfl⟩

/-- A command that succeeds leaves ERR, ERRCODE and ERRINFO. -/
theorem errors_of_ok {i : Instr} {s t : State} (h : staged i (familyRule i) s = .ok t) : t.errors = s.errors := by
  by_cases hi : i = .run ∨ i = .runRaw
  · obtain ⟨l, hl, hstaged⟩ := staged_composite hi
    exact errors_of_performAll_ok hl (hstaged s ▸ h)
  · obtain ⟨hrun, hraw⟩ := not_or.1 hi
    exact errors_of_staged_ok hrun hraw h

/-- A command that completes with ERR = 1, which was 0, has failed. -/
theorem failed_of_exec {i : Instr} {s u : State} (hs : s.err = false) (he : exec i s = .next u)
    (hu : u.err = true) : ∃ t, staged i (familyRule i) s = .failed t ∧ u = t.complete := by
  rw [exec_eq_finish, finish_eq_next_iff] at he
  obtain ⟨t, ht | ht, rfl⟩ := he
  · have herr : t.err = s.err := congrArg Prod.fst (errors_of_ok ht)
    simp [herr, hs] at hu
  · exact ⟨t, ht, rfl⟩

/-- Settles O20: a command that fails has recorded its error, by E_SEQUENCE or by one of its own, and completed. -/
theorem errorsArePrecise : Obligations.ErrorsArePrecise := by
  intro s u i hrun hraw hs he hu
  obtain ⟨t, ht, rfl⟩ := failed_of_exec hs he hu
  obtain ⟨e, x, rfl, hown⟩ := fail_of_staged_failed hrun hraw ht
  refine ⟨rfl, ?_⟩
  obtain rfl | ⟨-, hown⟩ := hown
  · simp [State.fail]
  · obtain ⟨-, hill, hseq⟩ := ownErrors_ne hown
    simp [State.fail, hill, hseq]

end Sys2Proof.Machine
end

section
/-! PROOFS. Sub-commands in a state that meets the invariant: in their stages those behind a stage check succeed, and
no lookup misses on the standard tables (30_encoding.md R103, 60_exceptions.md R352). -/

namespace Sys2Proof.Machine

/-! ### Commands that leave no failure -/

/-- A command that started in its stage, and left another stage than FAILED, was performed. -/
theorem ok_of_exec {i : Instr} {s u : State} (hrun : i ≠ .run) (hraw : i ≠ .runRaw) (hscore : i ≠ .score)
    (hstart : mayStart i s) (he : exec i s = .next u) (hu : u.pstage ≠ .failed) :
    ∃ t, staged i (familyRule i) s = .ok t ∧ u = t.complete := by
  rw [exec_eq_finish, finish_eq_next_iff] at he
  obtain ⟨t, ht | ht, rfl⟩ := he
  · exact ⟨t, ht, rfl⟩
  · rw [staged, if_pos ((stageOk_iff s i).2 hstart)] at ht
    obtain ⟨e, hown, x, rfl⟩ := fail_of_familyRule_failed hrun hraw ht
    exact absurd (pstage_fail_own hown hscore s x) hu

/-- A command without errors of its own does not fail in its stage. -/
theorem staged_ne_failed_of_ownErrors_nil {i : Instr} {s : State} (hrun : i ≠ .run) (hraw : i ≠ .runRaw)
    (hstart : mayStart i s) (hown : ownErrors i = []) (t : State) : staged i (familyRule i) s ≠ .failed t := by
  intro h
  rw [staged, if_pos ((stageOk_iff s i).2 hstart)] at h
  obtain ⟨e, he, -⟩ := fail_of_familyRule_failed hrun hraw h
  simp [hown] at he

/-- The commands that could raise InternalTableLookup themselves start behind a stage check. -/
theorem stagesBefore_of_tableLookup {i : Instr} (hi : ErrCode.internalTableLookup ∈ ownErrors i) :
    stagesBefore i ≠ none := by
  cases i <;> simp [ownErrors, stagesBefore] at hi ⊢

section Inv

variable {s : State} (h : s.Inv)
include h

/-- The data that ECGEN reads in its stage. -/
theorem exists_data_of_padded (hp : s.pstage = .padded) :
    ∃ data, s.holdsBytes .bbuf data ∧ data.length = s.capBits.toNat / 8 := by
  have hwritten := (h.padded_ok (PStage.reached_of_eq hp (by decide) (by decide))).data_written
  cases hread : readBuf .ecgen .bbuf (s.capBits.toNat / 8) s with
  | error f => exact absurd hread (readBuf_ne_error h.mem_wf.1 hwritten f)
  | ok data =>
    obtain ⟨hlen, hdata⟩ := (readBuf_ok_iff h.mem_wf.1 ..).1 hread
    exact ⟨data, hdata, hlen⟩

theorem staged_ecgen_ok (hstart : mayStart .ecgen s) :
    ∃ t, staged .ecgen (familyRule .ecgen) s = .ok t := by
  have hp : s.pstage = .padded := List.mem_singleton.1 (hstart.stage_mem rfl)
  obtain ⟨data, hdata, hlen⟩ := exists_data_of_padded h hp
  obtain ⟨u, -, -, -, he, -, -, -, -, -, -, -, -, -, hu⟩ := ecgenWritesTheCorrectionBlocks s data h hp hdata hlen
  obtain ⟨t, ht, -⟩ := ok_of_exec (by decide) (by decide) (by decide) hstart he (by rw [hu]; simp)
  exact ⟨t, ht⟩

theorem staged_build_ok (hstart : mayStart .build s) :
    ∃ t, staged .build (familyRule .build) s = .ok t := by
  have hp : s.pstage = .interleaved := List.mem_singleton.1 (hstart.stage_mem rfl)
  obtain ⟨t, ht, -⟩ := ok_of_exec (by decide) (by decide) (by decide) hstart (exec_build_of_interleaved h hp)
    (by rw [complete_builtWith]; simp)
  exact ⟨t, ht⟩

/-- In their stage the commands behind a stage check succeed. -/
theorem staged_ok_of_mayStart {i : Instr} (hi : stagesBefore i ≠ none) (hstart : mayStart i s) :
    ∃ t, staged i (familyRule i) s = .ok t ∧ t.Inv := by
  have hsound := staged_sound_of_stagesBefore h hi
  have hne : ∀ t, staged i (familyRule i) s ≠ .failed t := by
    intro t
    cases i with
    | ecgen => obtain ⟨t', ht'⟩ := staged_ecgen_ok h hstart; simp [ht']
    | build => obtain ⟨t', ht'⟩ := staged_build_ok h hstart; simp [ht']
    | pad | interleave | trial | commit =>
      exact staged_ne_failed_of_ownErrors_nil (by simp) (by simp) hstart rfl t
    | nop | encode | select | score | runRaw | run | rsRaw => exact absurd rfl hi
  cases hres : staged i (familyRule i) s with
  | ok t => rw [hres] at hsound; exact ⟨t, rfl, hsound.1⟩
  | failed t => exact absurd hres (hne t)
  | stopped f => rw [hres] at hsound; exact hsound.elim

theorem errCode_of_staged_failed {i : Instr} (hrun : i ≠ .run) (hraw : i ≠ .runRaw) {t : State}
    (hfail : staged i (familyRule i) s = .failed t) : t.errCode ≠ .internalTableLookup := by
  obtain ⟨e, x, rfl, rfl | ⟨hstart, hown⟩⟩ := fail_of_staged_failed hrun hraw hfail
  · simp
  · rintro (rfl : e = _)
    obtain ⟨t', ht', -⟩ := staged_ok_of_mayStart h (stagesBefore_of_tableLookup hown) hstart
    simp [ht'] at hfail

end Inv

/-! ### Sequences of sub-commands -/

/-- What holds of a state and the sub-commands still to come, and is kept as each succeeds, holds where a sequence
fails. -/
theorem performAll_failed_at {P : List Instr → State → Prop}
    (hP : ∀ i l s t, P (i :: l) s → staged i (familyRule i) s = .ok t → P l t) {l : List Instr} {s t : State}
    (hs : P l s) (h : performAll (l.map fun i => staged i (familyRule i)) s = .failed t) :
    ∃ i l' u, P (i :: l') u ∧ staged i (familyRule i) u = .failed t := by
  induction l generalizing s with
  | nil => simp [performAll] at h
  | cons i l ih =>
    rw [List.map_cons] at h
    cases hres : staged i (familyRule i) s with
    | ok s' => rw [performAll_cons_ok hres] at h; exact ih (hP i l s s' hs hres) h
    | failed s' => rw [performAll_cons_failed hres] at h; cases h; exact ⟨i, l, s, hs, hres⟩
    | stopped f => simp [performAll_cons_stopped hres] at h

/-- Sub-commands to come, none of them RUN or RUN_RAW, from a state that meets the invariant. -/
def invBefore (l : List Instr) (s : State) : Prop := s.Inv ∧ ∀ i ∈ l, i ≠ .run ∧ i ≠ .runRaw

theorem invBefore_of_ok (i : Instr) (l : List Instr) (s t : State) (h : invBefore (i :: l) s)
    (ht : staged i (familyRule i) s = .ok t) : invBefore l t := by
  obtain ⟨hs, hl⟩ := h
  obtain ⟨⟨hrun, hraw⟩, hl⟩ := List.forall_mem_cons.1 hl
  have hsound := staged_sound_single hs hrun hraw
  rw [ht] at hsound
  exact ⟨hsound.1, hl⟩

theorem errCode_of_performAll_failed {l : List Instr} {s t : State} (h : invBefore l s)
    (hfail : performAll (l.map fun i => staged i (familyRule i)) s = .failed t) :
    t.errCode ≠ .internalTableLookup := by
  obtain ⟨i, l', u, ⟨hu, hl⟩, hi⟩ := performAll_failed_at invBefore_of_ok h hfail
  obtain ⟨hrun, hraw⟩ := hl i List.mem_cons_self
  exact errCode_of_staged_failed hu hrun hraw hi

/-- Settles O58: a command that completes with ERR = 1 has failed, by itself or in a sub-command, and in a state that
meets the invariant none fails at a lookup. -/
theorem standardTablesNeverMiss : Obligations.StandardTablesNeverMiss := by
  intro s u i h hs he hu
  obtain ⟨t, ht, rfl⟩ := failed_of_exec hs he hu
  rw [State.complete_errCode]
  by_cases hi : i = .run ∨ i = .runRaw
  · obtain ⟨l, hl, hstaged⟩ := staged_composite hi
    exact errCode_of_performAll_failed ⟨h, hl⟩ (hstaged s ▸ ht)
  · obtain ⟨hrun, hraw⟩ := not_or.1 hi
    exact errCode_of_staged_failed h hrun hraw ht

end Sys2Proof.Machine
end

section
/-! PROOFS. NOP, and RUN and RUN_RAW as their sub-commands one after the other (47_control.md R330 to R335). -/

namespace Sys2Proof.Machine

/-- Settles O21: NOP's rule is the identity. -/
theorem nopOnlyCompletes : Obligations.NopOnlyCompletes := fun _ => rfl

/-! ### Completion between sub-commands -/

/-- The same end of a command, from a completed state (30_encoding.md R105). -/
def Perf.completed : Perf → Perf
  | .ok s => .ok s.complete
  | .failed s => .failed s.complete
  | .stopped f => .stopped f

theorem finish_completed (p : Perf) : p.completed.finish = p.finish := by cases p <;> rfl

section Complete

variable (s : State)

theorem readBuf_complete (i : Instr) (b : Buf) (n : Nat) : readBuf i b n s.complete = readBuf i b n s := rfl

theorem loadBits_complete (i : Instr) (n : Nat) : loadBits i n s.complete = loadBits i n s := rfl

theorem loadGrid_complete (i : Instr) (n : Nat) : loadGrid i n s.complete = loadGrid i n s := rfl

theorem drawSymbol_complete (i : Instr) (f : Nat) (m : Fin 8) :
    drawSymbol i f m s.complete = drawSymbol i f m s := rfl

theorem performEncode_complete : performEncode s.complete = (performEncode s).completed := by
  unfold performEncode
  dsimp only
  rw [readBuf_complete, State.complete_mode, State.complete_inLen]
  split_ifs
  · rfl
  · rfl
  cases readBuf .encode .ibuf s.inLen.toNat s with
  | error f => rfl
  | ok t => dsimp only; cases encodeText s.mode.toNat t <;> rfl

theorem performSelect_complete (T : Tables) : performSelect T s.complete = (performSelect T s).completed := by
  unfold performSelect
  dsimp only
  rw [State.complete_mode, State.complete_ecl, State.complete_rawLen, State.complete_charCount, loadBits_complete]
  split_ifs
  · rfl
  · rfl
  · rfl
  cases searchVersion T s.mode.toNat s.ecl.toNat s.rawLen.toNat s.charCount.toNat with
  | error e => rfl
  | ok p => dsimp only; cases loadBits .select s.rawLen.toNat s <;> rfl

theorem performPad_complete : performPad s.complete = (performPad s).completed := by
  unfold performPad
  dsimp only
  rw [State.complete_streamLen, State.complete_capBits, loadBits_complete]
  cases loadBits .pad s.streamLen.toNat s <;> rfl

theorem performEcgen_complete (T : Tables) : performEcgen T s.complete = (performEcgen T s).completed := by
  unfold performEcgen
  dsimp only
  rw [State.complete_version, State.complete_selLevel, State.complete_capBits]
  rcases T.nb s.version.toNat s.selLevel.toNat with - | - | N
  · rfl
  · rfl
  simp only
  cases T.ecb s.version.toNat s.selLevel.toNat with
  | none => rfl
  | some k =>
    dsimp only
    cases genOf T k with
    | none => rfl
    | some gen =>
      dsimp only
      rw [readBuf_complete]
      cases readBuf .ecgen .bbuf (s.capBits.toNat / 8) s with
      | error f => rfl
      | ok data =>
        dsimp only
        generalize divideBlocks T gen k _ = ec
        cases ec <;> rfl

theorem performInterleave_complete : performInterleave s.complete = (performInterleave s).completed := by
  unfold performInterleave
  dsimp only
  rw [State.complete_numBlocks, State.complete_ecLen, State.complete_blkShort, State.complete_blkNlong,
    readBuf_complete]
  generalize readBuf .interleave .bbuf _ s = data
  cases data with
  | error f => rfl
  | ok data =>
    dsimp only
    rw [readBuf_complete]
    cases readBuf .interleave .ebuf (s.numBlocks.toNat * s.ecLen.toNat) s with
    | error f => rfl
    | ok ec => dsimp only; split_ifs <;> rfl

theorem built_complete (V : Nat) (P : List Nat) (code : Option Nat) :
    s.complete.built V P code = (s.built V P code).complete := by
  unfold State.built
  generalize stampSymbol V P code (Grid.blank Config.sMax) = g
  rfl

theorem performBuild_complete (T : Tables) : performBuild T s.complete = (performBuild T s).completed := by
  unfold performBuild
  dsimp only
  rw [State.complete_version]
  cases T.apos s.version.toNat with
  | none => rfl
  | some P =>
    dsimp only
    split_ifs
    · rw [built_complete]; rfl
    cases T.vcode s.version.toNat with
    | none => rfl
    | some code => dsimp only; rw [built_complete]; rfl

theorem performTrial_complete (T : Tables) (m : Fin 8) :
    performTrial T m s.complete = (performTrial T m s).completed := by
  unfold performTrial
  dsimp only
  rw [State.complete_selLevel]
  cases T.fcode s.selLevel.toNat m.val with
  | none => rfl
  | some f => dsimp only; rw [drawSymbol_complete]; cases drawSymbol (.trial m) f m s <;> rfl

theorem performCommit_complete (T : Tables) : performCommit T s.complete = (performCommit T s).completed := by
  unfold performCommit
  dsimp only
  rw [State.complete_selLevel, State.complete_scores]
  cases T.fcode s.selLevel.toNat (selectMask s.scores).val with
  | none => rfl
  | some f => dsimp only; rw [drawSymbol_complete]; cases drawSymbol .commit f (selectMask s.scores) s <;> rfl

theorem performScore_complete : performScore s.complete = (performScore s).completed := by
  unfold performScore
  dsimp only
  rw [State.complete_scoreN]
  split_ifs
  · rfl
  rw [loadGrid_complete]
  cases loadGrid .score s.scoreN.toNat s <;> rfl

theorem performRsRaw_complete (T : Tables) : performRsRaw T s.complete = (performRsRaw T s).completed := by
  unfold performRsRaw
  dsimp only
  rw [State.complete_rsK, State.complete_rsLen]
  split_ifs
  · rfl
  · rfl
  cases genOf T s.rsK.toNat with
  | none => rfl
  | some gen =>
    dsimp only
    rw [readBuf_complete]
    cases readBuf .rsRaw .bbuf s.rsLen.toNat s with
    | error f => rfl
    | ok data => dsimp only; cases rsDiv T gen s.rsK.toNat data <;> rfl

/-- What a command does depends on none of the bits that completion writes (30_encoding.md R105, R110). -/
theorem familyRule_complete {i : Instr} (hrun : i ≠ .run) (hraw : i ≠ .runRaw) :
    familyRule i s.complete = (familyRule i s).completed := by
  cases i with
  | nop => rfl
  | encode => exact performEncode_complete s
  | select => exact performSelect_complete s _
  | pad => exact performPad_complete s
  | ecgen => exact performEcgen_complete s _
  | interleave => exact performInterleave_complete s
  | build => exact performBuild_complete s _
  | trial m => exact performTrial_complete s _ m
  | commit => exact performCommit_complete s _
  | score => exact performScore_complete s
  | rsRaw => exact performRsRaw_complete s _
  | run => exact absurd rfl hrun
  | runRaw => exact absurd rfl hraw

theorem stageOk_complete (i : Instr) : stageOk s.complete i = stageOk s i := by cases i <;> rfl

theorem staged_complete {i : Instr} (hrun : i ≠ .run) (hraw : i ≠ .runRaw) :
    staged i (familyRule i) s.complete = (staged i (familyRule i) s).completed := by
  rw [staged, staged, stageOk_complete, familyRule_complete s hrun hraw]
  split_ifs
  · rfl
  · rfl

/-- A command's completion before another leaves no trace in how the other ends. -/
theorem exec_complete {i : Instr} (hrun : i ≠ .run) (hraw : i ≠ .runRaw) : exec i s.complete = exec i s := by
  rw [exec_eq_finish, exec_eq_finish, staged_complete s hrun hraw, finish_completed]

end Complete

/-- A failing command leaves ERR = 1 (60_exceptions.md R356). -/
theorem err_of_staged_failed {i : Instr} {s t : State} (h : staged i (familyRule i) s = .failed t) : t.err = true := by
  have htables := staged_familyRule_followsTables i s
  rw [h] at htables
  exact htables.1

/-- Commands one after the other from a completed state are their family rules one after the other, completed once
(R332, R335). -/
theorem performCommands_complete {l : List Instr} (hl : ∀ i ∈ l, i ≠ .run ∧ i ≠ .runRaw) {s : State}
    (hs : s.err = false) :
    performCommands l s.complete = (performAll (l.map fun i => staged i (familyRule i)) s).finish := by
  induction l generalizing s with
  | nil => rfl
  | cons i l ih =>
    obtain ⟨⟨hrun, hraw⟩, hl⟩ := List.forall_mem_cons.1 hl
    rw [performCommands, exec_complete s hrun hraw, exec_eq_finish, List.map_cons]
    cases hres : staged i (familyRule i) s with
    | ok t =>
      have herr : t.err = false := (congrArg Prod.fst (errors_of_ok hres)).trans hs
      rw [performAll_cons_ok hres, ← ih hl herr]
      simp [Perf.finish, herr]
    | failed t =>
      rw [performAll_cons_failed hres]
      simp [Perf.finish, err_of_staged_failed hres]
    | stopped f => rw [performAll_cons_stopped hres]; rfl

/-- The first command of a sequence may as well start before a completion as after it. -/
theorem performCommands_cons_complete {i : Instr} (hrun : i ≠ .run) (hraw : i ≠ .runRaw) (l : List Instr)
    (s : State) : performCommands (i :: l) s.complete = performCommands (i :: l) s := by
  rw [performCommands, performCommands, exec_complete s hrun hraw]

/-- Settles O52: each sub-command may be completed before the next starts, and one completion at the end is the same. -/
theorem runIsItsSubCommands : Obligations.RunIsItsSubCommands := by
  intro s hs
  have hrun := performCommands_complete (l := .encode :: rawPipeline) (by decide) hs
  have hraw := performCommands_complete (l := rawPipeline) (by decide) hs
  rw [performCommands_cons_complete (by decide) (by decide)] at hrun
  rw [show rawPipeline = .select :: rawPipeline.tail from rfl,
    performCommands_cons_complete (by decide) (by decide)] at hraw
  exact ⟨hrun.symm, hraw.symm⟩

end Sys2Proof.Machine
end

section
/-! PROOFS. How far RUN and RUN_RAW come: every sub-command finds the stage it needs, and on operands that fit none
fails (47_control.md R332, R333, R335). -/

namespace Sys2Proof.Machine

/-! ### The stage along a sequence -/

/-- PSTAGE and TRIAL_DONE, which decide what may start (30_encoding.md R103, R105). -/
def State.progress (s : State) : PStage × BitVec 8 := (s.pstage, s.trialDone)

/-- A command may start at this stage and with these trials done. -/
def readyAt (p : PStage × BitVec 8) (i : Instr) : Bool :=
  stageOk { State.reset with pstage := p.1, trialDone := p.2 } i

/-- Stage and trials after a command that succeeds (30_encoding.md R103, 10_state.md R25). -/
def progressAfter (p : PStage × BitVec 8) : Instr → PStage × BitVec 8
  | .build => (.patternsPlaced, 0x00#8)
  | .trial m => (.trialing, markTrial p.2 m)
  | i => ((stageAfter i).getD p.1, p.2)

/-- Each command of the list may start where the ones before it succeed. -/
def runsThrough : List Instr → PStage × BitVec 8 → Bool
  | [], _ => true
  | i :: l, p => readyAt p i && runsThrough l (progressAfter p i)

theorem mayStart_iff_readyAt (i : Instr) (s : State) : mayStart i s ↔ readyAt s.progress i = true := by
  rw [← stageOk_iff]
  cases i <;> rfl

theorem progress_of_staged_ok {i : Instr} (hrun : i ≠ .run) (hraw : i ≠ .runRaw) {s t : State}
    (h : staged i (familyRule i) s = .ok t) : t.progress = progressAfter s.progress i := by
  have htables := staged_familyRule_followsTables i s
  rw [h] at htables
  obtain ⟨hstage, hcolumn⟩ := htables
  obtain ⟨-, hstaged⟩ | hstaged := staged_cases i (familyRule i) s <;> rw [hstaged] at h
  · cases i with
    | build =>
      have hbuild : performBuild standardTables s = .ok t := h
      obtain ⟨e, x, hperf⟩ | ⟨P, code, hperf⟩ := performBuild_cases standardTables s <;> rw [hperf] at hbuild
      · cases hbuild
      · obtain ⟨g, n, -, hbuilt⟩ := s.built_eq_storeGrid s.version.toNat P code
        rw [hbuilt, Perf.ok.injEq] at hbuild
        rw [← hbuild]
        rfl
    | trial m =>
      obtain ⟨e, x, hperf⟩ | ⟨f, ⟨x, -, hperf⟩ | ⟨g, n, -, hperf⟩⟩ :=
        performTrial_cases standardTables m s <;> cases hperf.symm.trans h
      rfl
    | run => exact absurd rfl hrun
    | runRaw => exact absurd rfl hraw
    | _ => exact Prod.ext hstage (hcolumn.trials_eq (by simp) (by simp) (by simp) (by simp))
  · cases h

/-- The eight trials, and COMMIT behind them, find the stage and the trials they need (45_placement_mask.md R286). -/
theorem runsThrough_trials :
    runsThrough ((List.finRange 8).map .trial ++ [.commit]) (.patternsPlaced, 0x00#8) = true := by decide

/-- RUN_RAW comes to its end if no sub-command fails (R333). -/
theorem runsThrough_rawPipeline (p : PStage × BitVec 8) : runsThrough rawPipeline p = true := by
  simpa [rawPipeline, runsThrough, readyAt, stageOk, progressAfter, stageAfter] using runsThrough_trials

/-- ENCODE starts anywhere, and so does RUN_RAW behind it (R332). -/
theorem runsThrough_run (p : PStage × BitVec 8) : runsThrough (.encode :: rawPipeline) p = true := by
  rw [runsThrough, runsThrough_rawPipeline, show readyAt p .encode = true from rfl]
  rfl

/-- COMMIT leaves all eight trials done, for it does not start before. -/
theorem progress_rawPipeline (p : PStage × BitVec 8) :
    rawPipeline.foldl progressAfter p = (.committed, 0xFF#8) := by
  have htrials : ((List.finRange 8).map Instr.trial ++ [Instr.commit]).foldl progressAfter (.patternsPlaced, 0x00#8)
      = (.committed, 0xFF#8) := by decide
  simpa [rawPipeline, progressAfter, stageAfter] using htrials

/-! ### How RUN and RUN_RAW end -/

/-- Sub-commands to come, each of which may start where the ones before it succeed; SCORE is none of them. -/
def readyBefore (l : List Instr) (s : State) : Prop :=
  runsThrough l s.progress = true ∧ ∀ i ∈ l, i ≠ .run ∧ i ≠ .runRaw ∧ i ≠ .score

theorem readyBefore_of_ok (i : Instr) (l : List Instr) (s t : State) (h : readyBefore (i :: l) s)
    (ht : staged i (familyRule i) s = .ok t) : readyBefore l t := by
  obtain ⟨hready, hl⟩ := h
  obtain ⟨⟨hrun, hraw, -⟩, hl⟩ := List.forall_mem_cons.1 hl
  rw [runsThrough, Bool.and_eq_true] at hready
  exact ⟨progress_of_staged_ok hrun hraw ht ▸ hready.2, hl⟩

/-- A sequence in which every sub-command finds its stage fails, if it does, with an error of one of them. -/
theorem fail_of_performAll_failed {l : List Instr} {s t : State} (h : readyBefore l s)
    (hfail : performAll (l.map fun i => staged i (familyRule i)) s = .failed t) :
    ∃ (u : State) (i : Instr) (e : ErrCode) (x : Word), i ≠ .score ∧ e ∈ ownErrors i ∧ t = u.fail i e x := by
  obtain ⟨i, l', u, ⟨hready, hl⟩, hi⟩ := performAll_failed_at readyBefore_of_ok h hfail
  obtain ⟨hrun, hraw, hscore⟩ := hl i List.mem_cons_self
  rw [runsThrough, Bool.and_eq_true] at hready
  have hstart := (mayStart_iff_readyAt i u).2 hready.1
  rw [staged, if_pos ((stageOk_iff u i).2 hstart)] at hi
  obtain ⟨e, he, x, ht⟩ := fail_of_familyRule_failed hrun hraw hi
  exact ⟨u, i, e, x, hscore, he, ht⟩

/-- RUN and RUN_RAW are sequences in which every sub-command finds its stage. -/
theorem exists_readyBefore {i : Instr} (hi : i = .run ∨ i = .runRaw) (s : State) : ∃ l : List Instr,
    readyBefore l s ∧ staged i (familyRule i) s = performAll (l.map fun j => staged j (familyRule j)) s := by
  obtain rfl | rfl := hi
  · exact ⟨.encode :: rawPipeline, ⟨runsThrough_run _, by decide⟩, rfl⟩
  · exact ⟨rawPipeline, ⟨runsThrough_rawPipeline _, by decide⟩, rfl⟩

/-- Settles O53: on success COMMIT is the last command; on failure a sub-command has failed in its stage. -/
theorem runEndsCommittedOrFailed : Obligations.RunEndsCommittedOrFailed := by
  intro s u i hi hs he
  have htables := staged_familyRule_followsTables i s
  rw [exec_eq_finish, finish_eq_next_iff] at he
  obtain ⟨t, ht | ht, rfl⟩ := he
  · have herrors := errors_of_ok ht
    simp only [State.errors, Prod.mk.injEq] at herrors
    obtain ⟨herr, hcode, -⟩ := herrors
    rw [ht] at htables
    refine .inl ⟨?_, herr.trans hs, hcode⟩
    obtain rfl | rfl := hi <;> exact htables.1
  · obtain ⟨l, hready, hstaged⟩ := exists_readyBefore hi s
    obtain ⟨v, j, e, x, hscore, hown, rfl⟩ := fail_of_performAll_failed hready (hstaged ▸ ht)
    obtain ⟨hnone, hill, hseq⟩ := ownErrors_ne hown
    exact .inr ⟨pstage_fail_own hown hscore v x, rfl, hseq, hill, hnone⟩

/-! ### On operands that fit -/

/-- Commands behind a stage check, each in its stage, all succeed from a state that meets the invariant. -/
theorem performAll_ok_of_inv {l : List Instr} (hl : ∀ i ∈ l, stagesBefore i ≠ none) {s : State} (h : s.Inv)
    (hready : runsThrough l s.progress = true) :
    ∃ t, performAll (l.map fun i => staged i (familyRule i)) s = .ok t ∧ t.Inv
      ∧ t.progress = l.foldl progressAfter s.progress := by
  induction l generalizing s with
  | nil => exact ⟨s, rfl, h, rfl⟩
  | cons i l ih =>
    obtain ⟨hi, hl⟩ := List.forall_mem_cons.1 hl
    rw [runsThrough, Bool.and_eq_true] at hready
    obtain ⟨hstart, hready⟩ := hready
    obtain ⟨t, ht, hinv⟩ := staged_ok_of_mayStart h hi ((mayStart_iff_readyAt i s).2 hstart)
    have hprogress : t.progress = progressAfter s.progress i :=
      progress_of_staged_ok (by rintro rfl; exact hi rfl) (by rintro rfl; exact hi rfl) ht
    rw [← hprogress] at hready
    rw [List.map_cons, performAll_cons_ok ht, List.foldl_cons, ← hprogress]
    exact ih hl hinv hready

/-- A register outside the columns of sub-commands that succeed reads as before. -/
theorem read_of_performAll_ok {r : Reg} (hstatus : r ≠ .status) (hcode : r ≠ .errCode) (hinfo : r ≠ .errInfo)
    {l : List Instr} (hl : ∀ i ∈ l, r ∉ writesRegister i) {s t : State}
    (h : performAll (l.map fun i => staged i (familyRule i)) s = .ok t) : Reg.read t r = Reg.read s r := by
  refine performAll_ok (P := fun u => Reg.read u r = Reg.read s r) (fun p hp a b ha hb => ?_) rfl h
  obtain ⟨i, hi, rfl⟩ := List.mem_map.1 hp
  have hcolumn := (staged_familyRule_followsTables i a).staysInColumn (.inl hb)
  exact (hcolumn.read_eq r (hl i hi) hstatus hcode hinfo).trans ha

theorem toNat_read_version (s : State) : (Reg.read s .version).toNat = s.version.toNat :=
  BitVec.toNat_setWidth_of_le (by decide)

theorem toNat_read_selLevel (s : State) : (Reg.read s .selLevel).toNat = s.selLevel.toNat :=
  BitVec.toNat_setWidth_of_le (by decide)

theorem toNat_read_rawLen (s : State) : (Reg.read s .rawLen).toNat = s.rawLen.toNat :=
  BitVec.toNat_setWidth_of_le (by decide)

/-- SELECT on a raw bit string that fits chooses the least version, and what it leaves meets the invariant, whatever the
stage before it (41_capacity_padding.md R170). -/
theorem performSelect_of_leastFit {s : State} {v : Nat} {raw : Bits} (hm : Memory.wf s.mem)
    (hmode : s.mode.toNat ≤ 2) (hl : s.ecl.toNat ≤ 3) (hraw : s.holdsBits raw) (hlen : raw.length = s.rawLen.toNat)
    (hleast : leastFit s.mode.toNat s.ecl.toNat s.rawLen.toNat v)
    (hcount : countFits s.mode.toNat s.ecl.toNat s.rawLen.toNat s.charCount.toNat v) :
    ∃ t, performSelect standardTables s = .ok t ∧ t.Inv ∧ t.version.toNat = v
      ∧ t.selLevel.toNat = s.ecl.toNat := by
  obtain ⟨c, hc, hfit, hsearch⟩ := searchVersion_of_leastFit hleast hcount
  obtain ⟨-, -, -, -, -, hmax⟩ := stdCap_some hc
  have hload : loadBits .select s.rawLen.toNat s = .ok raw := (loadBits_ok_iff hm.1 ..).2 ⟨hlen, hraw⟩
  have hstream : (header s.mode.toNat v s.charCount.toNat ++ raw).length ≤ c := by
    rw [List.length_append, header_length, hlen]
    exact hfit
  obtain ⟨hversion, hlevel, -⟩ := toNat_regs_selected hc hstream
  have hn : ¬ 65536 < s.rawLen.toNat := by omega
  refine ⟨s.selected s.mode.toNat s.ecl.toNat v c raw, ?_,
    .at_selected (wf_storeBits hm (by omega)) rfl (selectedOk_selected hm.1 hc hstream), hversion, hlevel⟩
  rw [performSelect, if_neg (Nat.not_lt.2 hmode), if_neg (Nat.not_lt.2 hl), if_neg hn, hsearch]
  simp only [hload]

/-- The commands of RUN_RAW on a raw bit string that fits. -/
theorem performAll_rawPipeline_of_leastFit {s : State} {v : Nat} {raw : Bits} (hm : Memory.wf s.mem)
    (hmode : s.mode.toNat ≤ 2) (hl : s.ecl.toNat ≤ 3) (hraw : s.holdsBits raw) (hlen : raw.length = s.rawLen.toNat)
    (hleast : leastFit s.mode.toNat s.ecl.toNat s.rawLen.toNat v)
    (hcount : countFits s.mode.toNat s.ecl.toNat s.rawLen.toNat s.charCount.toNat v) :
    ∃ t, performAll (rawPipeline.map fun i => staged i (familyRule i)) s = .ok t ∧ t.Inv
      ∧ t.progress = (.committed, 0xFF#8) ∧ t.version.toNat = v ∧ t.selLevel.toNat = s.ecl.toNat := by
  obtain ⟨a, hselect, hinv, hversion, hlevel⟩ := performSelect_of_leastFit hm hmode hl hraw hlen hleast hcount
  have ha : staged .select (familyRule .select) s = .ok a := hselect
  have hready := runsThrough_rawPipeline s.progress
  have hend := progress_rawPipeline s.progress
  rw [show rawPipeline = .select :: rawPipeline.tail from rfl] at hready hend ⊢
  rw [runsThrough, Bool.and_eq_true, ← progress_of_staged_ok (by decide) (by decide) ha] at hready
  rw [List.foldl_cons, ← progress_of_staged_ok (by decide) (by decide) ha] at hend
  obtain ⟨t, ht, hinv, hprogress⟩ := performAll_ok_of_inv (l := rawPipeline.tail) (by decide) hinv hready.2
  have hv := read_of_performAll_ok (r := .version) (by decide) (by decide) (by decide) (by decide) ht
  have hsel := read_of_performAll_ok (r := .selLevel) (by decide) (by decide) (by decide) (by decide) ht
  refine ⟨t, by rw [List.map_cons, performAll_cons_ok ha]; exact ht, hinv, hprogress.trans hend, ?_, ?_⟩
  · rw [← toNat_read_version, hv, toNat_read_version, hversion]
  · rw [← toNat_read_selLevel, hsel, toNat_read_selLevel, hlevel]

/-- Settles O54: SELECT leaves a state that meets the invariant, from which no other sub-command fails. -/
theorem runRawCommitsASymbol : Obligations.RunRawCommitsASymbol := by
  intro s v raw hm hmode hl hraw hlen hleast hcount
  obtain ⟨t, ht, hinv, hprogress, hversion, hlevel⟩ :=
    performAll_rawPipeline_of_leastFit hm hmode hl hraw hlen hleast hcount
  have hok : staged .runRaw (familyRule .runRaw) s = .ok t := ht
  have he : exec .runRaw s = .next t.complete := by rw [exec_eq_finish, hok]; rfl
  obtain ⟨-, hkeeps, -⟩ := commandsWriteOnlyTheirColumn s t.complete .runRaw hm he
  exact ⟨t.complete, he, congrArg Prod.fst hprogress, congrArg Prod.fst (errors_of_ok hok), hversion, hlevel,
    congrArg Prod.snd hprogress, hinv.complete, hkeeps⟩

/-- What StoreBits leaves, BBUF holds as a bit string (20_memory.md R80). -/
theorem holdsBits_of_storedBits {s : State} {x : Bits} (hx : x.length ≤ 65536) (h : s.storedBits x) :
    s.holdsBits x := by
  refine ⟨hx, fun i hi => ?_⟩
  rw [h i (by omega), List.getD_eq_getElem?_getD, List.getElem?_eq_getElem hi, Option.getD_some]

/-- What ENCODE leaves before it completes (40_mode_encoder.md R148). -/
def State.encoded (s : State) (x : Bits) : State :=
  { s.storeBits x with rawLen := BitVec.ofNat 17 x.length, pstage := .encoded }

theorem performEncode_of_text {s : State} {text : List Byte} {x : Bits} (hmode : s.mode.toNat ≤ 2)
    (hread : readBuf .encode .ibuf s.inLen.toNat s = .ok text) (hx : encodeText s.mode.toNat text = .ok x) :
    performEncode s = .ok (s.encoded x) := by
  have hn : ¬ Config.ibufSize < s.inLen.toNat := Nat.not_lt.2 (le_size_of_readBuf_ok hread)
  simp only [performEncode, if_neg (Nat.not_lt.2 hmode), if_neg hn, hread, hx]
  rfl

/-- Settles O55: ENCODE leaves the raw bit string that the commands of RUN_RAW go on from. -/
theorem runCommitsASymbol : Obligations.RunCommitsASymbol := by
  intro s v text hm hmode hl htext hlen halphabet hleast hcount
  obtain ⟨x, hx⟩ := exists_encodeText hmode halphabet
  have hread := (readBuf_ok_iff hm.1 .encode .ibuf _ text).2 ⟨hlen, htext⟩
  have hsize := encodeText_length_le_bbuf htext hx
  have hencode : staged .encode (familyRule .encode) s = .ok (s.encoded x) := performEncode_of_text hmode hread hx
  have hrawLen : (s.encoded x).rawLen.toNat = x.length := rawLen_encodedWith (s := s) hsize
  have hbits : (s.encoded x).holdsBits x := holdsBits_of_storedBits hsize (storedBits_storeBits hm.1 x)
  rw [← encodeText_length hmode hx, ← hrawLen] at hleast hcount ⊢
  obtain ⟨t, ht, hinv, hprogress, hversion, hlevel⟩ := performAll_rawPipeline_of_leastFit (s := s.encoded x)
    (wf_storeBits hm hsize) hmode hl hbits hrawLen.symm hleast hcount
  have hok : staged .run (familyRule .run) s = .ok t := (performAll_cons_ok hencode).trans ht
  have he : exec .run s = .next t.complete := by rw [exec_eq_finish, hok]; rfl
  have hraw := read_of_performAll_ok (r := .rawLen) (by decide) (by decide) (by decide) (by decide) ht
  obtain ⟨-, hkeeps, -⟩ := commandsWriteOnlyTheirColumn s t.complete .run hm he
  refine ⟨t.complete, he, congrArg Prod.fst hprogress, congrArg Prod.fst (errors_of_ok hok), ?_, hversion, hlevel,
    congrArg Prod.snd hprogress, hinv.complete, hkeeps⟩
  rw [State.complete_rawLen, ← toNat_read_rawLen, hraw, toNat_read_rawLen]

end Sys2Proof.Machine
end

section
/-! PROOFS. What a soft reset leaves in the memories, and that every accepted command is performed
(70_reset_and_hazards.md R382, R395, R397). -/

namespace Sys2Proof.Machine

/-! ### Abandoned commands -/

/-- From `s` to `t` the addresses of `P` may have changed and are written, and every other reads as before
(70_reset_and_hazards.md R382). -/
structure State.scrambles (P : Nat → Prop) (s t : State) : Prop where
  rising : Memory.rising t.mem
  keeps : keepsOutside P s t
  written : ∀ a, P a → (t.at a).isSome = true

theorem State.scrambles.trans {P Q : Nat → Prop} {s t u : State} (h : s.scrambles P t) (h' : t.scrambles Q u) :
    s.scrambles (fun a => P a ∨ Q a) u where
  rising := h'.rising
  keeps a ha := by
    obtain ⟨hP, hQ⟩ := not_or.1 ha
    exact (h'.keeps a hQ).trans (h.keeps a hP)
  written a ha := by
    by_cases hQ : Q a
    · exact h'.written a hQ
    · rw [h'.keeps a hQ]
      exact h.written a (ha.resolve_right hQ)

theorem scrambles_refl {s : State} (hm : Memory.rising s.mem) : s.scrambles (fun _ => False) s :=
  ⟨hm, fun _ _ => rfl, fun _ h => h.elim⟩

/-- The bytes that an abandoned command may leave in a buffer (log 11). -/
def State.freeBytes (s : State) (b : Buf) : List Byte :=
  (List.range b.size).map fun i => Config.freeByte (s.draws + i)

theorem scrambles_scrambleBuf {s : State} (hm : Memory.rising s.mem) (b : Buf) :
    s.scrambles (b.within b.size) (s.scrambleBuf b) := by
  have hlen : (s.freeBytes b).length = b.size := by simp [State.freeBytes]
  have hkeeps := keepsOutside_writeBuf hm b (s.freeBytes b)
  have hwritten := (written_writeBuf (b := b) hm hlen.le).2
  rw [hlen] at hkeeps hwritten
  refine ⟨rising_writeBuf b (s.freeBytes b) hm, hkeeps, fun a ⟨hlo, hhi⟩ => ?_⟩
  have hbyte := hwritten (a - b.base) (by omega)
  rwa [State.byte, Nat.add_sub_cancel' hlo] at hbyte

/-- The cells that an abandoned command may leave in MAT (log 11). -/
def State.freeGrid (s : State) (keepSt : Bool) : Grid :=
  (List.range Config.sMax).map fun r => (List.range Config.sMax).map fun c => s.scrambledCell keepSt r c

theorem holdsGrid_scrambleMat {s : State} (hm : Memory.rising s.mem) (keepSt : Bool) :
    (s.scrambleMat keepSt).holdsGrid Config.sMax (s.freeGrid keepSt) :=
  (holdsGrid_storeGrid le_rfl hm (square_scrambled s keepSt Config.sMax)).of_mem_eq rfl

theorem scrambles_scrambleMat {s : State} (hm : Memory.rising s.mem) (keepSt : Bool) :
    s.scrambles (inSquare Config.sMax) (s.scrambleMat keepSt) := by
  have hsquare := square_scrambled s keepSt Config.sMax
  refine ⟨Memory.rising_write (wf_gridCells le_rfl hsquare).1 hm, keepsOutside_storeGrid le_rfl hm hsquare, ?_⟩
  rintro _ ⟨r, c, hr, hc, rfl⟩
  rw [← isSome_matCell]
  exact (holdsGrid_scrambleMat hm keepSt).cellsWritten.2 r c hr hc

theorem cell_freeGrid (s : State) (keepSt : Bool) {r c : Nat} (hr : r < Config.sMax) (hc : c < Config.sMax) :
    (s.freeGrid keepSt).cell r c = s.scrambledCell keepSt r c := by
  simp [Grid.cell, State.freeGrid, List.getD_eq_getElem?_getD, hr, hc]

/-- An abandoned TRIAL or COMMIT keeps the structural flag of a written cell (log 11). -/
theorem matCell_scrambleMat_true {s : State} (hm : Memory.rising s.mem) {r c : Nat} {x : MatCell}
    (hr : r < Config.sMax) (hc : c < Config.sMax) (hx : s.matCell r c = some x) :
    ∃ y, (s.scrambleMat true).matCell r c = some y ∧ y.st = x.st := by
  obtain ⟨-, -, -, hcell⟩ := holdsGrid_scrambleMat hm true
  refine ⟨s.scrambledCell true r c, cell_freeGrid s true hr hc ▸ hcell r c hr hc, ?_⟩
  obtain ⟨b, hb, rfl⟩ := Option.map_eq_some_iff.1 hx
  simp [State.scrambledCell, show Memory.lookup s.mem (cellAddr r c) = some b from hb]

/-- An abandoned command may have changed what stands in its memory column, and all of it is written
(30_encoding.md R110, 70_reset_and_hazards.md R382). -/
theorem scrambles_abandon {s : State} (hm : Memory.rising s.mem) (i : Instr) :
    s.scrambles (mayWriteAt i) (s.abandon i) := by
  cases i with
  | nop | score => exact scrambles_refl hm
  | encode | select | pad => exact scrambles_scrambleBuf hm .bbuf
  | ecgen | rsRaw => exact scrambles_scrambleBuf hm .ebuf
  | interleave => exact scrambles_scrambleBuf hm .fbuf
  | build => exact scrambles_scrambleMat hm false
  | trial | commit => exact scrambles_scrambleMat hm true
  | run | runRaw =>
    have hbbuf := scrambles_scrambleBuf hm .bbuf
    have hebuf := scrambles_scrambleBuf hbbuf.rising .ebuf
    have hfbuf := scrambles_scrambleBuf hebuf.rising .fbuf
    exact hbbuf.trans (hebuf.trans (hfbuf.trans (scrambles_scrambleMat hfbuf.rising false)))

/-! ### Soft reset -/

theorem hostWrite_srst (s : State) {v : Word} (hv : v.getLsbD 1 = true) :
    s.hostWrite 0x00004#17 .word v = s.softReset.respond true 0#32 := by
  rw [hostWrite_ctrl, State.writeCtrl, if_pos hv]

theorem respond_softReset_atResetValues (s : State) (ok : Bool) (x : Word) :
    (s.softReset.respond ok x).atResetValues := by
  obtain ⟨t, ht⟩ := softReset_eq_resetRegisters s
  rw [ht]
  exact resetRegisters_atResetValues (t.respond ok x)

theorem mem_softReset_of_idle {s : State} (hp : s.pending = none) : s.softReset.mem = s.mem := by
  simp [State.softReset, hp, State.resetRegisters]

theorem mem_softReset_of_encode {s : State} {i : Instr} (hp : s.pending = some (encode i)) :
    s.softReset.mem = (s.abandon i).mem := by
  simp [State.softReset, hp, decode_encode, State.resetRegisters]

theorem mem_softReset_of_illegal {s : State} {w : Word} (hp : s.pending = some w) (hw : ∀ i, w ≠ encode i) :
    s.softReset.mem = s.mem := by
  cases hd : decode w with
  | ok i => exact absurd ((decode_eq_ok_iff w i).1 hd) (hw i)
  | error e => simp [State.softReset, hp, hd, State.resetRegisters]

/-- Settles O4: the registers are reset, and the memories are those after the command was abandoned. -/
theorem softResetKeepsTheOtherMemories : Obligations.SoftResetKeepsTheOtherMemories := by
  intro s v hm hv t
  have ht : t = s.softReset.respond true 0#32 := hostWrite_srst s hv
  rw [ht]
  refine ⟨respond_softReset_atResetValues s _ _, rfl, mem_softReset_of_idle,
    fun w hp hw => mem_softReset_of_illegal hp hw, fun i hp => ?_⟩
  have hat : ∀ a, (s.softReset.respond true 0#32).at a = (s.abandon i).at a := fun a =>
    congrArg (Memory.lookup · a) (mem_softReset_of_encode hp)
  obtain ⟨-, hkeeps, hwritten⟩ := scrambles_abandon hm.1 i
  refine ⟨fun a ha => (hat a).trans (hkeeps a ha), fun a ha => hat a ▸ hwritten a ha, ?_⟩
  intro hi r c x hr hc hx
  have hcell : (s.softReset.respond true 0#32).matCell r c = (s.scrambleMat true).matCell r c := by
    rw [State.matCell, hat]
    obtain rfl | ⟨m, rfl⟩ := hi <;> rfl
  rw [hcell]
  exact matCell_scrambleMat_true hm.1 hr hc hx

/-! ### Accepted commands -/

/-- From `s` to `t` the host has changed IRQ_EN, the W1C bits, `resp`, `draws` and its queue, from which it has taken
actions, and nothing else (70_reset_and_hazards.md R397, log 3, log 6). -/
structure State.hostActed (s t : State) : Prop where
  eq : t = { s with
    irqEn := t.irqEn, done := t.done, err := t.err, cmdDropped := t.cmdDropped, host := t.host, resp := t.resp
    draws := t.draws }
  queue : t.host ⊆ s.host

theorem State.hostActed.pending_eq {s t : State} (h : s.hostActed t) : t.pending = s.pending := by rw [h.eq]

theorem State.hostActed.hold_eq {s t : State} (h : s.hostActed t) : t.hold = s.hold := by rw [h.eq]

theorem State.hostActed.trans {s t u : State} (h : s.hostActed t) (h' : t.hostActed u) : s.hostActed u where
  eq := by rw [h'.eq, h.eq]
  queue x hx := h.queue (h'.queue hx)

theorem State.hostActed.with_hold {s t : State} (h : s.hostActed t) (n : Nat) :
    ({ s with hold := n } : State).hostActed { t with hold := n } where
  eq := by rw [h.eq]
  queue := h.queue

/-- While BUSY = 1 a host write, unless it resets the machine, acts on the W1C bits and IRQ_EN at most
(70_reset_and_hazards.md R390). -/
theorem hostActed_hostWrite {s : State} {w : Word} (hp : s.pending = some w) {a : BusAddr} {n : AccSize} {v : Word}
    (hres : (HostAction.write a n v).resets = false) : s.hostActed (s.hostWrite a n v) := by
  by_cases hctrl : a = 0x00004#17
  · subst hctrl
    by_cases hn : n = .word
    · subst hn
      have hsrst : v.getLsbD 1 = false := by simpa [HostAction.resets] using hres
      rw [hostWrite_ctrl, State.writeCtrl, hsrst]
      exact ⟨rfl, fun _ h => h⟩
    · rw [(register_access_misaligned s (by decide) (.inl hn) v).1]
      exact ⟨rfl, fun _ h => h⟩
  by_cases hstatus : a = 0x00008#17
  · subst hstatus
    by_cases hn : n = .word
    · subst hn
      rw [hostWrite_status]
      exact ⟨rfl, fun _ h => h⟩
    · rw [(register_access_misaligned s (by decide) (.inl hn) v).1]
      exact ⟨rfl, fun _ h => h⟩
  · rw [accessesWhileBusyHaveNoEffect.1 s w a n v hp hctrl hstatus]
    exact ⟨rfl, fun _ h => h⟩

/-- While BUSY = 1 a turn of the host, unless it resets the machine. -/
theorem hostActed_hostTurn {s : State} {w : Word} (hp : s.pending = some w)
    (hres : ∀ x ∈ s.host, x.resets = false) : s.hostActed s.hostTurn := by
  cases hq : s.host with
  | nil => rw [hostTurn_of_nil hq]; exact ⟨rfl, fun _ h => h⟩
  | cons action q =>
    have hqueue : q ⊆ s.host := hq ▸ List.subset_cons_self action q
    have haction : action.resets = false := hres action (hq ▸ List.mem_cons_self)
    cases action with
    | read a n => rw [hostTurn_of_read hq]; exact ⟨rfl, hqueue⟩
    | write a n v =>
      rw [hostTurn_of_write hq]
      obtain ⟨heq, hsub⟩ := hostActed_hostWrite (s := { s with host := q }) hp haction
      exact ⟨heq, fun x hx => hqueue (hsub hx)⟩
    | wait => rw [hostTurn_of_wait_busy hq (by simp [hp])]; exact ⟨rfl, fun _ h => h⟩
    | hardReset => simp [HostAction.resets] at haction

theorem run_succ_of_step {M : Host.Core} {s t : M.State} (h : M.step s = .next t) (n : Nat) :
    M.run (n + 1) s = M.run n t := by
  rw [Host.Core.run, h]

theorem run_one (M : Host.Core) (s : M.State) : M.run 1 s = M.step s := by
  rw [Host.Core.run]
  cases M.step s <;> rfl

/-- A command accepted with `n` steps left before its completion is performed behind them, in a state that the host has
acted on only (log 4). -/
theorem performed_after_hold {n : Nat} {s : State} {w : Word} (hn : s.hold = n) (hp : s.pending = some w)
    (hres : ∀ x ∈ s.host, x.resets = false) :
    ∃ t, Host.Core.run Sys2Proof.core n s = .next t ∧ ({ s with hold := 0 } : State).hostActed t
      ∧ Host.Core.run Sys2Proof.core (n + 1) s = engineTurn w t := by
  induction n generalizing s with
  | zero =>
    refine ⟨s, rfl, ⟨by rw [← hn], fun _ h => h⟩, ?_⟩
    exact (run_one Sys2Proof.core s).trans (step_of_hold_zero hp hn)
  | succ n ih =>
    have hstep : Sys2Proof.core.step s = .next ({ s with hold := n } : State).hostTurn := step_of_hold_succ hp hn
    have hturn := hostActed_hostTurn (s := { s with hold := n }) hp hres
    obtain ⟨t, hrun, hacted, hend⟩ :=
      ih hturn.hold_eq (hturn.pending_eq.trans hp) fun x hx => hres x (hturn.queue hx)
    exact ⟨t, (run_succ_of_step hstep n).trans hrun, (hturn.with_hold 0).trans hacted,
      (run_succ_of_step hstep (n + 1)).trans hend⟩

/-- Settles O15: `hold` turns of the host, then the engine's. -/
theorem everyAcceptedCommandIsPerformed : Obligations.EveryAcceptedCommandIsPerformed := by
  intro s w hp hres
  obtain ⟨t, hrun, hacted, hend⟩ := performed_after_hold rfl hp hres
  exact ⟨t, hrun, hacted.eq, hend⟩

end Sys2Proof.Machine
end
